-- ==== Sys2Proof/Word.lean ====
section
/-! DEFINITION. The widths the spec gives: bytes (R60), 6-bit colours (R8), 16-byte records (R83). -/

namespace Sys2Proof

/-- A byte of any of the four storage spaces (R60). -/
abbrev Byte := BitVec 8

/-- A colour `c[5:0]`: red in bits 1:0, green in 3:2, blue in 5:4 (R8). -/
abbrev Colour := BitVec 6

/-- A primitive record `P[0..15]` (R83): byte `k` is bits `8k+7 .. 8k`. -/
abbrev Record := BitVec 128

end Sys2Proof
end

