-- ==== Sys2Proof/Syntax.lean ====
section
/-! DEFINITION. The instructions: the 28 primitives of R85 and the 16 host operations of R95, one
constructor per row of spec/opcode_table.json. -/

namespace Sys2Proof

/-- A point of two s16 values, sign-extended to `Int` (R84). -/
structure Point where
  x : Int
  y : Int
deriving DecidableEq, Repr

/-- A rectangle by two corners, both inclusive (R84). -/
structure Rect where
  x1 : Int
  y1 : Int
  x2 : Int
  y2 : Int
deriving DecidableEq, Repr

/-- The initial value of one sprite slot, as SetSprites takes it (R331). -/
structure SpriteInit where
  x : BitVec 16
  y : BitVec 16
  frames : List Nat
  curFrame : Nat
  visible : Bool
  isStatic : Bool
deriving DecidableEq, Repr

/-- The field a SpriteWrite writes, with its value (R332). -/
inductive SpriteUpdate where
  | x (v : BitVec 16)
  | y (v : BitVec 16)
  | curFrame (n : Nat)
  | visible (b : Bool)
  | isStatic (b : Bool)
  | allowDraw (b : Bool)
deriving DecidableEq, Repr

/-- Primitives (tags 0x00 to 0x1B, R85) and host operations (codes 0x80 to 0x8F, R95). -/
inductive Instr where
  /-- 0x00, R230 -/
  | setPenColor (c : Colour)
  /-- 0x01, R231 -/
  | setBrushColor (c : Colour)
  /-- 0x02, R252 -/
  | setPixel (p : Point)
  /-- 0x03, R253 -/
  | setPixelAt (p : Point) (c : Colour)
  /-- 0x04, R232 -/
  | moveTo (p : Point)
  /-- 0x05, R254 -/
  | lineTo (p : Point)
  /-- 0x06, R256 -/
  | fillRect (r : Rect)
  /-- 0x07, R257 -/
  | drawRect (r : Rect)
  /-- 0x08, R259 -/
  | fillEllipse (w h : Nat)
  /-- 0x09, R260 -/
  | drawEllipse (w h : Nat)
  /-- 0x0A, R261 -/
  | clear
  /-- 0x0B, R308 -/
  | vScroll (dy : Int)
  /-- 0x0C, R310 -/
  | hScroll (dx : Int)
  /-- 0x0D, R303 -/
  | drawGlyph (p : Point) (gw gh data : Nat)
  /-- 0x0E, R305 -/
  | renderGlyphsBuffer (col row gbuf : Nat)
  /-- 0x0F, R233 -/
  | setGlyphOptions (o : BitVec 7)
  /-- 0x10, R234 -/
  | setPaintOptions (swap inv : Bool)
  /-- 0x11, R262 -/
  | invertRect (r : Rect)
  /-- 0x12, R264 -/
  | copyRect (r : Rect) (d : Point)
  /-- 0x13, R235 -/
  | setScrollingRegion (r : Rect)
  /-- 0x14, R263 -/
  | swapFGBG (r : Rect)
  /-- 0x15, R265 -/
  | drawBitmap (p : Point) (bmp : Nat)
  /-- 0x16, R337 -/
  | refreshSprites
  /-- 0x17, R211 -/
  | swapBuffers
  /-- 0x18, R267 -/
  | drawPath (pts n : Nat)
  /-- 0x19, R268 -/
  | fillPath (pts n : Nat)
  /-- 0x1A, R236 -/
  | setOrigin (p : Point)
  /-- 0x1B, R237 -/
  | setClippingRect (r : Rect)
  /-- 0x80, R120 -/
  | decodeModeline (text : List Byte)
  /-- 0x81, R131 -/
  | setResolution (text : List Byte) (rw rh : Int) (dbl : Bool)
  /-- 0x82, R201 -/
  | addPrimitive (rec : Record)
  /-- 0x83, R202 -/
  | suspend
  /-- 0x84, R203 -/
  | resume
  /-- 0x85, R204 -/
  | processPrimitives
  /-- 0x86, R205 -/
  | enableBackgroundExecution (on : Bool)
  /-- 0x87, R140 -/
  | moveScreen (dx dy : Int)
  /-- 0x88, R141 -/
  | shrinkScreen (sx sy : Int)
  /-- 0x89, R180 -/
  | readPixel (x y : Int)
  /-- 0x8A, R331 -/
  | setSprites (slots : List SpriteInit)
  /-- 0x8B, R332 -/
  | spriteWrite (slot : Nat) (upd : SpriteUpdate)
  /-- 0x8C, R333 -/
  | spriteAddFrame (slot bmp : Nat)
  /-- 0x8D, R182 -/
  | hostAlloc (addr len : Nat)
  /-- 0x8E, R182 -/
  | hostFree (addr len : Nat)
  /-- 0x8F, R182 -/
  | hostWrite (addr : Nat) (bytes : List Byte)
deriving DecidableEq, Repr

end Sys2Proof
end

