-- ==== Sys2Proof/Decode.lean ====
section
/-! DEFINITION. Decoding and encoding of primitive records (R83 to R86) and of host operations (R95).
The spec gives host operations a code and no operand bytes: the operand bytes are the model's own
(DESIGN CHOICE, log entry 3): numbers are base-128 digits, least significant first, bit 7 set on all
but the last; an `Int` is such a number, `2n` for `n >= 0` and `-2n-1` for `n < 0`; a list is its
length and its items; a `Bool` is one byte, zero for false. -/

namespace Sys2Proof

/-- Why bytes spell no instruction. -/
inductive DecodeError where
  /-- a primitive tag in 0x1C..0xFF (R96) -/
  | reservedTag (tag : Byte)
  /-- a host operation code outside 0x80..0x8F (R96) -/
  | reservedCode (code : Byte)
  /-- operand bytes that are missing or outside the closed syntax of R95 (log entry 4) -/
  | malformedOperands (code : Byte)
  /-- no bytes at all -/
  | empty
deriving DecidableEq, Repr

/-! ### Fields of a record -/

/-- Byte `k` of a record (R83). -/
def recByte (P : Record) (k : Nat) : Byte := P.extractLsb' (8 * k) 8

/-- A `col` field (R84): bits 7:6 are ignored. -/
def colAt (P : Record) (k : Nat) : Colour := P.extractLsb' (8 * k) 6

/-- An `s16` field (R84). -/
def s16At (P : Record) (k : Nat) : Int := (P.extractLsb' (8 * k) 16).toInt

/-- A `u8` field (R84). -/
def u8At (P : Record) (k : Nat) : Nat := (P.extractLsb' (8 * k) 8).toNat

/-- A `u16` field (R84). -/
def u16At (P : Record) (k : Nat) : Nat := (P.extractLsb' (8 * k) 16).toNat

/-- A `u32` field (R84). -/
def u32At (P : Record) (k : Nat) : Nat := (P.extractLsb' (8 * k) 32).toNat

/-- A `point` field (R84). -/
def pointAt (P : Record) (k : Nat) : Point := ⟨s16At P k, s16At P (k + 2)⟩

/-- A `rect` field (R84). -/
def rectAt (P : Record) (k : Nat) : Rect :=
  ⟨s16At P k, s16At P (k + 2), s16At P (k + 4), s16At P (k + 6)⟩

/-- The tag map (R85). No byte but the tag selects behaviour (R83, R99). -/
def decodePrim (P : Record) : Except DecodeError Instr :=
  match (recByte P 0).toNat with
  | 0x00 => .ok (.setPenColor (colAt P 4))
  | 0x01 => .ok (.setBrushColor (colAt P 4))
  | 0x02 => .ok (.setPixel (pointAt P 4))
  | 0x03 => .ok (.setPixelAt (pointAt P 4) (colAt P 8))
  | 0x04 => .ok (.moveTo (pointAt P 4))
  | 0x05 => .ok (.lineTo (pointAt P 4))
  | 0x06 => .ok (.fillRect (rectAt P 4))
  | 0x07 => .ok (.drawRect (rectAt P 4))
  | 0x08 => .ok (.fillEllipse (u16At P 4) (u16At P 6))
  | 0x09 => .ok (.drawEllipse (u16At P 4) (u16At P 6))
  | 0x0A => .ok .clear
  | 0x0B => .ok (.vScroll (s16At P 4))
  | 0x0C => .ok (.hScroll (s16At P 4))
  | 0x0D => .ok (.drawGlyph (pointAt P 4) (u8At P 8) (u8At P 9) (u32At P 10))
  | 0x0E => .ok (.renderGlyphsBuffer (u16At P 4) (u16At P 6) (u32At P 8))
  | 0x0F => .ok (.setGlyphOptions ((recByte P 4).extractLsb' 0 7))
  | 0x10 => .ok (.setPaintOptions ((recByte P 4).getLsbD 0) ((recByte P 4).getLsbD 1))
  | 0x11 => .ok (.invertRect (rectAt P 4))
  | 0x12 => .ok (.copyRect (rectAt P 4) (pointAt P 12))
  | 0x13 => .ok (.setScrollingRegion (rectAt P 4))
  | 0x14 => .ok (.swapFGBG (rectAt P 4))
  | 0x15 => .ok (.drawBitmap (pointAt P 4) (u32At P 8))
  | 0x16 => .ok .refreshSprites
  | 0x17 => .ok .swapBuffers
  | 0x18 => .ok (.drawPath (u32At P 4) (u16At P 8))
  | 0x19 => .ok (.fillPath (u32At P 4) (u16At P 8))
  | 0x1A => .ok (.setOrigin (pointAt P 4))
  | 0x1B => .ok (.setClippingRect (rectAt P 4))
  | _ => .error (.reservedTag (recByte P 0))

/-! ### Operands of host operations -/

/-- A reader of operand bytes: the value and the bytes after it, or nothing. -/
abbrev Reader (α : Type) := List Byte → Option (α × List Byte)

def readByte : Reader Byte
  | [] => none
  | b :: bs => some (b, bs)

/-- A number in base 128, least significant digit first (log entry 3). -/
def readNat : Reader Nat
  | [] => none
  | b :: bs =>
    if b.toNat < 128 then some (b.toNat, bs)
    else (readNat bs).map fun r => (b.toNat - 128 + 128 * r.1, r.2)

/-- The integer that the number `n` stands for (log entry 3). -/
def unzigzag (n : Nat) : Int := if n % 2 = 0 then ((n / 2 : Nat) : Int) else -((n / 2 : Nat) : Int) - 1

def readInt : Reader Int := fun bs => (readNat bs).map fun r => (unzigzag r.1, r.2)

def readBool : Reader Bool := fun bs => (readByte bs).map fun r => (r.1 != 0, r.2)

/-- `n` items in a row. -/
def readMany {α : Type} (item : Reader α) : Nat → Reader (List α)
  | 0, bs => some ([], bs)
  | n + 1, bs =>
    (item bs).bind fun r => (readMany item n r.2).map fun q => (r.1 :: q.1, q.2)

/-- A length and that many items. -/
def readList {α : Type} (item : Reader α) : Reader (List α) := fun bs =>
  (readNat bs).bind fun r => readMany item r.1 r.2

/-- A 16-bit word, little-endian. -/
def readWord16 : Reader (BitVec 16) := fun bs =>
  (readByte bs).bind fun lo => (readByte lo.2).map fun hi => (hi.1 ++ lo.1, hi.2)

def readSpriteInit : Reader SpriteInit := fun bs =>
  (readWord16 bs).bind fun x => (readWord16 x.2).bind fun y =>
  (readList readNat y.2).bind fun fs => (readNat fs.2).bind fun cf =>
  (readBool cf.2).bind fun v => (readBool v.2).map fun st =>
    (⟨x.1, y.1, fs.1, cf.1, v.1, st.1⟩, st.2)

/-- The field of a SpriteWrite, numbered in the order of R332 (log entry 3), and its value. -/
def readSpriteUpdate : Reader SpriteUpdate := fun bs =>
  (readByte bs).bind fun f =>
    match f.1.toNat with
    | 0 => (readWord16 f.2).map fun v => (.x v.1, v.2)
    | 1 => (readWord16 f.2).map fun v => (.y v.1, v.2)
    | 2 => (readNat f.2).map fun n => (.curFrame n.1, n.2)
    | 3 => (readBool f.2).map fun b => (.visible b.1, b.2)
    | 4 => (readBool f.2).map fun b => (.isStatic b.1, b.2)
    | 5 => (readBool f.2).map fun b => (.allowDraw b.1, b.2)
    | _ => none

/-- Sixteen bytes in the order of a record (R83). -/
def bytesToRecord (bs : List Byte) : Record :=
  bs.foldr (fun b acc => (acc <<< 8) ||| b.setWidth 128) 0

def readRecord : Reader Record := fun bs =>
  (readMany readByte 16 bs).map fun r => (bytesToRecord r.1, r.2)

/-- The operands of the host operation `code`, or nothing where they are malformed. -/
def readHostOperands (code : Nat) (bs : List Byte) : Option Instr :=
  match code with
  | 0x80 => (readList readByte bs).map fun s => .decodeModeline s.1
  | 0x81 => (readList readByte bs).bind fun s => (readInt s.2).bind fun rw =>
      (readInt rw.2).bind fun rh => (readBool rh.2).map fun d => .setResolution s.1 rw.1 rh.1 d.1
  | 0x82 => (readRecord bs).map fun r => .addPrimitive r.1
  | 0x83 => some .suspend
  | 0x84 => some .resume
  | 0x85 => some .processPrimitives
  | 0x86 => (readBool bs).map fun b => .enableBackgroundExecution b.1
  | 0x87 => (readInt bs).bind fun dx => (readInt dx.2).map fun dy => .moveScreen dx.1 dy.1
  | 0x88 => (readInt bs).bind fun sx => (readInt sx.2).map fun sy => .shrinkScreen sx.1 sy.1
  | 0x89 => (readInt bs).bind fun x => (readInt x.2).map fun y => .readPixel x.1 y.1
  | 0x8A => (readList readSpriteInit bs).map fun l => .setSprites l.1
  | 0x8B => (readNat bs).bind fun n => (readSpriteUpdate n.2).map fun u => .spriteWrite n.1 u.1
  | 0x8C => (readNat bs).bind fun n => (readNat n.2).map fun a => .spriteAddFrame n.1 a.1
  | 0x8D => (readNat bs).bind fun a => (readNat a.2).map fun n => .hostAlloc a.1 n.1
  | 0x8E => (readNat bs).bind fun a => (readNat a.2).map fun n => .hostFree a.1 n.1
  | 0x8F => (readNat bs).bind fun a => (readList readByte a.2).map fun l => .hostWrite a.1 l.1
  | _ => none

/-- One host operation (R95): its code and its operands; bytes after them are ignored. -/
def decodeHostOp : List Byte → Except DecodeError Instr
  | [] => .error .empty
  | c :: bs =>
    if 0x80 ≤ c.toNat ∧ c.toNat ≤ 0x8F then
      match readHostOperands c.toNat bs with
      | some i => .ok i
      | none => .error (.malformedOperands c)
    else .error (.reservedCode c)

/-- The instruction the bytes spell: a primitive's sixteen bytes, or a host operation. -/
def decode : List Byte → Except DecodeError Instr
  | [] => .error .empty
  | b :: bs =>
    if b.toNat < 0x80 then
      match readRecord (b :: bs) with
      | some r => decodePrim r.1
      | none => .error (.malformedOperands b)
    else decodeHostOp (b :: bs)

/-- The bytes of an instruction whose lowest `nbits` bits are those of `w` and whose other bits are 0. -/
def tableBytes (nbits w : Nat) : List Byte :=
  (List.range 32).map fun k => if 8 * k < nbits then BitVec.ofNat 8 (w >>> (8 * k)) else 0

/-- The instruction the decoder reads from the word of a row of spec/opcode_table.json. -/
def decodeTableWord (nbits w : Nat) : Option Instr := (decode (tableBytes nbits w)).toOption

/-! ### The encoder -/

/-- The record that holds `v` from byte `k` on and zeros elsewhere. -/
def place {w : Nat} (k : Nat) (v : BitVec w) : Record := v.setWidth 128 <<< (8 * k)

def placeS16 (k : Nat) (v : Int) : Record := place k (BitVec.ofInt 16 v)

def placePoint (k : Nat) (p : Point) : Record := placeS16 k p.x ||| placeS16 (k + 2) p.y

def placeRect (k : Nat) (r : Rect) : Record :=
  placeS16 k r.x1 ||| placeS16 (k + 2) r.y1 ||| placeS16 (k + 4) r.x2 ||| placeS16 (k + 6) r.y2

/-- The record of a primitive (R83, R85), ignored bits zero; nothing for a host operation. -/
def encodePrim : Instr → Option Record
  | .setPenColor c => some (place 0 0x00#8 ||| place 4 c)
  | .setBrushColor c => some (place 0 0x01#8 ||| place 4 c)
  | .setPixel p => some (place 0 0x02#8 ||| placePoint 4 p)
  | .setPixelAt p c => some (place 0 0x03#8 ||| placePoint 4 p ||| place 8 c)
  | .moveTo p => some (place 0 0x04#8 ||| placePoint 4 p)
  | .lineTo p => some (place 0 0x05#8 ||| placePoint 4 p)
  | .fillRect r => some (place 0 0x06#8 ||| placeRect 4 r)
  | .drawRect r => some (place 0 0x07#8 ||| placeRect 4 r)
  | .fillEllipse w h => some (place 0 0x08#8 ||| place 4 (BitVec.ofNat 16 w) ||| place 6 (BitVec.ofNat 16 h))
  | .drawEllipse w h => some (place 0 0x09#8 ||| place 4 (BitVec.ofNat 16 w) ||| place 6 (BitVec.ofNat 16 h))
  | .clear => some (place 0 0x0A#8)
  | .vScroll dy => some (place 0 0x0B#8 ||| placeS16 4 dy)
  | .hScroll dx => some (place 0 0x0C#8 ||| placeS16 4 dx)
  | .drawGlyph p gw gh data => some (place 0 0x0D#8 ||| placePoint 4 p ||| place 8 (BitVec.ofNat 8 gw)
      ||| place 9 (BitVec.ofNat 8 gh) ||| place 10 (BitVec.ofNat 32 data))
  | .renderGlyphsBuffer col row gbuf => some (place 0 0x0E#8 ||| place 4 (BitVec.ofNat 16 col)
      ||| place 6 (BitVec.ofNat 16 row) ||| place 8 (BitVec.ofNat 32 gbuf))
  | .setGlyphOptions o => some (place 0 0x0F#8 ||| place 4 o)
  | .setPaintOptions swap inv => some (place 0 0x10#8 ||| place 4 (BitVec.ofBool inv ++ BitVec.ofBool swap))
  | .invertRect r => some (place 0 0x11#8 ||| placeRect 4 r)
  | .copyRect r d => some (place 0 0x12#8 ||| placeRect 4 r ||| placePoint 12 d)
  | .setScrollingRegion r => some (place 0 0x13#8 ||| placeRect 4 r)
  | .swapFGBG r => some (place 0 0x14#8 ||| placeRect 4 r)
  | .drawBitmap p bmp => some (place 0 0x15#8 ||| placePoint 4 p ||| place 8 (BitVec.ofNat 32 bmp))
  | .refreshSprites => some (place 0 0x16#8)
  | .swapBuffers => some (place 0 0x17#8)
  | .drawPath pts n => some (place 0 0x18#8 ||| place 4 (BitVec.ofNat 32 pts) ||| place 8 (BitVec.ofNat 16 n))
  | .fillPath pts n => some (place 0 0x19#8 ||| place 4 (BitVec.ofNat 32 pts) ||| place 8 (BitVec.ofNat 16 n))
  | .setOrigin p => some (place 0 0x1A#8 ||| placePoint 4 p)
  | .setClippingRect r => some (place 0 0x1B#8 ||| placeRect 4 r)
  | .decodeModeline _ => none
  | .setResolution _ _ _ _ => none
  | .addPrimitive _ => none
  | .suspend => none
  | .resume => none
  | .processPrimitives => none
  | .enableBackgroundExecution _ => none
  | .moveScreen _ _ => none
  | .shrinkScreen _ _ => none
  | .readPixel _ _ => none
  | .setSprites _ => none
  | .spriteWrite _ _ => none
  | .spriteAddFrame _ _ => none
  | .hostAlloc _ _ => none
  | .hostFree _ _ => none
  | .hostWrite _ _ => none

/-- The base-128 digits of `n`; the first argument bounds their number and `n` of them always suffice. -/
def natDigits : Nat → Nat → List Byte
  | 0, n => [BitVec.ofNat 8 n]
  | f + 1, n =>
    if n < 128 then [BitVec.ofNat 8 n]
    else BitVec.ofNat 8 (n % 128 + 128) :: natDigits f (n / 128)

def putNat (n : Nat) : List Byte := natDigits n n

/-- The number that stands for an integer (log entry 3). -/
def zigzag : Int → Nat
  | .ofNat n => 2 * n
  | .negSucc n => 2 * n + 1

def putInt (v : Int) : List Byte := putNat (zigzag v)

def putBool (b : Bool) : List Byte := [if b then 1 else 0]

def putList {α : Type} (item : α → List Byte) (l : List α) : List Byte :=
  putNat l.length ++ l.flatMap item

def putWord16 (v : BitVec 16) : List Byte := [v.extractLsb' 0 8, v.extractLsb' 8 8]

def putSpriteInit (s : SpriteInit) : List Byte :=
  putWord16 s.x ++ (putWord16 s.y ++ (putList putNat s.frames ++ (putNat s.curFrame ++
    (putBool s.visible ++ putBool s.isStatic))))

def putSpriteUpdate : SpriteUpdate → List Byte
  | .x v => 0 :: putWord16 v
  | .y v => 1 :: putWord16 v
  | .curFrame n => 2 :: putNat n
  | .visible b => 3 :: putBool b
  | .isStatic b => 4 :: putBool b
  | .allowDraw b => 5 :: putBool b

/-- The sixteen bytes of a record, `P[0]` first (R83). -/
def recordBytes (P : Record) : List Byte := (List.range 16).map (recByte P)

/-- The bytes of an instruction: the record of a primitive, or the code and operands of a host operation. -/
def encode (i : Instr) : List Byte :=
  match encodePrim i with
  | some P => recordBytes P
  | none =>
    match i with
    | .decodeModeline s => 0x80 :: putList (fun b => [b]) s
    | .setResolution s rw rh d =>
      0x81 :: (putList (fun b => [b]) s ++ (putInt rw ++ (putInt rh ++ putBool d)))
    | .addPrimitive P => 0x82 :: recordBytes P
    | .suspend => [0x83]
    | .resume => [0x84]
    | .processPrimitives => [0x85]
    | .enableBackgroundExecution b => 0x86 :: putBool b
    | .moveScreen dx dy => 0x87 :: (putInt dx ++ putInt dy)
    | .shrinkScreen sx sy => 0x88 :: (putInt sx ++ putInt sy)
    | .readPixel x y => 0x89 :: (putInt x ++ putInt y)
    | .setSprites l => 0x8A :: putList putSpriteInit l
    | .spriteWrite n u => 0x8B :: (putNat n ++ putSpriteUpdate u)
    | .spriteAddFrame n a => 0x8C :: (putNat n ++ putNat a)
    | .hostAlloc a n => 0x8D :: (putNat a ++ putNat n)
    | .hostFree a n => 0x8E :: (putNat a ++ putNat n)
    | .hostWrite a l => 0x8F :: (putNat a ++ putList (fun b => [b]) l)
    | _ => []

end Sys2Proof
end

