-- ==== Sys2Proof/Config.lean ====
section
/-! DEFINITION. What the spec leaves to an implementation or to a draw (R7). Every constant here is
opaque: nothing can be proved about its value, so a theorem holds whatever it is. -/

namespace Sys2Proof.Config

/-- `QueueCapacity - 1` of the machine that `State.reset` describes (R7: an integer >= 1, OPEN). DESIGN CHOICE, log entry 18. -/
opaque queueSpare : Nat

/-- `MaxDescLen / 4` (R7: a multiple of 4, OPEN). DESIGN CHOICE, log entry 18. -/
opaque maxDescWords : Nat

/-- `MaxSprites` (R7: an integer >= 0, OPEN). DESIGN CHOICE, log entry 18. -/
opaque maxSprites : Nat

/-- The rows the allocator finds (R7 `AllocOracle`, R170), for the draw's number. Log entry 22. -/
opaque allocOracle : Nat → Nat

/-- How the rows obtained fall into separately allocated blocks (R26, R170), for the draw's number. Log entry 22. -/
opaque poolSplit : Nat → List Nat

/-- Engine ticks just before one write of an Executor (R69, U18), for the draw's number; within an `Exec` no
more than are left of its cost. Log entry 8. -/
opaque gapTicks : Nat → Nat

/-- `ExecCost`: the pixel clocks that one `Exec` takes, from the primitive and its geometry and nothing else
(R7, R404); bytes and bits that decoding ignores are no part of the primitive (R83, R96). Log entry 8. -/
opaque execCost : Instr → List Int → Nat

/-- `ExecCost` of a reserved record, from its tag (R96, R404). Log entry 8. -/
opaque reservedCost : Byte → Nat

/-- Engine ticks between two actions of the other agents (R69, R371, U21), for the draw's number. Log entry 1. -/
opaque burst : Nat → Nat

/-- Which of the values written so far a read of a sprite position returns (R338, U15), for the draw's number. Log entry 15. -/
opaque staleRead : Nat → Nat

/-- What a live byte of host memory that nothing has written holds, for its address. Log entry 16. -/
opaque unwrittenByte : Nat → Byte

/-- How a 2-bit channel of a colour, other than 0, becomes the one bit of `ChannelDepth = 1`. Log entry 19. -/
opaque depth1Level : BitVec 2 → Bool

end Sys2Proof.Config
end

