-- ==== Sys2Proof/Machine/State.lean ====
section
/-! DEFINITION. Every piece of state the spec gives the block (10_state.md R22 to R45), as plain data,
and the state after construction (R390). The model's own fields are marked so. -/

namespace Sys2Proof.Machine

/-! ### Parameters (R7) -/

/-- Bits per colour channel (R7). -/
inductive ChannelDepth where
  | one
  | two
deriving DecidableEq, Repr

/-- `ChannelBitMap1` (R7): the bit of a pixel byte that carries each signal when the depth is one. -/
structure ChannelBits where
  red : Fin 8
  green : Fin 8
  blue : Fin 8
  hSync : Fin 8
  vSync : Fin 8
deriving DecidableEq, Repr

/-- The parameters the spec takes as arguments (R7). No operation writes them. `QueueCapacity` is
`queueSpare + 1` and `MaxDescLen` is `4 * maxDescWords`, so that their bounds hold of every value. -/
structure Params where
  queueSpare : Nat
  maxDescWords : Nat
  maxSprites : Nat
  channelDepth : ChannelDepth
  channelBitMap1 : Option ChannelBits
  vsyncLatchWhileSuspended : Bool
  clearResetsPaintState : Bool
deriving DecidableEq, Repr

/-! ### Timing registers (R22) -/

inductive SyncPol where
  | pos
  | neg
deriving DecidableEq, Repr

/-- The interval a line buffer starts with (R22, R125). -/
inductive HBlock where
  | frontPorch
  | sync
  | backPorch
  | visibleArea
deriving DecidableEq, Repr

/-- An exact decimal, `digits / 10 ^ scale` (R22 `clockMHz`). -/
structure Decimal where
  digits : Nat
  scale : Nat
deriving DecidableEq, Repr

/-- The timing register set (R22). -/
structure Timings where
  label : List Byte
  clockMHz : Decimal
  hVisible : Int
  hFrontPorch : Int
  hSyncPulse : Int
  hBackPorch : Int
  vVisible : Int
  vFrontPorch : Int
  vSyncPulse : Int
  vBackPorch : Int
  hSyncPol : SyncPol
  vSyncPol : SyncPol
  scanCount : Nat
  hStartingBlock : HBlock
deriving DecidableEq, Repr

/-- The reset values of R22. -/
def Timings.reset : Timings :=
  { label := [], clockMHz := ⟨0, 0⟩
    hVisible := 0, hFrontPorch := 0, hSyncPulse := 0, hBackPorch := 0
    vVisible := 0, vFrontPorch := 0, vSyncPulse := 0, vBackPorch := 0
    hSyncPol := .neg, vSyncPol := .neg, scanCount := 1, hStartingBlock := .frontPorch }

/-! ### Banks and descriptors (R23, R25, R28, R88) -/

/-- One of the two viewport/descriptor-array pairs (R11, R23). -/
inductive Bank where
  | zero
  | one
deriving DecidableEq, Repr

/-- `1 - b` (R23). -/
def Bank.other : Bank → Bank
  | .zero => .one
  | .one => .zero

/-- A value for each bank. -/
structure PerBank (α : Type) where
  zero : α
  one : α
deriving DecidableEq, Repr

def PerBank.get {α : Type} (p : PerBank α) : Bank → α
  | .zero => p.zero
  | .one => p.one

def PerBank.set {α : Type} (p : PerBank α) (b : Bank) (v : α) : PerBank α :=
  match b with
  | .zero => { p with zero := v }
  | .one => { p with one := v }

inductive Owner where
  | dma
  | cpu
deriving DecidableEq, Repr

/-- The buffer pointer of a descriptor (R88). -/
inductive Buf where
  | blank (vsync : Bool)
  | row (p : Nat)
  | none
deriving DecidableEq, Repr

/-- A link to a descriptor (R88). -/
inductive DescRef where
  | sentinel
  | entry (b : Bank) (i : Nat)
deriving DecidableEq, Repr

/-- A DMA descriptor (R88). -/
structure Desc where
  owner : Owner
  buf : Buf
  offset : Nat
  length : Nat
  size : Nat
  eof : Bool
  next : DescRef
deriving DecidableEq, Repr

/-- A link-only record (R88, R136): `buf = None`, `length = 0`, and so `size = 0`. That its offset is 0 is the
model's own, and nothing reads it (DESIGN CHOICE, log entry 17). -/
def Desc.linkTo (r : DescRef) : Desc :=
  { owner := .dma, buf := .none, offset := 0, length := 0, size := 0, eof := false, next := r }

/-! ### Paint state (R42) -/

/-- The glyph options record (R86). -/
structure GlyphOpts where
  fillBackground : Bool
  bold : Bool
  italic : Bool
  underline : Bool
  doubleWidth : Bool
  invert : Bool
  blank : Bool
deriving DecidableEq, Repr

/-- The paint state (R42). `swapFGBG` and `invertNot` are the two fields of `paintOpt`. -/
structure Paint where
  penColor : Colour
  brushColor : Colour
  penPos : Point
  glyphOpt : GlyphOpts
  swapFGBG : Bool
  invertNot : Bool
  scrollRegion : Rect
  origin : Point
  clipRect : Rect
deriving DecidableEq, Repr

/-- The reset values of R42 for a viewport of `w` by `h` pixels. -/
def Paint.reset (w h : Int) : Paint :=
  { penColor := 0b111111#6, brushColor := 0b000000#6, penPos := ⟨0, 0⟩
    glyphOpt := ⟨false, false, false, false, false, false, false⟩
    swapFGBG := false, invertNot := false
    scrollRegion := ⟨0, 0, w - 1, h - 1⟩, origin := ⟨0, 0⟩, clipRect := ⟨0, 0, w - 1, h - 1⟩ }

/-! ### Sprites (R43) -/

/-- A recorded frame `(addr, w, h)` (R331): the bitmap header's address and dimensions. -/
structure Frame where
  addr : Nat
  w : Nat
  h : Nat
deriving DecidableEq, Repr

/-- Where a saved background came from (R43). -/
structure SavedRect where
  x : Nat
  y : Nat
  w : Nat
  h : Nat
deriving DecidableEq, Repr

/-- A sprite slot (R43). `xOld` and `yOld` are the MODEL's own: the values that `x` and `y` held
before in this slot, newest first and back to its SetSprites, which R338 lets a read return (log entry 15). -/
structure Sprite where
  x : BitVec 16
  y : BitVec 16
  frames : List Frame
  curFrame : Nat
  visible : Bool
  isStatic : Bool
  allowDraw : Bool
  savedBg : List Byte
  savedRect : Option SavedRect
  xOld : List (BitVec 16)
  yOld : List (BitVec 16)
deriving DecidableEq, Repr

/-! ### Recorded faults (R44, R361) -/

/-- The reconfiguration that UnsuspendedReconfigure names (R361). -/
inductive Reconfig where
  | moveScreen (dx dy : Int)
  | shrinkScreen (sx sy : Int)
deriving DecidableEq, Repr

/-- An entry of `faults` (R361): the code with its recorded information. None of them stops the machine (R360, R362). -/
inductive FaultRecord where
  | malformedTimings (t : Timings)
  | reservedPrimitive (tag : Byte)
  | danglingReference (addr len : Nat)
  | descriptorNotOwned (ref : DescRef)
  | unsuspendedReconfigure (op : Reconfig)
  | shrinkBelowViewport (sx sy : Int)
  | unbalancedResume
deriving DecidableEq, Repr

/-! ### Host memory (R45) -/

/-- Host memory as pairs of address and byte, addresses strictly rising; an unlisted address holds
no written byte (log entry 16). -/
abbrev Memory := List Host.Cell

/-- A set of addresses as ranges `[lo, hi)`, rising, not empty, with a gap between any two. -/
abbrev Ranges := List (Nat × Nat)

/-! ### The rest -/

/-- Which drain is in progress (R41). -/
inductive DrainKind where
  | isr
  | pump
  | immediate
deriving DecidableEq, Repr

/-- MODEL's own: what the last value-returning host operation returned (log entry 6). -/
inductive HostReturn where
  | nothing
  | timings (r : Option Timings)
  | success (ok : Bool)
  | pixel (b : Option Byte)
deriving DecidableEq, Repr

/-- The whole state. -/
structure State where
  /-- R7: fixed at construction -/
  params : Params
  /-- R22 -/
  timings : Timings
  /-- R23 -/
  configured : Bool
  engineRunning : Bool
  doubleBuffered : Bool
  backgroundExec : Bool
  suspendCount : Nat
  vsIntPending : Bool
  inExecutor : Bool
  drawBank : Bank
  spritesHidden : Bool
  /-- R24 -/
  vpWidth : Int
  vpHeight : Int
  vpCol : Int
  vpRow : Int
  /-- R25: the id of a physical row is its place in the list -/
  rows : List (List Byte)
  rowMap : PerBank (List Nat)
  /-- R26: how many rows each block holds -/
  pools : List Nat
  /-- R27 -/
  blank0 : List Byte
  blank1 : List Byte
  /-- R28 -/
  desc : PerBank (List Desc)
  sentinel : Desc
  /-- R29 -/
  cur : DescRef
  lat : Desc
  pos : Nat
  tick : Nat
  out : List (Nat × Byte)
  /-- R40 -/
  queue : List Record
  /-- R41 -/
  drainStart : Nat
  drainFirst : Bool
  drainKind : DrainKind
  /-- R42 -/
  paint : Paint
  /-- R43 -/
  sprites : List Sprite
  /-- R44 -/
  faults : List FaultRecord
  refused : Bool
  /-- R45 -/
  hostmem : Memory
  live : Ranges
  /-- MODEL's own: the Producer's host operations still to run, the bytes of each (log entry 2) -/
  program : List (List Byte)
  /-- MODEL's own: the record of an AddPrimitive that waits for room in the queue (log entry 7) -/
  blocked : Option Record
  /-- MODEL's own: the record of an immediate AddPrimitive whose older records are still drained (log entry 34) -/
  immediate : Option Record
  /-- MODEL's own: the last returned value (log entry 6) -/
  ret : HostReturn
  /-- MODEL's own: Engine ticks due before another agent acts (log entry 1) -/
  ticksDue : Nat
  /-- MODEL's own: how many free values have been drawn (log entry 1) -/
  draws : Nat
  /-- MODEL's own: the ticks left of the cost of the `Exec` in progress, none outside an `Exec` (log entry 8) -/
  costLeft : Option Nat
deriving DecidableEq, Repr

/-- Reasons for which the machine itself would stop. There is none: "none is a trap" (R360), every
fault of R361 is a record in `State.faults` after which the machine goes on (R362, R363), and a stuck
state is not a fault (R365). Log entry 29. -/
inductive Fault where
deriving DecidableEq, Repr

/-- Reasons for which the model gives an instruction no meaning. -/
inductive Refusal where
  /-- raised by `exec` for an instruction that has no meaning yet; safe, since nothing can be proved
  about what it does. No arm raises it. -/
  | notModelled (mnemonic : String)
deriving DecidableEq, Repr

/-- The machine after construction (R390). The three OPEN parameters are free values; depth, bit map
and the two flags are the values R7 admits or calls default (log entry 18). Values the spec calls
undefined at reset, and those of the model's own fields: log entry 17. -/
def State.reset : State :=
  { params :=
      { queueSpare := Config.queueSpare, maxDescWords := Config.maxDescWords
        maxSprites := Config.maxSprites, channelDepth := .two, channelBitMap1 := none
        vsyncLatchWhileSuspended := true, clearResetsPaintState := true }
    timings := Timings.reset
    configured := false, engineRunning := false, doubleBuffered := false, backgroundExec := true
    suspendCount := 0, vsIntPending := false, inExecutor := false, drawBank := .zero
    spritesHidden := true
    vpWidth := 0, vpHeight := 0, vpCol := 0, vpRow := 0
    rows := [], rowMap := ⟨[], []⟩, pools := []
    blank0 := [], blank1 := []
    desc := ⟨[], []⟩, sentinel := Desc.linkTo (.entry .zero 0)
    cur := .sentinel, lat := Desc.linkTo .sentinel, pos := 0, tick := 0, out := []
    queue := [], drainStart := 0, drainFirst := true, drainKind := .isr
    paint := Paint.reset 0 0
    sprites := [], faults := [], refused := false
    hostmem := [], live := []
    program := [], blocked := none, immediate := none, ret := .nothing, ticksDue := 0, draws := 0, costLeft := none }

end Sys2Proof.Machine
end

