-- ==== Sys2Proof/Machine/Timing.lean ====
section
/-! DEFINITION. Timing arithmetic, viewport geometry, pixel bytes, blank buffers and the descriptor
chain (R80, R81, R124 to R137, R208). -/

namespace Sys2Proof.Machine

/-- `HTotal` (R22). -/
def hTotal (t : Timings) : Int := t.hFrontPorch + t.hSyncPulse + t.hBackPorch + t.hVisible

/-- `VTotal` (R22). -/
def vTotal (t : Timings) : Int := t.vVisible + t.vFrontPorch + t.vSyncPulse + t.vBackPorch

/-! ### Pixel bytes (R80, R81) -/

/-- One signal at its bit of a depth-1 pixel byte. -/
def signalBit (level : Bool) (at_ : Fin 8) : Byte := (BitVec.ofBool level).setWidth 8 <<< at_.val

/-- The one bit of a 2-bit channel when the depth is one: clear for 0, which keeps every blank byte free of
colour (R81, D5 of 92_eei_decisions.md, C2 of 90_conflicts.md), and a free value for 1 to 3 (log entry 19). -/
def channelBit (c : BitVec 2) : Bool := c != 0 && Config.depth1Level c

/-- `pixbyte(vs, hs, c)` (R80). With depth one the bits stand where `ChannelBitMap1` puts them (log
entry 19). -/
def pixbyte (p : Params) (vs hs : Bool) (c : Colour) : Byte :=
  match p.channelDepth, p.channelBitMap1 with
  | .one, some m =>
    signalBit vs m.vSync ||| signalBit hs m.hSync
      ||| signalBit (channelBit (c.extractLsb' 0 2)) m.red
      ||| signalBit (channelBit (c.extractLsb' 2 2)) m.green
      ||| signalBit (channelBit (c.extractLsb' 4 2)) m.blue
  | _, _ => BitVec.ofBool vs ++ (BitVec.ofBool hs ++ c)

def hsOn (t : Timings) : Bool := t.hSyncPol == .pos
def hsOff (t : Timings) : Bool := !hsOn t
def vsOn (t : Timings) : Bool := t.vSyncPol == .pos
def vsOff (t : Timings) : Bool := !vsOn t

/-! ### Line layout (R124, R125) -/

inductive Region where
  | visible
  | frontPorch
  | sync
  | backPorch
deriving DecidableEq, Repr

/-- `region(L)` (R124). -/
def region (t : Timings) (l : Int) : Region :=
  if l < t.vVisible then .visible
  else if l < t.vVisible + t.vFrontPorch then .frontPorch
  else if l < t.vVisible + t.vFrontPorch + t.vSyncPulse then .sync
  else .backPorch

/-- `so`: where the horizontal sync starts in a line buffer (R125). -/
def syncStart (t : Timings) : Int :=
  match t.hStartingBlock with
  | .frontPorch => t.hFrontPorch
  | .sync => 0
  | .backPorch => t.hBackPorch + t.hVisible + t.hFrontPorch
  | .visibleArea => t.hVisible + t.hFrontPorch

/-- `vo`: where the visible pixels start in a line buffer (R125). -/
def visStart (t : Timings) : Int :=
  match t.hStartingBlock with
  | .frontPorch => t.hFrontPorch + t.hSyncPulse + t.hBackPorch
  | .sync => t.hSyncPulse + t.hBackPorch
  | .backPorch => t.hBackPorch
  | .visibleArea => 0

/-- `WF(T)` (R126). -/
def timingsWF (p : Params) (t : Timings) : Bool :=
  decide (0 < t.hVisible) && decide (0 < t.vVisible)
    && decide (0 < t.hSyncPulse) && decide (0 < t.vSyncPulse)
    && decide (0 ≤ t.hFrontPorch) && decide (0 ≤ t.hBackPorch)
    && decide (0 ≤ t.vFrontPorch) && decide (0 ≤ t.vBackPorch)
    && decide (t.hVisible % 4 = 0) && decide (t.hFrontPorch % 4 = 0)
    && decide (t.hSyncPulse % 4 = 0) && decide (t.hBackPorch % 4 = 0)
    && (decide (t.scanCount = 1) || decide (t.scanCount = 2))
    && (decide (p.channelDepth = .two) || p.channelBitMap1.isSome)
    && decide (hTotal t ≤ 4 * (p.maxDescWords : Int))

/-! ### Viewport geometry (R127) -/

/-- `clamp(v, lo, hi)` (R9). -/
def clamp (v lo hi : Int) : Int := max lo (min hi v)

/-- `v - (v mod 4)`. -/
def roundDown4 (v : Int) : Int := v - v % 4

/-- `vpWidth` (R127). -/
def viewportWidth (t : Timings) (rw : Int) : Int := roundDown4 (clamp rw 0 t.hVisible)

/-- `h0`, the height asked of the allocator (R127). -/
def requestedHeight (t : Timings) (rw rh : Int) : Int :=
  if viewportWidth t rw = 0 then 0 else clamp rh 0 t.vVisible

/-- `vpCol` (R127). -/
def viewportCol (t : Timings) (w : Int) : Int := roundDown4 ((t.hVisible - w) / 2)

/-- `vpRow` (R127). -/
def viewportRow (t : Timings) (h : Int) : Int := (t.vVisible - h) / 2

/-! ### Blank buffers (R133) -/

/-- The byte of logical pixel `k` of `Blank(v)` (R133). -/
def blankPixel (p : Params) (t : Timings) (v : Bool) (k : Nat) : Byte :=
  let hs := decide (syncStart t ≤ (k : Int)) && decide ((k : Int) < syncStart t + t.hSyncPulse)
  pixbyte p (if v then vsOn t else vsOff t) (if hs then hsOn t else hsOff t) 0

/-- `Blank(v)` (R133): logical pixel `k` is stored at byte `k xor 2`. -/
def blankLine (p : Params) (t : Timings) (v : Bool) : List Byte :=
  (List.range (hTotal t).toNat).map fun j => blankPixel p t v (j ^^^ 2)

/-! ### Segments and the chain (R134 to R137) -/

/-- A segment of a line (R134), with the `eof` mark of its descriptor (R135). -/
structure Segment where
  buf : Buf
  offset : Nat
  length : Nat
  eof : Bool
deriving DecidableEq, Repr

/-- The geometry that the chain is built from. -/
structure Geometry where
  vpWidth : Int
  vpHeight : Int
  vpCol : Int
  vpRow : Int
deriving DecidableEq, Repr

/-- `pre` (R134). -/
def preLen (t : Timings) (g : Geometry) : Int := visStart t + g.vpCol

/-- `post` (R134). -/
def postLen (t : Timings) (g : Geometry) : Int := hTotal t - preLen t g - g.vpWidth

/-- The viewport row that logical line `l` shows, if it is a viewport line (R134). -/
def viewportLine (t : Timings) (g : Geometry) (l : Nat) : Option Nat :=
  let y := (l : Int) - g.vpRow
  if region t l = .visible ∧ 0 ≤ y ∧ y < g.vpHeight then some y.toNat else none

/-- The segments of a viewport line whose row bytes are in physical row `p` (R134). -/
def viewportSegments (t : Timings) (g : Geometry) (p : Nat) : List Segment :=
  (if 0 < preLen t g then [⟨.blank false, 0, (preLen t g).toNat, false⟩] else [])
    ++ (⟨.row p, 0, g.vpWidth.toNat, false⟩
    :: (if 0 < postLen t g then
          [⟨.blank false, (preLen t g + g.vpWidth).toNat, (postLen t g).toNat, false⟩]
        else []))

/-- The segments of logical line `l` (R134). -/
def lineSegments (t : Timings) (g : Geometry) (rowMap : List Nat) (l : Nat) : List Segment :=
  match viewportLine t g l with
  | some y => viewportSegments t g (rowMap.getD y 0)
  | none => [⟨.blank (region t l == .sync), 0, (hTotal t).toNat, false⟩]

/-- The last segment carries `eof`. -/
def markLast : List Segment → List Segment
  | [] => []
  | [s] => [{ s with eof := true }]
  | s :: s' :: rest => s :: markLast (s' :: rest)

/-- The last line before the first vertical-sync line (R135). -/
def eofLine (t : Timings) : Int := t.vVisible + t.vFrontPorch - 1

/-- The segments of repetition `r` of line `l`, `eof` on the last one where R135 puts it. -/
def scanSegments (t : Timings) (g : Geometry) (rowMap : List Nat) (l r : Nat) : List Segment :=
  if (l : Int) = eofLine t ∧ r + 1 = t.scanCount then markLast (lineSegments t g rowMap l)
  else lineSegments t g rowMap l

/-- All segments of a frame, in the order of R135. -/
def frameSegments (t : Timings) (g : Geometry) (rowMap : List Nat) : List Segment :=
  (List.range (vTotal t).toNat).flatMap fun l =>
    (List.range t.scanCount).flatMap fun r => scanSegments t g rowMap l r

/-- `size`: the length rounded up to a multiple of 4 (R64). -/
def alignedSize (n : Nat) : Nat := (n + 3) / 4 * 4

/-- The descriptors of the segments from index `i` on, the last one linked to the sentinel (R135). -/
def linkSegments (b : Bank) : Nat → List Segment → List Desc
  | _, [] => []
  | i, s :: rest =>
    { owner := .dma, buf := s.buf, offset := s.offset, length := s.length
      size := alignedSize s.length, eof := s.eof
      next := if rest.isEmpty then .sentinel else .entry b (i + 1) } :: linkSegments b (i + 1) rest

/-- The chain of bank `b` (R135). -/
def chain (t : Timings) (g : Geometry) (b : Bank) (rowMap : List Nat) : List Desc :=
  linkSegments b 0 (frameSegments t g rowMap)

/-- Segments of a viewport line (R132). -/
def segmentsPerRow (t : Timings) (g : Geometry) : Nat :=
  (if 0 < preLen t g then 1 else 0) + 1 + (if 0 < postLen t g then 1 else 0)

/-- `N` (R137), with `1 + x` the segments of a viewport line less one. -/
def descCount (t : Timings) (g : Geometry) : Nat :=
  t.scanCount * ((vTotal t).toNat + g.vpHeight.toNat * (segmentsPerRow t g - 1))

/-- The index in the chain of the row-segment descriptor of viewport row `y`, repetition `r` (R309, R135). -/
def rowDescIndex (t : Timings) (g : Geometry) (y r : Nat) : Nat :=
  t.scanCount * ((g.vpRow.toNat + y) + y * (segmentsPerRow t g - 1)) + r * segmentsPerRow t g
    + (if 0 < preLen t g then 1 else 0)

/-! ### The retrace budget (R208) -/

/-- `B` in pixel clocks (R208). -/
def retraceBudget (t : Timings) (vpRow : Int) : Int :=
  (t.scanCount : Int) * hTotal t * (t.vSyncPulse + t.vBackPorch + vpRow)

end Sys2Proof.Machine
end

