-- ==== Sys2Proof/Machine/Flags.lean ====
section
/-! DEFINITION. The block has no arithmetic flags; these are the derived control and status values (R23)
and the conditions on them (R200, R209, R210, R365, R398). -/

namespace Sys2Proof.Machine

/-- `vsIntEnabled` (R23, R371). -/
def vsIntEnabled (s : State) : Bool :=
  s.configured && s.engineRunning && decide (s.suspendCount = 0) && s.backgroundExec

/-- `visBank` (R23). -/
def visBank (s : State) : Bank := if s.doubleBuffered then s.drawBank.other else .zero

/-- The vertical-sync interrupt can be taken (R209, R371). -/
def isrEnterable (s : State) : Bool := s.vsIntPending && vsIntEnabled s && !s.inExecutor

/-- A reconfiguration is allowed: "suspendCount > 0 or not backgroundExec" (R140). -/
def mayReconfigure (s : State) : Bool := decide (0 < s.suspendCount) || !s.backgroundExec

/-- A list of at most `n` items; it looks at no more of `n` than the list is long. -/
def atMost {α : Type} : List α → Nat → Bool
  | [], _ => true
  | _ :: _, 0 => false
  | _ :: l, n + 1 => atMost l n

/-- `length(queue) < QueueCapacity` (R201). -/
def queueHasRoom (s : State) : Bool := atMost s.queue s.params.queueSpare

/-- `tick - drainStart > B` (R210, R372). -/
def overBudget (s : State) : Bool :=
  decide ((s.tick : Int) - (s.drainStart : Int) > retraceBudget s.timings s.vpRow)

/-- The geometry registers (R24). -/
def geometry (s : State) : Geometry := ⟨s.vpWidth, s.vpHeight, s.vpCol, s.vpRow⟩

/-- The byte stored for a viewport pixel of colour `c` (R81, R177). -/
def vpByte (s : State) (c : Colour) : Byte :=
  pixbyte s.params (vsOff s.timings) (hsOff s.timings) c

end Sys2Proof.Machine
end

