-- ==== Sys2Proof/Machine/Stores.lean ====
section
/-! DEFINITION. The storage spaces of R60 (host memory, its allocated ranges, the row store) and the
fault and refusal record (R44, R362, R364). -/

namespace Sys2Proof.Machine

/-! ### Host memory (R45, R61, R63) -/

/-- The byte written last at an address, if any was. -/
def Memory.read : Memory → Nat → Option Byte
  | [], _ => none
  | c :: m, a => if c.1 = a then some c.2 else Memory.read m a

/-- Write one byte, keeping the addresses strictly rising. -/
def Memory.write : Memory → Nat → Byte → Memory
  | [], a, v => [(a, v)]
  | c :: m, a, v =>
    if a < c.1 then (a, v) :: c :: m
    else if c.1 = a then (a, v) :: m
    else c :: Memory.write m a v

/-- Write bytes at `a`, `a + 1`, ... -/
def Memory.writeBytes : Memory → Nat → List Byte → Memory
  | m, _, [] => m
  | m, a, v :: vs => Memory.writeBytes (Memory.write m a v) (a + 1) vs

/-- The canonical form: addresses strictly rising. An unlisted address holds no written byte, so no
entry equals what an unlisted address reads as. -/
def Memory.wf : Memory → Bool
  | [] => true
  | [_] => true
  | c :: d :: m => decide (c.1 < d.1) && Memory.wf (d :: m)

/-! ### Allocated ranges (R45, R182) -/

def Ranges.contains : Ranges → Nat → Bool
  | [], _ => false
  | r :: rs, a => (decide (r.1 ≤ a) && decide (a < r.2)) || Ranges.contains rs a

/-- Add `[lo, hi)`, joining the ranges it touches. -/
def Ranges.insert : Ranges → Nat → Nat → Ranges
  | [], lo, hi => [(lo, hi)]
  | r :: rs, lo, hi =>
    if r.2 < lo then r :: Ranges.insert rs lo hi
    else if hi < r.1 then (lo, hi) :: r :: rs
    else Ranges.insert rs (min r.1 lo) (max r.2 hi)

/-- Remove `[lo, hi)`. -/
def Ranges.remove : Ranges → Nat → Nat → Ranges
  | [], _, _ => []
  | r :: rs, lo, hi =>
    (if r.1 < min r.2 lo then [(r.1, min r.2 lo)] else [])
      ++ ((if max r.1 hi < r.2 then [(max r.1 hi, r.2)] else []) ++ Ranges.remove rs lo hi)

/-- The canonical form: no empty range, and a gap between any two. -/
def Ranges.wf : Ranges → Bool
  | [] => true
  | [r] => decide (r.1 < r.2)
  | r :: q :: rs => decide (r.1 < r.2) && decide (r.2 < q.1) && Ranges.wf (q :: rs)

/-- Every byte of `[a, a+n)` lies in `live` (R61). -/
def rangeLive (s : State) (a n : Nat) : Bool :=
  (List.range n).all fun k => Ranges.contains s.live (a + k)

/-- One byte of host memory; a byte nothing has written is a free value (log entry 16). -/
def memByte (s : State) (a : Nat) : Byte :=
  match Memory.read s.hostmem a with
  | some v => v
  | none => Config.unwrittenByte a

/-- `MemRead(a, 2)`, little-endian (R61, R63). -/
def memU16 (s : State) (a : Nat) : BitVec 16 := memByte s (a + 1) ++ memByte s a

/-- `MemRead(a, 4)`, little-endian (R61, R63). -/
def memU32 (s : State) (a : Nat) : BitVec 32 := memU16 s (a + 2) ++ memU16 s a

/-! ### The row store (R25) -/

/-- Byte `off` of physical row `p`. -/
def rowByte (rows : List (List Byte)) (p off : Nat) : Option Byte :=
  match rows[p]? with
  | some r => r[off]?
  | none => none

/-- The rows with byte `off` of physical row `p` set; nothing changes where there is no such byte. -/
def setRowByte (rows : List (List Byte)) (p off : Nat) (v : Byte) : List (List Byte) :=
  match rows[p]? with
  | some r => rows.set p (r.set off v)
  | none => rows

/-! ### Faults and refusals (R44) -/

/-- `raise F(info)` (R362). -/
def raise (f : FaultRecord) (s : State) : State := { s with faults := s.faults ++ [f] }

/-- `refused <- true` (R364). -/
def refuse (s : State) : State := { s with refused := true }

/-- The code of a recorded fault (R361). -/
def faultCode : FaultRecord → Nat
  | .malformedTimings _ => 1
  | .reservedPrimitive _ => 2
  | .danglingReference _ _ => 3
  | .descriptorNotOwned _ => 4
  | .unsuspendedReconfigure _ => 5
  | .shrinkBelowViewport _ _ => 6
  | .unbalancedResume => 7

end Sys2Proof.Machine
end

