-- ==== Sys2Proof/Machine/Engine.lean ====
section
/-! DEFINITION. The scan-out Engine (R138), the latch of the vertical-sync event (R370), and the ticks
that fall between the writes of another agent (R69). -/

namespace Sys2Proof.Machine

/-- What a link to no descriptor yields: a record the DMA does not own, so that the next tick raises
DescriptorNotOwned. The builder makes no such link (log entry 21). -/
def danglingDesc : Desc :=
  { owner := .cpu, buf := .none, offset := 0, length := 1, size := 4, eof := false, next := .sentinel }

/-- `deref((b, i)) = desc[b][i]` (R138). -/
def deref (s : State) (b : Bank) (i : Nat) : Desc := ((s.desc.get b)[i]?).getD danglingDesc

/-- Move onto what the link `r` names: latch a copy of a descriptor (R73 (a), R138); the sentinel is
link-only and nothing is latched. -/
def moveOnto (r : DescRef) (s : State) : State :=
  match r with
  | .sentinel => { s with cur := .sentinel, pos := 0 }
  | .entry b i => { s with cur := .entry b i, lat := deref s b i, pos := 0 }

/-- The Engine spends no clock on the sentinel, the one link-only record (R88): it moves on to what the
sentinel names, and latches it (R136, R138). -/
def leaveSentinel (s : State) : State := if s.cur = .sentinel then moveOnto s.sentinel.next s else s

/-- The bytes of a buffer, read live (R73 (d), R138). -/
def bufferOf (s : State) : Buf → Option (List Byte)
  | .blank v => some (if v then s.blank1 else s.blank0)
  | .row p => s.rows[p]?
  | .none => none

/-- The byte that the Engine emits from its position: `bufferOf(lat.buf)[lat.offset + (pos xor 2)]` (R138). -/
def engineByte (s : State) : Option Byte :=
  match bufferOf s s.lat.buf with
  | some bytes => bytes[s.lat.offset + (s.pos ^^^ 2)]?
  | none => none

/-- The defensive arm of R138: record the fault and halt (R363). -/
def haltEngine (s : State) : State :=
  { raise (.descriptorNotOwned s.cur) s with engineRunning := false }

/-- The vertical-sync event (R370). -/
def vsyncEvent (s : State) : State :=
  if vsIntEnabled s || s.params.vsyncLatchWhileSuspended then { s with vsIntPending := true } else s

/-- Emit one byte and, at the end of the descriptor, raise its event and move on (R138). -/
def emitByte (b : Byte) (s : State) : State :=
  let t := { s with out := s.out ++ [(s.tick, b)], tick := s.tick + 1, pos := s.pos + 1 }
  if t.pos = t.lat.length then
    let u := if t.lat.eof then vsyncEvent t else t
    moveOnto u.lat.next u
  else t

/-- One pixel clock (R138). The Engine has a step only while it runs. A descriptor that the DMA does not own,
one of zero length (U23 of 93_implementation_defined.md) and one whose buffer does not exist are recorded and
halt it. The loop of R138, read alone, would pass over a zero-length descriptor (DEDUCED, log entry 21); a
sentinel that names itself is log entry 21 too. -/
def engineTick (s : State) : State :=
  if s.engineRunning then
    let t := leaveSentinel s
    if t.cur ≠ .sentinel ∧ t.lat.length ≠ 0 ∧ t.lat.owner = .dma then
      match engineByte t with
      | some b => emitByte b t
      | none => haltEngine t
    else haltEngine t
  else s

/-- `n` pixel clocks, fewer if the Engine halts. -/
def engineTicks : Nat → State → State
  | 0, s => s
  | n + 1, s => engineTicks n (engineTick s)

/-- How many of `n` ticks fit into what is left of the cost of an `Exec` (R404); outside an `Exec` all do. -/
def ticksWithin (left : Option Nat) (n : Nat) : Nat :=
  match left with
  | some k => min n k
  | none => n

/-- The ticks before one write: a free number of them (R69), within an `Exec` no more than are left of its
cost (R404). Log entry 8. -/
def gap (s : State) : State :=
  let n := ticksWithin s.costLeft (Config.gapTicks s.draws)
  if s.engineRunning then engineTicks n { s with draws := s.draws + 1, costLeft := s.costLeft.map (· - n) }
  else { s with draws := s.draws + 1 }

/-- The end of one `Exec`: the ticks left of its cost come after its last write (R404). -/
def costTicks (s : State) : State :=
  if s.engineRunning then engineTicks (s.costLeft.getD 0) { s with costLeft := none }
  else { s with costLeft := none }

end Sys2Proof.Machine
end

