-- ==== Sys2Proof/Machine/Ops.lean ====
section
/-! DEFINITION. The shared operations of the Executor: pixels (R172 to R177), writes with the Engine
ticks that fall between them (R69), hiding and showing sprites (R334 to R336), and the entry into and
the return from the vertical-sync interrupt (R209, R210, R373, R374). -/

namespace Sys2Proof.Machine

/-! ### Pixels -/

/-- `inVP` (R174). -/
def inVP (s : State) (ax ay : Int) : Bool :=
  decide (0 ≤ ax) && decide (ax < s.vpWidth) && decide (0 ≤ ay) && decide (ay < s.vpHeight)

/-- The physical row and byte of pixel `(ax, ay)` of bank `b` (R172). -/
def physAddr (s : State) (b : Bank) (ax ay : Int) : Option (Nat × Nat) :=
  if inVP s ax ay then
    match (s.rowMap.get b)[ay.toNat]? with
    | some p => some (p, ax.toNat ^^^ 2)
    | none => none
  else none

/-- The raw byte of pixel `(ax, ay)` of bank `b` (R172, R180). -/
def rawPixel (s : State) (b : Bank) (ax ay : Int) : Option Byte :=
  match physAddr s b ax ay with
  | some (p, off) => rowByte s.rows p off
  | none => none

/-- `GetPix(ax, ay)` (R176). -/
def getPix (s : State) (ax ay : Int) : Option Colour :=
  (rawPixel s s.drawBank ax ay).map fun v => v.extractLsb' 0 6

/-- The colour that a bitmap pixel draws, if it is opaque (R82). -/
def bitmapColour (p : Byte) : Option Colour :=
  if p.extractLsb' 6 2 = 0 then none else some (p.extractLsb' 0 6)

/-! ### Writes and the Engine ticks between them -/

/-- One write of an Executor: a row byte (R69) or the buffer of one descriptor (R308, R309). -/
inductive Write where
  | byte (p off : Nat) (v : Byte)
  | repoint (b : Bank) (i p : Nat)
deriving DecidableEq, Repr

/-- The descriptors with the buffer of descriptor `i` of bank `b` set to row `p` (R309). -/
def setDescRow (d : PerBank (List Desc)) (b : Bank) (i p : Nat) : PerBank (List Desc) :=
  match (d.get b)[i]? with
  | some e => d.set b ((d.get b).set i { e with buf := .row p })
  | none => d

def applyWrite (w : Write) (s : State) : State :=
  match w with
  | .byte p off v => { s with rows := setRowByte s.rows p off v }
  | .repoint b i p => { s with desc := setDescRow s.desc b i p }

/-- Writes in order, with Engine ticks before each (R69, D44). -/
def runWrites : List Write → State → State
  | [], s => s
  | w :: ws, s => runWrites ws (applyWrite w (gap s))

/-- Writes in order within one atomic Producer step (R69). -/
def applyWrites : List Write → State → State
  | [], s => s
  | w :: ws, s => applyWrites ws (applyWrite w s)

/-- The write of byte `v` to pixel `(ax, ay)` of the drawing bank, none outside the viewport. -/
def rawWrite (s : State) (ax ay : Int) (v : Byte) : List Write :=
  match physAddr s s.drawBank ax ay with
  | some (p, off) => [.byte p off v]
  | none => []

/-- `PutPix(ax, ay, c)` (R177). -/
def putPix (s : State) (ax ay : Int) (c : Colour) : List Write := rawWrite s ax ay (vpByte s c)

/-! ### Sprites -/

/-- A sprite is drawable (R334). -/
def drawable (sp : Sprite) : Bool :=
  sp.visible && decide (sp.curFrame < sp.frames.length) && (!sp.isStatic || sp.allowDraw)

/-- The rectangle of a frame at `(x, y)` within the viewport (R334); where they do not meet, an empty
one at the nearest corner (log entry 14). -/
def spriteRect (s : State) (x y : Int) (f : Frame) : SavedRect :=
  let rx := max x 0
  let ry := max y 0
  let w := (min (x + f.w) s.vpWidth - rx).toNat
  let h := (min (y + f.h) s.vpHeight - ry).toNat
  if w = 0 ∨ h = 0 then ⟨rx.toNat, ry.toNat, 0, 0⟩ else ⟨rx.toNat, ry.toNat, w, h⟩

/-- The offsets `(k, j)` of a rectangle's pixels, row by row. -/
def rectOffsets (w h : Nat) : List (Nat × Nat) :=
  (List.range h).flatMap fun j => (List.range w).map fun k => (k, j)

/-- The background bytes under a rectangle, row by row (R336). -/
def savedBytes (s : State) (r : SavedRect) : List Byte :=
  (rectOffsets r.w r.h).map fun o => (rawPixel s s.drawBank (r.x + o.1) (r.y + o.2)).getD 0

/-- The writes that restore a sprite's saved background (R335). -/
def restoreWrites (s : State) (sp : Sprite) : List Write :=
  match sp.savedRect with
  | none => []
  | some r =>
    (rectOffsets r.w r.h).flatMap fun o =>
      rawWrite s (r.x + o.1) (r.y + o.2) (sp.savedBg.getD (o.2 * r.w + o.1) 0)

/-- The writes of `HideSprites`: reverse z-order, single-buffer mode only (R335). -/
def hideWrites (s : State) : List Write :=
  if s.doubleBuffered then [] else s.sprites.reverse.flatMap (restoreWrites s)

/-- What `HideSprites` does after its writes (R335). -/
def markHidden (s : State) : State :=
  { s with
    sprites := if s.doubleBuffered then s.sprites
      else s.sprites.map fun sp => { sp with savedRect := none }
    spritesHidden := true }

/-- `HideSprites` (R335). -/
def hideSprites (s : State) : State :=
  if s.spritesHidden then s else markHidden (runWrites (hideWrites s) s)

/-- `HideSprites` within one atomic Producer step (R331, R69). -/
def hideSpritesAtOnce (s : State) : State :=
  if s.spritesHidden then s else markHidden (applyWrites (hideWrites s) s)

/-- The value a read of a sprite position returns: the latest written, or any earlier one (R338, U15). -/
def positionRead (cur : BitVec 16) (old : List (BitVec 16)) (k : Nat) : Int :=
  match old with
  | [] => cur.toInt
  | _ :: _ => ((cur :: old).getD k cur).toInt

/-- The writes of a sprite's opaque pixels (R336); `d` is the address of the frame's pixels. R336 gives the
pixels of `R` no order: that they are written row by row, each from left to right, is the model's own
(DESIGN CHOICE, log entry 26). -/
def spriteWrites (s : State) (d : Nat) (f : Frame) (x y : Int) (r : SavedRect) : List Write :=
  (rectOffsets r.w r.h).flatMap fun o =>
    let ax : Int := r.x + o.1
    let ay : Int := r.y + o.2
    match bitmapColour (memByte s (d + ((ay - y) * f.w + (ax - x)).toNat)) with
    | some c => putPix s ax ay c
    | none => []

/-- The slot after its sprite is shown at `r` (R336): the save, or a static sprite's flag. -/
def shownSlot (s : State) (sp : Sprite) (r : SavedRect) : Sprite :=
  if sp.isStatic then { sp with allowDraw := false }
  else if s.doubleBuffered then sp
  else { sp with savedBg := savedBytes s r ++ sp.savedBg.drop (r.w * r.h), savedRect := some r }

/-- Show frame `f` of slot `i`, its pixels at `d` (R336). -/
def drawSprite (i : Nat) (sp : Sprite) (f : Frame) (d : Nat) (s : State) : State :=
  let x := positionRead sp.x sp.xOld (Config.staleRead s.draws)
  let y := positionRead sp.y sp.yOld (Config.staleRead (s.draws + 1))
  let r := spriteRect s x y f
  runWrites (spriteWrites s d f x y r)
    { s with sprites := s.sprites.set i (shownSlot s sp r), draws := s.draws + 2 }

/-- `ShowSprites` for slot `i` (R336). The frame's data pointer is read from its header now (log entry 11). -/
def showSprite (i : Nat) (s : State) : State :=
  match s.sprites[i]? with
  | none => s
  | some sp =>
    if drawable sp then
      match sp.frames[sp.curFrame]? with
      | none => s
      | some f =>
        if rangeLive s (f.addr + 4) 4 then
          let d := (memU32 s (f.addr + 4)).toNat
          if rangeLive s d (f.w * f.h) then drawSprite i sp f d s
          else raise (.danglingReference d (f.w * f.h)) s
        else raise (.danglingReference (f.addr + 4) 4) s
    else s

/-- The slots from `i` on, `n` of them, in forward z-order. -/
def showFrom : Nat → Nat → State → State
  | 0, _, s => s
  | n + 1, i, s => showFrom n (i + 1) (showSprite i s)

/-- `ShowSprites` (R336). -/
def showSprites (s : State) : State :=
  if !s.doubleBuffered && !s.spritesHidden then s
  else { showFrom s.sprites.length 0 s with spritesHidden := false }

/-! ### Drawing -/

/-- A drawing primitive's writes (R207, R250): `HideSprites` before the first write, then the writes,
all worked out from the state with the sprites hidden. With no write nothing is hidden (log entry 9). -/
def draw (ws : State → List Write) (s : State) : State :=
  match ws (hideSprites s) with
  | [] => s
  | w :: rest => runWrites (w :: rest) (hideSprites s)

/-! ### Drains and the vertical-sync interrupt: entry and return -/

/-- The start of a drain (R201, R204, R209) and of its bookkeeping (R41). -/
def enterDrain (kind : DrainKind) (s : State) : State :=
  { s with inExecutor := true, drainKind := kind, drainStart := s.tick, drainFirst := true }

/-- ISR entry (R209, R373): it saves no architected state. -/
def isrEntry (s : State) : State := enterDrain .isr { s with vsIntPending := false }

/-- `ShowSprites` at the end of a drain (R204, R210, R330). -/
def showAtEnd (s : State) : State :=
  if !s.doubleBuffered && s.spritesHidden then showSprites s else s

/-- The end of a drain: for the ISR its return (R210, R374), for a pump also the end of its own
suspension (R204). -/
def endDrain (s : State) : State :=
  let t := showAtEnd s
  { t with inExecutor := false
           suspendCount := if t.drainKind = .pump then t.suspendCount - 1 else t.suspendCount }

end Sys2Proof.Machine
end

