-- ==== Sys2Proof/Machine/Buffers.lean ====
section
/-! DEFINITION. SwapBuffers (42_queue_executor.md R211). -/

namespace Sys2Proof.Machine

/-- Exchange the roles of the banks and redirect the sentinel to the new visible bank (R211, R136). -/
def flipBanks (s : State) : State :=
  { s with drawBank := s.drawBank.other
           sentinel := { s.sentinel with next := .entry s.drawBank 0 } }

/-- `SwapBuffers` (R211): without double buffering it changes nothing. Where it stands in an ISR drain
is the drain's rule (R206). -/
def execSwapBuffers (s : State) : Host.Outcome State Fault Refusal :=
  if s.doubleBuffered then .next (flipBanks (gap (showSprites s))) else .next s

end Sys2Proof.Machine
end

