-- ==== Sys2Proof/Machine/Operands.lean ====
section
/-! DEFINITION. Operand forms of the primitives: coordinates, clipping and paint options (R173, R174,
R178), rectangles (R255), line and ellipse pixel sets (R251, R258), paths (R267, R268), glyph cells
(R300, R302) and the host-memory records they read (R87, R89 to R91). -/

namespace Sys2Proof.Machine

/-! ### Clipping and paint options -/

/-- `inClip` (R174): swapped corners are normalised. -/
def inClip (s : State) (ax ay : Int) : Bool :=
  let c := s.paint.clipRect
  inVP s ax ay
    && decide (min c.x1 c.x2 ≤ ax) && decide (ax ≤ max c.x1 c.x2)
    && decide (min c.y1 c.y2 ≤ ay) && decide (ay ≤ max c.y1 c.y2)

/-- The absolute coordinate of a logical one (R173). -/
def absPoint (s : State) (p : Point) : Point := ⟨p.x + s.paint.origin.x, p.y + s.paint.origin.y⟩

/-- `fg()` (R178). -/
def fg (s : State) : Colour := if s.paint.swapFGBG then s.paint.brushColor else s.paint.penColor

/-- `bg()` (R178). -/
def bg (s : State) : Colour := if s.paint.swapFGBG then s.paint.penColor else s.paint.brushColor

/-- Invert the pixel at an absolute coordinate (R178 with NOT, R262). -/
def invertPix (s : State) (ax ay : Int) : List Write :=
  match getPix s ax ay with
  | some c => putPix s ax ay (c ^^^ 0b111111#6)
  | none => []

/-- `PaintPix(x, y, c)` (R178). -/
def paintPix (s : State) (p : Point) (c : Colour) : List Write :=
  let a := absPoint s p
  if inClip s a.x a.y then
    if s.paint.invertNot then invertPix s a.x a.y else putPix s a.x a.y c
  else []

/-- `PaintPix` of every pixel of a set, each once (R250). -/
def paintAll (s : State) (ps : List Point) (c : Colour) : List Write :=
  ps.flatMap fun p => paintPix s p c

/-! ### Rectangles (R255) -/

/-- `[lo..hi]`. -/
def intRange (lo hi : Int) : List Int :=
  (List.range (hi + 1 - lo).toNat).map fun (k : Nat) => lo + (k : Int)

/-- `norm` (R255). -/
def normRect (r : Rect) : Rect := ⟨min r.x1 r.x2, min r.y1 r.y2, max r.x1 r.x2, max r.y1 r.y2⟩

/-- The pixels between two corners, inclusive, row by row (R255). -/
def cornerPixels (r : Rect) : List Point :=
  (intRange r.y1 r.y2).flatMap fun y => (intRange r.x1 r.x2).map fun x => ⟨x, y⟩

/-- `pixels(norm(r))` (R255). -/
def rectPixels (r : Rect) : List Point := cornerPixels (normRect r)

/-- The outline of a rectangle (R257). -/
def outlinePixels (r : Rect) : List Point :=
  let n := normRect r
  (rectPixels r).filter fun p => p.x == n.x1 || p.x == n.x2 || p.y == n.y1 || p.y == n.y2

/-! ### Lines (R251) -/

/-- The loop of R251 from `(x0, y0)` with error `err`, at most `n` more steps. -/
def lineWalk (x1 y1 dx dy sx sy : Int) : Nat → Int → Int → Int → List Point
  | 0, x0, y0, _ => [⟨x0, y0⟩]
  | n + 1, x0, y0, err =>
    if x0 = x1 ∧ y0 = y1 then [⟨x0, y0⟩]
    else
      let e2 := 2 * err
      let err1 := if dy ≤ e2 then err + dy else err
      let x := if dy ≤ e2 then x0 + sx else x0
      let err2 := if e2 ≤ dx then err1 + dx else err1
      let y := if e2 ≤ dx then y0 + sy else y0
      ⟨x0, y0⟩ :: lineWalk x1 y1 dx dy sx sy n x y err2

/-- `LinePixels` (R251) in walk order. Every step moves one coordinate at least, so `dx - dy` steps
bound the loop. -/
def linePixels (a b : Point) : List Point :=
  let dx : Int := (b.x - a.x).natAbs
  let dy : Int := -(b.y - a.y).natAbs
  let sx := if a.x < b.x then 1 else -1
  let sy := if a.y < b.y then 1 else -1
  lineWalk b.x b.y dx dy sx sy (dx - dy).toNat a.x a.y (dx + dy)

/-! ### Ellipses (R258) -/

/-- `plot4` about the centre (R258). -/
def plot4 (c : Point) (x y : Int) : List Point :=
  [⟨c.x + x, c.y + y⟩, ⟨c.x - x, c.y + y⟩, ⟨c.x + x, c.y - y⟩, ⟨c.x - x, c.y - y⟩]

/-- The second loop of R258. -/
def ellipseRegion2 (c : Point) (a2 b2 : Int) : Nat → Int → Int → Int → List Point
  | 0, _, _, _ => []
  | n + 1, x, y, d2 =>
    if 0 ≤ y then
      plot4 c x y ++
        (if 0 < d2 then ellipseRegion2 c a2 b2 n x (y - 1) (d2 + 4 * a2 * (3 - 2 * y))
         else ellipseRegion2 c a2 b2 n (x + 1) (y - 1)
            (d2 + 4 * (b2 * (2 * x + 2) + a2 * (3 - 2 * y))))
    else []

/-- The start of the second loop: its decision variable, and at most `y + 1` rows (R258). -/
def ellipseTail (c : Point) (a2 b2 x y : Int) : List Point :=
  ellipseRegion2 c a2 b2 (y + 1).toNat x y
    (b2 * (2 * x + 1) * (2 * x + 1) + 4 * a2 * (y - 1) * (y - 1) - 4 * a2 * b2)

/-- The first loop of R258, then the second. -/
def ellipseRegion1 (c : Point) (a2 b2 : Int) : Nat → Int → Int → Int → List Point
  | 0, x, y, _ => ellipseTail c a2 b2 x y
  | n + 1, x, y, d1 =>
    if b2 * x < a2 * y then
      plot4 c x y ++
        (if d1 < 0 then ellipseRegion1 c a2 b2 n (x + 1) y (d1 + 4 * b2 * (2 * x + 3))
         else ellipseRegion1 c a2 b2 n (x + 1) (y - 1)
            (d1 + 4 * (b2 * (2 * x + 3) + a2 * (2 - 2 * y))))
    else ellipseTail c a2 b2 x y

/-- `EO`, the outline set (R258). The first loop goes on only while `b2*x < a2*y`, and `y` never
exceeds `b`, so `a2*b` steps bound it. -/
def ellipseOutline (c : Point) (w h : Nat) : List Point :=
  if w = 0 ∨ h = 0 then []
  else
    let a : Int := ((w / 2 : Nat) : Int)
    let b : Int := ((h / 2 : Nat) : Int)
    let a2 := a * a
    let b2 := b * b
    (ellipseRegion1 c a2 b2 (a2 * b).toNat 0 b (4 * b2 - 4 * a2 * b + a2)).dedup

/-- The x coordinates of a set's points on row `y`. -/
def rowXs (ps : List Point) (y : Int) : List Int :=
  (ps.filter fun p => p.y == y).map Point.x

/-- The pixels of row `y` between the least and the greatest x of a set (R258). -/
def rowSpan (ps : List Point) (y : Int) : List Point :=
  match rowXs ps y with
  | [] => []
  | x :: xs => (intRange (xs.foldl min x) (xs.foldl max x)).map fun px => ⟨px, y⟩

/-- `EF`, the fill set (R258). -/
def ellipseFill (c : Point) (w h : Nat) : List Point :=
  let eo := ellipseOutline c w h
  ((eo.map Point.y).dedup).flatMap (rowSpan eo)

/-! ### Paths (R91, R267, R268) -/

/-- Point `k` of the array at `pts` (R91). -/
def pathPoint (s : State) (pts k : Nat) : Point :=
  ⟨(memU16 s (pts + 4 * k)).toInt, (memU16 s (pts + 4 * k + 2)).toInt⟩

def pathPoints (s : State) (pts n : Nat) : List Point := (List.range n).map (pathPoint s pts)

/-- Each point of a closed path with the one after it. -/
def closedEdges : List Point → List (Point × Point)
  | [] => []
  | p :: ps => (p :: ps).zip (ps ++ [p])

/-- The set `S` of R267. -/
def pathOutline (ps : List Point) : List Point :=
  ((closedEdges ps).flatMap fun e => linePixels e.1 e.2).dedup

/-- An exact rational `num / den` with `den > 0` (R268). -/
structure Crossing where
  num : Int
  den : Int
deriving DecidableEq, Repr

/-- Where an edge crosses row `y`, if its half-open range of rows holds `y` (R268). -/
def edgeCrossing (y : Int) (e : Point × Point) : Option Crossing :=
  if e.1.y ≤ y ∧ y < e.2.y then
    some ⟨e.1.x * (e.2.y - e.1.y) + (y - e.1.y) * (e.2.x - e.1.x), e.2.y - e.1.y⟩
  else if e.2.y ≤ y ∧ y < e.1.y then
    some ⟨e.1.x * (e.1.y - e.2.y) + (y - e.1.y) * (e.1.x - e.2.x), e.1.y - e.2.y⟩
  else none

def crossingLE (a b : Crossing) : Bool := decide (a.num * b.den ≤ b.num * a.den)

def insertCrossing (c : Crossing) : List Crossing → List Crossing
  | [] => [c]
  | d :: ds => if crossingLE c d then c :: d :: ds else d :: insertCrossing c ds

def sortCrossings : List Crossing → List Crossing
  | [] => []
  | c :: cs => insertCrossing c (sortCrossings cs)

/-- The pixels between two crossings, `ceil` to `floor` (R268). -/
def crossingSpan (a b : Crossing) : List Int := intRange (-((-a.num) / a.den)) (b.num / b.den)

/-- The crossings two by two (R268). -/
def pairSpans : List Crossing → List Int
  | a :: b :: rest => crossingSpan a b ++ pairSpans rest
  | _ => []

/-- The pixels of row `y` inside a path, each once (R250, R268). -/
def fillRow (ps : List Point) (y : Int) : List Point :=
  ((pairSpans (sortCrossings ((closedEdges ps).filterMap (edgeCrossing y)))).dedup).map fun x => ⟨x, y⟩

/-- The pixels of FillPath (R268). -/
def pathInterior (ps : List Point) : List Point :=
  if ps.length < 3 then []
  else
    match ps.map Point.y with
    | [] => []
    | y :: ys => (intRange (ys.foldl min y) (ys.foldl max y)).flatMap (fillRow ps)

/-! ### Glyphs (R86, R89, R300, R302) -/

/-- The options byte of R86. -/
def glyphOpts (o : Byte) : GlyphOpts :=
  { fillBackground := o.getLsbD 0, bold := o.getLsbD 1, italic := o.getLsbD 2
    underline := o.getLsbD 3, doubleWidth := o.getLsbD 4, invert := o.getLsbD 5
    blank := o.getLsbD 6 }

/-- Bytes of a glyph row (R89). -/
def glyphStride (gw : Nat) : Nat := (gw + 7) / 8

/-- `bit(i, j)` (R300). -/
def glyphBit (s : State) (data gw gh : Nat) (i j : Int) : Bool :=
  decide (0 ≤ i) && decide (i < gw) && decide (0 ≤ j) && decide (j < gh)
    && (memByte s (data + j.toNat * glyphStride gw + i.toNat / 8)).getLsbD (7 - i.toNat % 8)

/-- `on3(i, j)` (R302): bold, underline and blank. -/
def glyphOn (s : State) (data gw gh : Nat) (o : GlyphOpts) (i j : Int) : Bool :=
  decide (0 ≤ i) && decide (i < gw)
    && (glyphBit s data gw gh i j || (o.bold && glyphBit s data gw gh (i - 1) j)
        || (o.underline && decide (j = gh - 1)))
    && !o.blank

/-- `sh(j)` (R302). -/
def glyphShear (o : GlyphOpts) (gh : Nat) (j : Int) : Int :=
  if o.italic then ((gh : Int) - 1 - j) / 4 else 0

/-- `Wg` (R302). -/
def glyphWidth (o : GlyphOpts) (gw gh : Nat) : Nat :=
  ((gw : Int) + glyphShear o gh 0).toNat

/-- The colour of cell pixel `(u, j)` before doubling, if it is drawn (R302). -/
def cellColour (s : State) (data gw gh : Nat) (o : GlyphOpts) (f k : Colour) (u j : Nat) : Option Colour :=
  if glyphOn s data gw gh o ((u : Int) - glyphShear o gh j) j then
    some (if o.invert then k else f)
  else if o.fillBackground then some (if o.invert then f else k)
  else none

/-- The cell pixels that have a colour (R302). -/
def glyphCell (s : State) (data gw gh : Nat) (o : GlyphOpts) (f k : Colour) : List (Point × Colour) :=
  let m := if o.doubleWidth then 2 else 1
  (rectOffsets (glyphWidth o gw gh) gh).flatMap fun uj =>
    match cellColour s data gw gh o f k uj.1 uj.2 with
    | some c => (List.range m).map fun (t : Nat) => (⟨(m : Int) * uj.1 + t, uj.2⟩, c)
    | none => []

/-- `PaintPix` of a cell with its top-left at `p` (R303, R305). -/
def paintCell (s : State) (p : Point) (cell : List (Point × Colour)) : List Write :=
  cell.flatMap fun q => paintPix s ⟨p.x + q.1.x, p.y + q.1.y⟩ q.2

end Sys2Proof.Machine
end

