-- ==== Sys2Proof/Machine/Draw.lean ====
section
/-! DEFINITION. The drawing primitives (44_primitives_draw.md R250 to R268). -/

namespace Sys2Proof.Machine

/-- `SetPixel (x, y)` (R252). -/
def execSetPixel (p : Point) (s : State) : Host.Outcome State Fault Refusal :=
  .next (draw (fun h => paintPix h p (fg h)) s)

/-- `SetPixelAt (x, y), c` (R253). -/
def execSetPixelAt (p : Point) (c : Colour) (s : State) : Host.Outcome State Fault Refusal :=
  .next (draw (fun h => paintPix h p c) s)

/-- `LineTo (x, y)` (R254): `penPos` moves even where nothing is visible. -/
def execLineTo (p : Point) (s : State) : Host.Outcome State Fault Refusal :=
  let t := draw (fun h => paintAll h (linePixels h.paint.penPos p) (fg h)) s
  .next { t with paint := { t.paint with penPos := p } }

/-- `FillRect r` (R256). -/
def execFillRect (r : Rect) (s : State) : Host.Outcome State Fault Refusal :=
  .next (draw (fun h => paintAll h (rectPixels r) (bg h)) s)

/-- `DrawRect r` (R257). -/
def execDrawRect (r : Rect) (s : State) : Host.Outcome State Fault Refusal :=
  .next (draw (fun h => paintAll h (outlinePixels r) (fg h)) s)

/-- `FillEllipse w, h` (R259). -/
def execFillEllipse (w h : Nat) (s : State) : Host.Outcome State Fault Refusal :=
  .next (draw (fun u => paintAll u (ellipseFill u.paint.penPos w h) (bg u)) s)

/-- `DrawEllipse w, h` (R260). -/
def execDrawEllipse (w h : Nat) (s : State) : Host.Outcome State Fault Refusal :=
  .next (draw (fun u => paintAll u (ellipseOutline u.paint.penPos w h) (fg u)) s)

/-- Every pixel of the viewport, row by row. -/
def viewportPixels (s : State) : List Point := cornerPixels ⟨0, 0, s.vpWidth - 1, s.vpHeight - 1⟩

/-- The writes of Clear: the whole drawing bank, whatever origin, clip and options (R261). -/
def clearWrites (s : State) : List Write :=
  (viewportPixels s).flatMap fun p => putPix s p.x p.y s.paint.brushColor

/-- `Clear` (R261): the fill uses the brush colour from before the reset of the paint state. -/
def execClear (s : State) : Host.Outcome State Fault Refusal :=
  let t := draw clearWrites s
  .next (if t.params.clearResetsPaintState then { t with paint := Paint.reset t.vpWidth t.vpHeight } else t)

/-- The pixels of a logical rectangle that pass the clip test, absolute (R262). -/
def clippedPixels (s : State) (r : Rect) : List Point :=
  ((rectPixels r).map (absPoint s)).filter fun a => inClip s a.x a.y

/-- `InvertRect r` (R262). -/
def execInvertRect (r : Rect) (s : State) : Host.Outcome State Fault Refusal :=
  .next (draw (fun h => (clippedPixels h r).flatMap fun a => invertPix h a.x a.y) s)

/-- What SwapFGBG does to one pixel (R263). -/
def swapPix (s : State) (a : Point) : List Write :=
  match getPix s a.x a.y with
  | none => []
  | some c =>
    if c = s.paint.penColor then putPix s a.x a.y s.paint.brushColor
    else if c = s.paint.brushColor then putPix s a.x a.y s.paint.penColor
    else []

/-- `SwapFGBG r` (R263). -/
def execSwapFGBG (r : Rect) (s : State) : Host.Outcome State Fault Refusal :=
  .next (draw (fun h => (clippedPixels h r).flatMap (swapPix h)) s)

/-- The copy of one source pixel, read from the snapshot `s` (R264). -/
def copyPix (s : State) (r : Rect) (d p : Point) : List Write :=
  let n := normRect r
  let src := absPoint s p
  let dst := absPoint s ⟨d.x + p.x - n.x1, d.y + p.y - n.y1⟩
  match getPix s src.x src.y with
  | some c => if inClip s dst.x dst.y then putPix s dst.x dst.y c else []
  | none => []

/-- `CopyRect r, (dx, dy)` (R264): all reads come before any write. -/
def execCopyRect (r : Rect) (d : Point) (s : State) : Host.Outcome State Fault Refusal :=
  .next (draw (fun h => (rectPixels r).flatMap (copyPix h r d)) s)

/-- The writes of a bitmap of `w` by `h` pixels at `data` (R265). -/
def bitmapWrites (s : State) (p : Point) (w h data : Nat) : List Write :=
  (rectOffsets w h).flatMap fun o =>
    let a := absPoint s ⟨p.x + o.1, p.y + o.2⟩
    match bitmapColour (memByte s (data + o.2 * w + o.1)) with
    | some c => if inClip s a.x a.y then putPix s a.x a.y c else []
    | none => []

/-- `DrawBitmap (x, y), bmp` (R265, R266): both ranges are checked before any write. -/
def execDrawBitmap (p : Point) (bmp : Nat) (s : State) : Host.Outcome State Fault Refusal :=
  if rangeLive s bmp 8 then
    let w := (memU16 s bmp).toNat
    let h := (memU16 s (bmp + 2)).toNat
    let d := (memU32 s (bmp + 4)).toNat
    if rangeLive s d (w * h) then .next (draw (fun u => bitmapWrites u p w h d) s)
    else .next (raise (.danglingReference d (w * h)) s)
  else .next (raise (.danglingReference bmp 8) s)

/-- `DrawPath pts, n` (R267). -/
def execDrawPath (pts n : Nat) (s : State) : Host.Outcome State Fault Refusal :=
  if rangeLive s pts (4 * n) then
    .next (draw (fun h => paintAll h (pathOutline (pathPoints h pts n)) (fg h)) s)
  else .next (raise (.danglingReference pts (4 * n)) s)

/-- `FillPath pts, n` (R268). -/
def execFillPath (pts n : Nat) (s : State) : Host.Outcome State Fault Refusal :=
  if rangeLive s pts (4 * n) then
    .next (draw (fun h => paintAll h (pathInterior (pathPoints h pts n)) (bg h)) s)
  else .next (raise (.danglingReference pts (4 * n)) s)

end Sys2Proof.Machine
end

