-- ==== Sys2Proof/Machine/Glyph.lean ====
section
/-! DEFINITION. The glyph primitives (45_primitives_glyph_scroll.md R300 to R305). -/

namespace Sys2Proof.Machine

/-- The cell of DrawGlyph; "`gw = 0` or `gh = 0` draws nothing" (R303). -/
def drawnGlyph (s : State) (gw gh data : Nat) : List (Point × Colour) :=
  if gw = 0 ∨ gh = 0 then [] else glyphCell s data gw gh s.paint.glyphOpt (fg s) (bg s)

/-- `DrawGlyph (x, y), gw, gh, data` (R303). -/
def execDrawGlyph (p : Point) (gw gh data : Nat) (s : State) : Host.Outcome State Fault Refusal :=
  if rangeLive s data (gh * glyphStride gw) then
    .next (draw (fun h => paintCell h p (drawnGlyph h gw gh data)) s)
  else .next (raise (.danglingReference data (gh * glyphStride gw)) s)

/-- The glyph buffer header (R90). -/
structure GlyphBuffer where
  glyphsWidth : Nat
  glyphsHeight : Nat
  font : Nat
  columns : Nat
  rows : Nat
  map : Nat
deriving DecidableEq, Repr

def glyphBuffer (s : State) (gbuf : Nat) : GlyphBuffer :=
  { glyphsWidth := (memU16 s gbuf).toNat, glyphsHeight := (memU16 s (gbuf + 2)).toNat
    font := (memU32 s (gbuf + 4)).toNat, columns := (memU16 s (gbuf + 8)).toNat
    rows := (memU16 s (gbuf + 10)).toNat, map := (memU32 s (gbuf + 12)).toNat }

/-- The address of the cell at `(col, row)` of the map (R90, R305). -/
def cellAddr (g : GlyphBuffer) (col row : Nat) : Nat := g.map + 4 * (row * g.columns + col)

/-- The address of the bitmap of glyph `n` (R90, R305). -/
def glyphAddr (g : GlyphBuffer) (n : Nat) : Nat :=
  g.font + n * glyphStride g.glyphsWidth * g.glyphsHeight

/-- The pixels of the cell word `m`, its glyph at `data` (R90, R305). -/
def bufferCell (s : State) (g : GlyphBuffer) (m : BitVec 32) (data : Nat) : List (Point × Colour) :=
  glyphCell s data g.glyphsWidth g.glyphsHeight (glyphOpts (m.extractLsb' 24 8))
    (m.extractLsb' 16 6) (m.extractLsb' 8 6)

/-- `RenderGlyphsBuffer col, row, gbuf` (R305): one cell. -/
def execRenderGlyphsBuffer (col row gbuf : Nat) (s : State) : Host.Outcome State Fault Refusal :=
  if rangeLive s gbuf 16 then
    let g := glyphBuffer s gbuf
    if col < g.columns ∧ row < g.rows then
      if rangeLive s (cellAddr g col row) 4 then
        let m := memU32 s (cellAddr g col row)
        let data := glyphAddr g (m.extractLsb' 0 8).toNat
        let n := g.glyphsHeight * glyphStride g.glyphsWidth
        if rangeLive s data n then
          .next (draw (fun h => paintCell h ⟨col * g.glyphsWidth, row * g.glyphsHeight⟩
            (bufferCell h g m data)) s)
        else .next (raise (.danglingReference data n) s)
      else .next (raise (.danglingReference (cellAddr g col row) 4) s)
    else .next s
  else .next (raise (.danglingReference gbuf 16) s)

end Sys2Proof.Machine
end

