-- ==== Sys2Proof/Machine/PaintState.lean ====
section
/-! DEFINITION. The paint-state primitives (43_primitives_state.md R230 to R237). None writes the frame
buffer, hides sprites or raises a fault. -/

namespace Sys2Proof.Machine

/-- `SetPenColor c` (R230). -/
def execSetPenColor (c : Colour) (s : State) : Host.Outcome State Fault Refusal :=
  .next { s with paint := { s.paint with penColor := c } }

/-- `SetBrushColor c` (R231). -/
def execSetBrushColor (c : Colour) (s : State) : Host.Outcome State Fault Refusal :=
  .next { s with paint := { s.paint with brushColor := c } }

/-- `MoveTo (x, y)` (R232): logical coordinates, nothing clipped. -/
def execMoveTo (p : Point) (s : State) : Host.Outcome State Fault Refusal :=
  .next { s with paint := { s.paint with penPos := p } }

/-- `SetGlyphOptions o` (R233, R86): bit 7 of the payload byte is no part of `o`. -/
def execSetGlyphOptions (o : BitVec 7) (s : State) : Host.Outcome State Fault Refusal :=
  .next { s with paint := { s.paint with glyphOpt := glyphOpts (o.setWidth 8) } }

/-- `SetPaintOptions o` (R234). -/
def execSetPaintOptions (swap inv : Bool) (s : State) : Host.Outcome State Fault Refusal :=
  .next { s with paint := { s.paint with swapFGBG := swap, invertNot := inv } }

/-- The rectangle that SetScrollingRegion stores on a viewport of `w` by `h` (R235). -/
def clampRegion (w h : Int) (r : Rect) : Rect :=
  if w = 0 ∨ h = 0 then ⟨0, 0, -1, -1⟩
  else
    ⟨clamp (min r.x1 r.x2) 0 (w - 1), clamp (min r.y1 r.y2) 0 (h - 1),
     clamp (max r.x1 r.x2) 0 (w - 1), clamp (max r.y1 r.y2) 0 (h - 1)⟩

/-- `SetScrollingRegion r` (R235). -/
def execSetScrollingRegion (r : Rect) (s : State) : Host.Outcome State Fault Refusal :=
  .next { s with paint := { s.paint with scrollRegion := clampRegion s.vpWidth s.vpHeight r } }

/-- `SetOrigin (x, y)` (R236). -/
def execSetOrigin (p : Point) (s : State) : Host.Outcome State Fault Refusal :=
  .next { s with paint := { s.paint with origin := p } }

/-- `SetClippingRect r` (R237): stored as given. -/
def execSetClippingRect (r : Rect) (s : State) : Host.Outcome State Fault Refusal :=
  .next { s with paint := { s.paint with clipRect := r } }

end Sys2Proof.Machine
end

