-- ==== Sys2Proof/Machine/Scroll.lean ====
section
/-! DEFINITION. The scroll primitives (45_primitives_glyph_scroll.md R306 to R311). The region is
rotated, in absolute coordinates, whatever origin, clip and options. -/

namespace Sys2Proof.Machine

/-- `W` (R306). -/
def regionWidth (r : Rect) : Int := r.x2 - r.x1 + 1

/-- `H` (R306). -/
def regionHeight (r : Rect) : Int := r.y2 - r.y1 + 1

/-- Where the content of coordinate `v` comes from when `[lo, lo+n)` is rotated by `d` (R308, R310). -/
def rotateFrom (lo n d v : Int) : Int := lo + (v - lo - d) % n

/-- The row map after the pointer rotation (R308). -/
def rotatedMap (r : Rect) (dy : Int) (m : List Nat) : List Nat :=
  (List.range m.length).map fun (y : Nat) =>
    if r.y1 ≤ (y : Int) ∧ (y : Int) ≤ r.y2 then
      m.getD (rotateFrom r.y1 (regionHeight r) dy y).toNat (m.getD y 0)
    else m.getD y 0

/-- The columns of the viewport outside the region (R308). -/
def outsideColumns (s : State) (r : Rect) : List Int :=
  (intRange 0 (s.vpWidth - 1)).filter fun x => decide (x < r.x1) || decide (r.x2 < x)

/-- The writes that keep the columns outside the region: `old` before, `s` after the rotation (R308). -/
def keepColumns (old s : State) (r : Rect) : List Write :=
  (intRange r.y1 r.y2).flatMap fun y => (outsideColumns s r).flatMap fun x =>
    match rawPixel old old.drawBank x y with
    | some v => rawWrite s x y v
    | none => []

/-- The writes that re-point the row-segment descriptors of the region's rows (R309). -/
def repointRows (s : State) (r : Rect) : List Write :=
  (intRange r.y1 r.y2).flatMap fun y =>
    match (s.rowMap.get s.drawBank)[y.toNat]? with
    | some p => (List.range s.timings.scanCount).map fun k =>
        .repoint s.drawBank (rowDescIndex s.timings (geometry s) y.toNat k) p
    | none => []

/-- VScroll where it moves something (R308): hide, rotate the pointers, keep the columns outside the
region, re-point the descriptors. -/
def vScrollBy (dy : Int) (s : State) : State :=
  let h := hideSprites s
  let r := h.paint.scrollRegion
  let t := { h with rowMap := h.rowMap.set h.drawBank (rotatedMap r dy (h.rowMap.get h.drawBank)) }
  runWrites (keepColumns h t r ++ repointRows t r) t

/-- `VScroll dy` (R308). -/
def execVScroll (dy : Int) (s : State) : Host.Outcome State Fault Refusal :=
  let r := s.paint.scrollRegion
  if regionWidth r ≤ 0 ∨ regionHeight r ≤ 0 ∨ dy % regionHeight r = 0 then .next s
  else .next (vScrollBy dy s)

/-- The writes of HScroll (R310); the fast path of R311 gives the same result. -/
def hScrollWrites (dx : Int) (s : State) : List Write :=
  let r := s.paint.scrollRegion
  (cornerPixels r).flatMap fun p =>
    match getPix s (rotateFrom r.x1 (regionWidth r) dx p.x) p.y with
    | some c => putPix s p.x p.y c
    | none => []

/-- `HScroll dx` (R310). -/
def execHScroll (dx : Int) (s : State) : Host.Outcome State Fault Refusal :=
  let r := s.paint.scrollRegion
  if regionWidth r ≤ 0 ∨ regionHeight r ≤ 0 ∨ dx % regionWidth r = 0 then .next s
  else .next (draw (hScrollWrites dx) s)

end Sys2Proof.Machine
end

