-- ==== Sys2Proof/Machine/Sprites.lean ====
section
/-! DEFINITION. The sprite operations (46_sprites.md R331 to R333, R337). Hiding and showing are in Ops. -/

namespace Sys2Proof.Machine

/-- `RefreshSprites` (R337). -/
def execRefreshSprites (s : State) : Host.Outcome State Fault Refusal :=
  .next (showSprites (hideSprites s))

/-- `(addr, w, h)` of the bitmap header at `a` (R87, R331). -/
def frameAt (s : State) (a : Nat) : Frame := ⟨a, (memU16 s a).toNat, (memU16 s (a + 2)).toNat⟩

/-- `maxW * maxH` over the frames (R43, R331). -/
def savedSize (fs : List Frame) : Nat :=
  (fs.map Frame.w).foldl max 0 * (fs.map Frame.h).foldl max 0

/-- A slot as SetSprites installs it (R331). DESIGN CHOICE: its positions have no earlier values, so that a
read never returns a SpriteWrite made before this SetSprites, which R338 leaves open (log entry 15). -/
def installSlot (s : State) (i : SpriteInit) : Sprite :=
  { x := i.x, y := i.y, frames := i.frames.map (frameAt s), curFrame := i.curFrame
    visible := i.visible, isStatic := i.isStatic, allowDraw := true
    savedBg := List.replicate (savedSize (i.frames.map (frameAt s))) 0
    savedRect := none, xOld := [], yOld := [] }

/-- The first frame header outside `live`, in the order of the list (R331). -/
def deadHeader (s : State) (slots : List SpriteInit) : Option Nat :=
  (slots.flatMap SpriteInit.frames).find? fun a => !rangeLive s a 8

/-- `SetSprites(list)` (R331), one atomic Producer step. A list longer than `MaxSprites` is no operand
of it and is refused (log entry 5); with a dead header the slots stay as they were (log entry 12). -/
def execSetSprites (slots : List SpriteInit) (s : State) : Host.Outcome State Fault Refusal :=
  if atMost slots s.params.maxSprites then
    let h := hideSpritesAtOnce s
    match deadHeader h slots with
    | some a => .next (raise (.danglingReference a 8) h)
    | none => .next { h with sprites := slots.map (installSlot h) }
  else .next (refuse s)

/-- The slot after `SpriteWrite` (R332). A position keeps its earlier values for R338 (log entry 15). -/
def updateSlot (u : SpriteUpdate) (sp : Sprite) : Sprite :=
  match u with
  | .x v => { sp with x := v, xOld := sp.x :: sp.xOld }
  | .y v => { sp with y := v, yOld := sp.y :: sp.yOld }
  | .curFrame n => { sp with curFrame := n }
  | .visible b => { sp with visible := b }
  | .isStatic b => { sp with isStatic := b }
  | .allowDraw b => { sp with allowDraw := b }

/-- `SpriteWrite(i, field, v)` (R332, R364). -/
def execSpriteWrite (slot : Nat) (upd : SpriteUpdate) (s : State) : Host.Outcome State Fault Refusal :=
  match s.sprites[slot]? with
  | some sp => .next { s with sprites := s.sprites.set slot (updateSlot upd sp) }
  | none => .next (refuse s)

/-- The slot with one more frame (R333): `savedBg` grows with zeros and never shrinks (log entry 13). -/
def addFrame (f : Frame) (sp : Sprite) : Sprite :=
  { sp with
    frames := sp.frames ++ [f]
    savedBg := sp.savedBg ++ List.replicate (savedSize (sp.frames ++ [f]) - sp.savedBg.length) 0 }

/-- `SpriteAddFrame(i, bmp)` (R333, R364). -/
def execSpriteAddFrame (slot bmp : Nat) (s : State) : Host.Outcome State Fault Refusal :=
  match s.sprites[slot]? with
  | some sp =>
    if rangeLive s bmp 8 then
      .next { s with sprites := s.sprites.set slot (addFrame (frameAt s bmp) sp) }
    else .next (raise (.danglingReference bmp 8) s)
  | none => .next (refuse s)

end Sys2Proof.Machine
end

