-- ==== Sys2Proof/Machine/Executor.lean ====
section
/-! DEFINITION. `Exec(P)` and the drains (42_queue_executor.md R200 to R213), and the Producer's queue
operations. -/

namespace Sys2Proof.Machine

/-- Go on from a next state. -/
def onNext (o : Host.Outcome State Fault Refusal) (f : State → Host.Outcome State Fault Refusal) :
    Host.Outcome State Fault Refusal :=
  match o with
  | .next t => f t
  | .fault r => .fault r
  | .refused r => .refused r

/-- Change the next state. -/
def mapNext (f : State → State) (o : Host.Outcome State Fault Refusal) : Host.Outcome State Fault Refusal :=
  onNext o fun t => .next (f t)

/-- The rectangles of the drawable sprites (R334). -/
def spriteGeometry (s : State) : List Int :=
  s.sprites.flatMap fun sp =>
    if drawable sp then
      match sp.frames[sp.curFrame]? with
      | some f => [sp.x.toInt, sp.y.toInt, f.w, f.h]
      | none => []
    else []

/-- The part of a primitive's geometry that its record does not hold: sizes and points in host memory, glyph
options that change a cell's size, and the sprites' rectangles. DESIGN CHOICE: where a header, a cell or a
point array is not allocated, R61 and R404 do not say what the cost depends on; its bytes are then read for
the cost as they stand, with no check of `live` and no fault (log entry 8). -/
def readGeometry (i : Instr) (s : State) : List Int :=
  match i with
  | .drawGlyph _ _ _ _ => [s.paint.glyphOpt.doubleWidth.toNat, s.paint.glyphOpt.italic.toNat]
  | .renderGlyphsBuffer col row gbuf =>
    let g := glyphBuffer s gbuf
    let o := glyphOpts ((memU32 s (cellAddr g col row)).extractLsb' 24 8)
    [g.glyphsWidth, g.glyphsHeight, g.columns, g.rows, o.doubleWidth.toNat, o.italic.toNat]
  | .drawBitmap _ bmp => [(memU16 s bmp).toNat, (memU16 s (bmp + 2)).toNat]
  | .drawPath pts n => (pathPoints s pts n).flatMap fun p => [p.x, p.y]
  | .fillPath pts n => (pathPoints s pts n).flatMap fun p => [p.x, p.y]
  | .refreshSprites => spriteGeometry s
  | .swapBuffers => spriteGeometry s
  | _ => []

/-- All that the cost of an `Exec` may depend on beside its primitive (R404): the size of the viewport, the
clipping rectangle, the scrolling region, the origin and the pen position, and what the primitive reads
(log entry 8). -/
def execGeometry (i : Instr) (s : State) : List Int :=
  let c := s.paint.clipRect
  let r := s.paint.scrollRegion
  [s.vpWidth, s.vpHeight, c.x1, c.y1, c.x2, c.y2, r.x1, r.y1, r.x2, r.y2,
   s.paint.origin.x, s.paint.origin.y, s.paint.penPos.x, s.paint.penPos.y] ++ readGeometry i s

/-- The ticks that an `Exec` of the record takes (R404). What decoding ignores has no part in it (R83, R96). -/
def recordCost (P : Record) (s : State) : Nat :=
  match decodePrim P with
  | .ok i => Config.execCost i (execGeometry i s)
  | .error _ => Config.reservedCost (recByte P 0)

/-- The start of an `Exec`: its whole cost is left (R404). -/
def beginExec (P : Record) (s : State) : State := { s with costLeft := some (recordCost P s) }

/-- `Exec(P)` (R207): the primitive's meaning, or ReservedPrimitive for a reserved tag (R96), and then
the rest of its ticks (R404). `run` gives the meaning of an instruction. -/
def runRecord (run : Instr → State → Host.Outcome State Fault Refusal) (P : Record) (s : State) :
    Host.Outcome State Fault Refusal :=
  match decodePrim P with
  | .ok i => mapNext costTicks (run i (beginExec P s))
  | .error _ => .next (costTicks (raise (.reservedPrimitive (recByte P 0)) (beginExec P s)))

/-! ### One step of a drain in progress -/

/-- The record is a SwapBuffers (R206). -/
def isSwap (P : Record) : Bool := (recByte P 0).toNat == 0x17

/-- The record must wait for the next ISR drain (R206). -/
def mustRequeue (s : State) (P : Record) : Bool :=
  decide (s.drainKind = .isr) && isSwap P && !s.drainFirst

/-- The end of one turn of the drain loop: the budget check of R210. -/
def afterPrimitive (s : State) : State :=
  let t := { s with drainFirst := false }
  if t.drainKind = .isr ∧ overBudget t then endDrain t else t

/-- One turn of the drain loop (R210, R204). -/
def drainStep (run : Instr → State → Host.Outcome State Fault Refusal) (s : State) :
    Host.Outcome State Fault Refusal :=
  match s.queue with
  | [] => .next (endDrain s)
  | P :: ps =>
    if mustRequeue s P then .next (endDrain s)
    else mapNext afterPrimitive (runRecord run P { s with queue := ps })

/-- The end of an immediate AddPrimitive (R201); the first primitive has been taken (R41). -/
def endImmediate (s : State) : State := { s with inExecutor := false, drainFirst := false }

/-- After its drain an immediate AddPrimitive executes its own record (R201). -/
def immediateStep (run : Instr → State → Host.Outcome State Fault Refusal) (P : Record) (s : State) :
    Host.Outcome State Fault Refusal :=
  mapNext endImmediate (runRecord run P (enterDrain .immediate { s with immediate := none }))

/-! ### The Producer's queue operations -/

/-- `AddPrimitive(P)` (R201). With the queue full in background mode the Producer waits with the record
(log entry 7). In immediate mode the drain of the older records begins; it goes on as Executor steps (R69),
and the record waits for its end (log entry 34). -/
def execAddPrimitive (P : Record) (s : State) : Host.Outcome State Fault Refusal :=
  if s.backgroundExec then
    if queueHasRoom s then .next { s with queue := s.queue ++ [P] }
    else .next { s with blocked := some P }
  else .next (enterDrain .immediate { s with immediate := some P })

/-- `Suspend()` (R202). -/
def execSuspend (s : State) : Host.Outcome State Fault Refusal :=
  .next { s with suspendCount := s.suspendCount + 1 }

/-- `Resume()` (R203). -/
def execResume (s : State) : Host.Outcome State Fault Refusal :=
  if s.suspendCount = 0 then .next (raise .unbalancedResume s)
  else .next { s with suspendCount := s.suspendCount - 1 }

/-- `ProcessPrimitives()` (R204): the pump begins, inside its own suspension; it goes on as Executor steps
(R69), and `endDrain` takes the suspension back. -/
def execProcessPrimitives (s : State) : Host.Outcome State Fault Refusal :=
  .next (enterDrain .pump { s with suspendCount := s.suspendCount + 1 })

/-- `EnableBackgroundExecution(e)` (R205). -/
def execEnableBackgroundExecution (on : Bool) (s : State) : Host.Outcome State Fault Refusal :=
  .next { s with backgroundExec := on }

end Sys2Proof.Machine
end

