-- ==== Sys2Proof/Machine/HostAccess.lean ====
section
/-! DEFINITION. Pixel readback and the host-memory operations (41_viewport.md R180, R182). -/

namespace Sys2Proof.Machine

/-- `ReadPixel(ax, ay)` (R180): the whole raw byte of the drawing bank; its only effect is the value it
returns. -/
def execReadPixel (x y : Int) (s : State) : Host.Outcome State Fault Refusal :=
  .next { s with ret := .pixel (if s.configured then rawPixel s s.drawBank x y else none) }

/-- `HostAlloc(a, n)` (R182). -/
def execHostAlloc (addr len : Nat) (s : State) : Host.Outcome State Fault Refusal :=
  .next { s with live := if len = 0 then s.live else Ranges.insert s.live addr (addr + len) }

/-- `HostFree(a, n)` (R182). -/
def execHostFree (addr len : Nat) (s : State) : Host.Outcome State Fault Refusal :=
  .next { s with live := if len = 0 then s.live else Ranges.remove s.live addr (addr + len) }

/-- `HostWrite(a, bytes)` (R182, R364): all bytes or, where one lies outside `live`, a refusal. -/
def execHostWrite (addr : Nat) (bytes : List Byte) (s : State) : Host.Outcome State Fault Refusal :=
  if rangeLive s addr bytes.length then
    .next { s with hostmem := Memory.writeBytes s.hostmem addr bytes }
  else .next (refuse s)

end Sys2Proof.Machine
end

