-- ==== Sys2Proof/Machine/Modeline.lean ====
section
/-! DEFINITION. The modeline grammar (R92) and the mapping of its tokens to timings (R120, R121). A
text is a list of bytes, one a character. -/

namespace Sys2Proof.Machine

/-- `ws` is a space or a tab (R92). -/
def isWs (b : Byte) : Bool := b == 0x20 || b == 0x09

def isDigit (b : Byte) : Bool := decide (0x30 ≤ b.toNat) && decide (b.toNat ≤ 0x39)

/-- A character the label may hold: %x20-21 / %x23-7E (R92). -/
def isLabelChar (b : Byte) : Bool :=
  decide (0x20 ≤ b.toNat) && decide (b.toNat ≤ 0x7E) && b != 0x22

/-- A keyword as bytes. -/
def keyword (cs : List Char) : List Byte := cs.map fun c => BitVec.ofNat 8 c.toNat

def skipWs : List Byte → List Byte
  | [] => []
  | b :: bs => if isWs b then skipWs bs else b :: bs

/-- The label after its opening quote: its characters and what follows the closing quote (R92). -/
def scanLabel : List Byte → Option (List Byte × List Byte)
  | [] => none
  | b :: bs =>
    if b = 0x22 then some ([], bs)
    else if isLabelChar b then (scanLabel bs).map fun r => (b :: r.1, r.2)
    else none

/-- The maximal runs of characters that are not `ws`. -/
def tokens : List Byte → List (List Byte)
  | [] => []
  | b :: bs =>
    if isWs b then tokens bs
    else
      match bs, tokens bs with
      | [], _ => [[b]]
      | c :: _, ts => if isWs c then [b] :: ts else
        match ts with
        | [] => [[b]]
        | t :: ts => (b :: t) :: ts

/-- The number that digits spell, continuing from `acc`. -/
def digitsValue : Nat → List Byte → Nat
  | acc, [] => acc
  | acc, b :: bs => digitsValue (10 * acc + (b.toNat - 0x30)) bs

/-- `uint = 1*DIGIT` (R92). -/
def readUint (t : List Byte) : Option Int :=
  if !t.isEmpty && t.all isDigit then some ((digitsValue 0 t : Nat) : Int) else none

def dropTrailingZeros (t : List Byte) : List Byte := (t.reverse.dropWhile (· == 0x30)).reverse

/-- The exact value of the digits before and after the point, in least form. -/
def decimalOf (whole frac : List Byte) : Decimal :=
  let f := dropTrailingZeros frac
  ⟨digitsValue 0 (whole ++ f), f.length⟩

/-- `clock = 1*DIGIT ["." 1*DIGIT]` (R92), as an exact decimal (R121). -/
def readClock (t : List Byte) : Option Decimal :=
  let whole := t.takeWhile isDigit
  if whole.isEmpty then none
  else
    match t.dropWhile isDigit with
    | [] => some (decimalOf whole [])
    | c :: frac =>
      if c = 0x2E && !frac.isEmpty && frac.all isDigit then some (decimalOf whole frac) else none

def kwPlusH : List Byte := keyword ['+', 'H', 'S', 'y', 'n', 'c']
def kwMinusH : List Byte := keyword ['-', 'H', 'S', 'y', 'n', 'c']
def kwPlusV : List Byte := keyword ['+', 'V', 'S', 'y', 'n', 'c']
def kwMinusV : List Byte := keyword ['-', 'V', 'S', 'y', 'n', 'c']
def kwDoubleScan : List Byte := keyword ['D', 'o', 'u', 'b', 'l', 'e', 'S', 'c', 'a', 'n']
def kwFrontPorch : List Byte :=
  keyword ['F', 'r', 'o', 'n', 't', 'P', 'o', 'r', 'c', 'h', 'B', 'e', 'g', 'i', 'n', 's']
def kwSync : List Byte := keyword ['S', 'y', 'n', 'c', 'B', 'e', 'g', 'i', 'n', 's']
def kwBackPorch : List Byte :=
  keyword ['B', 'a', 'c', 'k', 'P', 'o', 'r', 'c', 'h', 'B', 'e', 'g', 'i', 'n', 's']
def kwVisible : List Byte :=
  keyword ['V', 'i', 's', 'i', 'b', 'l', 'e', 'B', 'e', 'g', 'i', 'n', 's']

/-- `hpol` (R92): `+` is Pos (R121). -/
def readHPol (t : List Byte) : Option SyncPol :=
  if t = kwPlusH then some .pos else if t = kwMinusH then some .neg else none

/-- `vpol` (R92). -/
def readVPol (t : List Byte) : Option SyncPol :=
  if t = kwPlusV then some .pos else if t = kwMinusV then some .neg else none

/-- `block` (R92, R121). -/
def readBlock (t : List Byte) : Option HBlock :=
  if t = kwFrontPorch then some .frontPorch
  else if t = kwSync then some .sync
  else if t = kwBackPorch then some .backPorch
  else if t = kwVisible then some .visibleArea
  else none

/-- The optional tokens, only in the order shown in R92: scan count and starting block (R121). -/
def readOptions : List (List Byte) → Option (Nat × HBlock)
  | [] => some (1, .frontPorch)
  | [t] => if t = kwDoubleScan then some (2, .frontPorch) else (readBlock t).map fun b => (1, b)
  | [t, u] => if t = kwDoubleScan then (readBlock u).map fun b => (2, b) else none
  | _ => none

/-- R121: the eight numbers become intervals. -/
def timingsOf (label : List Byte) (clock : Decimal) (hd hss hse ht vd vss vse vt : Int)
    (hp vp : SyncPol) (scan : Nat) (blk : HBlock) : Timings :=
  { label := label, clockMHz := clock
    hVisible := hd, hFrontPorch := hss - hd, hSyncPulse := hse - hss, hBackPorch := ht - hse
    vVisible := vd, vFrontPorch := vss - vd, vSyncPulse := vse - vss, vBackPorch := vt - vse
    hSyncPol := hp, vSyncPol := vp, scanCount := scan, hStartingBlock := blk }

/-- The tokens after the label (R92, R121). -/
def readTokens (label : List Byte) : List (List Byte) → Option Timings
  | clock :: hd :: hss :: hse :: ht :: vd :: vss :: vse :: vt :: hp :: vp :: opts => do
    let clock ← readClock clock
    let hd ← readUint hd
    let hss ← readUint hss
    let hse ← readUint hse
    let ht ← readUint ht
    let vd ← readUint vd
    let vss ← readUint vss
    let vse ← readUint vse
    let vt ← readUint vt
    let hp ← readHPol hp
    let vp ← readVPol vp
    let o ← readOptions opts
    some (timingsOf label clock hd hss hse ht vd vss vse vt hp vp o.1 o.2)
  | _ => none

/-- `DecodeModeline(s)` (R120): the timings, or nothing where the text is not of the grammar. There is
no check of the numbers (R122). -/
def parseModeline (text : List Byte) : Option Timings :=
  match skipWs text with
  | [] => none
  | q :: rest =>
    if q = 0x22 then
      match scanLabel rest with
      | none => none
      | some (label, after) =>
        match after with
        | [] => none
        | c :: _ => if isWs c then readTokens label (tokens after) else none
    else none

end Sys2Proof.Machine
end

