-- ==== Sys2Proof/Machine/Screen.lean ====
section
/-! DEFINITION. The configuration operations (40_timing_generator.md R120, R131, R140, R141; R170). Each
is one atomic Producer step. -/

namespace Sys2Proof.Machine

/-- `DecodeModeline(s)` (R120): its only effect is the value it returns. -/
def execDecodeModeline (text : List Byte) (s : State) : Host.Outcome State Fault Refusal :=
  .next { s with ret := .timings (parseModeline text) }

/-- Blocks of whole rows, `n` rows in all, cut at the drawn sizes (R170, log entry 22). -/
def cutBlocks : List Nat → Nat → List Nat
  | _, 0 => []
  | [], n + 1 => [n + 1]
  | k :: ks, n + 1 => if n ≤ k then [n + 1] else (k + 1) :: cutBlocks ks (n - k)

/-- Timings, geometry, blank buffers, chains and sentinel anew, and the Engine at the sentinel and
running (R131, R133, R135, R136, R140, R141, R363; log entry 20). -/
def rebuildScan (t : Timings) (g : Geometry) (s : State) : State :=
  { s with
    timings := t
    vpWidth := g.vpWidth, vpHeight := g.vpHeight, vpCol := g.vpCol, vpRow := g.vpRow
    blank0 := blankLine s.params t false, blank1 := blankLine s.params t true
    desc := ⟨chain t g .zero s.rowMap.zero,
             if s.doubleBuffered then chain t g .one s.rowMap.one else []⟩
    sentinel := Desc.linkTo (.entry (visBank s) 0)
    cur := .sentinel, pos := 0, engineRunning := true }

/-- The geometry of R127 for the requested width and the achieved height. -/
def newGeometry (t : Timings) (rw : Int) (ah : Nat) : Geometry :=
  let w := viewportWidth t rw
  ⟨w, ah, viewportCol t w, viewportRow t ah⟩

/-- The row map of freshly allocated rows, `ah` a bank (R170). -/
def freshRowMap (dbl : Bool) (ah : Nat) : PerBank (List Nat) :=
  ⟨List.range ah, if dbl then (List.range ah).map (ah + ·) else []⟩

/-- What `SetResolution` does once the timings are accepted, with `ah` rows a bank obtained in blocks
cut as `split` says (R131, R170, R393). -/
def applyResolution (t : Timings) (rw : Int) (dbl : Bool) (ah : Nat) (split : List Nat) (s : State) : State :=
  let g := newGeometry t rw ah
  let black := pixbyte s.params (vsOff t) (hsOff t) 0
  let n := if dbl then 2 * ah else ah
  rebuildScan t g
    { s with
      doubleBuffered := dbl, drawBank := .zero
      rows := List.replicate n (List.replicate g.vpWidth.toNat black)
      rowMap := freshRowMap dbl ah, pools := cutBlocks split n
      paint := Paint.reset g.vpWidth g.vpHeight
      sprites := s.sprites.map fun sp => { sp with savedRect := none }
      spritesHidden := true, vsIntPending := false, configured := true
      lat := Desc.linkTo .sentinel, ret := .success true }

/-- The rows a bank that the allocator gives, at most the `h0` asked for (R170, log entry 22). -/
def achievedHeight (h0 : Int) (k : Nat) : Nat := min h0.toNat (Config.allocOracle k)

/-- `SetResolution(s, rw, rh, dbl)` (R131, R366). -/
def execSetResolution (text : List Byte) (rw rh : Int) (dbl : Bool) (s : State) :
    Host.Outcome State Fault Refusal :=
  match parseModeline text with
  | none => .next { s with ret := .success false }
  | some t =>
    if timingsWF s.params t then
      .next (applyResolution t rw dbl (achievedHeight (requestedHeight t rw rh) s.draws)
        (Config.poolSplit s.draws) { s with draws := s.draws + 1 })
    else .next { raise (.malformedTimings t) s with ret := .success false }

/-- The timings after `MoveScreen` (R140). -/
def movedTimings (dx dy : Int) (t : Timings) : Timings :=
  { t with hFrontPorch := t.hFrontPorch - dx, hBackPorch := t.hBackPorch + dx
           vFrontPorch := t.vFrontPorch - dy, vBackPorch := t.vBackPorch + dy }

/-- `MoveScreen(dx, dy)` (R140, R366). -/
def execMoveScreen (dx dy : Int) (s : State) : Host.Outcome State Fault Refusal :=
  let t := movedTimings dx dy s.timings
  if !s.configured then .next (refuse s)
  else if !mayReconfigure s then .next (raise (.unsuspendedReconfigure (.moveScreen dx dy)) s)
  else if timingsWF s.params t then .next (rebuildScan t (geometry s) s)
  else .next (raise (.malformedTimings t) s)

/-- The timings after `ShrinkScreen` (R141). -/
def shrunkTimings (sx sy : Int) (t : Timings) : Timings :=
  { t with hVisible := t.hVisible - 2 * sx
           hFrontPorch := t.hFrontPorch + sx, hBackPorch := t.hBackPorch + sx
           vVisible := t.vVisible - 2 * sy
           vFrontPorch := t.vFrontPorch + sy, vBackPorch := t.vBackPorch + sy }

/-- The geometry after `ShrinkScreen`: the viewport keeps its size and is centred again (R141, R127). -/
def recentred (t : Timings) (s : State) : Geometry :=
  ⟨s.vpWidth, s.vpHeight, viewportCol t s.vpWidth, viewportRow t s.vpHeight⟩

/-- `ShrinkScreen(sx, sy)` (R141, R366). -/
def execShrinkScreen (sx sy : Int) (s : State) : Host.Outcome State Fault Refusal :=
  let t := shrunkTimings sx sy s.timings
  if !s.configured then .next (refuse s)
  else if !mayReconfigure s then .next (raise (.unsuspendedReconfigure (.shrinkScreen sx sy)) s)
  else if !timingsWF s.params t then .next (raise (.malformedTimings t) s)
  else if s.vpWidth > t.hVisible ∨ s.vpHeight > t.vVisible then
    .next (raise (.shrinkBelowViewport sx sy) s)
  else .next (rebuildScan t (recentred t s) s)

end Sys2Proof.Machine
end

