-- ==== Sys2Proof/Machine/Dispatch.lean ====
section
/-! DEFINITION. One arm per constructor of Instr (R85, R95). -/

namespace Sys2Proof.Machine

def exec (i : Instr) (s : State) : Host.Outcome State Fault Refusal :=
  match i with
  | .setPenColor c => Sys2Proof.Machine.execSetPenColor c s
  | .setBrushColor c => Sys2Proof.Machine.execSetBrushColor c s
  | .setPixel p => Sys2Proof.Machine.execSetPixel p s
  | .setPixelAt p c => Sys2Proof.Machine.execSetPixelAt p c s
  | .moveTo p => Sys2Proof.Machine.execMoveTo p s
  | .lineTo p => Sys2Proof.Machine.execLineTo p s
  | .fillRect r => Sys2Proof.Machine.execFillRect r s
  | .drawRect r => Sys2Proof.Machine.execDrawRect r s
  | .fillEllipse w h => Sys2Proof.Machine.execFillEllipse w h s
  | .drawEllipse w h => Sys2Proof.Machine.execDrawEllipse w h s
  | .clear => Sys2Proof.Machine.execClear s
  | .vScroll dy => Sys2Proof.Machine.execVScroll dy s
  | .hScroll dx => Sys2Proof.Machine.execHScroll dx s
  | .drawGlyph p gw gh data => Sys2Proof.Machine.execDrawGlyph p gw gh data s
  | .renderGlyphsBuffer col row gbuf => Sys2Proof.Machine.execRenderGlyphsBuffer col row gbuf s
  | .setGlyphOptions o => Sys2Proof.Machine.execSetGlyphOptions o s
  | .setPaintOptions swap inv => Sys2Proof.Machine.execSetPaintOptions swap inv s
  | .invertRect r => Sys2Proof.Machine.execInvertRect r s
  | .copyRect r d => Sys2Proof.Machine.execCopyRect r d s
  | .setScrollingRegion r => Sys2Proof.Machine.execSetScrollingRegion r s
  | .swapFGBG r => Sys2Proof.Machine.execSwapFGBG r s
  | .drawBitmap p bmp => Sys2Proof.Machine.execDrawBitmap p bmp s
  | .refreshSprites => Sys2Proof.Machine.execRefreshSprites s
  | .swapBuffers => Sys2Proof.Machine.execSwapBuffers s
  | .drawPath pts n => Sys2Proof.Machine.execDrawPath pts n s
  | .fillPath pts n => Sys2Proof.Machine.execFillPath pts n s
  | .setOrigin p => Sys2Proof.Machine.execSetOrigin p s
  | .setClippingRect r => Sys2Proof.Machine.execSetClippingRect r s
  | .decodeModeline text => Sys2Proof.Machine.execDecodeModeline text s
  | .setResolution text rw rh dbl => Sys2Proof.Machine.execSetResolution text rw rh dbl s
  | .addPrimitive rec => Sys2Proof.Machine.execAddPrimitive rec s
  | .suspend => Sys2Proof.Machine.execSuspend s
  | .resume => Sys2Proof.Machine.execResume s
  | .processPrimitives => Sys2Proof.Machine.execProcessPrimitives s
  | .enableBackgroundExecution on => Sys2Proof.Machine.execEnableBackgroundExecution on s
  | .moveScreen dx dy => Sys2Proof.Machine.execMoveScreen dx dy s
  | .shrinkScreen sx sy => Sys2Proof.Machine.execShrinkScreen sx sy s
  | .readPixel x y => Sys2Proof.Machine.execReadPixel x y s
  | .setSprites slots => Sys2Proof.Machine.execSetSprites slots s
  | .spriteWrite slot upd => Sys2Proof.Machine.execSpriteWrite slot upd s
  | .spriteAddFrame slot bmp => Sys2Proof.Machine.execSpriteAddFrame slot bmp s
  | .hostAlloc addr len => Sys2Proof.Machine.execHostAlloc addr len s
  | .hostFree addr len => Sys2Proof.Machine.execHostFree addr len s
  | .hostWrite addr bytes => Sys2Proof.Machine.execHostWrite addr bytes s

end Sys2Proof.Machine
end

