-- ==== Sys2Proof/Machine/Schedule.lean ====
section
/-! DEFINITION. Which agent moves next (R69, R209, R371), how the Producer's next host operation is
fetched, and where a test places an instruction. -/

namespace Sys2Proof.Machine

/-- After an action of the Producer or the Executor: a free number of Engine ticks before the next one
(R69, R371, U21; log entry 1). -/
def reschedule (s : State) : State :=
  { s with ticksDue := Config.burst s.draws, draws := s.draws + 1 }

/-- The Engine has ticks to make before any other agent acts (log entry 1). -/
def engineTurn (s : State) : Bool := s.engineRunning && decide (0 < s.ticksDue)

/-- One of the Engine's ticks that are due. -/
def engineStep (s : State) : State := { engineTick s with ticksDue := s.ticksDue - 1 }

/-- The Producer's turn: an immediate AddPrimitive whose drain is over executes its record, and a blocked
one runs as soon as the queue has room (R201); otherwise the next host operation runs, and what is no host
operation is refused (R96, log entry 4). While a blocked one finds the queue full the Producer has no step
(R10, R201), and with nothing left neither (R399): then only the Engine moves (log entries 7 and 31). -/
def producerStep (run : Instr → State → Host.Outcome State Fault Refusal) (s : State) :
    Host.Outcome State Fault Refusal :=
  match s.immediate with
  | some P => immediateStep run P s
  | none =>
    match s.blocked with
    | some P =>
      if queueHasRoom s then run (.addPrimitive P) { s with blocked := none } else .next (engineTick s)
    | none =>
      match s.program with
      | [] => .next (engineTick s)
      | op :: rest =>
        match decodeHostOp op with
        | .ok i => run i { s with program := rest }
        | .error _ => .next (refuse { s with program := rest })

/-- The turn of an agent other than the Engine: a drain in progress goes on, a pending interrupt is
entered before any Producer step (R371), else the Producer moves. -/
def agentStep (run : Instr → State → Host.Outcome State Fault Refusal) (s : State) :
    Host.Outcome State Fault Refusal :=
  if s.inExecutor then drainStep run s
  else if isrEnterable s then .next (isrEntry s)
  else producerStep run s

/-- `s` with a primitive record as the next to run: the head of the queue, an ISR drain just entered
(R21, R209), and the Engine with no tick due. -/
def placeRecord (P : Record) (s : State) : State :=
  { s with queue := P :: s.queue, inExecutor := true, drainKind := .isr, drainStart := s.tick
           drainFirst := true, ticksDue := 0 }

/-- `s` with a host operation as the next to run: the Producer's next, with no drain, no pending
interrupt, no operation in progress and no Engine tick due. -/
def placeHostOp (op : List Byte) (s : State) : State :=
  { s with program := op :: s.program, blocked := none, immediate := none, inExecutor := false
           vsIntPending := false, ticksDue := 0 }

/-- Place the bytes of an instruction where the next step finds it. -/
def placeBytes (bs : List Byte) (s : State) : State :=
  match bs with
  | [] => s
  | b :: _ =>
    if b.toNat < 0x80 then placeRecord (bytesToRecord (bs.take 16)) s else placeHostOp bs s

end Sys2Proof.Machine
end

