-- ==== Sys2Proof/Machine/Step.lean ====
section
/-! DEFINITION. One step of the whole machine: one agent moves (R20, R69). -/

namespace Sys2Proof.Machine

/-- One step: a due Engine tick, or an action of the Executor or the Producer. -/
def step (s : State) : Host.Outcome State Fault Refusal :=
  if engineTurn s then .next (engineStep s) else mapNext reschedule (agentStep exec s)

/-- `s` with the instruction of `nbits` bits `w` (and zeros above) where the next step takes it: a
primitive at the queue head of a drain, a host operation as the Producer's next (log entry 2). -/
def State.withFetchWord (s : State) (nbits w : Nat) : State := placeBytes (tableBytes nbits w) s

end Sys2Proof.Machine
end

