-- ==== Sys2Proof/Safety.lean ====
section
/-! DEFINITION. What claims are stated in: runs without faults, ends of runs and stuck states (R362, R365,
R398, R399), the invariants of the state (R23, R25, R40, R43, R309, R374, R376), and the relations that
say what drawing and Engine ticks change. -/

namespace Sys2Proof.Machine

/-! ### Runs -/

/-- The premise "no fault recorded" of claims about runs (R362). -/
def faultFree (s : State) : Prop := s.faults = []

/-- The Producer has run all its operations: none is left, none waits, and no drain of one is in progress. -/
abbrev producerDone (s : State) : Prop :=
  s.program = [] ∧ s.blocked = none ∧ s.immediate = none ∧ (s.inExecutor = true → s.drainKind = .isr)

/-- The Producer waits in AddPrimitive on a full queue that nothing can drain (R365, R398). -/
abbrev producerStuck (s : State) : Prop :=
  s.blocked.isSome = true ∧ s.immediate = none ∧ queueHasRoom s = false ∧ s.inExecutor = false
    ∧ vsIntEnabled s = false

/-- The Engine was halted by a fault (R363, R365): once configured it runs until then. -/
abbrev engineHalted (s : State) : Prop := s.configured = true ∧ s.engineRunning = false

/-- The stuck states of R365. -/
abbrev isStuck (s : State) : Prop := producerStuck s ∨ engineHalted s

/-- A state in which a run can end (R399); a stuck state is never one (R365). -/
abbrev endOfRun (s : State) : Prop :=
  producerDone s ∧ ¬isStuck s ∧ ((s.queue = [] ∧ s.inExecutor = false) ∨ vsIntEnabled s = false)

/-- What a run has come to (R399). -/
inductive RunStatus where
  | going
  | ended
  | stuck
deriving DecidableEq, Repr

def runStatus (s : State) : RunStatus :=
  if isStuck s then .stuck else if endOfRun s then .ended else .going

/-- The run from `s`, at most `n` steps of it: up to the first state in which it ends, or to the first in
which it is stuck and so has no end state (R399, log entry 33). -/
def runFor : Nat → State → RunStatus × State
  | 0, s => (runStatus s, s)
  | n + 1, s =>
    match runStatus s with
    | .going =>
      match step s with
      | .next t => runFor n t
      | .fault _ => (.stuck, s)
      | .refused _ => (.stuck, s)
    | r => (r, s)

/-- `n` steps of the machine. -/
def stepMany : Nat → State → Host.Outcome State Fault Refusal
  | 0, s => .next s
  | n + 1, s => onNext (step s) (stepMany n)

/-! ### Invariants -/

/-- Host memory and the allocated ranges are in canonical form (R45). -/
def storesOK (s : State) : Prop := Memory.wf s.hostmem = true ∧ Ranges.wf s.live = true

/-- The queue and the sprites keep within their capacities (R40, R43). -/
def boundsOK (s : State) : Prop :=
  s.queue.length ≤ s.params.queueSpare + 1 ∧ s.sprites.length ≤ s.params.maxSprites

/-- The legal control values: bank 0 without double buffering (R23), a running Engine only once
configured (R390); an ISR drain only with the interrupt enabled but for the Engine's running (R209, R374), a
pump only inside its own suspension (R204), an immediate drain only for an AddPrimitive in immediate mode
(R201), and an AddPrimitive that waits only in background mode (R201); and between steps no `Exec` in
progress. -/
def controlOK (s : State) : Prop :=
  (s.doubleBuffered = false → s.drawBank = .zero)
    ∧ (s.engineRunning = true → s.configured = true)
    ∧ (s.inExecutor = true →
        (s.drainKind = .isr → s.suspendCount = 0 ∧ s.backgroundExec = true ∧ s.configured = true)
        ∧ (s.drainKind = .pump → 0 < s.suspendCount)
        ∧ (s.drainKind = .immediate → s.immediate.isSome = true))
    ∧ (s.immediate.isSome = true → s.backgroundExec = false)
    ∧ (s.blocked.isSome = true → s.backgroundExec = true)
    ∧ s.costLeft = none

/-- The output holds one byte for each tick since construction, in order (R29, R376). -/
def outputOK (s : State) : Prop := s.out.map Prod.fst = List.range s.tick

/-- Nothing is saved while the sprites are hidden, nor ever with two banks (R335, R336). -/
def spritesOK (s : State) : Prop :=
  (s.spritesHidden = true ∨ s.doubleBuffered = true) → ∀ sp ∈ s.sprites, sp.savedRect = none

/-- The scrolling region is empty or lies in the viewport (R235). -/
def regionOK (s : State) : Prop :=
  let r := s.paint.scrollRegion
  r.x2 < r.x1 ∨ r.y2 < r.y1 ∨ (0 ≤ r.x1 ∧ r.x2 < s.vpWidth ∧ 0 ≤ r.y1 ∧ r.y2 < s.vpHeight)

/-- The viewport and its rows (R24, R25, R170): a width that is a multiple of 4, rows of that width, and
row maps of the viewport's height that name existing rows, each once over both banks. -/
def viewportOK (s : State) : Prop :=
  0 ≤ s.vpWidth ∧ s.vpWidth % 4 = 0 ∧ 0 ≤ s.vpHeight ∧ (s.vpWidth = 0 → s.vpHeight = 0)
    ∧ (∀ r ∈ s.rows, r.length = s.vpWidth.toNat)
    ∧ s.rowMap.zero.length = s.vpHeight.toNat
    ∧ s.rowMap.one.length = (if s.doubleBuffered then s.vpHeight.toNat else 0)
    ∧ (s.rowMap.zero ++ s.rowMap.one).Nodup
    ∧ (∀ p ∈ s.rowMap.zero ++ s.rowMap.one, p < s.rows.length)
    ∧ (s.doubleBuffered = false → s.drawBank = .zero)
    ∧ regionOK s

/-- Once configured: well-formed timings, the viewport inside the visible area (R127), blank buffers
and descriptor arrays as R133 and R135 build them from the row maps as they stand (R309). -/
def chainOK (s : State) : Prop :=
  s.configured = true →
    timingsWF s.params s.timings = true
    ∧ 0 ≤ s.vpCol ∧ s.vpCol % 4 = 0 ∧ s.vpCol + s.vpWidth ≤ s.timings.hVisible
    ∧ 0 ≤ s.vpRow ∧ s.vpRow + s.vpHeight ≤ s.timings.vVisible
    ∧ s.blank0 = blankLine s.params s.timings false
    ∧ s.blank1 = blankLine s.params s.timings true
    ∧ s.desc.zero = chain s.timings (geometry s) .zero s.rowMap.zero
    ∧ s.desc.one = if s.doubleBuffered then chain s.timings (geometry s) .one s.rowMap.one else []

/-- A descriptor the Engine can play: it owns it, it takes a clock at least, its bytes exist, and its
link leads to a descriptor or to the sentinel (R138). -/
def playable (s : State) (d : Desc) : Prop :=
  d.owner = .dma ∧ 0 < d.length ∧ d.length % 4 = 0
    ∧ (∃ bytes, bufferOf s d.buf = some bytes ∧ d.offset + d.length ≤ bytes.length)
    ∧ (d.next = .sentinel ∨ ∃ b i, d.next = .entry b i ∧ i < (s.desc.get b).length)

/-- The Engine's place in the chain: the sentinel leads to the visible bank (R136), and a running Engine
is at the sentinel or inside a descriptor it can play (R29, R138). The sentinel's offset 0 is the model's own
(log entry 17). -/
def engineOK (s : State) : Prop :=
  s.sentinel = Desc.linkTo (.entry (visBank s) 0)
    ∧ (s.engineRunning = true → s.cur = .sentinel ∨ (playable s s.lat ∧ s.pos < s.lat.length))

/-- All that scan-out needs: control, viewport, chains and the Engine's place. -/
def scanOK (s : State) : Prop := controlOK s ∧ viewportOK s ∧ chainOK s ∧ engineOK s

/-! ### What steps change -/

/-- What any number of Engine ticks can do to the Engine's own fields (R138, R370): the output grows by
one byte a tick, only DescriptorNotOwned is recorded, the Engine can halt but not start, the latch can
be set but not cleared, and an Engine that does not run changes nothing. -/
def engineMoved (s t : State) : Prop :=
  (∃ o, t.out = s.out ++ o ∧ t.tick = s.tick + o.length)
    ∧ (∃ fs, t.faults = s.faults ++ fs ∧ ∀ f ∈ fs, ∃ r, f = .descriptorNotOwned r)
    ∧ (t.engineRunning = true → s.engineRunning = true)
    ∧ (s.vsIntPending = true → t.vsIntPending = true)
    ∧ (s.engineRunning = false → t.out = s.out ∧ t.tick = s.tick ∧ t.faults = s.faults
        ∧ t.cur = s.cur ∧ t.lat = s.lat ∧ t.pos = s.pos ∧ t.vsIntPending = s.vsIntPending)

/-- `t` is `s` but for the Engine's own fields and the count of free values drawn. -/
def ticksOnly (s t : State) : Prop :=
  t = { s with
        cur := t.cur, lat := t.lat, pos := t.pos, tick := t.tick, out := t.out
        vsIntPending := t.vsIntPending, engineRunning := t.engineRunning, faults := t.faults
        draws := t.draws, costLeft := t.costLeft }

/-- `t` is `s` but for what drawing changes: row bytes, the sprites' saved backgrounds and flags, the
Engine's own fields, and the count of free values drawn. -/
def drawingOnly (s t : State) : Prop :=
  t = { s with
        rows := t.rows, sprites := t.sprites, spritesHidden := t.spritesHidden
        cur := t.cur, lat := t.lat, pos := t.pos, tick := t.tick, out := t.out
        vsIntPending := t.vsIntPending, engineRunning := t.engineRunning, faults := t.faults
        draws := t.draws, costLeft := t.costLeft }

/-- What a drawing primitive does (R207, R250): `new h ax ay` is the byte it gives to the viewport pixel
`(ax, ay)` of the drawing bank, if it writes it, worked out from the state `h` with the sprites hidden;
`pt` is the paint state it leaves. With no pixel to write nothing else happens (log entry 9). Otherwise
every viewport pixel holds its new byte, or the one it held with the sprites hidden; every row byte that
is the address of no new pixel stays; and nothing else changes but what Engine ticks change. -/
def redraws (s t : State) (pt : Paint) (new : State → Int → Int → Option Byte) : Prop :=
  let h := hideSprites s
  ((∀ ax ay, inVP s ax ay = true → new h ax ay = none) → t = { s with paint := pt })
  ∧ ((∃ ax ay, inVP s ax ay = true ∧ new h ax ay ≠ none) →
      (∀ ax ay, inVP s ax ay = true →
        rawPixel t t.drawBank ax ay = (new h ax ay).or (rawPixel h h.drawBank ax ay))
      ∧ (∀ p off, (∀ ax ay v, new h ax ay = some v → physAddr h h.drawBank ax ay ≠ some (p, off)) →
          rowByte t.rows p off = rowByte h.rows p off)
      ∧ t.sprites = h.sprites ∧ t.spritesHidden = true
      ∧ engineMoved s t
      ∧ drawingOnly { s with paint := pt } t)

/-- The byte that PaintPix with colour `c` gives to the pixel `(ax, ay)` (R178). -/
def paintedByte (h : State) (ax ay : Int) (c : Colour) : Option Byte :=
  if h.paint.invertNot then (getPix h ax ay).map fun k => vpByte h (k ^^^ 0b111111#6)
  else some (vpByte h c)

/-- The bytes of PaintPix over a set of logical points (R173, R174, R178, R250). -/
def paintedSet (h : State) (inSet : Int → Int → Bool) (c : Colour) (ax ay : Int) : Option Byte :=
  if inClip h ax ay && inSet (ax - h.paint.origin.x) (ay - h.paint.origin.y) then paintedByte h ax ay c
  else none

/-- The point `(x, y)` lies in the rectangle with the corners of `r`, in any order, inclusive (R255). -/
def inRect (r : Rect) (x y : Int) : Bool :=
  decide (min r.x1 r.x2 ≤ x) && decide (x ≤ max r.x1 r.x2)
    && decide (min r.y1 r.y2 ≤ y) && decide (y ≤ max r.y1 r.y2)

/-! ### Bytes of a record (R84) -/

/-- The 16-bit little-endian word at byte `k` of a record. -/
def le16 (P : Record) (k : Nat) : BitVec 16 := recByte P (k + 1) ++ recByte P k

/-- The point at byte `k` of a record. -/
def lePoint (P : Record) (k : Nat) : Point := ⟨(le16 P k).toInt, (le16 P (k + 2)).toInt⟩

/-- The rectangle at byte `k` of a record. -/
def leRect (P : Record) (k : Nat) : Rect :=
  ⟨(le16 P k).toInt, (le16 P (k + 2)).toInt, (le16 P (k + 4)).toInt, (le16 P (k + 6)).toInt⟩

/-! ### Sprites -/

/-- The pixel `(ax, ay)` lies in the rectangle a sprite's background was saved from (R335). -/
def savedAt (sp : Sprite) (ax ay : Int) : Bool :=
  match sp.savedRect with
  | some r => decide ((r.x : Int) ≤ ax) && decide (ax < r.x + r.w) && decide ((r.y : Int) ≤ ay) && decide (ay < r.y + r.h)
  | none => false

/-- The saved byte of the pixel `(ax, ay)` (R335). -/
def savedByte (sp : Sprite) (ax ay : Int) : Byte :=
  match sp.savedRect with
  | some r => sp.savedBg.getD ((ay.toNat - r.y) * r.w + (ax.toNat - r.x)) 0
  | none => 0

/-- A sprite that is drawable can be shown over the pixel `(ax, ay)`, from some position written so
far (R334, R338). -/
def mayShowAt (sp : Sprite) (ax ay : Int) : Prop :=
  drawable sp = true ∧ ∃ f, sp.frames[sp.curFrame]? = some f
    ∧ ∃ x ∈ sp.x :: sp.xOld, ∃ y ∈ sp.y :: sp.yOld,
      x.toInt ≤ ax ∧ ax < x.toInt + f.w ∧ y.toInt ≤ ay ∧ ay < y.toInt + f.h

/-- The fields of a slot that only the Producer writes (R43). -/
def sameProducerFields (a b : Sprite) : Prop :=
  b.x = a.x ∧ b.y = a.y ∧ b.frames = a.frames ∧ b.curFrame = a.curFrame ∧ b.visible = a.visible
    ∧ b.isStatic = a.isStatic ∧ b.xOld = a.xOld ∧ b.yOld = a.yOld

/-! ### Modeline text (R92) -/

/-- The keyword of a starting block (R92, R121). -/
def blockWord : HBlock → List Byte
  | .frontPorch => kwFrontPorch
  | .sync => kwSync
  | .backPorch => kwBackPorch
  | .visibleArea => kwVisible

/-- A modeline text from its parts: what stands before the label, the label, the words, each with the space
before it, and what stands at the end (R92). -/
def modelineText (before label : List Byte) (words : List (List Byte × List Byte)) (after : List Byte) :
    List Byte :=
  before ++ 0x22#8 :: (label ++ 0x22#8 :: (words.flatMap (fun w => w.1 ++ w.2) ++ after))

/-- Characters of `ws`, one at least (R92). -/
def isSpace (w : List Byte) : Prop := w ≠ [] ∧ ∀ c ∈ w, c = 0x20#8 ∨ c = 0x09#8

/-- `uint = 1*DIGIT` (R92). -/
def isUint (w : List Byte) : Prop := w ≠ [] ∧ ∀ c ∈ w, 0x30 ≤ c.toNat ∧ c.toNat ≤ 0x39

/-- `clock = 1*DIGIT ["." 1*DIGIT]` (R92). -/
def isClock (w : List Byte) : Prop :=
  isUint w ∨ ∃ a f, isUint a ∧ isUint f ∧ w = a ++ 0x2E#8 :: f

/-- The words of R92 after the label, in their order. -/
def modelineWords (ws : List (List Byte)) : Prop :=
  ∃ clock numbers hpol vpol double block,
    ws = clock :: (numbers ++ hpol :: vpol :: (double ++ block))
    ∧ isClock clock ∧ numbers.length = 8 ∧ (∀ u ∈ numbers, isUint u)
    ∧ (hpol = kwPlusH ∨ hpol = kwMinusH) ∧ (vpol = kwPlusV ∨ vpol = kwMinusV)
    ∧ (double = [] ∨ double = [kwDoubleScan]) ∧ (block = [] ∨ ∃ b, block = [blockWord b])

/-- Spaces may stand before the label and at the end, and must before every word, and the label holds what R92
lets it hold. -/
def modelineParts (before label : List Byte) (words : List (List Byte × List Byte)) (after : List Byte) : Prop :=
  (before = [] ∨ isSpace before) ∧ (after = [] ∨ isSpace after)
    ∧ (∀ c ∈ label, 0x20 ≤ c.toNat ∧ c.toNat ≤ 0x7E ∧ c ≠ 0x22#8)
    ∧ ∀ w ∈ words, isSpace w.1

/-- The grammar of R92. -/
def modelineGrammar (text : List Byte) : Prop :=
  ∃ (before label : List Byte) (words : List (List Byte × List Byte)) (after : List Byte),
    text = modelineText before label words after ∧ modelineParts before label words after
    ∧ modelineWords (words.map Prod.snd)

/-- The number that decimal digits spell, leading zeros or none. -/
def uintValue (w : List Byte) : Nat := w.foldl (fun n c => 10 * n + (c.toNat - 0x30)) 0

/-! ### Which instructions write what -/

/-- A primitive, not a host operation (R85, R95). -/
def isPrimitive (i : Instr) : Bool := (encodePrim i).isSome

/-- The host operations that begin a drain, whose records then run as steps of the Executor (R69, R201, R204). -/
def beginsDrain : Instr → Bool
  | .addPrimitive _ => true
  | .processPrimitives => true
  | _ => false

/-- The operations that write TIMINGS and the blank buffers (R22, R60). -/
def writesTimings : Instr → Bool
  | .setResolution _ _ _ _ => true
  | .moveScreen _ _ => true
  | .shrinkScreen _ _ => true
  | _ => false

def isSetResolution : Instr → Bool
  | .setResolution _ _ _ _ => true
  | _ => false

def isHostWrite : Instr → Bool
  | .hostWrite _ _ => true
  | _ => false

/-- The operations that write `live` (R182). -/
def writesLive : Instr → Bool
  | .hostAlloc _ _ => true
  | .hostFree _ _ => true
  | _ => false

/-- The drawing primitives (R207). -/
def isDrawing : Instr → Bool
  | .setPixel _ => true
  | .setPixelAt _ _ => true
  | .lineTo _ => true
  | .fillRect _ => true
  | .drawRect _ => true
  | .fillEllipse _ _ => true
  | .drawEllipse _ _ => true
  | .clear => true
  | .vScroll _ => true
  | .hScroll _ => true
  | .drawGlyph _ _ _ _ => true
  | .renderGlyphsBuffer _ _ _ => true
  | .invertRect _ => true
  | .copyRect _ _ => true
  | .swapFGBG _ => true
  | .drawBitmap _ _ => true
  | .drawPath _ _ => true
  | .fillPath _ _ => true
  | _ => false

def isVScroll : Instr → Bool
  | .vScroll _ => true
  | _ => false

def isSwapBuffers : Instr → Bool
  | .swapBuffers => true
  | _ => false

/-- What draws, hides or shows, and so writes row bytes, `spritesHidden` and the Executor's fields of the
sprites (R43, R131, R207, R211, R331, R337). -/
def writesRows (i : Instr) : Bool :=
  isDrawing i || isSetResolution i || isSwapBuffers i ||
    match i with
    | .refreshSprites => true
    | .setSprites _ => true
    | _ => false

/-- The Producer's operations on sprites beside (R332, R333). -/
def writesSprites (i : Instr) : Bool :=
  writesRows i ||
    match i with
    | .spriteWrite _ _ => true
    | .spriteAddFrame _ _ => true
    | _ => false

/-- What can take Engine ticks inside it or moves the Engine: primitives and reconfiguration (R69, R131, R140,
R404). -/
def movesEngine (i : Instr) : Bool := isPrimitive i || writesTimings i

def isAddPrimitive : Instr → Bool
  | .addPrimitive _ => true
  | _ => false

/-- Suspend, Resume, and ProcessPrimitives with its own suspension (R202 to R204). -/
def writesSuspension : Instr → Bool
  | .suspend => true
  | .resume => true
  | .processPrimitives => true
  | _ => false

def isEnableBackground : Instr → Bool
  | .enableBackgroundExecution _ => true
  | _ => false

/-- The host operations that return a value (R120, R131, R180). -/
def returnsValue : Instr → Bool
  | .decodeModeline _ => true
  | .setResolution _ _ _ _ => true
  | .readPixel _ _ => true
  | _ => false

end Sys2Proof.Machine
end

