-- ==== Sys2Proof/WellFormed.lean ====
section
/-! DEFINITION. Which instructions a record or a host operation can spell: the ranges of R84. Host
operands are unbounded numbers, lists and typed words (R95), so every host operation is well formed. -/

namespace Sys2Proof

/-- The range of an `s16` field (R84). -/
def fitsS16 (v : Int) : Bool := decide (-32768 ≤ v) && decide (v < 32768)

/-- The range of a `u8` field (R84). -/
def fitsU8 (n : Nat) : Bool := decide (n < 256)

/-- The range of a `u16` field (R84). -/
def fitsU16 (n : Nat) : Bool := decide (n < 65536)

/-- The range of a `u32` field (R84). -/
def fitsU32 (n : Nat) : Bool := decide (n < 4294967296)

def Point.fits (p : Point) : Bool := fitsS16 p.x && fitsS16 p.y

def Rect.fits (r : Rect) : Bool :=
  fitsS16 r.x1 && fitsS16 r.y1 && fitsS16 r.x2 && fitsS16 r.y2

/-- Every field of the instruction fits the field of its record (R84, R85). -/
def Instr.wellFormed : Instr → Bool
  | .setPenColor _ => true
  | .setBrushColor _ => true
  | .setPixel p => p.fits
  | .setPixelAt p _ => p.fits
  | .moveTo p => p.fits
  | .lineTo p => p.fits
  | .fillRect r => r.fits
  | .drawRect r => r.fits
  | .fillEllipse w h => fitsU16 w && fitsU16 h
  | .drawEllipse w h => fitsU16 w && fitsU16 h
  | .clear => true
  | .vScroll dy => fitsS16 dy
  | .hScroll dx => fitsS16 dx
  | .drawGlyph p gw gh data => p.fits && fitsU8 gw && fitsU8 gh && fitsU32 data
  | .renderGlyphsBuffer col row gbuf => fitsU16 col && fitsU16 row && fitsU32 gbuf
  | .setGlyphOptions _ => true
  | .setPaintOptions _ _ => true
  | .invertRect r => r.fits
  | .copyRect r d => r.fits && d.fits
  | .setScrollingRegion r => r.fits
  | .swapFGBG r => r.fits
  | .drawBitmap p bmp => p.fits && fitsU32 bmp
  | .refreshSprites => true
  | .swapBuffers => true
  | .drawPath pts n => fitsU32 pts && fitsU16 n
  | .fillPath pts n => fitsU32 pts && fitsU16 n
  | .setOrigin p => p.fits
  | .setClippingRect r => r.fits
  | .decodeModeline _ => true
  | .setResolution _ _ _ _ => true
  | .addPrimitive _ => true
  | .suspend => true
  | .resume => true
  | .processPrimitives => true
  | .enableBackgroundExecution _ => true
  | .moveScreen _ _ => true
  | .shrinkScreen _ _ => true
  | .readPixel _ _ => true
  | .setSprites _ => true
  | .spriteWrite _ _ => true
  | .spriteAddFrame _ _ => true
  | .hostAlloc _ _ => true
  | .hostFree _ _ => true
  | .hostWrite _ _ => true

end Sys2Proof
end

