-- ==== Sys2Proof/Certificates/Slice0/Obligations.lean ====
section
/-! DEFINITION. The statements for the provers. Each docstring names the rule it formalises, or says that
the statement is the model's choice and names the log entry. -/

open Sys2Proof Sys2Proof.Machine

/-! ### Encoding -/

/-- Records and host operations written out by hand decode to what they stand for (R83 to R86, R95). The
operand bytes of the last one are the model's own (log entry 3). -/
def Obligations.HandWrittenWordsDecode : Prop :=
  decodePrim 0x000000000000000000000003000000C3#128 = .error (.reservedTag 0xC3)
    ∧ decodePrim 0x0000000000000000000000C300FFFF00#128 = .ok (.setPenColor 3#6)
    ∧ decodePrim 0x00000000000000000000FFFE00050002#128 = .ok (.setPixel ⟨-2, 0⟩)
    ∧ decodePrim 0x000A000A003200320000000000000012#128 = .ok (.copyRect ⟨0, 0, 50, 50⟩ ⟨10, 10⟩)
    ∧ decodePrim 0x0000123456780810FFFF00010000000D#128 = .ok (.drawGlyph ⟨1, -1⟩ 16 8 0x12345678)
    ∧ decodePrim 0x00000000000000000000000200000010#128 = .ok (.setPaintOptions false true)
    ∧ decodeHostOp [0x83] = .ok .suspend
    ∧ decodeHostOp [0x87, 8, 0] = .ok (.moveScreen 4 0)

/-- Decoding the encoding of a well-formed instruction gives it back, for every constructor (R83 to R85,
R95). For host operations the operand bytes are the model's own (log entry 3). -/
def Obligations.DecodeEncodeRoundTrip : Prop :=
  ∀ i : Instr, i.wellFormed = true → decode (encode i) = .ok i

/-- A record spells no command exactly where its tag is 0x1C or more (R85, R96); bytes 1 to 3 never matter to
decoding; and of two records with one tag that decode alike the execution is the same, ticks and all, so that
nothing that decoding ignores, bytes or bits, matters to it (R83, R96). -/
def Obligations.TagAloneSelects : Prop :=
  (∀ P : Record, decodePrim P = .error (.reservedTag (recByte P 0)) ↔ 0x1C ≤ (recByte P 0).toNat)
    ∧ (∀ P Q : Record, (∀ k < 16, k = 0 ∨ 4 ≤ k → recByte P k = recByte Q k) → decodePrim P = decodePrim Q)
    ∧ (∀ (P Q : Record) (s : State), recByte P 0 = recByte Q 0 → decodePrim P = decodePrim Q →
        runRecord exec P s = runRecord exec Q s)

/-- Executing a reserved record records ReservedPrimitive with its tag and changes nothing else but what
Engine ticks change (R96, R207, R361, R362). -/
def Obligations.ReservedRecordExecutes : Prop :=
  ∀ (P : Record) (s : State), 0x1C ≤ (recByte P 0).toNat →
    ∃ t, runRecord exec P s = .next t
      ∧ ticksOnly { s with faults := s.faults ++ [.reservedPrimitive (recByte P 0)] } t
      ∧ engineMoved { s with faults := s.faults ++ [.reservedPrimitive (recByte P 0)] } t

/-! ### Steps -/

/-- With a drain in progress and no Engine tick due, the step takes the record at the head of the queue and
runs the instruction it decodes to, or records ReservedPrimitive where it decodes to none (R96), then the rest
of its Engine ticks (R404), the end of the loop's turn (R210), and the next schedule (log entries 1 and 2). -/
def Obligations.StepRunsDecodedRecord : Prop :=
  ∀ (s : State) (P : Record) (ps : List Record),
    engineTurn s = false → s.inExecutor = true → s.queue = P :: ps → mustRequeue s P = false →
    (∀ i, decodePrim P = .ok i →
      step s = mapNext (fun t => reschedule (afterPrimitive (costTicks t)))
        (exec i (beginExec P { s with queue := ps })))
    ∧ (0x1C ≤ (recByte P 0).toNat →
      step s = .next (reschedule (afterPrimitive (costTicks
        (beginExec P { s with queue := ps, faults := s.faults ++ [.reservedPrimitive (recByte P 0)] })))))

/-- With no drain, no interrupt to enter, no AddPrimitive in progress and no Engine tick due, the step runs the
host operation that the Producer's next bytes decode to; bytes that decode to none are consumed and refused,
and nothing else changes; and a code outside 0x80 to 0x8F, which is 0x00 to 0x7F or 0x90 to 0xFF, decodes to
none (R69, R96, R364, R391; log entries 1 and 2, and 4 for malformed operands). -/
def Obligations.StepRunsDecodedHostOp : Prop :=
  (∀ (s : State) (op : List Byte) (rest : List (List Byte)),
    engineTurn s = false → s.inExecutor = false → isrEnterable s = false → s.blocked = none →
    s.immediate = none → s.program = op :: rest →
    (∀ i, decodeHostOp op = .ok i → step s = mapNext reschedule (exec i { s with program := rest }))
    ∧ (∀ e, decodeHostOp op = .error e →
        step s = .next (reschedule { s with program := rest, refused := true })))
  ∧ ∀ (c : Byte) (bs : List Byte), (c.toNat < 0x80 ∨ 0x8F < c.toNat) →
      decodeHostOp (c :: bs) = .error (.reservedCode c)

/-- No error of R360 is a trap and no fault of R361 stops the machine: every instruction, and every step,
answers a next state (R360, R362; log entry 29). -/
def Obligations.EveryStepAnswersNext : Prop :=
  (∀ (i : Instr) (s : State), ∃ t, exec i s = .next t) ∧ ∀ s : State, ∃ t, step s = .next t

/-! ### Paint state -/

/-- SetPenColor and SetBrushColor: from the record's bytes to the one field written (R230, R231). -/
def Obligations.SetColours : Prop :=
  ∀ (P : Record) (s : State),
    (recByte P 0 = 0x00 → ∃ c, decodePrim P = .ok (.setPenColor c) ∧ c = (recByte P 4).extractLsb' 0 6
      ∧ exec (.setPenColor c) s = .next { s with paint := { s.paint with penColor := c } })
    ∧ (recByte P 0 = 0x01 → ∃ c, decodePrim P = .ok (.setBrushColor c) ∧ c = (recByte P 4).extractLsb' 0 6
      ∧ exec (.setBrushColor c) s = .next { s with paint := { s.paint with brushColor := c } })

/-- MoveTo, SetOrigin and SetClippingRect: from the record's bytes to the one field written, stored as given.
Later logical coordinates are translated by the new origin, and a clipping rectangle that misses the viewport
clips everything (R232, R236, R237). -/
def Obligations.SetPointsAndClip : Prop :=
  ∀ (P : Record) (s : State),
    (recByte P 0 = 0x04 → decodePrim P = .ok (.moveTo (lePoint P 4))
      ∧ exec (.moveTo (lePoint P 4)) s = .next { s with paint := { s.paint with penPos := lePoint P 4 } })
    ∧ (recByte P 0 = 0x1A → decodePrim P = .ok (.setOrigin (lePoint P 4))
      ∧ ∃ t, exec (.setOrigin (lePoint P 4)) s = .next t
        ∧ t = { s with paint := { s.paint with origin := lePoint P 4 } }
        ∧ ∀ p : Point, absPoint t p = ⟨p.x + (lePoint P 4).x, p.y + (lePoint P 4).y⟩)
    ∧ (recByte P 0 = 0x1B → decodePrim P = .ok (.setClippingRect (leRect P 4))
      ∧ ∃ t, exec (.setClippingRect (leRect P 4)) s = .next t
        ∧ t = { s with paint := { s.paint with clipRect := leRect P 4 } }
        ∧ ((∀ ax ay, inVP s ax ay = true → inRect (leRect P 4) ax ay = false) →
            ∀ ax ay, inClip t ax ay = false))

/-- SetGlyphOptions and SetPaintOptions: each option is its bit of payload byte 4 (R86, R233, R234). -/
def Obligations.SetOptions : Prop :=
  ∀ (P : Record) (s : State),
    (recByte P 0 = 0x0F → decodePrim P = .ok (.setGlyphOptions ((recByte P 4).extractLsb' 0 7))
      ∧ exec (.setGlyphOptions ((recByte P 4).extractLsb' 0 7)) s = .next { s with paint := { s.paint with
          glyphOpt :=
            { fillBackground := (recByte P 4).getLsbD 0, bold := (recByte P 4).getLsbD 1
              italic := (recByte P 4).getLsbD 2, underline := (recByte P 4).getLsbD 3
              doubleWidth := (recByte P 4).getLsbD 4, invert := (recByte P 4).getLsbD 5
              blank := (recByte P 4).getLsbD 6 } } })
    ∧ (recByte P 0 = 0x10 →
      decodePrim P = .ok (.setPaintOptions ((recByte P 4).getLsbD 0) ((recByte P 4).getLsbD 1))
      ∧ ∀ a b, exec (.setPaintOptions a b) s =
          .next { s with paint := { s.paint with swapFGBG := a, invertNot := b } })

/-- SetScrollingRegion clamps the normalised rectangle to the viewport, and stores the empty region on an
empty viewport (R235). -/
def Obligations.SetScrollingRegionClamps : Prop :=
  ∀ (r : Rect) (s : State), 0 ≤ s.vpWidth → 0 ≤ s.vpHeight →
    ∃ q : Rect, exec (.setScrollingRegion r) s = .next { s with paint := { s.paint with scrollRegion := q } }
      ∧ (s.vpWidth = 0 ∨ s.vpHeight = 0 → q = ⟨0, 0, -1, -1⟩)
      ∧ (0 < s.vpWidth → 0 < s.vpHeight →
          q.x1 = max 0 (min (s.vpWidth - 1) (min r.x1 r.x2))
          ∧ q.x2 = max 0 (min (s.vpWidth - 1) (max r.x1 r.x2))
          ∧ q.y1 = max 0 (min (s.vpHeight - 1) (min r.y1 r.y2))
          ∧ q.y2 = max 0 (min (s.vpHeight - 1) (max r.y1 r.y2))
          ∧ 0 ≤ q.x1 ∧ q.x1 ≤ q.x2 ∧ q.x2 < s.vpWidth ∧ 0 ≤ q.y1 ∧ q.y1 ≤ q.y2 ∧ q.y2 < s.vpHeight)

/-! ### Drawing -/

/-- SetPixel paints its one point with the foreground colour and SetPixelAt with its own (R178, R252, R253).
That nothing visible means no hiding either is log entry 9. -/
def Obligations.PixelsPaintOnePoint : Prop :=
  ∀ (p : Point) (c : Colour) (s : State), viewportOK s →
    (∃ t, exec (.setPixel p) s = .next t
      ∧ redraws s t s.paint fun h => paintedSet h (fun x y => decide (x = p.x ∧ y = p.y)) (fg h))
    ∧ (∃ t, exec (.setPixelAt p c) s = .next t
      ∧ redraws s t s.paint fun h => paintedSet h (fun x y => decide (x = p.x ∧ y = p.y)) c)

/-- LineTo paints the pixels of the walk from `penPos` with the foreground colour and moves `penPos` even
where nothing is visible (R254). Log entry 9 as before. -/
def Obligations.LineToPaintsWalk : Prop :=
  ∀ (p : Point) (s : State), viewportOK s →
    ∃ t, exec (.lineTo p) s = .next t
      ∧ redraws s t { s.paint with penPos := p } fun h =>
          paintedSet h (fun x y => decide (⟨x, y⟩ ∈ linePixels s.paint.penPos p)) (fg h)

/-- The walk of R251 holds both end points, stays between them, and takes one pixel for each unit of the
longer side: from each pixel to the next it moves by one along the longer side, towards the end point, and by
at most one, the same way, along the other. -/
def Obligations.LineWalkSpansEnds : Prop :=
  ∀ a b : Point, a ∈ linePixels a b ∧ b ∈ linePixels a b
    ∧ (linePixels a b).length = max (b.x - a.x).natAbs (b.y - a.y).natAbs + 1
    ∧ (∀ p ∈ linePixels a b, min a.x b.x ≤ p.x ∧ p.x ≤ max a.x b.x ∧ min a.y b.y ≤ p.y ∧ p.y ≤ max a.y b.y)
    ∧ ∀ (k : Nat) (p q : Point), (linePixels a b)[k]? = some p → (linePixels a b)[k + 1]? = some q →
        (q.x = p.x + Int.sign (b.x - a.x) ∨ (q.x = p.x ∧ |b.x - a.x| < |b.y - a.y|))
        ∧ (q.y = p.y + Int.sign (b.y - a.y) ∨ (q.y = p.y ∧ |b.y - a.y| < |b.x - a.x|))

/-- FillRect paints every pixel between the corners with the background colour, DrawRect those on an edge
with the foreground colour (R255 to R257). Log entry 9 as before. -/
def Obligations.RectanglesPaint : Prop :=
  ∀ (r : Rect) (s : State), viewportOK s →
    (∃ t, exec (.fillRect r) s = .next t ∧ redraws s t s.paint fun h => paintedSet h (inRect r) (bg h))
    ∧ (∃ t, exec (.drawRect r) s = .next t
      ∧ redraws s t s.paint fun h => paintedSet h
          (fun x y => inRect r x y && (x == r.x1 || x == r.x2 || y == r.y1 || y == r.y2)) (fg h))

/-- FillEllipse and DrawEllipse paint the fill and the outline set about `penPos` (R258 to R260). Log
entry 9 as before. -/
def Obligations.EllipsesPaint : Prop :=
  ∀ (w k : Nat) (s : State), viewportOK s →
    (∃ t, exec (.fillEllipse w k) s = .next t
      ∧ redraws s t s.paint fun h =>
          paintedSet h (fun x y => decide (⟨x, y⟩ ∈ ellipseFill s.paint.penPos w k)) (bg h))
    ∧ (∃ t, exec (.drawEllipse w k) s = .next t
      ∧ redraws s t s.paint fun h =>
          paintedSet h (fun x y => decide (⟨x, y⟩ ∈ ellipseOutline s.paint.penPos w k)) (fg h))

/-- The outline is symmetric about the centre, the fill joins its ends row by row, a zero side gives the
empty set, and a width of one gives a vertical line (R258, R259). -/
def Obligations.EllipseShape : Prop :=
  ∀ (c : Point) (w k : Nat),
    (∀ x y : Int, ⟨c.x + x, c.y + y⟩ ∈ ellipseOutline c w k →
      ⟨c.x - x, c.y + y⟩ ∈ ellipseOutline c w k ∧ ⟨c.x + x, c.y - y⟩ ∈ ellipseOutline c w k)
    ∧ (∀ p : Point, p ∈ ellipseFill c w k ↔ ∃ q ∈ ellipseOutline c w k, ∃ r ∈ ellipseOutline c w k,
        q.y = p.y ∧ r.y = p.y ∧ q.x ≤ p.x ∧ p.x ≤ r.x)
    ∧ (w = 0 ∨ k = 0 → ellipseOutline c w k = [])
    ∧ (w = 1 → 0 < k → ∀ p : Point, p ∈ ellipseFill c w k ↔
        p.x = c.x ∧ c.y - ((k / 2 : Nat) : Int) ≤ p.y ∧ p.y ≤ c.y + ((k / 2 : Nat) : Int))

/-- Clear gives every viewport pixel of the drawing bank the brush colour, whatever origin, clip and paint
options, and then resets the paint state if the parameter says so (R42, R261). Log entry 9 as before. -/
def Obligations.ClearFills : Prop :=
  ∀ s : State, viewportOK s →
    ∃ t, exec .clear s = .next t
      ∧ redraws s t
          (if s.params.clearResetsPaintState then
            { penColor := 0b111111#6, brushColor := 0b000000#6, penPos := ⟨0, 0⟩
              glyphOpt := ⟨false, false, false, false, false, false, false⟩
              swapFGBG := false, invertNot := false
              scrollRegion := ⟨0, 0, s.vpWidth - 1, s.vpHeight - 1⟩, origin := ⟨0, 0⟩
              clipRect := ⟨0, 0, s.vpWidth - 1, s.vpHeight - 1⟩ }
          else s.paint)
          fun h ax ay => if inVP h ax ay then some (vpByte h s.paint.brushColor) else none

/-- InvertRect inverts, and SwapFGBG exchanges pen and brush colour in, every visible pixel of the
rectangle, whatever the paint options (R262, R263). Log entry 9 as before. -/
def Obligations.RecolourRectangles : Prop :=
  ∀ (r : Rect) (s : State), viewportOK s →
    (∃ t, exec (.invertRect r) s = .next t
      ∧ redraws s t s.paint fun h ax ay =>
          if inClip h ax ay && inRect r (ax - s.paint.origin.x) (ay - s.paint.origin.y) then
            (getPix h ax ay).map fun c => vpByte h (c ^^^ 0b111111#6)
          else none)
    ∧ (∃ t, exec (.swapFGBG r) s = .next t
      ∧ redraws s t s.paint fun h ax ay =>
          if inClip h ax ay && inRect r (ax - s.paint.origin.x) (ay - s.paint.origin.y) then
            (getPix h ax ay).bind fun c =>
              if c = s.paint.penColor then some (vpByte h s.paint.brushColor)
              else if c = s.paint.brushColor then some (vpByte h s.paint.penColor)
              else none
          else none)

/-- CopyRect gives each visible destination pixel the colour its source pixel had before the copy began,
so overlap does no harm; a source pixel outside the viewport writes nothing (R264). Log entry 9 as
before. -/
def Obligations.CopyRectIsOverlapSafe : Prop :=
  ∀ (r : Rect) (d : Point) (s : State), viewportOK s →
    ∃ t, exec (.copyRect r d) s = .next t
      ∧ redraws s t s.paint fun h ax ay =>
          let sx := ax - s.paint.origin.x - d.x + min r.x1 r.x2
          let sy := ay - s.paint.origin.y - d.y + min r.y1 r.y2
          if inClip h ax ay && inRect r sx sy then
            (getPix h (sx + s.paint.origin.x) (sy + s.paint.origin.y)).map (vpByte h)
          else none

/-- DrawBitmap with its header and pixels allocated writes exactly the visible pixels whose alpha is not
zero (R82, R87, R265). Log entry 9 as before. -/
def Obligations.DrawBitmapIsAlphaThresholded : Prop :=
  ∀ (p : Point) (bmp : Nat) (s : State), viewportOK s → rangeLive s bmp 8 = true →
    rangeLive s (memU32 s (bmp + 4)).toNat ((memU16 s bmp).toNat * (memU16 s (bmp + 2)).toNat) = true →
    ∃ t, exec (.drawBitmap p bmp) s = .next t
      ∧ redraws s t s.paint fun h ax ay =>
          let x := ax - s.paint.origin.x - p.x
          let y := ay - s.paint.origin.y - p.y
          let b := memByte s ((memU32 s (bmp + 4)).toNat + y.toNat * (memU16 s bmp).toNat + x.toNat)
          if inClip h ax ay && decide (0 ≤ x ∧ x < (memU16 s bmp).toNat ∧ 0 ≤ y ∧ y < (memU16 s (bmp + 2)).toNat)
              && decide (b.extractLsb' 6 2 ≠ 0) then some (vpByte h (b.extractLsb' 0 6))
          else none

/-- DrawPath with its points allocated paints the closed path's lines with the foreground colour, FillPath
its inside with the background colour (R91, R267, R268). Log entry 9 as before. -/
def Obligations.PathsPaint : Prop :=
  ∀ (pts n : Nat) (s : State), viewportOK s → rangeLive s pts (4 * n) = true →
    (∃ t, exec (.drawPath pts n) s = .next t
      ∧ redraws s t s.paint fun h => paintedSet h
          (fun x y => (List.range n).any fun k =>
            decide (⟨x, y⟩ ∈ linePixels (pathPoint s pts k) (pathPoint s pts ((k + 1) % n)))) (fg h))
    ∧ (∃ t, exec (.fillPath pts n) s = .next t
      ∧ redraws s t s.paint fun h => paintedSet h
          (fun x y => decide (⟨x, y⟩ ∈ pathInterior (pathPoints s pts n))) (bg h))

/-- The inside of a path by the even-odd rule (R268): with three points at least, the pixels of a row
between its crossings two by two, the crossings sorted, of every edge whose half-open range of rows holds
the row, rising or falling, and of no other. -/
def Obligations.PathInteriorIsEvenOdd : Prop :=
  ∀ (ps : List Point) (x y : Int),
    let cs := (closedEdges ps).filterMap (edgeCrossing y)
    (sortCrossings cs).Perm cs
    ∧ (sortCrossings cs).Pairwise (fun a b => a.num * b.den ≤ b.num * a.den)
    ∧ (∀ e : Point × Point, min e.1.y e.2.y ≤ y → y < max e.1.y e.2.y → ∃ c, edgeCrossing y e = some c)
    ∧ (∀ e : Point × Point, ∀ c, edgeCrossing y e = some c → 0 < c.den
        ∧ min e.1.y e.2.y ≤ y ∧ y < max e.1.y e.2.y
        ∧ c.num * (e.2.y - e.1.y) = (e.1.x * (e.2.y - e.1.y) + (y - e.1.y) * (e.2.x - e.1.x)) * c.den)
    ∧ (⟨x, y⟩ ∈ pathInterior ps ↔ 3 ≤ ps.length ∧ ∃ m a b, (sortCrossings cs)[2 * m]? = some a
        ∧ (sortCrossings cs)[2 * m + 1]? = some b ∧ a.num ≤ x * a.den ∧ x * b.den ≤ b.num)

/-- DrawGlyph with its bitmap allocated paints the cell of R302 under the paint options, in the colours
of the paint state (R300, R302, R303). Log entry 9 as before. -/
def Obligations.DrawGlyphPaintsCell : Prop :=
  ∀ (p : Point) (gw gh data : Nat) (s : State), viewportOK s →
    rangeLive s data (gh * ((gw + 7) / 8)) = true →
    ∃ t, exec (.drawGlyph p gw gh data) s = .next t
      ∧ redraws s t s.paint fun h ax ay =>
          let u := ax - s.paint.origin.x - p.x
          let j := ay - s.paint.origin.y - p.y
          let o := s.paint.glyphOpt
          let m : Nat := if o.doubleWidth then 2 else 1
          let w : Int := gw + (if o.italic then ((gh : Int) - 1) / 4 else 0)
          if inClip h ax ay && decide (0 < gw ∧ 0 ≤ u ∧ u < m * w ∧ 0 ≤ j ∧ j < gh) then
            (cellColour s data gw gh o (fg s) (bg s) (u.toNat / m) j.toNat).bind (paintedByte h ax ay)
          else none

/-- RenderGlyphsBuffer draws nothing for a cell outside the map; inside it, with header, cell and glyph
allocated, it paints the glyph at the cell's place with the cell's own colours and options (R90, R305).
Log entry 9 as before; a glyph of width zero is log entry 25. -/
def Obligations.RenderGlyphsBufferPaintsCell : Prop :=
  ∀ (col row gbuf : Nat) (s : State), viewportOK s → rangeLive s gbuf 16 = true →
    let g := glyphBuffer s gbuf
    let m := memU32 s (g.map + 4 * (row * g.columns + col))
    let data := g.font + (m.extractLsb' 0 8).toNat * ((g.glyphsWidth + 7) / 8) * g.glyphsHeight
    (g.columns ≤ col ∨ g.rows ≤ row → exec (.renderGlyphsBuffer col row gbuf) s = .next s)
    ∧ (col < g.columns → row < g.rows → 0 < g.glyphsWidth →
        rangeLive s (g.map + 4 * (row * g.columns + col)) 4 = true →
        rangeLive s data (g.glyphsHeight * ((g.glyphsWidth + 7) / 8)) = true →
        ∃ t, exec (.renderGlyphsBuffer col row gbuf) s = .next t
          ∧ redraws s t s.paint fun h ax ay =>
              let u := ax - s.paint.origin.x - col * g.glyphsWidth
              let j := ay - s.paint.origin.y - row * g.glyphsHeight
              let o := glyphOpts (m.extractLsb' 24 8)
              let k : Nat := if o.doubleWidth then 2 else 1
              let w : Int := g.glyphsWidth + (if o.italic then ((g.glyphsHeight : Int) - 1) / 4 else 0)
              if inClip h ax ay && decide (0 ≤ u ∧ u < k * w ∧ 0 ≤ j ∧ j < g.glyphsHeight) then
                (cellColour s data g.glyphsWidth g.glyphsHeight o (m.extractLsb' 16 6) (m.extractLsb' 8 6)
                  (u.toNat / k) j.toNat).bind (paintedByte h ax ay)
              else none)

/-- The colour of a cell pixel (R300, R302), with every effect written out. -/
def Obligations.CellColourByOptions : Prop :=
  ∀ (s : State) (data gw gh : Nat) (o : GlyphOpts) (f k : Colour) (u j : Nat), j < gh →
    let i : Int := u - (if o.italic then ((gh : Int) - 1 - j) / 4 else 0)
    let bit (n : Int) : Prop := 0 ≤ n ∧ n < gw
      ∧ (memByte s (data + j * ((gw + 7) / 8) + n.toNat / 8)).getLsbD (7 - n.toNat % 8) = true
    let on : Prop := 0 ≤ i ∧ i < gw ∧ (bit i ∨ (o.bold = true ∧ bit (i - 1))
      ∨ (o.underline = true ∧ j + 1 = gh)) ∧ o.blank = false
    (on → cellColour s data gw gh o f k u j = some (if o.invert then k else f))
    ∧ (¬on → cellColour s data gw gh o f k u j =
        if o.fillBackground then some (if o.invert then f else k) else none)

/-- A primitive that reads host memory records DanglingReference for the first of its ranges, in read order,
that is not allocated, and writes nothing at all: one range of a path or a glyph, two of a bitmap, three of a
glyph buffer's cell (R61, R266, R303, R305, R366). -/
def Obligations.UnallocatedReferencesAreRecorded : Prop :=
  ∀ (s : State) (p : Point) (a n gw gh col row : Nat),
    (rangeLive s a 8 = false →
      exec (.drawBitmap p a) s = .next (raise (.danglingReference a 8) s))
    ∧ (rangeLive s a 8 = true →
        rangeLive s (memU32 s (a + 4)).toNat ((memU16 s a).toNat * (memU16 s (a + 2)).toNat) = false →
        exec (.drawBitmap p a) s = .next (raise (.danglingReference (memU32 s (a + 4)).toNat
          ((memU16 s a).toNat * (memU16 s (a + 2)).toNat)) s))
    ∧ (rangeLive s a (4 * n) = false →
        exec (.drawPath a n) s = .next (raise (.danglingReference a (4 * n)) s)
        ∧ exec (.fillPath a n) s = .next (raise (.danglingReference a (4 * n)) s))
    ∧ (rangeLive s a (gh * ((gw + 7) / 8)) = false →
        exec (.drawGlyph p gw gh a) s = .next (raise (.danglingReference a (gh * ((gw + 7) / 8))) s))
    ∧ (rangeLive s a 16 = false →
        exec (.renderGlyphsBuffer col row a) s = .next (raise (.danglingReference a 16) s))
    ∧ (rangeLive s a 16 = true →
        let g := glyphBuffer s a
        let cell := g.map + 4 * (row * g.columns + col)
        let stride := (g.glyphsWidth + 7) / 8
        let data := g.font + ((memU32 s cell).extractLsb' 0 8).toNat * stride * g.glyphsHeight
        col < g.columns → row < g.rows →
        (rangeLive s cell 4 = false →
          exec (.renderGlyphsBuffer col row a) s = .next (raise (.danglingReference cell 4) s))
        ∧ (rangeLive s cell 4 = true → rangeLive s data (g.glyphsHeight * stride) = false →
          exec (.renderGlyphsBuffer col row a) s =
            .next (raise (.danglingReference data (g.glyphsHeight * stride)) s)))

/-! ### Scrolling -/

/-- HScroll rotates each row of the region by `dx` and changes no other byte; an empty region or a shift
by a multiple of its width does nothing. The colours are those with the sprites hidden, and where nothing
moves nothing is hidden, which is log entry 9 (R306, R307, R310). -/
def Obligations.HScrollRotatesRows : Prop :=
  ∀ (dx : Int) (s : State), viewportOK s →
    let r := s.paint.scrollRegion
    let w := r.x2 - r.x1 + 1
    (r.x2 < r.x1 ∨ r.y2 < r.y1 ∨ dx % w = 0 → exec (.hScroll dx) s = .next s)
    ∧ (r.x1 ≤ r.x2 → r.y1 ≤ r.y2 → dx % w ≠ 0 →
        ∃ t, exec (.hScroll dx) s = .next t
          ∧ redraws s t s.paint fun h ax ay =>
              if r.x1 ≤ ax ∧ ax ≤ r.x2 ∧ r.y1 ≤ ay ∧ ay ≤ r.y2 then
                (getPix h (r.x1 + (ax - r.x1 - dx) % w) ay).map (vpByte h)
              else none)

/-- VScroll rotates the row pointers of the region, keeps the columns outside it, re-points the
row-segment descriptors of its rows and changes nothing else; an empty region or a shift by a multiple of
its height does nothing (R306 to R309). The order of the three parts is log entry 23; that the bytes are
those with the sprites hidden, and that nothing is hidden where nothing moves, is log entry 9. -/
def Obligations.VScrollRotatesRows : Prop :=
  ∀ (dy : Int) (s : State), viewportOK s →
    let r := s.paint.scrollRegion
    let n := r.y2 - r.y1 + 1
    let h := hideSprites s
    (r.x2 < r.x1 ∨ r.y2 < r.y1 ∨ dy % n = 0 → exec (.vScroll dy) s = .next s)
    ∧ (r.x1 ≤ r.x2 → r.y1 ≤ r.y2 → dy % n ≠ 0 →
        ∃ t, exec (.vScroll dy) s = .next t
          ∧ (∀ x y, inVP s x y = true → rawPixel t s.drawBank x y =
              if r.x1 ≤ x ∧ x ≤ r.x2 ∧ r.y1 ≤ y ∧ y ≤ r.y2 then
                rawPixel h s.drawBank x (r.y1 + (y - r.y1 - dy) % n)
              else rawPixel h s.drawBank x y)
          ∧ (∀ y : Nat, (t.rowMap.get s.drawBank)[y]? =
              if r.y1 ≤ (y : Int) ∧ (y : Int) ≤ r.y2 then
                (s.rowMap.get s.drawBank)[(r.y1 + ((y : Int) - r.y1 - dy) % n).toNat]?
              else (s.rowMap.get s.drawBank)[y]?)
          ∧ t.rowMap.get s.drawBank.other = s.rowMap.get s.drawBank.other
          ∧ (∀ p off, (∀ x y, r.y1 ≤ y → y ≤ r.y2 → (x < r.x1 ∨ r.x2 < x) →
                physAddr t s.drawBank x y ≠ some (p, off)) → rowByte t.rows p off = rowByte h.rows p off)
          ∧ (∀ y k : Nat, r.y1 ≤ (y : Int) → (y : Int) ≤ r.y2 → k < s.timings.scanCount →
              ∀ d, (s.desc.get s.drawBank)[rowDescIndex s.timings (geometry s) y k]? = some d →
                (t.desc.get s.drawBank)[rowDescIndex s.timings (geometry s) y k]? =
                  ((t.rowMap.get s.drawBank)[y]?).map fun p => { d with buf := .row p })
          ∧ (∀ b i, (b = s.drawBank → ∀ y k : Nat, r.y1 ≤ (y : Int) → (y : Int) ≤ r.y2 →
                k < s.timings.scanCount → i ≠ rowDescIndex s.timings (geometry s) y k) →
              (t.desc.get b)[i]? = (s.desc.get b)[i]?)
          ∧ t.sprites = h.sprites ∧ t.spritesHidden = true ∧ engineMoved s t
          ∧ drawingOnly { s with rowMap := t.rowMap, desc := t.desc } t)

/-- Scrolling by `n` and then by `-n` with the sprites hidden restores what was there: HScroll every colour
of the viewport (for two-bit channels, whose colours R80 lays out), VScroll every byte of it and the row map
itself (R307, R311). -/
def Obligations.ScrollingBackRestores : Prop :=
  ∀ (n : Int) (s t u : State), viewportOK s → s.spritesHidden = true →
    (s.params.channelDepth = .two → exec (.hScroll n) s = .next t → exec (.hScroll (-n)) t = .next u →
      ∀ ax ay, inVP s ax ay = true → getPix u ax ay = getPix s ax ay)
    ∧ (exec (.vScroll n) s = .next t → exec (.vScroll (-n)) t = .next u →
      u.rowMap = s.rowMap ∧ ∀ ax ay, rawPixel u s.drawBank ax ay = rawPixel s s.drawBank ax ay)

/-! ### Sprites -/

/-- SetSprites with room and every frame header allocated hides the sprites and installs the slots
(R43, R331); with a header not allocated it records the first such one and installs nothing, the sprites
hidden all the same (log entry 12); a list longer than MaxSprites is refused (log entry 5). That an installed
slot has no earlier positions for R338 is the model's own (log entry 15). -/
def Obligations.SetSpritesInstalls : Prop :=
  ∀ (slots : List SpriteInit) (s : State),
    (slots.length ≤ s.params.maxSprites → (∀ i ∈ slots, ∀ a ∈ i.frames, rangeLive s a 8 = true) →
      exec (.setSprites slots) s = .next { s with
        rows := (hideSprites s).rows, spritesHidden := true
        sprites := slots.map fun i =>
          let fs : List Frame := i.frames.map fun a => ⟨a, (memU16 s a).toNat, (memU16 s (a + 2)).toNat⟩
          { x := i.x, y := i.y, frames := fs, curFrame := i.curFrame, visible := i.visible
            isStatic := i.isStatic, allowDraw := true
            savedBg := List.replicate ((fs.map Frame.w).foldl max 0 * (fs.map Frame.h).foldl max 0) 0
            savedRect := none, xOld := [], yOld := [] } })
    ∧ (slots.length ≤ s.params.maxSprites →
      ∀ (pre post : List Nat) (a : Nat), slots.flatMap SpriteInit.frames = pre ++ a :: post →
        (∀ b ∈ pre, rangeLive s b 8 = true) → rangeLive s a 8 = false →
        exec (.setSprites slots) s = .next { s with
          rows := (hideSprites s).rows, spritesHidden := true, sprites := (hideSprites s).sprites
          faults := s.faults ++ [.danglingReference a 8] })
    ∧ (s.params.maxSprites < slots.length → exec (.setSprites slots) s = .next { s with refused := true })

/-- SpriteWrite writes one field of one slot, and SpriteAddFrame appends a frame and grows the saved
background to the largest frame, keeping its bytes; a slot that does not exist is refused, an unallocated
header recorded (R332, R333, R364). That a position keeps its earlier values for R338 is log entry 15, and
the zeros of a grown background log entry 13. -/
def Obligations.SpriteFieldsWritten : Prop :=
  ∀ (n : Nat) (s : State),
    (∀ sp, s.sprites[n]? = some sp → ∀ (v : BitVec 16) (m : Nat) (b : Bool),
      let put (q : Sprite) := Host.Outcome.next (φ := Fault) (ρ := Refusal) { s with sprites := s.sprites.set n q }
      exec (.spriteWrite n (.x v)) s = put { sp with x := v, xOld := sp.x :: sp.xOld }
      ∧ exec (.spriteWrite n (.y v)) s = put { sp with y := v, yOld := sp.y :: sp.yOld }
      ∧ exec (.spriteWrite n (.curFrame m)) s = put { sp with curFrame := m }
      ∧ exec (.spriteWrite n (.visible b)) s = put { sp with visible := b }
      ∧ exec (.spriteWrite n (.isStatic b)) s = put { sp with isStatic := b }
      ∧ exec (.spriteWrite n (.allowDraw b)) s = put { sp with allowDraw := b })
    ∧ (∀ sp a, s.sprites[n]? = some sp → rangeLive s a 8 = true →
      let fs := sp.frames ++ [⟨a, (memU16 s a).toNat, (memU16 s (a + 2)).toNat⟩]
      ∃ z, exec (.spriteAddFrame n a) s = .next { s with
          sprites := s.sprites.set n { sp with frames := fs, savedBg := sp.savedBg ++ z } }
        ∧ (sp.savedBg ++ z).length =
            max sp.savedBg.length ((fs.map Frame.w).foldl max 0 * (fs.map Frame.h).foldl max 0))
    ∧ (∀ sp a, s.sprites[n]? = some sp → rangeLive s a 8 = false →
      exec (.spriteAddFrame n a) s = .next { s with faults := s.faults ++ [.danglingReference a 8] })
    ∧ (s.sprites.length ≤ n → ∀ u a, exec (.spriteWrite n u) s = .next { s with refused := true }
        ∧ exec (.spriteAddFrame n a) s = .next { s with refused := true })

/-- Hiding shown sprites with one bank restores the saved backgrounds in reverse z-order, so that where
several overlap the lowest slot's bytes remain, and forgets them; every other byte stays. With two banks, or
with the sprites hidden already, no byte changes (R335). -/
def Obligations.HideSpritesRestores : Prop :=
  ∀ s : State, viewportOK s →
    (s.spritesHidden = false → s.doubleBuffered = false →
      (∀ ax ay, inVP s ax ay = true → rawPixel (hideSprites s) s.drawBank ax ay =
        match s.sprites.find? fun sp => savedAt sp ax ay with
        | some sp => some (savedByte sp ax ay)
        | none => rawPixel s s.drawBank ax ay)
      ∧ (∀ p off, (∀ ax ay, (∃ sp ∈ s.sprites, savedAt sp ax ay = true) →
            physAddr s s.drawBank ax ay ≠ some (p, off)) →
          rowByte (hideSprites s).rows p off = rowByte s.rows p off)
      ∧ (hideSprites s).sprites = s.sprites.map fun sp => { sp with savedRect := none })
    ∧ (s.doubleBuffered = true → (hideSprites s).rows = s.rows ∧ (hideSprites s).sprites = s.sprites)
    ∧ (s.spritesHidden = true → hideSprites s = s)
    ∧ (hideSprites s).spritesHidden = true ∧ engineMoved s (hideSprites s)
    ∧ drawingOnly s (hideSprites s)

/-- RefreshSprites hides and then shows: rows and sprites are those that HideSprites and ShowSprites, one after
the other, leave, the sprites count as shown, and nothing changed but
row bytes under a saved background or a sprite that may be shown, the Executor's fields of the slots, and
what Engine ticks and unallocated pixel data change (R335 to R338). -/
def Obligations.RefreshSpritesFrame : Prop :=
  ∀ s : State, viewportOK s →
    ∃ t, exec .refreshSprites s = .next t ∧ t.spritesHidden = false ∧ drawingOnly s t
      ∧ t.rows = (showSprites (hideSprites s)).rows ∧ t.sprites = (showSprites (hideSprites s)).sprites
      ∧ (∀ p off, (∀ ax ay, (∃ sp ∈ s.sprites, savedAt sp ax ay = true ∨ mayShowAt sp ax ay) →
            physAddr s s.drawBank ax ay ≠ some (p, off)) →
          rowByte t.rows p off = rowByte s.rows p off)
      ∧ List.Forall₂ sameProducerFields s.sprites t.sprites
      ∧ (∃ fs, t.faults = s.faults ++ fs ∧ ∀ f ∈ fs, (∃ r, f = .descriptorNotOwned r)
          ∨ ∃ a n, f = .danglingReference a n)

/-- RefreshSprites with one drawable sprite whose pixels are allocated, its position written once and the
sprites hidden: the pixels of its frame that are opaque and visible get their colour, every other viewport
pixel stays, and the slot keeps what it must to be hidden again, or its static flag (R334, R336, R337). That
the address of the pixels is read from the frame's header when the sprite is shown is log entry 11. And a
drawable sprite whose frame data is not allocated, its pixels or the four bytes that name them, records
DanglingReference for that range, is neither saved nor drawn, and the sprites before and after it are shown all
the same (R336, R361, R363). -/
def Obligations.OneSpriteIsShown : Prop :=
  (∀ (s : State) (sp : Sprite) (f : Frame), viewportOK s → s.spritesHidden = true → s.sprites = [sp] →
    drawable sp = true → sp.frames[sp.curFrame]? = some f → sp.xOld = [] → sp.yOld = [] →
    rangeLive s (f.addr + 4) 4 = true → rangeLive s (memU32 s (f.addr + 4)).toNat (f.w * f.h) = true →
    ∃ t q, exec .refreshSprites s = .next t ∧ t.spritesHidden = false ∧ t.sprites = [q]
      ∧ (∀ ax ay, inVP s ax ay = true →
          let x := ax - sp.x.toInt
          let y := ay - sp.y.toInt
          let b := memByte s ((memU32 s (f.addr + 4)).toNat + (y * f.w + x).toNat)
          rawPixel t t.drawBank ax ay =
            if 0 ≤ x ∧ x < f.w ∧ 0 ≤ y ∧ y < f.h ∧ b.extractLsb' 6 2 ≠ 0 then
              some (vpByte s (b.extractLsb' 0 6))
            else rawPixel s s.drawBank ax ay)
      ∧ (sp.isStatic = true → q = { sp with allowDraw := false })
      ∧ (sp.isStatic = false → s.doubleBuffered = true → q = sp)
      ∧ (sp.isStatic = false → s.doubleBuffered = false →
          q = { sp with savedBg := q.savedBg, savedRect := q.savedRect }
          ∧ ∀ ax ay, inVP s ax ay = true →
            (savedAt q ax ay = true ↔ 0 ≤ ax - sp.x.toInt ∧ ax - sp.x.toInt < f.w
              ∧ 0 ≤ ay - sp.y.toInt ∧ ay - sp.y.toInt < f.h)
            ∧ (savedAt q ax ay = true → some (savedByte q ax ay) = rawPixel s s.drawBank ax ay))
      ∧ engineMoved s t ∧ drawingOnly s t)
  ∧ ∀ (s : State) (before after : List Sprite) (sp : Sprite) (f : Frame) (a n : Nat), s.spritesHidden = true →
      s.sprites = before ++ sp :: after → drawable sp = true → sp.frames[sp.curFrame]? = some f →
      (rangeLive s (f.addr + 4) 4 = false ∧ a = f.addr + 4 ∧ n = 4
        ∨ rangeLive s (f.addr + 4) 4 = true ∧ a = (memU32 s (f.addr + 4)).toNat ∧ n = f.w * f.h
          ∧ rangeLive s a n = false) →
      let earlier := showFrom before.length 0 s
      let skipped : State := { earlier with faults := earlier.faults ++ [.danglingReference a n] }
      showSprite before.length earlier = skipped
      ∧ ∃ t, exec .refreshSprites s = .next t
        ∧ t = { showFrom after.length (before.length + 1) skipped with spritesHidden := false }
        ∧ t.sprites[before.length]? = some sp ∧ .danglingReference a n ∈ t.faults

/-- The restore property, which R339 marks as the spec's own inference from R335 and R336: with one bank
and no static sprite, showing and then hiding leaves every row byte as it was, however the sprites overlap
and however many Engine ticks fall in between. -/
def Obligations.ShowThenHideRestores : Prop :=
  ∀ s : State, viewportOK s → s.doubleBuffered = false → s.spritesHidden = true →
    (∀ sp ∈ s.sprites, sp.savedRect = none) → (∀ sp ∈ s.sprites, sp.isStatic = false) →
    (hideSprites (showSprites s)).rows = s.rows

/-- SwapBuffers with two banks shows the sprites on the drawing bank, makes it the visible one and
redirects the sentinel to it; with one bank it changes nothing (R211). The rows and the sprites are then
exactly those that ShowSprites leaves, and after it only the banks, the sentinel and what Engine ticks
change are written. -/
def Obligations.SwapBuffersFlips : Prop :=
  ∀ s : State, viewportOK s →
    (s.doubleBuffered = false → exec .swapBuffers s = .next s)
    ∧ (s.doubleBuffered = true →
        ∃ t, exec .swapBuffers s = .next t
          ∧ t.drawBank = s.drawBank.other ∧ visBank t = s.drawBank
          ∧ t.sentinel = { s.sentinel with next := .entry (visBank t) 0 }
          ∧ t.spritesHidden = false
          ∧ t.rows = (showSprites s).rows ∧ t.sprites = (showSprites s).sprites
          ∧ engineMoved (showSprites s) t
          ∧ ticksOnly { showSprites s with drawBank := t.drawBank, sentinel := t.sentinel } t
          ∧ (∀ p off, (∀ ax ay, (∃ sp ∈ s.sprites, mayShowAt sp ax ay) →
                physAddr s s.drawBank ax ay ≠ some (p, off)) →
              rowByte t.rows p off = rowByte s.rows p off)
          ∧ List.Forall₂ sameProducerFields s.sprites t.sprites
          ∧ drawingOnly { s with drawBank := t.drawBank, sentinel := t.sentinel } t)

/-! ### The queue and the drains -/

/-- AddPrimitive in background mode appends to the queue while it has room and otherwise waits with the
record, dropping nothing (R200, R201; the waiting record's field is log entry 7). While it waits and the queue
is full the Producer has no step: with no drain and no interrupt to enter the Engine ticks, and moves on where
it runs in a coherent state; with room again the record is appended (R10, R201). And a Producer that waits
while no drain can run waits for ever, and its run is reported stuck and never ended, whatever number of
steps it is given (R365, R398, R399; log entry 33). -/
def Obligations.AddPrimitiveQueuesOrWaits : Prop :=
  (∀ (P : Record) (s : State), s.backgroundExec = true →
    (s.queue.length < s.params.queueSpare + 1 →
      exec (.addPrimitive P) s = .next { s with queue := s.queue ++ [P] })
    ∧ (s.params.queueSpare + 1 ≤ s.queue.length →
      exec (.addPrimitive P) s = .next { s with blocked := some P }))
  ∧ (∀ (P : Record) (s : State), engineTurn s = false → s.inExecutor = false → isrEnterable s = false →
      s.immediate = none → s.blocked = some P →
      (s.params.queueSpare + 1 ≤ s.queue.length → ∃ t, step s = .next t
        ∧ t = { engineTick s with ticksDue := t.ticksDue, draws := t.draws }
        ∧ (scanOK s → s.engineRunning = true → t.tick = s.tick + 1))
      ∧ (s.queue.length < s.params.queueSpare + 1 → s.backgroundExec = true → ∃ t, step s = .next t
        ∧ t = { s with queue := s.queue ++ [P], blocked := none, ticksDue := t.ticksDue, draws := t.draws }))
  ∧ ∀ s t : State, producerStuck s → step s = .next t →
      producerStuck t ∧ t.queue = s.queue ∧ t.blocked = s.blocked ∧ t.program = s.program
        ∧ ¬endOfRun t ∧ ∀ n, (runFor n s).1 = .stuck

/-- AddPrimitive in immediate mode begins a drain of the older records and keeps its own (R41, R69, R201; the
field that keeps it is log entry 34). Each further step of the Executor takes the record at the head; with none
left the drain ends, with hidden sprites shown where there is one bank; and then the Producer's record is
executed, reserved or not, in a drain state of its own, and nothing is shown after it, which is log entry 10.
For a record that spells an instruction that is its meaning and the rest of its ticks. All this takes finitely
many steps, Engine ticks in between, and the operation is then over. -/
def Obligations.AddPrimitiveImmediateExecutes : Prop :=
  (∀ (P : Record) (s : State), s.backgroundExec = false →
    exec (.addPrimitive P) s = .next { s with immediate := some P, inExecutor := true, drainKind := .immediate
                                              drainStart := s.tick, drainFirst := true })
  ∧ (∀ s : State, engineTurn s = false → s.inExecutor = true → s.drainKind = .immediate →
      (∀ Q qs, s.queue = Q :: qs → ∃ u t, runRecord exec Q { s with queue := qs } = .next u ∧ step s = .next t
        ∧ t = { u with drainFirst := false, ticksDue := t.ticksDue, draws := t.draws })
      ∧ (s.queue = [] →
          let e : State := if s.doubleBuffered = false ∧ s.spritesHidden = true then showSprites s else s
          ∃ t, step s = .next t ∧ t = { e with inExecutor := false, ticksDue := t.ticksDue, draws := t.draws }))
  ∧ (∀ (P : Record) (s : State), engineTurn s = false → s.inExecutor = false → s.backgroundExec = false →
      s.immediate = some P →
      let e : State := { s with immediate := none, inExecutor := true, drainKind := .immediate
                                drainStart := s.tick, drainFirst := true }
      ∃ u t, runRecord exec P e = .next u ∧ step s = .next t
        ∧ t = { u with inExecutor := false, drainFirst := false, ticksDue := t.ticksDue, draws := t.draws }
        ∧ ∀ i, decodePrim P = .ok i → ∃ v, exec i (beginExec P e) = .next v ∧ u = costTicks v)
  ∧ ∀ s : State, s.inExecutor = true → s.drainKind = .immediate → s.backgroundExec = false →
      s.immediate.isSome = true →
      ∃ n t, stepMany n s = .next t ∧ t.queue = [] ∧ t.inExecutor = false ∧ t.immediate = none
        ∧ t.suspendCount = s.suspendCount ∧ t.backgroundExec = false ∧ t.program = s.program
        ∧ t.blocked = s.blocked

/-- Suspend adds one, Resume takes one away or, at zero, records UnbalancedResume and changes nothing, and
EnableBackgroundExecution sets the mode and drains nothing (R202, R203, R205). -/
def Obligations.ExecutionControl : Prop :=
  ∀ (s : State) (on : Bool),
    exec .suspend s = .next { s with suspendCount := s.suspendCount + 1 }
    ∧ (∀ n, s.suspendCount = n + 1 → exec .resume s = .next { s with suspendCount := n })
    ∧ (s.suspendCount = 0 → exec .resume s = .next { s with faults := s.faults ++ [.unbalancedResume] })
    ∧ exec (.enableBackgroundExecution on) s = .next { s with backgroundExec := on }

/-- ProcessPrimitives begins a pump inside its own suspension (R41, R69, R204). Each further step of the
Executor takes the record at the head of the queue, whatever it is, and executes it, so that they run in order,
each once and wholly before the next (R70, R207); with none left the pump ends, with hidden sprites shown where
there is one bank, and takes its suspension back. All this takes finitely many steps, Engine ticks in between
(R69), and no Producer operation runs before it is over. -/
def Obligations.PumpRunsQueueInOrder : Prop :=
  (∀ s : State, exec .processPrimitives s =
    .next { s with suspendCount := s.suspendCount + 1, inExecutor := true, drainKind := .pump
                   drainStart := s.tick, drainFirst := true })
  ∧ (∀ s : State, engineTurn s = false → s.inExecutor = true → s.drainKind = .pump →
      (∀ P ps, s.queue = P :: ps → ∃ u t, runRecord exec P { s with queue := ps } = .next u ∧ step s = .next t
        ∧ t = { u with drainFirst := false, ticksDue := t.ticksDue, draws := t.draws }
        ∧ t.queue = ps ∧ t.inExecutor = true ∧ t.drainKind = .pump)
      ∧ (s.queue = [] →
          let e : State := if s.doubleBuffered = false ∧ s.spritesHidden = true then showSprites s else s
          ∃ t, step s = .next t
            ∧ t = { e with inExecutor := false, suspendCount := s.suspendCount - 1
                           ticksDue := t.ticksDue, draws := t.draws }))
  ∧ ∀ s : State, s.inExecutor = true → s.drainKind = .pump →
      ∃ n t, stepMany n s = .next t ∧ t.queue = [] ∧ t.inExecutor = false
        ∧ t.suspendCount = s.suspendCount - 1 ∧ t.backgroundExec = s.backgroundExec ∧ t.program = s.program
        ∧ t.blocked = s.blocked ∧ t.immediate = s.immediate
        ∧ (s.doubleBuffered = false → t.spritesHidden = false)

/-- Entry into the vertical-sync interrupt: pending, enabled and not in a drain, it is taken at the next
step that is not the Engine's, before any Producer step, and saves nothing (R209, R371, R373). -/
def Obligations.InterruptEntry : Prop :=
  ∀ s : State, s.vsIntPending = true → s.configured = true → s.engineRunning = true →
    s.suspendCount = 0 → s.backgroundExec = true → s.inExecutor = false →
    (engineTurn s = true → step s = .next (engineStep s))
    ∧ (engineTurn s = false → ∃ t, step s = .next t
        ∧ t = { s with vsIntPending := false, inExecutor := true, drainKind := .isr
                       drainStart := s.tick, drainFirst := true
                       ticksDue := t.ticksDue, draws := t.draws })

/-- One turn of the ISR drain: an empty queue, or a SwapBuffers that is not first, ends the drain with the
queue as it stands; otherwise the record, reserved or not, is consumed and executed, takes as many ticks as
ExecCost gives the primitive and its geometry, or a reserved tag (no more where the Engine halts); a reserved
one records ReservedPrimitive and changes nothing else but by those ticks; and the drain goes on exactly while
the ticks since its start do not exceed the budget (R96, R206, R208, R210, R363, R372, R374, R404). What counts
as geometry is log entry 8, and that the end of a drain over budget is the same step is log entry 27. -/
def Obligations.InterruptDrainTurn : Prop :=
  ∀ s : State, engineTurn s = false → s.inExecutor = true → s.drainKind = .isr →
    (s.queue = [] ∨ (∃ P ps, s.queue = P :: ps ∧ recByte P 0 = 0x17 ∧ s.drainFirst = false) →
      ∃ t, step s = .next t ∧ t.inExecutor = false ∧ t.queue = s.queue ∧ t.paint = s.paint
        ∧ t.drawBank = s.drawBank ∧ t.suspendCount = s.suspendCount
        ∧ (s.doubleBuffered = false → t.spritesHidden = false)
        ∧ (s.doubleBuffered = true → t.rows = s.rows))
    ∧ (∀ P ps, s.queue = P :: ps → (recByte P 0 = 0x17 → s.drainFirst = true) →
      ∃ u t, runRecord exec P { s with queue := ps } = .next u ∧ step s = .next t ∧ t.queue = ps
        ∧ t.drainFirst = false
        ∧ u.tick ≤ s.tick + recordCost P s ∧ (u.engineRunning = true → u.tick = s.tick + recordCost P s)
        ∧ (∀ i, decodePrim P = .ok i → recordCost P s = Config.execCost i (execGeometry i s)
          ∧ ∃ v, exec i (beginExec P { s with queue := ps }) = .next v ∧ u = costTicks v)
        ∧ (0x1C ≤ (recByte P 0).toNat → recordCost P s = Config.reservedCost (recByte P 0)
          ∧ ticksOnly { s with queue := ps, faults := s.faults ++ [.reservedPrimitive (recByte P 0)] } u
          ∧ engineMoved { s with queue := ps, faults := s.faults ++ [.reservedPrimitive (recByte P 0)] } u)
        ∧ (t.inExecutor = true ↔ (u.tick : Int) - s.drainStart ≤
            s.timings.scanCount * (s.timings.hFrontPorch + s.timings.hSyncPulse + s.timings.hBackPorch
              + s.timings.hVisible) * (s.timings.vSyncPulse + s.timings.vBackPorch + s.vpRow)))

/-- After the first primitive of an ISR drain no step of it changes the banks, and each step takes the
head of the queue or leaves the queue as it is (R70, R206, R212). -/
def Obligations.SwapOnlyFirstInDrain : Prop :=
  ∀ s t : State, s.inExecutor = true → s.drainKind = .isr → step s = .next t →
    (t.queue = s.queue ∨ t.queue = s.queue.tail)
    ∧ (s.drainFirst = false → t.drawBank = s.drawBank ∧ t.sentinel = s.sentinel)

/-- While the suspension lasts, or in immediate mode, no step starts an ISR drain (R71, R202, R205). -/
def Obligations.NoInterruptWhileSuspended : Prop :=
  ∀ s t : State, s.inExecutor = false → (0 < s.suspendCount ∨ s.backgroundExec = false) →
    step s = .next t → t.inExecutor = true → t.drainKind ≠ .isr

/-! ### Configuration -/

/-- DecodeModeline returns the timings its text spells and changes nothing else. It returns timings for
exactly the texts of R92's grammar, and none for any other; and every text of the grammar, whatever spaces and
tabs stand in it and whatever leading zeros its numbers have, spells the label, the clock and the intervals of
R121, whose totals are the text's (R92, R120 to R123). -/
def Obligations.DecodeModelineMapsTokens : Prop :=
  (∀ (text : List Byte) (s : State),
    exec (.decodeModeline text) s = .next { s with ret := .timings (parseModeline text) })
  ∧ (∀ text : List Byte, (∃ t, parseModeline text = some t) ↔ modelineGrammar text)
  ∧ (∀ (text : List Byte) (s : State), ¬modelineGrammar text →
      exec (.decodeModeline text) s = .next { s with ret := .timings none })
  ∧ ∀ (before label after whole frac hd hss hse ht vd vss vse vt : List Byte)
      (words : List (List Byte × List Byte)) (hp vp : SyncPol) (double : Bool) (block : Option HBlock),
      modelineParts before label words after → isUint whole → (frac = [] ∨ isUint frac) →
      (∀ u ∈ [hd, hss, hse, ht, vd, vss, vse, vt], isUint u) →
      words.map Prod.snd =
        [whole ++ (if frac = [] then [] else 0x2E#8 :: frac), hd, hss, hse, ht, vd, vss, vse, vt,
          if hp = .pos then kwPlusH else kwMinusH, if vp = .pos then kwPlusV else kwMinusV]
        ++ (if double then [kwDoubleScan] else []) ++ (block.map blockWord).toList →
      ∃ t, parseModeline (modelineText before label words after) = some t
        ∧ t = { label := label, clockMHz := t.clockMHz
                hVisible := uintValue hd, hFrontPorch := (uintValue hss : Int) - uintValue hd
                hSyncPulse := (uintValue hse : Int) - uintValue hss
                hBackPorch := (uintValue ht : Int) - uintValue hse
                vVisible := uintValue vd, vFrontPorch := (uintValue vss : Int) - uintValue vd
                vSyncPulse := (uintValue vse : Int) - uintValue vss
                vBackPorch := (uintValue vt : Int) - uintValue vse
                hSyncPol := hp, vSyncPol := vp, scanCount := if double then 2 else 1
                hStartingBlock := block.getD .frontPorch }
        ∧ t.clockMHz.scale ≤ frac.length
        ∧ t.clockMHz.digits * 10 ^ (frac.length - t.clockMHz.scale) = uintValue (whole ++ frac)
        ∧ hTotal t = uintValue ht ∧ vTotal t = uintValue vt

/-- SetResolution with a modeline that parses to well-formed timings returns true and sets all of the
scan-out side, leaving the rest (R127, R131, R170, R393). How many rows the allocator gives, up to the
height asked for, is its own choice (log entry 22), and the value that the latched descriptor is reset to and
the offset 0 of the sentinel are the model's (log entry 17). -/
def Obligations.SetResolutionReconfigures : Prop :=
  ∀ (text : List Byte) (rw rh : Int) (dbl : Bool) (s : State) (t : Timings),
    parseModeline text = some t → timingsWF s.params t = true →
    ∃ (u : State) (ah : Nat), exec (.setResolution text rw rh dbl) s = .next u
      ∧ u.timings = t ∧ u.doubleBuffered = dbl ∧ u.drawBank = .zero
      ∧ u.vpWidth = (let w := max 0 (min t.hVisible rw); w - w % 4)
      ∧ u.vpHeight = ah ∧ (ah : Int) ≤ (if u.vpWidth = 0 then 0 else max 0 (min t.vVisible rh))
      ∧ u.vpCol = (let c := (t.hVisible - u.vpWidth) / 2; c - c % 4)
      ∧ u.vpRow = (t.vVisible - ah) / 2
      ∧ (∀ r ∈ u.rows, ∀ b ∈ r, b = pixbyte s.params (vsOff t) (hsOff t) 0)
      ∧ u.pools.sum = u.rows.length ∧ u.rows.length = (if dbl then 2 * ah else ah)
      ∧ u.paint = Paint.reset u.vpWidth u.vpHeight
      ∧ u.sprites = (s.sprites.map fun sp => { sp with savedRect := none })
      ∧ u.spritesHidden = true ∧ u.vsIntPending = false ∧ u.configured = true
      ∧ u.cur = .sentinel ∧ u.lat = Desc.linkTo .sentinel ∧ u.pos = 0 ∧ u.engineRunning = true ∧ u.ret = .success true
      ∧ viewportOK u ∧ chainOK u ∧ engineOK u
      ∧ u = { u with
              params := s.params, queue := s.queue, suspendCount := s.suspendCount
              backgroundExec := s.backgroundExec, inExecutor := s.inExecutor
              drainStart := s.drainStart, drainFirst := s.drainFirst, drainKind := s.drainKind
              hostmem := s.hostmem, live := s.live, faults := s.faults, refused := s.refused
              tick := s.tick, out := s.out, program := s.program, blocked := s.blocked
              immediate := s.immediate }

/-- MoveScreen redistributes the porches, keeps the totals, rebuilds blank buffers, chains and sentinel
over the same rows, and starts the Engine's frame again (R140, R363; log entry 20). The offset 0 of the rebuilt
sentinel is the model's own (log entry 17). -/
def Obligations.MoveScreenRedistributesPorches : Prop :=
  ∀ (dx dy : Int) (s : State), s.configured = true → (0 < s.suspendCount ∨ s.backgroundExec = false) →
    let t := { s.timings with
      hFrontPorch := s.timings.hFrontPorch - dx, hBackPorch := s.timings.hBackPorch + dx
      vFrontPorch := s.timings.vFrontPorch - dy, vBackPorch := s.timings.vBackPorch + dy }
    timingsWF s.params t = true →
    exec (.moveScreen dx dy) s = .next { s with
        timings := t, blank0 := blankLine s.params t false, blank1 := blankLine s.params t true
        desc := ⟨chain t (geometry s) .zero s.rowMap.zero,
                 if s.doubleBuffered then chain t (geometry s) .one s.rowMap.one else []⟩
        sentinel := Desc.linkTo (.entry (visBank s) 0), cur := .sentinel, pos := 0, engineRunning := true }
      ∧ hTotal t = hTotal s.timings ∧ vTotal t = vTotal s.timings

/-- ShrinkScreen moves the visible area's edges inwards, keeps the totals and the viewport's size, centres
the viewport again and rebuilds as MoveScreen does (R127, R141, R363; log entry 20). The offset 0 of the rebuilt
sentinel is the model's own (log entry 17). -/
def Obligations.ShrinkScreenRecentres : Prop :=
  ∀ (sx sy : Int) (s : State), s.configured = true → (0 < s.suspendCount ∨ s.backgroundExec = false) →
    let t := { s.timings with
      hVisible := s.timings.hVisible - 2 * sx
      hFrontPorch := s.timings.hFrontPorch + sx, hBackPorch := s.timings.hBackPorch + sx
      vVisible := s.timings.vVisible - 2 * sy
      vFrontPorch := s.timings.vFrontPorch + sy, vBackPorch := s.timings.vBackPorch + sy }
    let c := (t.hVisible - s.vpWidth) / 2
    let g : Geometry := ⟨s.vpWidth, s.vpHeight, c - c % 4, (t.vVisible - s.vpHeight) / 2⟩
    timingsWF s.params t = true → s.vpWidth ≤ t.hVisible → s.vpHeight ≤ t.vVisible →
    exec (.shrinkScreen sx sy) s = .next { s with
        timings := t, vpCol := g.vpCol, vpRow := g.vpRow
        blank0 := blankLine s.params t false, blank1 := blankLine s.params t true
        desc := ⟨chain t g .zero s.rowMap.zero,
                 if s.doubleBuffered then chain t g .one s.rowMap.one else []⟩
        sentinel := Desc.linkTo (.entry (visBank s) 0), cur := .sentinel, pos := 0, engineRunning := true }
      ∧ hTotal t = hTotal s.timings ∧ vTotal t = vTotal s.timings

/-- SetResolution returns false and changes nothing else where the modeline does not parse; where its
timings are not well formed it records MalformedTimings with them as well (R126, R131, R366).
MoveScreen and ShrinkScreen before configuration are refused; unsuspended in background mode they
record UnsuspendedReconfigure; with timings not well formed MalformedTimings; and ShrinkScreen below the
viewport ShrinkBelowViewport: in that order, and nothing else changes (R140, R141, R364, R366). -/
def Obligations.ConfigurationTurnedAway : Prop :=
  ∀ (text : List Byte) (x y : Int) (dbl : Bool) (s : State),
    (parseModeline text = none →
      exec (.setResolution text x y dbl) s = .next { s with ret := .success false })
    ∧ (∀ t, parseModeline text = some t → timingsWF s.params t = false →
      exec (.setResolution text x y dbl) s =
        .next { s with ret := .success false, faults := s.faults ++ [.malformedTimings t] })
    ∧ (s.configured = false → exec (.moveScreen x y) s = .next { s with refused := true }
      ∧ exec (.shrinkScreen x y) s = .next { s with refused := true })
    ∧ (s.configured = true → s.suspendCount = 0 → s.backgroundExec = true →
      exec (.moveScreen x y) s =
        .next { s with faults := s.faults ++ [.unsuspendedReconfigure (.moveScreen x y)] }
      ∧ exec (.shrinkScreen x y) s =
        .next { s with faults := s.faults ++ [.unsuspendedReconfigure (.shrinkScreen x y)] })
    ∧ (s.configured = true → (0 < s.suspendCount ∨ s.backgroundExec = false) →
      (timingsWF s.params (movedTimings x y s.timings) = false →
        exec (.moveScreen x y) s =
          .next { s with faults := s.faults ++ [.malformedTimings (movedTimings x y s.timings)] })
      ∧ (timingsWF s.params (shrunkTimings x y s.timings) = false →
        exec (.shrinkScreen x y) s =
          .next { s with faults := s.faults ++ [.malformedTimings (shrunkTimings x y s.timings)] })
      ∧ (timingsWF s.params (shrunkTimings x y s.timings) = true →
        (s.timings.hVisible - 2 * x < s.vpWidth ∨ s.timings.vVisible - 2 * y < s.vpHeight) →
        exec (.shrinkScreen x y) s =
          .next { s with faults := s.faults ++ [.shrinkBelowViewport x y] }))

/-- Blank line `v` holds at the place of each logical pixel, swizzled, the sync levels of R133 and no
colour, whatever the horizontal rotation (R62, R81, R125, R133). A raw byte of depth two holds VSync in bit 7,
HSync in bit 6 and the colour below (R80); so does a viewport byte, with the inactive levels (R81). A blank
byte of depth one, whose bit map gives each signal a bit of its own, has the levels and no colour too (D5 of
92_eei_decisions.md, C2 of 90_conflicts.md). -/
def Obligations.BlankLinesCarrySync : Prop :=
  (∀ (p : Params) (t : Timings) (v : Bool), timingsWF p t = true →
    ((blankLine p t v).length : Int) = hTotal t
    ∧ ∀ k : Nat, (k : Int) < hTotal t →
      let start : Int := match t.hStartingBlock with
        | .frontPorch => t.hFrontPorch
        | .sync => 0
        | .backPorch => t.hBackPorch + t.hVisible + t.hFrontPorch
        | .visibleArea => t.hVisible + t.hFrontPorch
      (blankLine p t v)[k ^^^ 2]? = some (pixbyte p
        (if v then decide (t.vSyncPol = .pos) else decide (t.vSyncPol = .neg))
        (if start ≤ k ∧ (k : Int) < start + t.hSyncPulse then decide (t.hSyncPol = .pos)
          else decide (t.hSyncPol = .neg)) 0))
  ∧ (∀ (p : Params) (vs hs : Bool) (c : Colour), p.channelDepth = .two →
      (pixbyte p vs hs c).getLsbD 7 = vs ∧ (pixbyte p vs hs c).getLsbD 6 = hs
      ∧ (pixbyte p vs hs c).extractLsb' 0 6 = c)
  ∧ (∀ (p : Params) (m : ChannelBits) (vs hs : Bool), p.channelDepth = .one → p.channelBitMap1 = some m →
      [m.red, m.green, m.blue, m.hSync, m.vSync].Nodup →
      (pixbyte p vs hs 0).getLsbD m.vSync = vs ∧ (pixbyte p vs hs 0).getLsbD m.hSync = hs
      ∧ (pixbyte p vs hs 0).getLsbD m.red = false ∧ (pixbyte p vs hs 0).getLsbD m.green = false
      ∧ (pixbyte p vs hs 0).getLsbD m.blue = false)
  ∧ ∀ (s : State) (c : Colour), s.params.channelDepth = .two →
      (vpByte s c).getLsbD 7 = decide (s.timings.vSyncPol = .neg)
      ∧ (vpByte s c).getLsbD 6 = decide (s.timings.hSyncPol = .neg) ∧ (vpByte s c).extractLsb' 0 6 = c

/-- The chain of a bank, for well-formed timings and a viewport inside the visible area: as many descriptors
as R137 counts, each owned by the DMA, its offset and length multiples of 4 and its size its length, linked
in order and back to the sentinel, playing all the bytes of a frame, with one end-of-frame mark, and the row
of each viewport line where R309 looks for it. Of the descriptor that plays the bytes from place `x` of the
emission `line` on, which is repetition `line % scanCount` of logical line `l`: on the Sync lines it plays
Blank(1), on a viewport line at the viewport's column the row, and otherwise Blank(0), a blank from `x` on;
and it has the mark exactly where it ends the last repetition of the line before the first Sync line (R124,
R125, R130, R134, R135, R137, R139, R309). -/
def Obligations.ChainPlaysOneFrame : Prop :=
  ∀ (p : Params) (t : Timings) (g : Geometry) (b : Bank) (m : List Nat), timingsWF p t = true →
    0 ≤ g.vpWidth → g.vpWidth % 4 = 0 → 0 ≤ g.vpHeight → (g.vpWidth = 0 → g.vpHeight = 0) →
    0 ≤ g.vpCol → g.vpCol % 4 = 0 → g.vpCol + g.vpWidth ≤ t.hVisible →
    0 ≤ g.vpRow → g.vpRow + g.vpHeight ≤ t.vVisible → (m.length : Int) = g.vpHeight →
    (chain t g b m).length = descCount t g
    ∧ (∀ i d, (chain t g b m)[i]? = some d → d.owner = .dma ∧ 0 < d.length ∧ d.length % 4 = 0
        ∧ d.offset % 4 = 0 ∧ d.size = d.length ∧ ((d.offset + d.length : Nat) : Int) ≤ hTotal t
        ∧ d.next = if i + 1 = (chain t g b m).length then .sentinel else .entry b (i + 1))
    ∧ ((((chain t g b m).map Desc.length).sum : Nat) : Int) = t.scanCount * vTotal t * hTotal t
    ∧ ((chain t g b m).filter Desc.eof).length = 1
    ∧ (∀ y r, y < m.length → r < t.scanCount →
        ∃ d, (chain t g b m)[rowDescIndex t g y r]? = some d ∧ d.buf = .row (m.getD y 0)
          ∧ d.offset = 0 ∧ (d.length : Int) = g.vpWidth)
    ∧ (∀ i d, (chain t g b m)[i]? = some d →
        let played : Int := ((((chain t g b m).take i).map Desc.length).sum : Nat)
        let line := played / hTotal t
        let x := played % hTotal t
        let l := line / t.scanCount
        let visible : Int := match t.hStartingBlock with
          | .frontPorch => t.hFrontPorch + t.hSyncPulse + t.hBackPorch
          | .sync => t.hSyncPulse + t.hBackPorch
          | .backPorch => t.hBackPorch
          | .visibleArea => 0
        d.buf = (if t.vVisible + t.vFrontPorch ≤ l ∧ l < t.vVisible + t.vFrontPorch + t.vSyncPulse then
              .blank true
            else if g.vpRow ≤ l ∧ l < g.vpRow + g.vpHeight ∧ x = visible + g.vpCol then
              .row (m.getD (l - g.vpRow).toNat 0)
            else .blank false)
          ∧ (∀ v, d.buf = .blank v → (d.offset : Int) = x)
          ∧ (d.eof = true ↔ l = t.vVisible + t.vFrontPorch - 1 ∧ line % t.scanCount + 1 = t.scanCount
              ∧ x + d.length = hTotal t))

/-! ### Host access -/

/-- ReadPixel returns the whole raw byte of the drawing bank's pixel, or none before configuration and
outside the viewport, and changes nothing else; after SetPixelAt has painted a visible pixel without the
NOT option it returns that colour with the inactive sync levels (R172, R177, R180). -/
def Obligations.ReadPixelReadsBack : Prop :=
  (∀ (x y : Int) (s : State),
    let v : Option Byte :=
      if s.configured = true ∧ 0 ≤ x ∧ x < s.vpWidth ∧ 0 ≤ y ∧ y < s.vpHeight then
        ((s.rowMap.get s.drawBank)[y.toNat]?).bind fun p => (s.rows[p]?).bind fun r => r[x.toNat ^^^ 2]?
      else none
    exec (.readPixel x y) s = .next { s with ret := .pixel v })
  ∧ ∀ (p : Point) (c : Colour) (s t : State), viewportOK s → s.configured = true →
      s.paint.invertNot = false → inClip s (p.x + s.paint.origin.x) (p.y + s.paint.origin.y) = true →
      exec (.setPixelAt p c) s = .next t →
      exec (.readPixel (p.x + s.paint.origin.x) (p.y + s.paint.origin.y)) t =
        .next { t with ret := .pixel (some (pixbyte s.params (vsOff s.timings) (hsOff s.timings) c)) }

/-- HostAlloc and HostFree add and remove exactly their range; HostWrite writes its bytes where all of them
are allocated and is refused otherwise; each keeps the canonical forms (R45, R182, R364; log entry 30). -/
def Obligations.HostMemoryOperations : Prop :=
  ∀ (a n : Nat) (bytes : List Byte) (s : State),
    (∃ l, exec (.hostAlloc a n) s = .next { s with live := l }
      ∧ (storesOK s → Ranges.wf l = true)
      ∧ ∀ b, Ranges.contains l b = true ↔ Ranges.contains s.live b = true ∨ (a ≤ b ∧ b < a + n))
    ∧ (∃ l, exec (.hostFree a n) s = .next { s with live := l }
      ∧ (storesOK s → Ranges.wf l = true)
      ∧ ∀ b, Ranges.contains l b = true ↔ Ranges.contains s.live b = true ∧ ¬(a ≤ b ∧ b < a + n))
    ∧ ((∀ k < bytes.length, Ranges.contains s.live (a + k) = true) →
      ∃ m, exec (.hostWrite a bytes) s = .next { s with hostmem := m }
        ∧ (storesOK s → Memory.wf m = true)
        ∧ (∀ k v, bytes[k]? = some v → Memory.read m (a + k) = some v)
        ∧ ∀ b, ¬(a ≤ b ∧ b < a + bytes.length) → Memory.read m b = Memory.read s.hostmem b)
    ∧ ((∃ k < bytes.length, Ranges.contains s.live (a + k) = false) →
      exec (.hostWrite a bytes) s = .next { s with refused := true })

/-! ### The Engine -/

/-- One pixel clock inside a descriptor: the byte at the swizzled position of the buffer as it stands is
emitted with the tick; at the descriptor's end its event is latched if the interrupt is enabled or the
parameter says so, and the link is followed, a copy of the descriptor latched. At the sentinel the Engine
first moves to what the sentinel names. A descriptor it does not own, a buffer that does not exist, and a
descriptor of zero length (U23 of 93_implementation_defined.md, log entry 21) are recorded and halt it; then it ticks no more, and the state, configured, is stuck and no end of a run (R62,
R73, R138, R363, R365, R370, R399; log entry 33). -/
def Obligations.EngineEmitsOneByte : Prop :=
  (∀ s : State, s.engineRunning = false → engineTick s = s
    ∧ (s.configured = true → runStatus s = .stuck ∧ ¬endOfRun s))
  ∧ ∀ s : State, s.engineRunning = true →
    (s.cur ≠ .sentinel → 0 < s.lat.length → s.lat.owner = .dma →
      ∀ bytes v, bufferOf s s.lat.buf = some bytes → bytes[s.lat.offset + (s.pos ^^^ 2)]? = some v →
        (s.pos + 1 ≠ s.lat.length → engineTick s =
          { s with out := s.out ++ [(s.tick, v)], tick := s.tick + 1, pos := s.pos + 1 })
        ∧ (s.pos + 1 = s.lat.length → engineTick s =
          { s with
            out := s.out ++ [(s.tick, v)], tick := s.tick + 1, pos := 0, cur := s.lat.next
            vsIntPending := s.vsIntPending
              || (s.lat.eof && (vsIntEnabled s || s.params.vsyncLatchWhileSuspended))
            lat := match s.lat.next with
              | .sentinel => s.lat
              | .entry b i => deref s b i }))
    ∧ (s.cur ≠ .sentinel → s.lat.owner = .cpu ∨ s.lat.length = 0 ∨ bufferOf s s.lat.buf = none →
        engineTick s = { s with engineRunning := false, faults := s.faults ++ [.descriptorNotOwned s.cur] })
    ∧ (∀ b i d, s.cur = .sentinel → s.sentinel.next = .entry b i → (s.desc.get b)[i]? = some d →
        engineTick s = engineTick { s with cur := .entry b i, lat := d, pos := 0 })

/-! ### The whole machine -/

/-- The state after construction holds the values of R390 and R22 to R29, R40 to R44, and meets every
invariant. That the invariant of scan-out holds rests on the model's own values of the sentinel's link, which
R28 calls undefined at reset, and of its offset (log entry 17). -/
def Obligations.ResetValuesAndInvariants : Prop :=
  let s := State.reset
  s.timings = { label := [], clockMHz := ⟨0, 0⟩
                hVisible := 0, hFrontPorch := 0, hSyncPulse := 0, hBackPorch := 0
                vVisible := 0, vFrontPorch := 0, vSyncPulse := 0, vBackPorch := 0
                hSyncPol := .neg, vSyncPol := .neg, scanCount := 1, hStartingBlock := .frontPorch }
  ∧ s.configured = false ∧ s.engineRunning = false ∧ s.doubleBuffered = false ∧ s.backgroundExec = true
  ∧ s.suspendCount = 0 ∧ s.vsIntPending = false ∧ s.inExecutor = false ∧ s.drawBank = .zero
  ∧ s.spritesHidden = true ∧ s.vpWidth = 0 ∧ s.vpHeight = 0 ∧ s.vpCol = 0 ∧ s.vpRow = 0
  ∧ s.rows = [] ∧ s.rowMap = ⟨[], []⟩ ∧ s.pools = [] ∧ s.blank0 = [] ∧ s.blank1 = [] ∧ s.desc = ⟨[], []⟩
  ∧ s.cur = .sentinel ∧ s.pos = 0 ∧ s.tick = 0 ∧ s.out = [] ∧ s.queue = []
  ∧ s.paint.penColor = 0b111111#6 ∧ s.paint.brushColor = 0b000000#6 ∧ s.paint.penPos = ⟨0, 0⟩
  ∧ s.paint.swapFGBG = false ∧ s.paint.invertNot = false ∧ s.paint.scrollRegion = ⟨0, 0, -1, -1⟩
  ∧ s.paint.origin = ⟨0, 0⟩ ∧ s.paint.clipRect = ⟨0, 0, -1, -1⟩
  ∧ s.paint.glyphOpt = ⟨false, false, false, false, false, false, false⟩
  ∧ s.sprites = [] ∧ s.faults = [] ∧ s.refused = false
  ∧ storesOK s ∧ boundsOK s ∧ outputOK s ∧ spritesOK s ∧ scanOK s

/-- Every step keeps the canonical forms, the capacities of queue and sprites, one output byte a tick, no
saved background while hidden, and the legal control values (R23, R29, R40, R43, R45, R374, R376). -/
def Obligations.StepKeepsRecords : Prop :=
  ∀ s t : State, step s = .next t →
    (storesOK s → storesOK t) ∧ (boundsOK s → boundsOK t) ∧ (outputOK s → outputOK t)
    ∧ (spritesOK s → spritesOK t) ∧ (controlOK s → controlOK t)

/-- Every step keeps all that scan-out needs: rows, row maps, chains coherent with them and the Engine's
place (R24, R25, R309); so a running Engine emits a byte at every tick, never halts and records nothing, and
no step stops it (R138, R397). That the sentinel keeps the offset 0 is the model's own (log entry 17). -/
def Obligations.StepKeepsScanOut : Prop :=
  (∀ s t : State, scanOK s → step s = .next t →
    scanOK t ∧ (s.engineRunning = true → t.engineRunning = true)
    ∧ ((∀ r, .descriptorNotOwned r ∉ s.faults) → ∀ r, .descriptorNotOwned r ∉ t.faults))
  ∧ ∀ s : State, scanOK s → s.engineRunning = true →
      (engineTick s).tick = s.tick + 1 ∧ (engineTick s).faults = s.faults
      ∧ (engineTick s).engineRunning = true ∧ ∃ v, (engineTick s).out = s.out ++ [(s.tick, v)]

/-- No step takes a fault record away, clears `refused`, takes output back, turns the tick back, undoes the
configuration or changes a parameter (R7, R44, R362, R364, R376). -/
def Obligations.StepIsMonotone : Prop :=
  ∀ s t : State, step s = .next t →
    s.faults <+: t.faults ∧ (s.refused = true → t.refused = true) ∧ s.out <+: t.out ∧ s.tick ≤ t.tick
    ∧ (s.configured = true → t.configured = true) ∧ t.params = s.params

/-- Who writes what (R22 to R29, R40 to R43, R45, R60, R182, R375): TIMINGS and blank buffers only the three
configuration operations; the sizes and pools only SetResolution; row bytes only what draws, hides or shows;
sprites those and the Producer's two operations on them; row maps only VScroll and SetResolution, descriptors
those, MoveScreen and ShrinkScreen; the banks only SwapBuffers and SetResolution, the sentinel those and the
other two; the Engine's place and output only what takes ticks or rebuilds; host memory only HostWrite and its
ranges only HostAlloc and HostFree; the paint state only primitives and SetResolution; the queue only
AddPrimitive; the state of the Executor only AddPrimitive and ProcessPrimitives, which begin a drain and leave
to its steps what those write; suspension, mode, waiting records and returned value only their own operations;
and the Producer's list and the parameters none. -/
def Obligations.OnlyTheirWritersWrite : Prop :=
  ∀ (i : Instr) (s t : State), exec i s = .next t →
    (writesTimings i = false →
      t.timings = s.timings ∧ t.blank0 = s.blank0 ∧ t.blank1 = s.blank1 ∧ t.vpCol = s.vpCol ∧ t.vpRow = s.vpRow)
    ∧ (isSetResolution i = false →
      t.vpWidth = s.vpWidth ∧ t.vpHeight = s.vpHeight ∧ t.pools = s.pools ∧ t.rows.length = s.rows.length
      ∧ t.doubleBuffered = s.doubleBuffered ∧ t.configured = s.configured)
    ∧ (writesRows i = false → t.rows = s.rows ∧ t.spritesHidden = s.spritesHidden)
    ∧ (writesSprites i = false → t.sprites = s.sprites)
    ∧ (isVScroll i = false → isSetResolution i = false →
      t.rowMap = s.rowMap ∧ (writesTimings i = false → t.desc = s.desc))
    ∧ (isSwapBuffers i = false → isSetResolution i = false →
      t.drawBank = s.drawBank ∧ (writesTimings i = false → t.sentinel = s.sentinel))
    ∧ (movesEngine i = false →
      t.cur = s.cur ∧ t.lat = s.lat ∧ t.pos = s.pos ∧ t.tick = s.tick ∧ t.out = s.out
      ∧ t.engineRunning = s.engineRunning ∧ t.vsIntPending = s.vsIntPending ∧ t.costLeft = s.costLeft)
    ∧ (isHostWrite i = false → t.hostmem = s.hostmem)
    ∧ (writesLive i = false → t.live = s.live)
    ∧ (isPrimitive i = false → isSetResolution i = false → t.paint = s.paint)
    ∧ (isAddPrimitive i = false →
      t.queue = s.queue ∧ t.blocked = s.blocked ∧ t.immediate = s.immediate)
    ∧ (beginsDrain i = false →
      t.inExecutor = s.inExecutor ∧ t.drainKind = s.drainKind ∧ t.drainStart = s.drainStart
      ∧ t.drainFirst = s.drainFirst)
    ∧ (writesSuspension i = false → t.suspendCount = s.suspendCount)
    ∧ (isEnableBackground i = false → t.backgroundExec = s.backgroundExec)
    ∧ (returnsValue i = false → t.ret = s.ret)
    ∧ t.program = s.program ∧ t.ticksDue = s.ticksDue ∧ t.params = s.params
end

