-- ==== Sys2Proof/Laws/State.lean ====
section
/-! SUPPORT. For each named update of State, one lemma per field it leaves alone or sets. Later proofs
rewrite with these and never unfold a record update. -/

namespace Sys2Proof.Machine

/-! ### raise (R362) -/

@[simp] theorem raise_params (f : FaultRecord) (s : State) : (raise f s).params = s.params := rfl
@[simp] theorem raise_timings (f : FaultRecord) (s : State) : (raise f s).timings = s.timings := rfl
@[simp] theorem raise_configured (f : FaultRecord) (s : State) : (raise f s).configured = s.configured := rfl
@[simp] theorem raise_engineRunning (f : FaultRecord) (s : State) : (raise f s).engineRunning = s.engineRunning := rfl
@[simp] theorem raise_doubleBuffered (f : FaultRecord) (s : State) : (raise f s).doubleBuffered = s.doubleBuffered := rfl
@[simp] theorem raise_backgroundExec (f : FaultRecord) (s : State) : (raise f s).backgroundExec = s.backgroundExec := rfl
@[simp] theorem raise_suspendCount (f : FaultRecord) (s : State) : (raise f s).suspendCount = s.suspendCount := rfl
@[simp] theorem raise_vsIntPending (f : FaultRecord) (s : State) : (raise f s).vsIntPending = s.vsIntPending := rfl
@[simp] theorem raise_inExecutor (f : FaultRecord) (s : State) : (raise f s).inExecutor = s.inExecutor := rfl
@[simp] theorem raise_drawBank (f : FaultRecord) (s : State) : (raise f s).drawBank = s.drawBank := rfl
@[simp] theorem raise_spritesHidden (f : FaultRecord) (s : State) : (raise f s).spritesHidden = s.spritesHidden := rfl
@[simp] theorem raise_vpWidth (f : FaultRecord) (s : State) : (raise f s).vpWidth = s.vpWidth := rfl
@[simp] theorem raise_vpHeight (f : FaultRecord) (s : State) : (raise f s).vpHeight = s.vpHeight := rfl
@[simp] theorem raise_vpCol (f : FaultRecord) (s : State) : (raise f s).vpCol = s.vpCol := rfl
@[simp] theorem raise_vpRow (f : FaultRecord) (s : State) : (raise f s).vpRow = s.vpRow := rfl
@[simp] theorem raise_rows (f : FaultRecord) (s : State) : (raise f s).rows = s.rows := rfl
@[simp] theorem raise_rowMap (f : FaultRecord) (s : State) : (raise f s).rowMap = s.rowMap := rfl
@[simp] theorem raise_pools (f : FaultRecord) (s : State) : (raise f s).pools = s.pools := rfl
@[simp] theorem raise_blank0 (f : FaultRecord) (s : State) : (raise f s).blank0 = s.blank0 := rfl
@[simp] theorem raise_blank1 (f : FaultRecord) (s : State) : (raise f s).blank1 = s.blank1 := rfl
@[simp] theorem raise_desc (f : FaultRecord) (s : State) : (raise f s).desc = s.desc := rfl
@[simp] theorem raise_sentinel (f : FaultRecord) (s : State) : (raise f s).sentinel = s.sentinel := rfl
@[simp] theorem raise_cur (f : FaultRecord) (s : State) : (raise f s).cur = s.cur := rfl
@[simp] theorem raise_lat (f : FaultRecord) (s : State) : (raise f s).lat = s.lat := rfl
@[simp] theorem raise_pos (f : FaultRecord) (s : State) : (raise f s).pos = s.pos := rfl
@[simp] theorem raise_tick (f : FaultRecord) (s : State) : (raise f s).tick = s.tick := rfl
@[simp] theorem raise_out (f : FaultRecord) (s : State) : (raise f s).out = s.out := rfl
@[simp] theorem raise_queue (f : FaultRecord) (s : State) : (raise f s).queue = s.queue := rfl
@[simp] theorem raise_drainStart (f : FaultRecord) (s : State) : (raise f s).drainStart = s.drainStart := rfl
@[simp] theorem raise_drainFirst (f : FaultRecord) (s : State) : (raise f s).drainFirst = s.drainFirst := rfl
@[simp] theorem raise_drainKind (f : FaultRecord) (s : State) : (raise f s).drainKind = s.drainKind := rfl
@[simp] theorem raise_paint (f : FaultRecord) (s : State) : (raise f s).paint = s.paint := rfl
@[simp] theorem raise_sprites (f : FaultRecord) (s : State) : (raise f s).sprites = s.sprites := rfl
@[simp] theorem raise_faults (f : FaultRecord) (s : State) : (raise f s).faults = s.faults ++ [f] := rfl
@[simp] theorem raise_refused (f : FaultRecord) (s : State) : (raise f s).refused = s.refused := rfl
@[simp] theorem raise_hostmem (f : FaultRecord) (s : State) : (raise f s).hostmem = s.hostmem := rfl
@[simp] theorem raise_live (f : FaultRecord) (s : State) : (raise f s).live = s.live := rfl
@[simp] theorem raise_program (f : FaultRecord) (s : State) : (raise f s).program = s.program := rfl
@[simp] theorem raise_blocked (f : FaultRecord) (s : State) : (raise f s).blocked = s.blocked := rfl
@[simp] theorem raise_immediate (f : FaultRecord) (s : State) : (raise f s).immediate = s.immediate := rfl
@[simp] theorem raise_ret (f : FaultRecord) (s : State) : (raise f s).ret = s.ret := rfl
@[simp] theorem raise_ticksDue (f : FaultRecord) (s : State) : (raise f s).ticksDue = s.ticksDue := rfl
@[simp] theorem raise_draws (f : FaultRecord) (s : State) : (raise f s).draws = s.draws := rfl
@[simp] theorem raise_costLeft (f : FaultRecord) (s : State) : (raise f s).costLeft = s.costLeft := rfl

/-! ### refuse (R364) -/

@[simp] theorem refuse_params (s : State) : (refuse s).params = s.params := rfl
@[simp] theorem refuse_timings (s : State) : (refuse s).timings = s.timings := rfl
@[simp] theorem refuse_configured (s : State) : (refuse s).configured = s.configured := rfl
@[simp] theorem refuse_engineRunning (s : State) : (refuse s).engineRunning = s.engineRunning := rfl
@[simp] theorem refuse_doubleBuffered (s : State) : (refuse s).doubleBuffered = s.doubleBuffered := rfl
@[simp] theorem refuse_backgroundExec (s : State) : (refuse s).backgroundExec = s.backgroundExec := rfl
@[simp] theorem refuse_suspendCount (s : State) : (refuse s).suspendCount = s.suspendCount := rfl
@[simp] theorem refuse_vsIntPending (s : State) : (refuse s).vsIntPending = s.vsIntPending := rfl
@[simp] theorem refuse_inExecutor (s : State) : (refuse s).inExecutor = s.inExecutor := rfl
@[simp] theorem refuse_drawBank (s : State) : (refuse s).drawBank = s.drawBank := rfl
@[simp] theorem refuse_spritesHidden (s : State) : (refuse s).spritesHidden = s.spritesHidden := rfl
@[simp] theorem refuse_vpWidth (s : State) : (refuse s).vpWidth = s.vpWidth := rfl
@[simp] theorem refuse_vpHeight (s : State) : (refuse s).vpHeight = s.vpHeight := rfl
@[simp] theorem refuse_vpCol (s : State) : (refuse s).vpCol = s.vpCol := rfl
@[simp] theorem refuse_vpRow (s : State) : (refuse s).vpRow = s.vpRow := rfl
@[simp] theorem refuse_rows (s : State) : (refuse s).rows = s.rows := rfl
@[simp] theorem refuse_rowMap (s : State) : (refuse s).rowMap = s.rowMap := rfl
@[simp] theorem refuse_pools (s : State) : (refuse s).pools = s.pools := rfl
@[simp] theorem refuse_blank0 (s : State) : (refuse s).blank0 = s.blank0 := rfl
@[simp] theorem refuse_blank1 (s : State) : (refuse s).blank1 = s.blank1 := rfl
@[simp] theorem refuse_desc (s : State) : (refuse s).desc = s.desc := rfl
@[simp] theorem refuse_sentinel (s : State) : (refuse s).sentinel = s.sentinel := rfl
@[simp] theorem refuse_cur (s : State) : (refuse s).cur = s.cur := rfl
@[simp] theorem refuse_lat (s : State) : (refuse s).lat = s.lat := rfl
@[simp] theorem refuse_pos (s : State) : (refuse s).pos = s.pos := rfl
@[simp] theorem refuse_tick (s : State) : (refuse s).tick = s.tick := rfl
@[simp] theorem refuse_out (s : State) : (refuse s).out = s.out := rfl
@[simp] theorem refuse_queue (s : State) : (refuse s).queue = s.queue := rfl
@[simp] theorem refuse_drainStart (s : State) : (refuse s).drainStart = s.drainStart := rfl
@[simp] theorem refuse_drainFirst (s : State) : (refuse s).drainFirst = s.drainFirst := rfl
@[simp] theorem refuse_drainKind (s : State) : (refuse s).drainKind = s.drainKind := rfl
@[simp] theorem refuse_paint (s : State) : (refuse s).paint = s.paint := rfl
@[simp] theorem refuse_sprites (s : State) : (refuse s).sprites = s.sprites := rfl
@[simp] theorem refuse_faults (s : State) : (refuse s).faults = s.faults := rfl
@[simp] theorem refuse_refused (s : State) : (refuse s).refused = true := rfl
@[simp] theorem refuse_hostmem (s : State) : (refuse s).hostmem = s.hostmem := rfl
@[simp] theorem refuse_live (s : State) : (refuse s).live = s.live := rfl
@[simp] theorem refuse_program (s : State) : (refuse s).program = s.program := rfl
@[simp] theorem refuse_blocked (s : State) : (refuse s).blocked = s.blocked := rfl
@[simp] theorem refuse_immediate (s : State) : (refuse s).immediate = s.immediate := rfl
@[simp] theorem refuse_ret (s : State) : (refuse s).ret = s.ret := rfl
@[simp] theorem refuse_ticksDue (s : State) : (refuse s).ticksDue = s.ticksDue := rfl
@[simp] theorem refuse_draws (s : State) : (refuse s).draws = s.draws := rfl
@[simp] theorem refuse_costLeft (s : State) : (refuse s).costLeft = s.costLeft := rfl

/-! ### enterDrain (R41, R201, R204, R209) -/

@[simp] theorem enterDrain_params (kind : DrainKind) (s : State) : (enterDrain kind s).params = s.params := rfl
@[simp] theorem enterDrain_timings (kind : DrainKind) (s : State) : (enterDrain kind s).timings = s.timings := rfl
@[simp] theorem enterDrain_configured (kind : DrainKind) (s : State) : (enterDrain kind s).configured = s.configured := rfl
@[simp] theorem enterDrain_engineRunning (kind : DrainKind) (s : State) : (enterDrain kind s).engineRunning = s.engineRunning := rfl
@[simp] theorem enterDrain_doubleBuffered (kind : DrainKind) (s : State) : (enterDrain kind s).doubleBuffered = s.doubleBuffered := rfl
@[simp] theorem enterDrain_backgroundExec (kind : DrainKind) (s : State) : (enterDrain kind s).backgroundExec = s.backgroundExec := rfl
@[simp] theorem enterDrain_suspendCount (kind : DrainKind) (s : State) : (enterDrain kind s).suspendCount = s.suspendCount := rfl
@[simp] theorem enterDrain_vsIntPending (kind : DrainKind) (s : State) : (enterDrain kind s).vsIntPending = s.vsIntPending := rfl
@[simp] theorem enterDrain_inExecutor (kind : DrainKind) (s : State) : (enterDrain kind s).inExecutor = true := rfl
@[simp] theorem enterDrain_drawBank (kind : DrainKind) (s : State) : (enterDrain kind s).drawBank = s.drawBank := rfl
@[simp] theorem enterDrain_spritesHidden (kind : DrainKind) (s : State) : (enterDrain kind s).spritesHidden = s.spritesHidden := rfl
@[simp] theorem enterDrain_vpWidth (kind : DrainKind) (s : State) : (enterDrain kind s).vpWidth = s.vpWidth := rfl
@[simp] theorem enterDrain_vpHeight (kind : DrainKind) (s : State) : (enterDrain kind s).vpHeight = s.vpHeight := rfl
@[simp] theorem enterDrain_vpCol (kind : DrainKind) (s : State) : (enterDrain kind s).vpCol = s.vpCol := rfl
@[simp] theorem enterDrain_vpRow (kind : DrainKind) (s : State) : (enterDrain kind s).vpRow = s.vpRow := rfl
@[simp] theorem enterDrain_rows (kind : DrainKind) (s : State) : (enterDrain kind s).rows = s.rows := rfl
@[simp] theorem enterDrain_rowMap (kind : DrainKind) (s : State) : (enterDrain kind s).rowMap = s.rowMap := rfl
@[simp] theorem enterDrain_pools (kind : DrainKind) (s : State) : (enterDrain kind s).pools = s.pools := rfl
@[simp] theorem enterDrain_blank0 (kind : DrainKind) (s : State) : (enterDrain kind s).blank0 = s.blank0 := rfl
@[simp] theorem enterDrain_blank1 (kind : DrainKind) (s : State) : (enterDrain kind s).blank1 = s.blank1 := rfl
@[simp] theorem enterDrain_desc (kind : DrainKind) (s : State) : (enterDrain kind s).desc = s.desc := rfl
@[simp] theorem enterDrain_sentinel (kind : DrainKind) (s : State) : (enterDrain kind s).sentinel = s.sentinel := rfl
@[simp] theorem enterDrain_cur (kind : DrainKind) (s : State) : (enterDrain kind s).cur = s.cur := rfl
@[simp] theorem enterDrain_lat (kind : DrainKind) (s : State) : (enterDrain kind s).lat = s.lat := rfl
@[simp] theorem enterDrain_pos (kind : DrainKind) (s : State) : (enterDrain kind s).pos = s.pos := rfl
@[simp] theorem enterDrain_tick (kind : DrainKind) (s : State) : (enterDrain kind s).tick = s.tick := rfl
@[simp] theorem enterDrain_out (kind : DrainKind) (s : State) : (enterDrain kind s).out = s.out := rfl
@[simp] theorem enterDrain_queue (kind : DrainKind) (s : State) : (enterDrain kind s).queue = s.queue := rfl
@[simp] theorem enterDrain_drainStart (kind : DrainKind) (s : State) : (enterDrain kind s).drainStart = s.tick := rfl
@[simp] theorem enterDrain_drainFirst (kind : DrainKind) (s : State) : (enterDrain kind s).drainFirst = true := rfl
@[simp] theorem enterDrain_drainKind (kind : DrainKind) (s : State) : (enterDrain kind s).drainKind = kind := rfl
@[simp] theorem enterDrain_paint (kind : DrainKind) (s : State) : (enterDrain kind s).paint = s.paint := rfl
@[simp] theorem enterDrain_sprites (kind : DrainKind) (s : State) : (enterDrain kind s).sprites = s.sprites := rfl
@[simp] theorem enterDrain_faults (kind : DrainKind) (s : State) : (enterDrain kind s).faults = s.faults := rfl
@[simp] theorem enterDrain_refused (kind : DrainKind) (s : State) : (enterDrain kind s).refused = s.refused := rfl
@[simp] theorem enterDrain_hostmem (kind : DrainKind) (s : State) : (enterDrain kind s).hostmem = s.hostmem := rfl
@[simp] theorem enterDrain_live (kind : DrainKind) (s : State) : (enterDrain kind s).live = s.live := rfl
@[simp] theorem enterDrain_program (kind : DrainKind) (s : State) : (enterDrain kind s).program = s.program := rfl
@[simp] theorem enterDrain_blocked (kind : DrainKind) (s : State) : (enterDrain kind s).blocked = s.blocked := rfl
@[simp] theorem enterDrain_immediate (kind : DrainKind) (s : State) : (enterDrain kind s).immediate = s.immediate := rfl
@[simp] theorem enterDrain_ret (kind : DrainKind) (s : State) : (enterDrain kind s).ret = s.ret := rfl
@[simp] theorem enterDrain_ticksDue (kind : DrainKind) (s : State) : (enterDrain kind s).ticksDue = s.ticksDue := rfl
@[simp] theorem enterDrain_draws (kind : DrainKind) (s : State) : (enterDrain kind s).draws = s.draws := rfl
@[simp] theorem enterDrain_costLeft (kind : DrainKind) (s : State) : (enterDrain kind s).costLeft = s.costLeft := rfl

/-! ### endImmediate (R201) -/

@[simp] theorem endImmediate_params (s : State) : (endImmediate s).params = s.params := rfl
@[simp] theorem endImmediate_timings (s : State) : (endImmediate s).timings = s.timings := rfl
@[simp] theorem endImmediate_configured (s : State) : (endImmediate s).configured = s.configured := rfl
@[simp] theorem endImmediate_engineRunning (s : State) : (endImmediate s).engineRunning = s.engineRunning := rfl
@[simp] theorem endImmediate_doubleBuffered (s : State) : (endImmediate s).doubleBuffered = s.doubleBuffered := rfl
@[simp] theorem endImmediate_backgroundExec (s : State) : (endImmediate s).backgroundExec = s.backgroundExec := rfl
@[simp] theorem endImmediate_suspendCount (s : State) : (endImmediate s).suspendCount = s.suspendCount := rfl
@[simp] theorem endImmediate_vsIntPending (s : State) : (endImmediate s).vsIntPending = s.vsIntPending := rfl
@[simp] theorem endImmediate_inExecutor (s : State) : (endImmediate s).inExecutor = false := rfl
@[simp] theorem endImmediate_drawBank (s : State) : (endImmediate s).drawBank = s.drawBank := rfl
@[simp] theorem endImmediate_spritesHidden (s : State) : (endImmediate s).spritesHidden = s.spritesHidden := rfl
@[simp] theorem endImmediate_vpWidth (s : State) : (endImmediate s).vpWidth = s.vpWidth := rfl
@[simp] theorem endImmediate_vpHeight (s : State) : (endImmediate s).vpHeight = s.vpHeight := rfl
@[simp] theorem endImmediate_vpCol (s : State) : (endImmediate s).vpCol = s.vpCol := rfl
@[simp] theorem endImmediate_vpRow (s : State) : (endImmediate s).vpRow = s.vpRow := rfl
@[simp] theorem endImmediate_rows (s : State) : (endImmediate s).rows = s.rows := rfl
@[simp] theorem endImmediate_rowMap (s : State) : (endImmediate s).rowMap = s.rowMap := rfl
@[simp] theorem endImmediate_pools (s : State) : (endImmediate s).pools = s.pools := rfl
@[simp] theorem endImmediate_blank0 (s : State) : (endImmediate s).blank0 = s.blank0 := rfl
@[simp] theorem endImmediate_blank1 (s : State) : (endImmediate s).blank1 = s.blank1 := rfl
@[simp] theorem endImmediate_desc (s : State) : (endImmediate s).desc = s.desc := rfl
@[simp] theorem endImmediate_sentinel (s : State) : (endImmediate s).sentinel = s.sentinel := rfl
@[simp] theorem endImmediate_cur (s : State) : (endImmediate s).cur = s.cur := rfl
@[simp] theorem endImmediate_lat (s : State) : (endImmediate s).lat = s.lat := rfl
@[simp] theorem endImmediate_pos (s : State) : (endImmediate s).pos = s.pos := rfl
@[simp] theorem endImmediate_tick (s : State) : (endImmediate s).tick = s.tick := rfl
@[simp] theorem endImmediate_out (s : State) : (endImmediate s).out = s.out := rfl
@[simp] theorem endImmediate_queue (s : State) : (endImmediate s).queue = s.queue := rfl
@[simp] theorem endImmediate_drainStart (s : State) : (endImmediate s).drainStart = s.drainStart := rfl
@[simp] theorem endImmediate_drainFirst (s : State) : (endImmediate s).drainFirst = false := rfl
@[simp] theorem endImmediate_drainKind (s : State) : (endImmediate s).drainKind = s.drainKind := rfl
@[simp] theorem endImmediate_paint (s : State) : (endImmediate s).paint = s.paint := rfl
@[simp] theorem endImmediate_sprites (s : State) : (endImmediate s).sprites = s.sprites := rfl
@[simp] theorem endImmediate_faults (s : State) : (endImmediate s).faults = s.faults := rfl
@[simp] theorem endImmediate_refused (s : State) : (endImmediate s).refused = s.refused := rfl
@[simp] theorem endImmediate_hostmem (s : State) : (endImmediate s).hostmem = s.hostmem := rfl
@[simp] theorem endImmediate_live (s : State) : (endImmediate s).live = s.live := rfl
@[simp] theorem endImmediate_program (s : State) : (endImmediate s).program = s.program := rfl
@[simp] theorem endImmediate_blocked (s : State) : (endImmediate s).blocked = s.blocked := rfl
@[simp] theorem endImmediate_immediate (s : State) : (endImmediate s).immediate = s.immediate := rfl
@[simp] theorem endImmediate_ret (s : State) : (endImmediate s).ret = s.ret := rfl
@[simp] theorem endImmediate_ticksDue (s : State) : (endImmediate s).ticksDue = s.ticksDue := rfl
@[simp] theorem endImmediate_draws (s : State) : (endImmediate s).draws = s.draws := rfl
@[simp] theorem endImmediate_costLeft (s : State) : (endImmediate s).costLeft = s.costLeft := rfl

/-! ### isrEntry (R209) -/

@[simp] theorem isrEntry_params (s : State) : (isrEntry s).params = s.params := rfl
@[simp] theorem isrEntry_timings (s : State) : (isrEntry s).timings = s.timings := rfl
@[simp] theorem isrEntry_configured (s : State) : (isrEntry s).configured = s.configured := rfl
@[simp] theorem isrEntry_engineRunning (s : State) : (isrEntry s).engineRunning = s.engineRunning := rfl
@[simp] theorem isrEntry_doubleBuffered (s : State) : (isrEntry s).doubleBuffered = s.doubleBuffered := rfl
@[simp] theorem isrEntry_backgroundExec (s : State) : (isrEntry s).backgroundExec = s.backgroundExec := rfl
@[simp] theorem isrEntry_suspendCount (s : State) : (isrEntry s).suspendCount = s.suspendCount := rfl
@[simp] theorem isrEntry_vsIntPending (s : State) : (isrEntry s).vsIntPending = false := rfl
@[simp] theorem isrEntry_inExecutor (s : State) : (isrEntry s).inExecutor = true := rfl
@[simp] theorem isrEntry_drawBank (s : State) : (isrEntry s).drawBank = s.drawBank := rfl
@[simp] theorem isrEntry_spritesHidden (s : State) : (isrEntry s).spritesHidden = s.spritesHidden := rfl
@[simp] theorem isrEntry_vpWidth (s : State) : (isrEntry s).vpWidth = s.vpWidth := rfl
@[simp] theorem isrEntry_vpHeight (s : State) : (isrEntry s).vpHeight = s.vpHeight := rfl
@[simp] theorem isrEntry_vpCol (s : State) : (isrEntry s).vpCol = s.vpCol := rfl
@[simp] theorem isrEntry_vpRow (s : State) : (isrEntry s).vpRow = s.vpRow := rfl
@[simp] theorem isrEntry_rows (s : State) : (isrEntry s).rows = s.rows := rfl
@[simp] theorem isrEntry_rowMap (s : State) : (isrEntry s).rowMap = s.rowMap := rfl
@[simp] theorem isrEntry_pools (s : State) : (isrEntry s).pools = s.pools := rfl
@[simp] theorem isrEntry_blank0 (s : State) : (isrEntry s).blank0 = s.blank0 := rfl
@[simp] theorem isrEntry_blank1 (s : State) : (isrEntry s).blank1 = s.blank1 := rfl
@[simp] theorem isrEntry_desc (s : State) : (isrEntry s).desc = s.desc := rfl
@[simp] theorem isrEntry_sentinel (s : State) : (isrEntry s).sentinel = s.sentinel := rfl
@[simp] theorem isrEntry_cur (s : State) : (isrEntry s).cur = s.cur := rfl
@[simp] theorem isrEntry_lat (s : State) : (isrEntry s).lat = s.lat := rfl
@[simp] theorem isrEntry_pos (s : State) : (isrEntry s).pos = s.pos := rfl
@[simp] theorem isrEntry_tick (s : State) : (isrEntry s).tick = s.tick := rfl
@[simp] theorem isrEntry_out (s : State) : (isrEntry s).out = s.out := rfl
@[simp] theorem isrEntry_queue (s : State) : (isrEntry s).queue = s.queue := rfl
@[simp] theorem isrEntry_drainStart (s : State) : (isrEntry s).drainStart = s.tick := rfl
@[simp] theorem isrEntry_drainFirst (s : State) : (isrEntry s).drainFirst = true := rfl
@[simp] theorem isrEntry_drainKind (s : State) : (isrEntry s).drainKind = .isr := rfl
@[simp] theorem isrEntry_paint (s : State) : (isrEntry s).paint = s.paint := rfl
@[simp] theorem isrEntry_sprites (s : State) : (isrEntry s).sprites = s.sprites := rfl
@[simp] theorem isrEntry_faults (s : State) : (isrEntry s).faults = s.faults := rfl
@[simp] theorem isrEntry_refused (s : State) : (isrEntry s).refused = s.refused := rfl
@[simp] theorem isrEntry_hostmem (s : State) : (isrEntry s).hostmem = s.hostmem := rfl
@[simp] theorem isrEntry_live (s : State) : (isrEntry s).live = s.live := rfl
@[simp] theorem isrEntry_program (s : State) : (isrEntry s).program = s.program := rfl
@[simp] theorem isrEntry_blocked (s : State) : (isrEntry s).blocked = s.blocked := rfl
@[simp] theorem isrEntry_immediate (s : State) : (isrEntry s).immediate = s.immediate := rfl
@[simp] theorem isrEntry_ret (s : State) : (isrEntry s).ret = s.ret := rfl
@[simp] theorem isrEntry_ticksDue (s : State) : (isrEntry s).ticksDue = s.ticksDue := rfl
@[simp] theorem isrEntry_draws (s : State) : (isrEntry s).draws = s.draws := rfl
@[simp] theorem isrEntry_costLeft (s : State) : (isrEntry s).costLeft = s.costLeft := rfl

/-! ### reschedule (log entry 1) -/

@[simp] theorem reschedule_params (s : State) : (reschedule s).params = s.params := rfl
@[simp] theorem reschedule_timings (s : State) : (reschedule s).timings = s.timings := rfl
@[simp] theorem reschedule_configured (s : State) : (reschedule s).configured = s.configured := rfl
@[simp] theorem reschedule_engineRunning (s : State) : (reschedule s).engineRunning = s.engineRunning := rfl
@[simp] theorem reschedule_doubleBuffered (s : State) : (reschedule s).doubleBuffered = s.doubleBuffered := rfl
@[simp] theorem reschedule_backgroundExec (s : State) : (reschedule s).backgroundExec = s.backgroundExec := rfl
@[simp] theorem reschedule_suspendCount (s : State) : (reschedule s).suspendCount = s.suspendCount := rfl
@[simp] theorem reschedule_vsIntPending (s : State) : (reschedule s).vsIntPending = s.vsIntPending := rfl
@[simp] theorem reschedule_inExecutor (s : State) : (reschedule s).inExecutor = s.inExecutor := rfl
@[simp] theorem reschedule_drawBank (s : State) : (reschedule s).drawBank = s.drawBank := rfl
@[simp] theorem reschedule_spritesHidden (s : State) : (reschedule s).spritesHidden = s.spritesHidden := rfl
@[simp] theorem reschedule_vpWidth (s : State) : (reschedule s).vpWidth = s.vpWidth := rfl
@[simp] theorem reschedule_vpHeight (s : State) : (reschedule s).vpHeight = s.vpHeight := rfl
@[simp] theorem reschedule_vpCol (s : State) : (reschedule s).vpCol = s.vpCol := rfl
@[simp] theorem reschedule_vpRow (s : State) : (reschedule s).vpRow = s.vpRow := rfl
@[simp] theorem reschedule_rows (s : State) : (reschedule s).rows = s.rows := rfl
@[simp] theorem reschedule_rowMap (s : State) : (reschedule s).rowMap = s.rowMap := rfl
@[simp] theorem reschedule_pools (s : State) : (reschedule s).pools = s.pools := rfl
@[simp] theorem reschedule_blank0 (s : State) : (reschedule s).blank0 = s.blank0 := rfl
@[simp] theorem reschedule_blank1 (s : State) : (reschedule s).blank1 = s.blank1 := rfl
@[simp] theorem reschedule_desc (s : State) : (reschedule s).desc = s.desc := rfl
@[simp] theorem reschedule_sentinel (s : State) : (reschedule s).sentinel = s.sentinel := rfl
@[simp] theorem reschedule_cur (s : State) : (reschedule s).cur = s.cur := rfl
@[simp] theorem reschedule_lat (s : State) : (reschedule s).lat = s.lat := rfl
@[simp] theorem reschedule_pos (s : State) : (reschedule s).pos = s.pos := rfl
@[simp] theorem reschedule_tick (s : State) : (reschedule s).tick = s.tick := rfl
@[simp] theorem reschedule_out (s : State) : (reschedule s).out = s.out := rfl
@[simp] theorem reschedule_queue (s : State) : (reschedule s).queue = s.queue := rfl
@[simp] theorem reschedule_drainStart (s : State) : (reschedule s).drainStart = s.drainStart := rfl
@[simp] theorem reschedule_drainFirst (s : State) : (reschedule s).drainFirst = s.drainFirst := rfl
@[simp] theorem reschedule_drainKind (s : State) : (reschedule s).drainKind = s.drainKind := rfl
@[simp] theorem reschedule_paint (s : State) : (reschedule s).paint = s.paint := rfl
@[simp] theorem reschedule_sprites (s : State) : (reschedule s).sprites = s.sprites := rfl
@[simp] theorem reschedule_faults (s : State) : (reschedule s).faults = s.faults := rfl
@[simp] theorem reschedule_refused (s : State) : (reschedule s).refused = s.refused := rfl
@[simp] theorem reschedule_hostmem (s : State) : (reschedule s).hostmem = s.hostmem := rfl
@[simp] theorem reschedule_live (s : State) : (reschedule s).live = s.live := rfl
@[simp] theorem reschedule_program (s : State) : (reschedule s).program = s.program := rfl
@[simp] theorem reschedule_blocked (s : State) : (reschedule s).blocked = s.blocked := rfl
@[simp] theorem reschedule_immediate (s : State) : (reschedule s).immediate = s.immediate := rfl
@[simp] theorem reschedule_ret (s : State) : (reschedule s).ret = s.ret := rfl
@[simp] theorem reschedule_ticksDue (s : State) : (reschedule s).ticksDue = Config.burst s.draws := rfl
@[simp] theorem reschedule_draws (s : State) : (reschedule s).draws = s.draws + 1 := rfl
@[simp] theorem reschedule_costLeft (s : State) : (reschedule s).costLeft = s.costLeft := rfl

/-! ### flipBanks (R211) -/

@[simp] theorem flipBanks_params (s : State) : (flipBanks s).params = s.params := rfl
@[simp] theorem flipBanks_timings (s : State) : (flipBanks s).timings = s.timings := rfl
@[simp] theorem flipBanks_configured (s : State) : (flipBanks s).configured = s.configured := rfl
@[simp] theorem flipBanks_engineRunning (s : State) : (flipBanks s).engineRunning = s.engineRunning := rfl
@[simp] theorem flipBanks_doubleBuffered (s : State) : (flipBanks s).doubleBuffered = s.doubleBuffered := rfl
@[simp] theorem flipBanks_backgroundExec (s : State) : (flipBanks s).backgroundExec = s.backgroundExec := rfl
@[simp] theorem flipBanks_suspendCount (s : State) : (flipBanks s).suspendCount = s.suspendCount := rfl
@[simp] theorem flipBanks_vsIntPending (s : State) : (flipBanks s).vsIntPending = s.vsIntPending := rfl
@[simp] theorem flipBanks_inExecutor (s : State) : (flipBanks s).inExecutor = s.inExecutor := rfl
@[simp] theorem flipBanks_drawBank (s : State) : (flipBanks s).drawBank = s.drawBank.other := rfl
@[simp] theorem flipBanks_spritesHidden (s : State) : (flipBanks s).spritesHidden = s.spritesHidden := rfl
@[simp] theorem flipBanks_vpWidth (s : State) : (flipBanks s).vpWidth = s.vpWidth := rfl
@[simp] theorem flipBanks_vpHeight (s : State) : (flipBanks s).vpHeight = s.vpHeight := rfl
@[simp] theorem flipBanks_vpCol (s : State) : (flipBanks s).vpCol = s.vpCol := rfl
@[simp] theorem flipBanks_vpRow (s : State) : (flipBanks s).vpRow = s.vpRow := rfl
@[simp] theorem flipBanks_rows (s : State) : (flipBanks s).rows = s.rows := rfl
@[simp] theorem flipBanks_rowMap (s : State) : (flipBanks s).rowMap = s.rowMap := rfl
@[simp] theorem flipBanks_pools (s : State) : (flipBanks s).pools = s.pools := rfl
@[simp] theorem flipBanks_blank0 (s : State) : (flipBanks s).blank0 = s.blank0 := rfl
@[simp] theorem flipBanks_blank1 (s : State) : (flipBanks s).blank1 = s.blank1 := rfl
@[simp] theorem flipBanks_desc (s : State) : (flipBanks s).desc = s.desc := rfl
@[simp] theorem flipBanks_sentinel (s : State) : (flipBanks s).sentinel = { s.sentinel with next := .entry s.drawBank 0 } := rfl
@[simp] theorem flipBanks_cur (s : State) : (flipBanks s).cur = s.cur := rfl
@[simp] theorem flipBanks_lat (s : State) : (flipBanks s).lat = s.lat := rfl
@[simp] theorem flipBanks_pos (s : State) : (flipBanks s).pos = s.pos := rfl
@[simp] theorem flipBanks_tick (s : State) : (flipBanks s).tick = s.tick := rfl
@[simp] theorem flipBanks_out (s : State) : (flipBanks s).out = s.out := rfl
@[simp] theorem flipBanks_queue (s : State) : (flipBanks s).queue = s.queue := rfl
@[simp] theorem flipBanks_drainStart (s : State) : (flipBanks s).drainStart = s.drainStart := rfl
@[simp] theorem flipBanks_drainFirst (s : State) : (flipBanks s).drainFirst = s.drainFirst := rfl
@[simp] theorem flipBanks_drainKind (s : State) : (flipBanks s).drainKind = s.drainKind := rfl
@[simp] theorem flipBanks_paint (s : State) : (flipBanks s).paint = s.paint := rfl
@[simp] theorem flipBanks_sprites (s : State) : (flipBanks s).sprites = s.sprites := rfl
@[simp] theorem flipBanks_faults (s : State) : (flipBanks s).faults = s.faults := rfl
@[simp] theorem flipBanks_refused (s : State) : (flipBanks s).refused = s.refused := rfl
@[simp] theorem flipBanks_hostmem (s : State) : (flipBanks s).hostmem = s.hostmem := rfl
@[simp] theorem flipBanks_live (s : State) : (flipBanks s).live = s.live := rfl
@[simp] theorem flipBanks_program (s : State) : (flipBanks s).program = s.program := rfl
@[simp] theorem flipBanks_blocked (s : State) : (flipBanks s).blocked = s.blocked := rfl
@[simp] theorem flipBanks_immediate (s : State) : (flipBanks s).immediate = s.immediate := rfl
@[simp] theorem flipBanks_ret (s : State) : (flipBanks s).ret = s.ret := rfl
@[simp] theorem flipBanks_ticksDue (s : State) : (flipBanks s).ticksDue = s.ticksDue := rfl
@[simp] theorem flipBanks_draws (s : State) : (flipBanks s).draws = s.draws := rfl
@[simp] theorem flipBanks_costLeft (s : State) : (flipBanks s).costLeft = s.costLeft := rfl

/-! ### beginExec (R404) -/

@[simp] theorem beginExec_params (P : Record) (s : State) : (beginExec P s).params = s.params := rfl
@[simp] theorem beginExec_timings (P : Record) (s : State) : (beginExec P s).timings = s.timings := rfl
@[simp] theorem beginExec_configured (P : Record) (s : State) : (beginExec P s).configured = s.configured := rfl
@[simp] theorem beginExec_engineRunning (P : Record) (s : State) : (beginExec P s).engineRunning = s.engineRunning := rfl
@[simp] theorem beginExec_doubleBuffered (P : Record) (s : State) : (beginExec P s).doubleBuffered = s.doubleBuffered := rfl
@[simp] theorem beginExec_backgroundExec (P : Record) (s : State) : (beginExec P s).backgroundExec = s.backgroundExec := rfl
@[simp] theorem beginExec_suspendCount (P : Record) (s : State) : (beginExec P s).suspendCount = s.suspendCount := rfl
@[simp] theorem beginExec_vsIntPending (P : Record) (s : State) : (beginExec P s).vsIntPending = s.vsIntPending := rfl
@[simp] theorem beginExec_inExecutor (P : Record) (s : State) : (beginExec P s).inExecutor = s.inExecutor := rfl
@[simp] theorem beginExec_drawBank (P : Record) (s : State) : (beginExec P s).drawBank = s.drawBank := rfl
@[simp] theorem beginExec_spritesHidden (P : Record) (s : State) : (beginExec P s).spritesHidden = s.spritesHidden := rfl
@[simp] theorem beginExec_vpWidth (P : Record) (s : State) : (beginExec P s).vpWidth = s.vpWidth := rfl
@[simp] theorem beginExec_vpHeight (P : Record) (s : State) : (beginExec P s).vpHeight = s.vpHeight := rfl
@[simp] theorem beginExec_vpCol (P : Record) (s : State) : (beginExec P s).vpCol = s.vpCol := rfl
@[simp] theorem beginExec_vpRow (P : Record) (s : State) : (beginExec P s).vpRow = s.vpRow := rfl
@[simp] theorem beginExec_rows (P : Record) (s : State) : (beginExec P s).rows = s.rows := rfl
@[simp] theorem beginExec_rowMap (P : Record) (s : State) : (beginExec P s).rowMap = s.rowMap := rfl
@[simp] theorem beginExec_pools (P : Record) (s : State) : (beginExec P s).pools = s.pools := rfl
@[simp] theorem beginExec_blank0 (P : Record) (s : State) : (beginExec P s).blank0 = s.blank0 := rfl
@[simp] theorem beginExec_blank1 (P : Record) (s : State) : (beginExec P s).blank1 = s.blank1 := rfl
@[simp] theorem beginExec_desc (P : Record) (s : State) : (beginExec P s).desc = s.desc := rfl
@[simp] theorem beginExec_sentinel (P : Record) (s : State) : (beginExec P s).sentinel = s.sentinel := rfl
@[simp] theorem beginExec_cur (P : Record) (s : State) : (beginExec P s).cur = s.cur := rfl
@[simp] theorem beginExec_lat (P : Record) (s : State) : (beginExec P s).lat = s.lat := rfl
@[simp] theorem beginExec_pos (P : Record) (s : State) : (beginExec P s).pos = s.pos := rfl
@[simp] theorem beginExec_tick (P : Record) (s : State) : (beginExec P s).tick = s.tick := rfl
@[simp] theorem beginExec_out (P : Record) (s : State) : (beginExec P s).out = s.out := rfl
@[simp] theorem beginExec_queue (P : Record) (s : State) : (beginExec P s).queue = s.queue := rfl
@[simp] theorem beginExec_drainStart (P : Record) (s : State) : (beginExec P s).drainStart = s.drainStart := rfl
@[simp] theorem beginExec_drainFirst (P : Record) (s : State) : (beginExec P s).drainFirst = s.drainFirst := rfl
@[simp] theorem beginExec_drainKind (P : Record) (s : State) : (beginExec P s).drainKind = s.drainKind := rfl
@[simp] theorem beginExec_paint (P : Record) (s : State) : (beginExec P s).paint = s.paint := rfl
@[simp] theorem beginExec_sprites (P : Record) (s : State) : (beginExec P s).sprites = s.sprites := rfl
@[simp] theorem beginExec_faults (P : Record) (s : State) : (beginExec P s).faults = s.faults := rfl
@[simp] theorem beginExec_refused (P : Record) (s : State) : (beginExec P s).refused = s.refused := rfl
@[simp] theorem beginExec_hostmem (P : Record) (s : State) : (beginExec P s).hostmem = s.hostmem := rfl
@[simp] theorem beginExec_live (P : Record) (s : State) : (beginExec P s).live = s.live := rfl
@[simp] theorem beginExec_program (P : Record) (s : State) : (beginExec P s).program = s.program := rfl
@[simp] theorem beginExec_blocked (P : Record) (s : State) : (beginExec P s).blocked = s.blocked := rfl
@[simp] theorem beginExec_immediate (P : Record) (s : State) : (beginExec P s).immediate = s.immediate := rfl
@[simp] theorem beginExec_ret (P : Record) (s : State) : (beginExec P s).ret = s.ret := rfl
@[simp] theorem beginExec_ticksDue (P : Record) (s : State) : (beginExec P s).ticksDue = s.ticksDue := rfl
@[simp] theorem beginExec_draws (P : Record) (s : State) : (beginExec P s).draws = s.draws := rfl
@[simp] theorem beginExec_costLeft (P : Record) (s : State) : (beginExec P s).costLeft = some (recordCost P s) := rfl

/-! ### markHidden (R335) -/

@[simp] theorem markHidden_params (s : State) : (markHidden s).params = s.params := rfl
@[simp] theorem markHidden_timings (s : State) : (markHidden s).timings = s.timings := rfl
@[simp] theorem markHidden_configured (s : State) : (markHidden s).configured = s.configured := rfl
@[simp] theorem markHidden_engineRunning (s : State) : (markHidden s).engineRunning = s.engineRunning := rfl
@[simp] theorem markHidden_doubleBuffered (s : State) : (markHidden s).doubleBuffered = s.doubleBuffered := rfl
@[simp] theorem markHidden_backgroundExec (s : State) : (markHidden s).backgroundExec = s.backgroundExec := rfl
@[simp] theorem markHidden_suspendCount (s : State) : (markHidden s).suspendCount = s.suspendCount := rfl
@[simp] theorem markHidden_vsIntPending (s : State) : (markHidden s).vsIntPending = s.vsIntPending := rfl
@[simp] theorem markHidden_inExecutor (s : State) : (markHidden s).inExecutor = s.inExecutor := rfl
@[simp] theorem markHidden_drawBank (s : State) : (markHidden s).drawBank = s.drawBank := rfl
@[simp] theorem markHidden_spritesHidden (s : State) : (markHidden s).spritesHidden = true := rfl
@[simp] theorem markHidden_vpWidth (s : State) : (markHidden s).vpWidth = s.vpWidth := rfl
@[simp] theorem markHidden_vpHeight (s : State) : (markHidden s).vpHeight = s.vpHeight := rfl
@[simp] theorem markHidden_vpCol (s : State) : (markHidden s).vpCol = s.vpCol := rfl
@[simp] theorem markHidden_vpRow (s : State) : (markHidden s).vpRow = s.vpRow := rfl
@[simp] theorem markHidden_rows (s : State) : (markHidden s).rows = s.rows := rfl
@[simp] theorem markHidden_rowMap (s : State) : (markHidden s).rowMap = s.rowMap := rfl
@[simp] theorem markHidden_pools (s : State) : (markHidden s).pools = s.pools := rfl
@[simp] theorem markHidden_blank0 (s : State) : (markHidden s).blank0 = s.blank0 := rfl
@[simp] theorem markHidden_blank1 (s : State) : (markHidden s).blank1 = s.blank1 := rfl
@[simp] theorem markHidden_desc (s : State) : (markHidden s).desc = s.desc := rfl
@[simp] theorem markHidden_sentinel (s : State) : (markHidden s).sentinel = s.sentinel := rfl
@[simp] theorem markHidden_cur (s : State) : (markHidden s).cur = s.cur := rfl
@[simp] theorem markHidden_lat (s : State) : (markHidden s).lat = s.lat := rfl
@[simp] theorem markHidden_pos (s : State) : (markHidden s).pos = s.pos := rfl
@[simp] theorem markHidden_tick (s : State) : (markHidden s).tick = s.tick := rfl
@[simp] theorem markHidden_out (s : State) : (markHidden s).out = s.out := rfl
@[simp] theorem markHidden_queue (s : State) : (markHidden s).queue = s.queue := rfl
@[simp] theorem markHidden_drainStart (s : State) : (markHidden s).drainStart = s.drainStart := rfl
@[simp] theorem markHidden_drainFirst (s : State) : (markHidden s).drainFirst = s.drainFirst := rfl
@[simp] theorem markHidden_drainKind (s : State) : (markHidden s).drainKind = s.drainKind := rfl
@[simp] theorem markHidden_paint (s : State) : (markHidden s).paint = s.paint := rfl
@[simp] theorem markHidden_faults (s : State) : (markHidden s).faults = s.faults := rfl
@[simp] theorem markHidden_refused (s : State) : (markHidden s).refused = s.refused := rfl
@[simp] theorem markHidden_hostmem (s : State) : (markHidden s).hostmem = s.hostmem := rfl
@[simp] theorem markHidden_live (s : State) : (markHidden s).live = s.live := rfl
@[simp] theorem markHidden_program (s : State) : (markHidden s).program = s.program := rfl
@[simp] theorem markHidden_blocked (s : State) : (markHidden s).blocked = s.blocked := rfl
@[simp] theorem markHidden_immediate (s : State) : (markHidden s).immediate = s.immediate := rfl
@[simp] theorem markHidden_ret (s : State) : (markHidden s).ret = s.ret := rfl
@[simp] theorem markHidden_ticksDue (s : State) : (markHidden s).ticksDue = s.ticksDue := rfl
@[simp] theorem markHidden_draws (s : State) : (markHidden s).draws = s.draws := rfl
@[simp] theorem markHidden_costLeft (s : State) : (markHidden s).costLeft = s.costLeft := rfl

/-! ### haltEngine (R138, R363) -/

@[simp] theorem haltEngine_params (s : State) : (haltEngine s).params = s.params := rfl
@[simp] theorem haltEngine_timings (s : State) : (haltEngine s).timings = s.timings := rfl
@[simp] theorem haltEngine_configured (s : State) : (haltEngine s).configured = s.configured := rfl
@[simp] theorem haltEngine_engineRunning (s : State) : (haltEngine s).engineRunning = false := rfl
@[simp] theorem haltEngine_doubleBuffered (s : State) : (haltEngine s).doubleBuffered = s.doubleBuffered := rfl
@[simp] theorem haltEngine_backgroundExec (s : State) : (haltEngine s).backgroundExec = s.backgroundExec := rfl
@[simp] theorem haltEngine_suspendCount (s : State) : (haltEngine s).suspendCount = s.suspendCount := rfl
@[simp] theorem haltEngine_vsIntPending (s : State) : (haltEngine s).vsIntPending = s.vsIntPending := rfl
@[simp] theorem haltEngine_inExecutor (s : State) : (haltEngine s).inExecutor = s.inExecutor := rfl
@[simp] theorem haltEngine_drawBank (s : State) : (haltEngine s).drawBank = s.drawBank := rfl
@[simp] theorem haltEngine_spritesHidden (s : State) : (haltEngine s).spritesHidden = s.spritesHidden := rfl
@[simp] theorem haltEngine_vpWidth (s : State) : (haltEngine s).vpWidth = s.vpWidth := rfl
@[simp] theorem haltEngine_vpHeight (s : State) : (haltEngine s).vpHeight = s.vpHeight := rfl
@[simp] theorem haltEngine_vpCol (s : State) : (haltEngine s).vpCol = s.vpCol := rfl
@[simp] theorem haltEngine_vpRow (s : State) : (haltEngine s).vpRow = s.vpRow := rfl
@[simp] theorem haltEngine_rows (s : State) : (haltEngine s).rows = s.rows := rfl
@[simp] theorem haltEngine_rowMap (s : State) : (haltEngine s).rowMap = s.rowMap := rfl
@[simp] theorem haltEngine_pools (s : State) : (haltEngine s).pools = s.pools := rfl
@[simp] theorem haltEngine_blank0 (s : State) : (haltEngine s).blank0 = s.blank0 := rfl
@[simp] theorem haltEngine_blank1 (s : State) : (haltEngine s).blank1 = s.blank1 := rfl
@[simp] theorem haltEngine_desc (s : State) : (haltEngine s).desc = s.desc := rfl
@[simp] theorem haltEngine_sentinel (s : State) : (haltEngine s).sentinel = s.sentinel := rfl
@[simp] theorem haltEngine_cur (s : State) : (haltEngine s).cur = s.cur := rfl
@[simp] theorem haltEngine_lat (s : State) : (haltEngine s).lat = s.lat := rfl
@[simp] theorem haltEngine_pos (s : State) : (haltEngine s).pos = s.pos := rfl
@[simp] theorem haltEngine_tick (s : State) : (haltEngine s).tick = s.tick := rfl
@[simp] theorem haltEngine_out (s : State) : (haltEngine s).out = s.out := rfl
@[simp] theorem haltEngine_queue (s : State) : (haltEngine s).queue = s.queue := rfl
@[simp] theorem haltEngine_drainStart (s : State) : (haltEngine s).drainStart = s.drainStart := rfl
@[simp] theorem haltEngine_drainFirst (s : State) : (haltEngine s).drainFirst = s.drainFirst := rfl
@[simp] theorem haltEngine_drainKind (s : State) : (haltEngine s).drainKind = s.drainKind := rfl
@[simp] theorem haltEngine_paint (s : State) : (haltEngine s).paint = s.paint := rfl
@[simp] theorem haltEngine_sprites (s : State) : (haltEngine s).sprites = s.sprites := rfl
@[simp] theorem haltEngine_faults (s : State) : (haltEngine s).faults = s.faults ++ [.descriptorNotOwned s.cur] := rfl
@[simp] theorem haltEngine_refused (s : State) : (haltEngine s).refused = s.refused := rfl
@[simp] theorem haltEngine_hostmem (s : State) : (haltEngine s).hostmem = s.hostmem := rfl
@[simp] theorem haltEngine_live (s : State) : (haltEngine s).live = s.live := rfl
@[simp] theorem haltEngine_program (s : State) : (haltEngine s).program = s.program := rfl
@[simp] theorem haltEngine_blocked (s : State) : (haltEngine s).blocked = s.blocked := rfl
@[simp] theorem haltEngine_immediate (s : State) : (haltEngine s).immediate = s.immediate := rfl
@[simp] theorem haltEngine_ret (s : State) : (haltEngine s).ret = s.ret := rfl
@[simp] theorem haltEngine_ticksDue (s : State) : (haltEngine s).ticksDue = s.ticksDue := rfl
@[simp] theorem haltEngine_draws (s : State) : (haltEngine s).draws = s.draws := rfl
@[simp] theorem haltEngine_costLeft (s : State) : (haltEngine s).costLeft = s.costLeft := rfl

/-! ### a row byte (R69) -/

@[simp] theorem applyByte_params (p off : Nat) (v : Byte) (s : State) : (applyWrite (.byte p off v) s).params = s.params := rfl
@[simp] theorem applyByte_timings (p off : Nat) (v : Byte) (s : State) : (applyWrite (.byte p off v) s).timings = s.timings := rfl
@[simp] theorem applyByte_configured (p off : Nat) (v : Byte) (s : State) : (applyWrite (.byte p off v) s).configured = s.configured := rfl
@[simp] theorem applyByte_engineRunning (p off : Nat) (v : Byte) (s : State) : (applyWrite (.byte p off v) s).engineRunning = s.engineRunning := rfl
@[simp] theorem applyByte_doubleBuffered (p off : Nat) (v : Byte) (s : State) : (applyWrite (.byte p off v) s).doubleBuffered = s.doubleBuffered := rfl
@[simp] theorem applyByte_backgroundExec (p off : Nat) (v : Byte) (s : State) : (applyWrite (.byte p off v) s).backgroundExec = s.backgroundExec := rfl
@[simp] theorem applyByte_suspendCount (p off : Nat) (v : Byte) (s : State) : (applyWrite (.byte p off v) s).suspendCount = s.suspendCount := rfl
@[simp] theorem applyByte_vsIntPending (p off : Nat) (v : Byte) (s : State) : (applyWrite (.byte p off v) s).vsIntPending = s.vsIntPending := rfl
@[simp] theorem applyByte_inExecutor (p off : Nat) (v : Byte) (s : State) : (applyWrite (.byte p off v) s).inExecutor = s.inExecutor := rfl
@[simp] theorem applyByte_drawBank (p off : Nat) (v : Byte) (s : State) : (applyWrite (.byte p off v) s).drawBank = s.drawBank := rfl
@[simp] theorem applyByte_spritesHidden (p off : Nat) (v : Byte) (s : State) : (applyWrite (.byte p off v) s).spritesHidden = s.spritesHidden := rfl
@[simp] theorem applyByte_vpWidth (p off : Nat) (v : Byte) (s : State) : (applyWrite (.byte p off v) s).vpWidth = s.vpWidth := rfl
@[simp] theorem applyByte_vpHeight (p off : Nat) (v : Byte) (s : State) : (applyWrite (.byte p off v) s).vpHeight = s.vpHeight := rfl
@[simp] theorem applyByte_vpCol (p off : Nat) (v : Byte) (s : State) : (applyWrite (.byte p off v) s).vpCol = s.vpCol := rfl
@[simp] theorem applyByte_vpRow (p off : Nat) (v : Byte) (s : State) : (applyWrite (.byte p off v) s).vpRow = s.vpRow := rfl
@[simp] theorem applyByte_rows (p off : Nat) (v : Byte) (s : State) : (applyWrite (.byte p off v) s).rows = setRowByte s.rows p off v := rfl
@[simp] theorem applyByte_rowMap (p off : Nat) (v : Byte) (s : State) : (applyWrite (.byte p off v) s).rowMap = s.rowMap := rfl
@[simp] theorem applyByte_pools (p off : Nat) (v : Byte) (s : State) : (applyWrite (.byte p off v) s).pools = s.pools := rfl
@[simp] theorem applyByte_blank0 (p off : Nat) (v : Byte) (s : State) : (applyWrite (.byte p off v) s).blank0 = s.blank0 := rfl
@[simp] theorem applyByte_blank1 (p off : Nat) (v : Byte) (s : State) : (applyWrite (.byte p off v) s).blank1 = s.blank1 := rfl
@[simp] theorem applyByte_desc (p off : Nat) (v : Byte) (s : State) : (applyWrite (.byte p off v) s).desc = s.desc := rfl
@[simp] theorem applyByte_sentinel (p off : Nat) (v : Byte) (s : State) : (applyWrite (.byte p off v) s).sentinel = s.sentinel := rfl
@[simp] theorem applyByte_cur (p off : Nat) (v : Byte) (s : State) : (applyWrite (.byte p off v) s).cur = s.cur := rfl
@[simp] theorem applyByte_lat (p off : Nat) (v : Byte) (s : State) : (applyWrite (.byte p off v) s).lat = s.lat := rfl
@[simp] theorem applyByte_pos (p off : Nat) (v : Byte) (s : State) : (applyWrite (.byte p off v) s).pos = s.pos := rfl
@[simp] theorem applyByte_tick (p off : Nat) (v : Byte) (s : State) : (applyWrite (.byte p off v) s).tick = s.tick := rfl
@[simp] theorem applyByte_out (p off : Nat) (v : Byte) (s : State) : (applyWrite (.byte p off v) s).out = s.out := rfl
@[simp] theorem applyByte_queue (p off : Nat) (v : Byte) (s : State) : (applyWrite (.byte p off v) s).queue = s.queue := rfl
@[simp] theorem applyByte_drainStart (p off : Nat) (v : Byte) (s : State) : (applyWrite (.byte p off v) s).drainStart = s.drainStart := rfl
@[simp] theorem applyByte_drainFirst (p off : Nat) (v : Byte) (s : State) : (applyWrite (.byte p off v) s).drainFirst = s.drainFirst := rfl
@[simp] theorem applyByte_drainKind (p off : Nat) (v : Byte) (s : State) : (applyWrite (.byte p off v) s).drainKind = s.drainKind := rfl
@[simp] theorem applyByte_paint (p off : Nat) (v : Byte) (s : State) : (applyWrite (.byte p off v) s).paint = s.paint := rfl
@[simp] theorem applyByte_sprites (p off : Nat) (v : Byte) (s : State) : (applyWrite (.byte p off v) s).sprites = s.sprites := rfl
@[simp] theorem applyByte_faults (p off : Nat) (v : Byte) (s : State) : (applyWrite (.byte p off v) s).faults = s.faults := rfl
@[simp] theorem applyByte_refused (p off : Nat) (v : Byte) (s : State) : (applyWrite (.byte p off v) s).refused = s.refused := rfl
@[simp] theorem applyByte_hostmem (p off : Nat) (v : Byte) (s : State) : (applyWrite (.byte p off v) s).hostmem = s.hostmem := rfl
@[simp] theorem applyByte_live (p off : Nat) (v : Byte) (s : State) : (applyWrite (.byte p off v) s).live = s.live := rfl
@[simp] theorem applyByte_program (p off : Nat) (v : Byte) (s : State) : (applyWrite (.byte p off v) s).program = s.program := rfl
@[simp] theorem applyByte_blocked (p off : Nat) (v : Byte) (s : State) : (applyWrite (.byte p off v) s).blocked = s.blocked := rfl
@[simp] theorem applyByte_immediate (p off : Nat) (v : Byte) (s : State) : (applyWrite (.byte p off v) s).immediate = s.immediate := rfl
@[simp] theorem applyByte_ret (p off : Nat) (v : Byte) (s : State) : (applyWrite (.byte p off v) s).ret = s.ret := rfl
@[simp] theorem applyByte_ticksDue (p off : Nat) (v : Byte) (s : State) : (applyWrite (.byte p off v) s).ticksDue = s.ticksDue := rfl
@[simp] theorem applyByte_draws (p off : Nat) (v : Byte) (s : State) : (applyWrite (.byte p off v) s).draws = s.draws := rfl
@[simp] theorem applyByte_costLeft (p off : Nat) (v : Byte) (s : State) : (applyWrite (.byte p off v) s).costLeft = s.costLeft := rfl

/-! ### a re-pointed descriptor (R309) -/

@[simp] theorem applyRepoint_params (b : Bank) (i p : Nat) (s : State) : (applyWrite (.repoint b i p) s).params = s.params := rfl
@[simp] theorem applyRepoint_timings (b : Bank) (i p : Nat) (s : State) : (applyWrite (.repoint b i p) s).timings = s.timings := rfl
@[simp] theorem applyRepoint_configured (b : Bank) (i p : Nat) (s : State) : (applyWrite (.repoint b i p) s).configured = s.configured := rfl
@[simp] theorem applyRepoint_engineRunning (b : Bank) (i p : Nat) (s : State) : (applyWrite (.repoint b i p) s).engineRunning = s.engineRunning := rfl
@[simp] theorem applyRepoint_doubleBuffered (b : Bank) (i p : Nat) (s : State) : (applyWrite (.repoint b i p) s).doubleBuffered = s.doubleBuffered := rfl
@[simp] theorem applyRepoint_backgroundExec (b : Bank) (i p : Nat) (s : State) : (applyWrite (.repoint b i p) s).backgroundExec = s.backgroundExec := rfl
@[simp] theorem applyRepoint_suspendCount (b : Bank) (i p : Nat) (s : State) : (applyWrite (.repoint b i p) s).suspendCount = s.suspendCount := rfl
@[simp] theorem applyRepoint_vsIntPending (b : Bank) (i p : Nat) (s : State) : (applyWrite (.repoint b i p) s).vsIntPending = s.vsIntPending := rfl
@[simp] theorem applyRepoint_inExecutor (b : Bank) (i p : Nat) (s : State) : (applyWrite (.repoint b i p) s).inExecutor = s.inExecutor := rfl
@[simp] theorem applyRepoint_drawBank (b : Bank) (i p : Nat) (s : State) : (applyWrite (.repoint b i p) s).drawBank = s.drawBank := rfl
@[simp] theorem applyRepoint_spritesHidden (b : Bank) (i p : Nat) (s : State) : (applyWrite (.repoint b i p) s).spritesHidden = s.spritesHidden := rfl
@[simp] theorem applyRepoint_vpWidth (b : Bank) (i p : Nat) (s : State) : (applyWrite (.repoint b i p) s).vpWidth = s.vpWidth := rfl
@[simp] theorem applyRepoint_vpHeight (b : Bank) (i p : Nat) (s : State) : (applyWrite (.repoint b i p) s).vpHeight = s.vpHeight := rfl
@[simp] theorem applyRepoint_vpCol (b : Bank) (i p : Nat) (s : State) : (applyWrite (.repoint b i p) s).vpCol = s.vpCol := rfl
@[simp] theorem applyRepoint_vpRow (b : Bank) (i p : Nat) (s : State) : (applyWrite (.repoint b i p) s).vpRow = s.vpRow := rfl
@[simp] theorem applyRepoint_rows (b : Bank) (i p : Nat) (s : State) : (applyWrite (.repoint b i p) s).rows = s.rows := rfl
@[simp] theorem applyRepoint_rowMap (b : Bank) (i p : Nat) (s : State) : (applyWrite (.repoint b i p) s).rowMap = s.rowMap := rfl
@[simp] theorem applyRepoint_pools (b : Bank) (i p : Nat) (s : State) : (applyWrite (.repoint b i p) s).pools = s.pools := rfl
@[simp] theorem applyRepoint_blank0 (b : Bank) (i p : Nat) (s : State) : (applyWrite (.repoint b i p) s).blank0 = s.blank0 := rfl
@[simp] theorem applyRepoint_blank1 (b : Bank) (i p : Nat) (s : State) : (applyWrite (.repoint b i p) s).blank1 = s.blank1 := rfl
@[simp] theorem applyRepoint_desc (b : Bank) (i p : Nat) (s : State) : (applyWrite (.repoint b i p) s).desc = setDescRow s.desc b i p := rfl
@[simp] theorem applyRepoint_sentinel (b : Bank) (i p : Nat) (s : State) : (applyWrite (.repoint b i p) s).sentinel = s.sentinel := rfl
@[simp] theorem applyRepoint_cur (b : Bank) (i p : Nat) (s : State) : (applyWrite (.repoint b i p) s).cur = s.cur := rfl
@[simp] theorem applyRepoint_lat (b : Bank) (i p : Nat) (s : State) : (applyWrite (.repoint b i p) s).lat = s.lat := rfl
@[simp] theorem applyRepoint_pos (b : Bank) (i p : Nat) (s : State) : (applyWrite (.repoint b i p) s).pos = s.pos := rfl
@[simp] theorem applyRepoint_tick (b : Bank) (i p : Nat) (s : State) : (applyWrite (.repoint b i p) s).tick = s.tick := rfl
@[simp] theorem applyRepoint_out (b : Bank) (i p : Nat) (s : State) : (applyWrite (.repoint b i p) s).out = s.out := rfl
@[simp] theorem applyRepoint_queue (b : Bank) (i p : Nat) (s : State) : (applyWrite (.repoint b i p) s).queue = s.queue := rfl
@[simp] theorem applyRepoint_drainStart (b : Bank) (i p : Nat) (s : State) : (applyWrite (.repoint b i p) s).drainStart = s.drainStart := rfl
@[simp] theorem applyRepoint_drainFirst (b : Bank) (i p : Nat) (s : State) : (applyWrite (.repoint b i p) s).drainFirst = s.drainFirst := rfl
@[simp] theorem applyRepoint_drainKind (b : Bank) (i p : Nat) (s : State) : (applyWrite (.repoint b i p) s).drainKind = s.drainKind := rfl
@[simp] theorem applyRepoint_paint (b : Bank) (i p : Nat) (s : State) : (applyWrite (.repoint b i p) s).paint = s.paint := rfl
@[simp] theorem applyRepoint_sprites (b : Bank) (i p : Nat) (s : State) : (applyWrite (.repoint b i p) s).sprites = s.sprites := rfl
@[simp] theorem applyRepoint_faults (b : Bank) (i p : Nat) (s : State) : (applyWrite (.repoint b i p) s).faults = s.faults := rfl
@[simp] theorem applyRepoint_refused (b : Bank) (i p : Nat) (s : State) : (applyWrite (.repoint b i p) s).refused = s.refused := rfl
@[simp] theorem applyRepoint_hostmem (b : Bank) (i p : Nat) (s : State) : (applyWrite (.repoint b i p) s).hostmem = s.hostmem := rfl
@[simp] theorem applyRepoint_live (b : Bank) (i p : Nat) (s : State) : (applyWrite (.repoint b i p) s).live = s.live := rfl
@[simp] theorem applyRepoint_program (b : Bank) (i p : Nat) (s : State) : (applyWrite (.repoint b i p) s).program = s.program := rfl
@[simp] theorem applyRepoint_blocked (b : Bank) (i p : Nat) (s : State) : (applyWrite (.repoint b i p) s).blocked = s.blocked := rfl
@[simp] theorem applyRepoint_immediate (b : Bank) (i p : Nat) (s : State) : (applyWrite (.repoint b i p) s).immediate = s.immediate := rfl
@[simp] theorem applyRepoint_ret (b : Bank) (i p : Nat) (s : State) : (applyWrite (.repoint b i p) s).ret = s.ret := rfl
@[simp] theorem applyRepoint_ticksDue (b : Bank) (i p : Nat) (s : State) : (applyWrite (.repoint b i p) s).ticksDue = s.ticksDue := rfl
@[simp] theorem applyRepoint_draws (b : Bank) (i p : Nat) (s : State) : (applyWrite (.repoint b i p) s).draws = s.draws := rfl
@[simp] theorem applyRepoint_costLeft (b : Bank) (i p : Nat) (s : State) : (applyWrite (.repoint b i p) s).costLeft = s.costLeft := rfl

/-! ### rebuildScan (R131, R140, R141) -/

@[simp] theorem rebuildScan_params (t : Timings) (g : Geometry) (s : State) : (rebuildScan t g s).params = s.params := rfl
@[simp] theorem rebuildScan_timings (t : Timings) (g : Geometry) (s : State) : (rebuildScan t g s).timings = t := rfl
@[simp] theorem rebuildScan_configured (t : Timings) (g : Geometry) (s : State) : (rebuildScan t g s).configured = s.configured := rfl
@[simp] theorem rebuildScan_engineRunning (t : Timings) (g : Geometry) (s : State) : (rebuildScan t g s).engineRunning = true := rfl
@[simp] theorem rebuildScan_doubleBuffered (t : Timings) (g : Geometry) (s : State) : (rebuildScan t g s).doubleBuffered = s.doubleBuffered := rfl
@[simp] theorem rebuildScan_backgroundExec (t : Timings) (g : Geometry) (s : State) : (rebuildScan t g s).backgroundExec = s.backgroundExec := rfl
@[simp] theorem rebuildScan_suspendCount (t : Timings) (g : Geometry) (s : State) : (rebuildScan t g s).suspendCount = s.suspendCount := rfl
@[simp] theorem rebuildScan_vsIntPending (t : Timings) (g : Geometry) (s : State) : (rebuildScan t g s).vsIntPending = s.vsIntPending := rfl
@[simp] theorem rebuildScan_inExecutor (t : Timings) (g : Geometry) (s : State) : (rebuildScan t g s).inExecutor = s.inExecutor := rfl
@[simp] theorem rebuildScan_drawBank (t : Timings) (g : Geometry) (s : State) : (rebuildScan t g s).drawBank = s.drawBank := rfl
@[simp] theorem rebuildScan_spritesHidden (t : Timings) (g : Geometry) (s : State) : (rebuildScan t g s).spritesHidden = s.spritesHidden := rfl
@[simp] theorem rebuildScan_vpWidth (t : Timings) (g : Geometry) (s : State) : (rebuildScan t g s).vpWidth = g.vpWidth := rfl
@[simp] theorem rebuildScan_vpHeight (t : Timings) (g : Geometry) (s : State) : (rebuildScan t g s).vpHeight = g.vpHeight := rfl
@[simp] theorem rebuildScan_vpCol (t : Timings) (g : Geometry) (s : State) : (rebuildScan t g s).vpCol = g.vpCol := rfl
@[simp] theorem rebuildScan_vpRow (t : Timings) (g : Geometry) (s : State) : (rebuildScan t g s).vpRow = g.vpRow := rfl
@[simp] theorem rebuildScan_rows (t : Timings) (g : Geometry) (s : State) : (rebuildScan t g s).rows = s.rows := rfl
@[simp] theorem rebuildScan_rowMap (t : Timings) (g : Geometry) (s : State) : (rebuildScan t g s).rowMap = s.rowMap := rfl
@[simp] theorem rebuildScan_pools (t : Timings) (g : Geometry) (s : State) : (rebuildScan t g s).pools = s.pools := rfl
@[simp] theorem rebuildScan_blank0 (t : Timings) (g : Geometry) (s : State) : (rebuildScan t g s).blank0 = blankLine s.params t false := rfl
@[simp] theorem rebuildScan_blank1 (t : Timings) (g : Geometry) (s : State) : (rebuildScan t g s).blank1 = blankLine s.params t true := rfl
@[simp] theorem rebuildScan_sentinel (t : Timings) (g : Geometry) (s : State) : (rebuildScan t g s).sentinel = Desc.linkTo (.entry (visBank s) 0) := rfl
@[simp] theorem rebuildScan_cur (t : Timings) (g : Geometry) (s : State) : (rebuildScan t g s).cur = .sentinel := rfl
@[simp] theorem rebuildScan_lat (t : Timings) (g : Geometry) (s : State) : (rebuildScan t g s).lat = s.lat := rfl
@[simp] theorem rebuildScan_pos (t : Timings) (g : Geometry) (s : State) : (rebuildScan t g s).pos = 0 := rfl
@[simp] theorem rebuildScan_tick (t : Timings) (g : Geometry) (s : State) : (rebuildScan t g s).tick = s.tick := rfl
@[simp] theorem rebuildScan_out (t : Timings) (g : Geometry) (s : State) : (rebuildScan t g s).out = s.out := rfl
@[simp] theorem rebuildScan_queue (t : Timings) (g : Geometry) (s : State) : (rebuildScan t g s).queue = s.queue := rfl
@[simp] theorem rebuildScan_drainStart (t : Timings) (g : Geometry) (s : State) : (rebuildScan t g s).drainStart = s.drainStart := rfl
@[simp] theorem rebuildScan_drainFirst (t : Timings) (g : Geometry) (s : State) : (rebuildScan t g s).drainFirst = s.drainFirst := rfl
@[simp] theorem rebuildScan_drainKind (t : Timings) (g : Geometry) (s : State) : (rebuildScan t g s).drainKind = s.drainKind := rfl
@[simp] theorem rebuildScan_paint (t : Timings) (g : Geometry) (s : State) : (rebuildScan t g s).paint = s.paint := rfl
@[simp] theorem rebuildScan_sprites (t : Timings) (g : Geometry) (s : State) : (rebuildScan t g s).sprites = s.sprites := rfl
@[simp] theorem rebuildScan_faults (t : Timings) (g : Geometry) (s : State) : (rebuildScan t g s).faults = s.faults := rfl
@[simp] theorem rebuildScan_refused (t : Timings) (g : Geometry) (s : State) : (rebuildScan t g s).refused = s.refused := rfl
@[simp] theorem rebuildScan_hostmem (t : Timings) (g : Geometry) (s : State) : (rebuildScan t g s).hostmem = s.hostmem := rfl
@[simp] theorem rebuildScan_live (t : Timings) (g : Geometry) (s : State) : (rebuildScan t g s).live = s.live := rfl
@[simp] theorem rebuildScan_program (t : Timings) (g : Geometry) (s : State) : (rebuildScan t g s).program = s.program := rfl
@[simp] theorem rebuildScan_blocked (t : Timings) (g : Geometry) (s : State) : (rebuildScan t g s).blocked = s.blocked := rfl
@[simp] theorem rebuildScan_immediate (t : Timings) (g : Geometry) (s : State) : (rebuildScan t g s).immediate = s.immediate := rfl
@[simp] theorem rebuildScan_ret (t : Timings) (g : Geometry) (s : State) : (rebuildScan t g s).ret = s.ret := rfl
@[simp] theorem rebuildScan_ticksDue (t : Timings) (g : Geometry) (s : State) : (rebuildScan t g s).ticksDue = s.ticksDue := rfl
@[simp] theorem rebuildScan_draws (t : Timings) (g : Geometry) (s : State) : (rebuildScan t g s).draws = s.draws := rfl
@[simp] theorem rebuildScan_costLeft (t : Timings) (g : Geometry) (s : State) : (rebuildScan t g s).costLeft = s.costLeft := rfl

end Sys2Proof.Machine
end

