-- ==== Sys2Proof/Laws/Engine.lean ====
section
/-! SUPPORT. What Engine ticks can do: they change the Engine's own fields, the interrupt latch, the
running flag and the fault list, and nothing else (R67, R138, R370). -/

namespace Sys2Proof.Machine

/-- `t` is `s` but for the fields that Engine ticks write. -/
def EngineOnly (s t : State) : Prop :=
  t = { s with cur := t.cur, lat := t.lat, pos := t.pos, tick := t.tick, out := t.out
               vsIntPending := t.vsIntPending, engineRunning := t.engineRunning, faults := t.faults }

theorem EngineOnly.eq {s t : State} (h : EngineOnly s t) :
    t = { s with cur := t.cur, lat := t.lat, pos := t.pos, tick := t.tick, out := t.out
                 vsIntPending := t.vsIntPending, engineRunning := t.engineRunning, faults := t.faults } := h

theorem EngineOnly.refl (s : State) : EngineOnly s s := rfl

theorem EngineOnly.trans {s t u : State} (h : EngineOnly s t) (k : EngineOnly t u) : EngineOnly s u := by
  unfold EngineOnly at *
  rw [k, h]

theorem moveOnto_engineOnly (r : DescRef) (s : State) : EngineOnly s (moveOnto r s) := by
  cases r <;> rfl

theorem leaveSentinel_engineOnly (s : State) : EngineOnly s (leaveSentinel s) := by
  unfold leaveSentinel
  split
  · exact moveOnto_engineOnly _ s
  · exact .refl s

theorem haltEngine_engineOnly (s : State) : EngineOnly s (haltEngine s) := rfl

theorem vsyncEvent_engineOnly (s : State) : EngineOnly s (vsyncEvent s) := by
  unfold vsyncEvent; split <;> rfl

theorem emitByte_engineOnly (b : Byte) (s : State) : EngineOnly s (emitByte b s) := by
  unfold emitByte
  refine EngineOnly.trans (t := { s with out := s.out ++ [(s.tick, b)], tick := s.tick + 1, pos := s.pos + 1 }) rfl ?_
  dsimp only
  split
  · split
    · exact (vsyncEvent_engineOnly _).trans (moveOnto_engineOnly _ _)
    · exact moveOnto_engineOnly _ _
  · exact .refl _

/-- All that one pixel clock can do: nothing while the Engine stands still, else emit the byte at its
position from a descriptor it can play, or halt (R138). -/
theorem engineTick_cases (s : State) :
    (s.engineRunning = false ∧ engineTick s = s)
    ∨ (s.engineRunning = true ∧ (engineTick s = haltEngine (leaveSentinel s)
      ∨ ∃ b, (leaveSentinel s).cur ≠ .sentinel ∧ (leaveSentinel s).lat.length ≠ 0
        ∧ (leaveSentinel s).lat.owner = .dma ∧ engineByte (leaveSentinel s) = some b
        ∧ engineTick s = emitByte b (leaveSentinel s))) := by
  unfold engineTick
  dsimp only
  split
  · rename_i hrun
    split
    · rename_i h
      split
      · rename_i b hb; exact .inr ⟨hrun, .inr ⟨b, h.1, h.2.1, h.2.2, hb, rfl⟩⟩
      · exact .inr ⟨hrun, .inl rfl⟩
    · exact .inr ⟨hrun, .inl rfl⟩
  · rename_i h; exact .inl ⟨Bool.not_eq_true _ ▸ h, rfl⟩

theorem engineTick_engineOnly (s : State) : EngineOnly s (engineTick s) := by
  rcases engineTick_cases s with ⟨-, e⟩ | ⟨-, e | ⟨b, -, -, -, -, e⟩⟩ <;> rw [e]
  · exact .refl s
  · exact (leaveSentinel_engineOnly s).trans (haltEngine_engineOnly _)
  · exact (leaveSentinel_engineOnly s).trans (emitByte_engineOnly b _)

theorem engineTicks_engineOnly (n : Nat) (s : State) : EngineOnly s (engineTicks n s) := by
  induction n generalizing s with
  | zero => exact .refl s
  | succ n ih => exact (engineTick_engineOnly s).trans (ih _)

/-- The ticks before a write also count one draw, and some of the cost of an `Exec`. -/
theorem gap_engineOnly (s : State) :
    EngineOnly { s with draws := s.draws + 1, costLeft := (gap s).costLeft } (gap s) := by
  unfold gap
  dsimp only
  split
  · have h := engineTicks_engineOnly (ticksWithin s.costLeft (Config.gapTicks s.draws))
      { s with draws := s.draws + 1
               costLeft := s.costLeft.map (· - ticksWithin s.costLeft (Config.gapTicks s.draws)) }
    have hc := congrArg State.costLeft h.eq
    rw [hc]
    exact h
  · exact .refl _

/-- The ticks at the end of an `Exec` leave nothing of its cost. -/
theorem costTicks_engineOnly (s : State) : EngineOnly { s with costLeft := none } (costTicks s) := by
  unfold costTicks
  split
  · exact engineTicks_engineOnly _ _
  · exact .refl _

/-! ### engineTick -/

@[simp] theorem engineTick_params (s : State) : (engineTick s).params = s.params :=
  (congrArg State.params (EngineOnly.eq (engineTick_engineOnly s)) :)
@[simp] theorem engineTick_timings (s : State) : (engineTick s).timings = s.timings :=
  (congrArg State.timings (EngineOnly.eq (engineTick_engineOnly s)) :)
@[simp] theorem engineTick_configured (s : State) : (engineTick s).configured = s.configured :=
  (congrArg State.configured (EngineOnly.eq (engineTick_engineOnly s)) :)
@[simp] theorem engineTick_doubleBuffered (s : State) : (engineTick s).doubleBuffered = s.doubleBuffered :=
  (congrArg State.doubleBuffered (EngineOnly.eq (engineTick_engineOnly s)) :)
@[simp] theorem engineTick_backgroundExec (s : State) : (engineTick s).backgroundExec = s.backgroundExec :=
  (congrArg State.backgroundExec (EngineOnly.eq (engineTick_engineOnly s)) :)
@[simp] theorem engineTick_suspendCount (s : State) : (engineTick s).suspendCount = s.suspendCount :=
  (congrArg State.suspendCount (EngineOnly.eq (engineTick_engineOnly s)) :)
@[simp] theorem engineTick_inExecutor (s : State) : (engineTick s).inExecutor = s.inExecutor :=
  (congrArg State.inExecutor (EngineOnly.eq (engineTick_engineOnly s)) :)
@[simp] theorem engineTick_drawBank (s : State) : (engineTick s).drawBank = s.drawBank :=
  (congrArg State.drawBank (EngineOnly.eq (engineTick_engineOnly s)) :)
@[simp] theorem engineTick_spritesHidden (s : State) : (engineTick s).spritesHidden = s.spritesHidden :=
  (congrArg State.spritesHidden (EngineOnly.eq (engineTick_engineOnly s)) :)
@[simp] theorem engineTick_vpWidth (s : State) : (engineTick s).vpWidth = s.vpWidth :=
  (congrArg State.vpWidth (EngineOnly.eq (engineTick_engineOnly s)) :)
@[simp] theorem engineTick_vpHeight (s : State) : (engineTick s).vpHeight = s.vpHeight :=
  (congrArg State.vpHeight (EngineOnly.eq (engineTick_engineOnly s)) :)
@[simp] theorem engineTick_vpCol (s : State) : (engineTick s).vpCol = s.vpCol :=
  (congrArg State.vpCol (EngineOnly.eq (engineTick_engineOnly s)) :)
@[simp] theorem engineTick_vpRow (s : State) : (engineTick s).vpRow = s.vpRow :=
  (congrArg State.vpRow (EngineOnly.eq (engineTick_engineOnly s)) :)
@[simp] theorem engineTick_rows (s : State) : (engineTick s).rows = s.rows :=
  (congrArg State.rows (EngineOnly.eq (engineTick_engineOnly s)) :)
@[simp] theorem engineTick_rowMap (s : State) : (engineTick s).rowMap = s.rowMap :=
  (congrArg State.rowMap (EngineOnly.eq (engineTick_engineOnly s)) :)
@[simp] theorem engineTick_pools (s : State) : (engineTick s).pools = s.pools :=
  (congrArg State.pools (EngineOnly.eq (engineTick_engineOnly s)) :)
@[simp] theorem engineTick_blank0 (s : State) : (engineTick s).blank0 = s.blank0 :=
  (congrArg State.blank0 (EngineOnly.eq (engineTick_engineOnly s)) :)
@[simp] theorem engineTick_blank1 (s : State) : (engineTick s).blank1 = s.blank1 :=
  (congrArg State.blank1 (EngineOnly.eq (engineTick_engineOnly s)) :)
@[simp] theorem engineTick_desc (s : State) : (engineTick s).desc = s.desc :=
  (congrArg State.desc (EngineOnly.eq (engineTick_engineOnly s)) :)
@[simp] theorem engineTick_sentinel (s : State) : (engineTick s).sentinel = s.sentinel :=
  (congrArg State.sentinel (EngineOnly.eq (engineTick_engineOnly s)) :)
@[simp] theorem engineTick_queue (s : State) : (engineTick s).queue = s.queue :=
  (congrArg State.queue (EngineOnly.eq (engineTick_engineOnly s)) :)
@[simp] theorem engineTick_drainStart (s : State) : (engineTick s).drainStart = s.drainStart :=
  (congrArg State.drainStart (EngineOnly.eq (engineTick_engineOnly s)) :)
@[simp] theorem engineTick_drainFirst (s : State) : (engineTick s).drainFirst = s.drainFirst :=
  (congrArg State.drainFirst (EngineOnly.eq (engineTick_engineOnly s)) :)
@[simp] theorem engineTick_drainKind (s : State) : (engineTick s).drainKind = s.drainKind :=
  (congrArg State.drainKind (EngineOnly.eq (engineTick_engineOnly s)) :)
@[simp] theorem engineTick_paint (s : State) : (engineTick s).paint = s.paint :=
  (congrArg State.paint (EngineOnly.eq (engineTick_engineOnly s)) :)
@[simp] theorem engineTick_sprites (s : State) : (engineTick s).sprites = s.sprites :=
  (congrArg State.sprites (EngineOnly.eq (engineTick_engineOnly s)) :)
@[simp] theorem engineTick_refused (s : State) : (engineTick s).refused = s.refused :=
  (congrArg State.refused (EngineOnly.eq (engineTick_engineOnly s)) :)
@[simp] theorem engineTick_hostmem (s : State) : (engineTick s).hostmem = s.hostmem :=
  (congrArg State.hostmem (EngineOnly.eq (engineTick_engineOnly s)) :)
@[simp] theorem engineTick_live (s : State) : (engineTick s).live = s.live :=
  (congrArg State.live (EngineOnly.eq (engineTick_engineOnly s)) :)
@[simp] theorem engineTick_program (s : State) : (engineTick s).program = s.program :=
  (congrArg State.program (EngineOnly.eq (engineTick_engineOnly s)) :)
@[simp] theorem engineTick_blocked (s : State) : (engineTick s).blocked = s.blocked :=
  (congrArg State.blocked (EngineOnly.eq (engineTick_engineOnly s)) :)
@[simp] theorem engineTick_immediate (s : State) : (engineTick s).immediate = s.immediate :=
  (congrArg State.immediate (EngineOnly.eq (engineTick_engineOnly s)) :)
@[simp] theorem engineTick_ret (s : State) : (engineTick s).ret = s.ret :=
  (congrArg State.ret (EngineOnly.eq (engineTick_engineOnly s)) :)
@[simp] theorem engineTick_ticksDue (s : State) : (engineTick s).ticksDue = s.ticksDue :=
  (congrArg State.ticksDue (EngineOnly.eq (engineTick_engineOnly s)) :)
@[simp] theorem engineTick_draws (s : State) : (engineTick s).draws = s.draws :=
  (congrArg State.draws (EngineOnly.eq (engineTick_engineOnly s)) :)
@[simp] theorem engineTick_costLeft (s : State) : (engineTick s).costLeft = s.costLeft :=
  (congrArg State.costLeft (EngineOnly.eq (engineTick_engineOnly s)) :)

/-! ### engineTicks -/

@[simp] theorem engineTicks_params (n : Nat) (s : State) : (engineTicks n s).params = s.params :=
  (congrArg State.params (EngineOnly.eq (engineTicks_engineOnly n s)) :)
@[simp] theorem engineTicks_timings (n : Nat) (s : State) : (engineTicks n s).timings = s.timings :=
  (congrArg State.timings (EngineOnly.eq (engineTicks_engineOnly n s)) :)
@[simp] theorem engineTicks_configured (n : Nat) (s : State) : (engineTicks n s).configured = s.configured :=
  (congrArg State.configured (EngineOnly.eq (engineTicks_engineOnly n s)) :)
@[simp] theorem engineTicks_doubleBuffered (n : Nat) (s : State) : (engineTicks n s).doubleBuffered = s.doubleBuffered :=
  (congrArg State.doubleBuffered (EngineOnly.eq (engineTicks_engineOnly n s)) :)
@[simp] theorem engineTicks_backgroundExec (n : Nat) (s : State) : (engineTicks n s).backgroundExec = s.backgroundExec :=
  (congrArg State.backgroundExec (EngineOnly.eq (engineTicks_engineOnly n s)) :)
@[simp] theorem engineTicks_suspendCount (n : Nat) (s : State) : (engineTicks n s).suspendCount = s.suspendCount :=
  (congrArg State.suspendCount (EngineOnly.eq (engineTicks_engineOnly n s)) :)
@[simp] theorem engineTicks_inExecutor (n : Nat) (s : State) : (engineTicks n s).inExecutor = s.inExecutor :=
  (congrArg State.inExecutor (EngineOnly.eq (engineTicks_engineOnly n s)) :)
@[simp] theorem engineTicks_drawBank (n : Nat) (s : State) : (engineTicks n s).drawBank = s.drawBank :=
  (congrArg State.drawBank (EngineOnly.eq (engineTicks_engineOnly n s)) :)
@[simp] theorem engineTicks_spritesHidden (n : Nat) (s : State) : (engineTicks n s).spritesHidden = s.spritesHidden :=
  (congrArg State.spritesHidden (EngineOnly.eq (engineTicks_engineOnly n s)) :)
@[simp] theorem engineTicks_vpWidth (n : Nat) (s : State) : (engineTicks n s).vpWidth = s.vpWidth :=
  (congrArg State.vpWidth (EngineOnly.eq (engineTicks_engineOnly n s)) :)
@[simp] theorem engineTicks_vpHeight (n : Nat) (s : State) : (engineTicks n s).vpHeight = s.vpHeight :=
  (congrArg State.vpHeight (EngineOnly.eq (engineTicks_engineOnly n s)) :)
@[simp] theorem engineTicks_vpCol (n : Nat) (s : State) : (engineTicks n s).vpCol = s.vpCol :=
  (congrArg State.vpCol (EngineOnly.eq (engineTicks_engineOnly n s)) :)
@[simp] theorem engineTicks_vpRow (n : Nat) (s : State) : (engineTicks n s).vpRow = s.vpRow :=
  (congrArg State.vpRow (EngineOnly.eq (engineTicks_engineOnly n s)) :)
@[simp] theorem engineTicks_rows (n : Nat) (s : State) : (engineTicks n s).rows = s.rows :=
  (congrArg State.rows (EngineOnly.eq (engineTicks_engineOnly n s)) :)
@[simp] theorem engineTicks_rowMap (n : Nat) (s : State) : (engineTicks n s).rowMap = s.rowMap :=
  (congrArg State.rowMap (EngineOnly.eq (engineTicks_engineOnly n s)) :)
@[simp] theorem engineTicks_pools (n : Nat) (s : State) : (engineTicks n s).pools = s.pools :=
  (congrArg State.pools (EngineOnly.eq (engineTicks_engineOnly n s)) :)
@[simp] theorem engineTicks_blank0 (n : Nat) (s : State) : (engineTicks n s).blank0 = s.blank0 :=
  (congrArg State.blank0 (EngineOnly.eq (engineTicks_engineOnly n s)) :)
@[simp] theorem engineTicks_blank1 (n : Nat) (s : State) : (engineTicks n s).blank1 = s.blank1 :=
  (congrArg State.blank1 (EngineOnly.eq (engineTicks_engineOnly n s)) :)
@[simp] theorem engineTicks_desc (n : Nat) (s : State) : (engineTicks n s).desc = s.desc :=
  (congrArg State.desc (EngineOnly.eq (engineTicks_engineOnly n s)) :)
@[simp] theorem engineTicks_sentinel (n : Nat) (s : State) : (engineTicks n s).sentinel = s.sentinel :=
  (congrArg State.sentinel (EngineOnly.eq (engineTicks_engineOnly n s)) :)
@[simp] theorem engineTicks_queue (n : Nat) (s : State) : (engineTicks n s).queue = s.queue :=
  (congrArg State.queue (EngineOnly.eq (engineTicks_engineOnly n s)) :)
@[simp] theorem engineTicks_drainStart (n : Nat) (s : State) : (engineTicks n s).drainStart = s.drainStart :=
  (congrArg State.drainStart (EngineOnly.eq (engineTicks_engineOnly n s)) :)
@[simp] theorem engineTicks_drainFirst (n : Nat) (s : State) : (engineTicks n s).drainFirst = s.drainFirst :=
  (congrArg State.drainFirst (EngineOnly.eq (engineTicks_engineOnly n s)) :)
@[simp] theorem engineTicks_drainKind (n : Nat) (s : State) : (engineTicks n s).drainKind = s.drainKind :=
  (congrArg State.drainKind (EngineOnly.eq (engineTicks_engineOnly n s)) :)
@[simp] theorem engineTicks_paint (n : Nat) (s : State) : (engineTicks n s).paint = s.paint :=
  (congrArg State.paint (EngineOnly.eq (engineTicks_engineOnly n s)) :)
@[simp] theorem engineTicks_sprites (n : Nat) (s : State) : (engineTicks n s).sprites = s.sprites :=
  (congrArg State.sprites (EngineOnly.eq (engineTicks_engineOnly n s)) :)
@[simp] theorem engineTicks_refused (n : Nat) (s : State) : (engineTicks n s).refused = s.refused :=
  (congrArg State.refused (EngineOnly.eq (engineTicks_engineOnly n s)) :)
@[simp] theorem engineTicks_hostmem (n : Nat) (s : State) : (engineTicks n s).hostmem = s.hostmem :=
  (congrArg State.hostmem (EngineOnly.eq (engineTicks_engineOnly n s)) :)
@[simp] theorem engineTicks_live (n : Nat) (s : State) : (engineTicks n s).live = s.live :=
  (congrArg State.live (EngineOnly.eq (engineTicks_engineOnly n s)) :)
@[simp] theorem engineTicks_program (n : Nat) (s : State) : (engineTicks n s).program = s.program :=
  (congrArg State.program (EngineOnly.eq (engineTicks_engineOnly n s)) :)
@[simp] theorem engineTicks_blocked (n : Nat) (s : State) : (engineTicks n s).blocked = s.blocked :=
  (congrArg State.blocked (EngineOnly.eq (engineTicks_engineOnly n s)) :)
@[simp] theorem engineTicks_immediate (n : Nat) (s : State) : (engineTicks n s).immediate = s.immediate :=
  (congrArg State.immediate (EngineOnly.eq (engineTicks_engineOnly n s)) :)
@[simp] theorem engineTicks_ret (n : Nat) (s : State) : (engineTicks n s).ret = s.ret :=
  (congrArg State.ret (EngineOnly.eq (engineTicks_engineOnly n s)) :)
@[simp] theorem engineTicks_ticksDue (n : Nat) (s : State) : (engineTicks n s).ticksDue = s.ticksDue :=
  (congrArg State.ticksDue (EngineOnly.eq (engineTicks_engineOnly n s)) :)
@[simp] theorem engineTicks_draws (n : Nat) (s : State) : (engineTicks n s).draws = s.draws :=
  (congrArg State.draws (EngineOnly.eq (engineTicks_engineOnly n s)) :)
@[simp] theorem engineTicks_costLeft (n : Nat) (s : State) : (engineTicks n s).costLeft = s.costLeft :=
  (congrArg State.costLeft (EngineOnly.eq (engineTicks_engineOnly n s)) :)

/-! ### gap -/

@[simp] theorem gap_params (s : State) : (gap s).params = s.params :=
  (congrArg State.params (EngineOnly.eq (gap_engineOnly s)) :)
@[simp] theorem gap_timings (s : State) : (gap s).timings = s.timings :=
  (congrArg State.timings (EngineOnly.eq (gap_engineOnly s)) :)
@[simp] theorem gap_configured (s : State) : (gap s).configured = s.configured :=
  (congrArg State.configured (EngineOnly.eq (gap_engineOnly s)) :)
@[simp] theorem gap_doubleBuffered (s : State) : (gap s).doubleBuffered = s.doubleBuffered :=
  (congrArg State.doubleBuffered (EngineOnly.eq (gap_engineOnly s)) :)
@[simp] theorem gap_backgroundExec (s : State) : (gap s).backgroundExec = s.backgroundExec :=
  (congrArg State.backgroundExec (EngineOnly.eq (gap_engineOnly s)) :)
@[simp] theorem gap_suspendCount (s : State) : (gap s).suspendCount = s.suspendCount :=
  (congrArg State.suspendCount (EngineOnly.eq (gap_engineOnly s)) :)
@[simp] theorem gap_inExecutor (s : State) : (gap s).inExecutor = s.inExecutor :=
  (congrArg State.inExecutor (EngineOnly.eq (gap_engineOnly s)) :)
@[simp] theorem gap_drawBank (s : State) : (gap s).drawBank = s.drawBank :=
  (congrArg State.drawBank (EngineOnly.eq (gap_engineOnly s)) :)
@[simp] theorem gap_spritesHidden (s : State) : (gap s).spritesHidden = s.spritesHidden :=
  (congrArg State.spritesHidden (EngineOnly.eq (gap_engineOnly s)) :)
@[simp] theorem gap_vpWidth (s : State) : (gap s).vpWidth = s.vpWidth :=
  (congrArg State.vpWidth (EngineOnly.eq (gap_engineOnly s)) :)
@[simp] theorem gap_vpHeight (s : State) : (gap s).vpHeight = s.vpHeight :=
  (congrArg State.vpHeight (EngineOnly.eq (gap_engineOnly s)) :)
@[simp] theorem gap_vpCol (s : State) : (gap s).vpCol = s.vpCol :=
  (congrArg State.vpCol (EngineOnly.eq (gap_engineOnly s)) :)
@[simp] theorem gap_vpRow (s : State) : (gap s).vpRow = s.vpRow :=
  (congrArg State.vpRow (EngineOnly.eq (gap_engineOnly s)) :)
@[simp] theorem gap_rows (s : State) : (gap s).rows = s.rows :=
  (congrArg State.rows (EngineOnly.eq (gap_engineOnly s)) :)
@[simp] theorem gap_rowMap (s : State) : (gap s).rowMap = s.rowMap :=
  (congrArg State.rowMap (EngineOnly.eq (gap_engineOnly s)) :)
@[simp] theorem gap_pools (s : State) : (gap s).pools = s.pools :=
  (congrArg State.pools (EngineOnly.eq (gap_engineOnly s)) :)
@[simp] theorem gap_blank0 (s : State) : (gap s).blank0 = s.blank0 :=
  (congrArg State.blank0 (EngineOnly.eq (gap_engineOnly s)) :)
@[simp] theorem gap_blank1 (s : State) : (gap s).blank1 = s.blank1 :=
  (congrArg State.blank1 (EngineOnly.eq (gap_engineOnly s)) :)
@[simp] theorem gap_desc (s : State) : (gap s).desc = s.desc :=
  (congrArg State.desc (EngineOnly.eq (gap_engineOnly s)) :)
@[simp] theorem gap_sentinel (s : State) : (gap s).sentinel = s.sentinel :=
  (congrArg State.sentinel (EngineOnly.eq (gap_engineOnly s)) :)
@[simp] theorem gap_queue (s : State) : (gap s).queue = s.queue :=
  (congrArg State.queue (EngineOnly.eq (gap_engineOnly s)) :)
@[simp] theorem gap_drainStart (s : State) : (gap s).drainStart = s.drainStart :=
  (congrArg State.drainStart (EngineOnly.eq (gap_engineOnly s)) :)
@[simp] theorem gap_drainFirst (s : State) : (gap s).drainFirst = s.drainFirst :=
  (congrArg State.drainFirst (EngineOnly.eq (gap_engineOnly s)) :)
@[simp] theorem gap_drainKind (s : State) : (gap s).drainKind = s.drainKind :=
  (congrArg State.drainKind (EngineOnly.eq (gap_engineOnly s)) :)
@[simp] theorem gap_paint (s : State) : (gap s).paint = s.paint :=
  (congrArg State.paint (EngineOnly.eq (gap_engineOnly s)) :)
@[simp] theorem gap_sprites (s : State) : (gap s).sprites = s.sprites :=
  (congrArg State.sprites (EngineOnly.eq (gap_engineOnly s)) :)
@[simp] theorem gap_refused (s : State) : (gap s).refused = s.refused :=
  (congrArg State.refused (EngineOnly.eq (gap_engineOnly s)) :)
@[simp] theorem gap_hostmem (s : State) : (gap s).hostmem = s.hostmem :=
  (congrArg State.hostmem (EngineOnly.eq (gap_engineOnly s)) :)
@[simp] theorem gap_live (s : State) : (gap s).live = s.live :=
  (congrArg State.live (EngineOnly.eq (gap_engineOnly s)) :)
@[simp] theorem gap_program (s : State) : (gap s).program = s.program :=
  (congrArg State.program (EngineOnly.eq (gap_engineOnly s)) :)
@[simp] theorem gap_blocked (s : State) : (gap s).blocked = s.blocked :=
  (congrArg State.blocked (EngineOnly.eq (gap_engineOnly s)) :)
@[simp] theorem gap_immediate (s : State) : (gap s).immediate = s.immediate :=
  (congrArg State.immediate (EngineOnly.eq (gap_engineOnly s)) :)
@[simp] theorem gap_ret (s : State) : (gap s).ret = s.ret :=
  (congrArg State.ret (EngineOnly.eq (gap_engineOnly s)) :)
@[simp] theorem gap_ticksDue (s : State) : (gap s).ticksDue = s.ticksDue :=
  (congrArg State.ticksDue (EngineOnly.eq (gap_engineOnly s)) :)
@[simp] theorem gap_draws (s : State) : (gap s).draws = s.draws + 1 :=
  (congrArg State.draws (EngineOnly.eq (gap_engineOnly s)) :)

/-! ### costTicks -/

@[simp] theorem costTicks_params (s : State) : (costTicks s).params = s.params :=
  (congrArg State.params (EngineOnly.eq (costTicks_engineOnly s)) :)
@[simp] theorem costTicks_timings (s : State) : (costTicks s).timings = s.timings :=
  (congrArg State.timings (EngineOnly.eq (costTicks_engineOnly s)) :)
@[simp] theorem costTicks_configured (s : State) : (costTicks s).configured = s.configured :=
  (congrArg State.configured (EngineOnly.eq (costTicks_engineOnly s)) :)
@[simp] theorem costTicks_doubleBuffered (s : State) : (costTicks s).doubleBuffered = s.doubleBuffered :=
  (congrArg State.doubleBuffered (EngineOnly.eq (costTicks_engineOnly s)) :)
@[simp] theorem costTicks_backgroundExec (s : State) : (costTicks s).backgroundExec = s.backgroundExec :=
  (congrArg State.backgroundExec (EngineOnly.eq (costTicks_engineOnly s)) :)
@[simp] theorem costTicks_suspendCount (s : State) : (costTicks s).suspendCount = s.suspendCount :=
  (congrArg State.suspendCount (EngineOnly.eq (costTicks_engineOnly s)) :)
@[simp] theorem costTicks_inExecutor (s : State) : (costTicks s).inExecutor = s.inExecutor :=
  (congrArg State.inExecutor (EngineOnly.eq (costTicks_engineOnly s)) :)
@[simp] theorem costTicks_drawBank (s : State) : (costTicks s).drawBank = s.drawBank :=
  (congrArg State.drawBank (EngineOnly.eq (costTicks_engineOnly s)) :)
@[simp] theorem costTicks_spritesHidden (s : State) : (costTicks s).spritesHidden = s.spritesHidden :=
  (congrArg State.spritesHidden (EngineOnly.eq (costTicks_engineOnly s)) :)
@[simp] theorem costTicks_vpWidth (s : State) : (costTicks s).vpWidth = s.vpWidth :=
  (congrArg State.vpWidth (EngineOnly.eq (costTicks_engineOnly s)) :)
@[simp] theorem costTicks_vpHeight (s : State) : (costTicks s).vpHeight = s.vpHeight :=
  (congrArg State.vpHeight (EngineOnly.eq (costTicks_engineOnly s)) :)
@[simp] theorem costTicks_vpCol (s : State) : (costTicks s).vpCol = s.vpCol :=
  (congrArg State.vpCol (EngineOnly.eq (costTicks_engineOnly s)) :)
@[simp] theorem costTicks_vpRow (s : State) : (costTicks s).vpRow = s.vpRow :=
  (congrArg State.vpRow (EngineOnly.eq (costTicks_engineOnly s)) :)
@[simp] theorem costTicks_rows (s : State) : (costTicks s).rows = s.rows :=
  (congrArg State.rows (EngineOnly.eq (costTicks_engineOnly s)) :)
@[simp] theorem costTicks_rowMap (s : State) : (costTicks s).rowMap = s.rowMap :=
  (congrArg State.rowMap (EngineOnly.eq (costTicks_engineOnly s)) :)
@[simp] theorem costTicks_pools (s : State) : (costTicks s).pools = s.pools :=
  (congrArg State.pools (EngineOnly.eq (costTicks_engineOnly s)) :)
@[simp] theorem costTicks_blank0 (s : State) : (costTicks s).blank0 = s.blank0 :=
  (congrArg State.blank0 (EngineOnly.eq (costTicks_engineOnly s)) :)
@[simp] theorem costTicks_blank1 (s : State) : (costTicks s).blank1 = s.blank1 :=
  (congrArg State.blank1 (EngineOnly.eq (costTicks_engineOnly s)) :)
@[simp] theorem costTicks_desc (s : State) : (costTicks s).desc = s.desc :=
  (congrArg State.desc (EngineOnly.eq (costTicks_engineOnly s)) :)
@[simp] theorem costTicks_sentinel (s : State) : (costTicks s).sentinel = s.sentinel :=
  (congrArg State.sentinel (EngineOnly.eq (costTicks_engineOnly s)) :)
@[simp] theorem costTicks_queue (s : State) : (costTicks s).queue = s.queue :=
  (congrArg State.queue (EngineOnly.eq (costTicks_engineOnly s)) :)
@[simp] theorem costTicks_drainStart (s : State) : (costTicks s).drainStart = s.drainStart :=
  (congrArg State.drainStart (EngineOnly.eq (costTicks_engineOnly s)) :)
@[simp] theorem costTicks_drainFirst (s : State) : (costTicks s).drainFirst = s.drainFirst :=
  (congrArg State.drainFirst (EngineOnly.eq (costTicks_engineOnly s)) :)
@[simp] theorem costTicks_drainKind (s : State) : (costTicks s).drainKind = s.drainKind :=
  (congrArg State.drainKind (EngineOnly.eq (costTicks_engineOnly s)) :)
@[simp] theorem costTicks_paint (s : State) : (costTicks s).paint = s.paint :=
  (congrArg State.paint (EngineOnly.eq (costTicks_engineOnly s)) :)
@[simp] theorem costTicks_sprites (s : State) : (costTicks s).sprites = s.sprites :=
  (congrArg State.sprites (EngineOnly.eq (costTicks_engineOnly s)) :)
@[simp] theorem costTicks_refused (s : State) : (costTicks s).refused = s.refused :=
  (congrArg State.refused (EngineOnly.eq (costTicks_engineOnly s)) :)
@[simp] theorem costTicks_hostmem (s : State) : (costTicks s).hostmem = s.hostmem :=
  (congrArg State.hostmem (EngineOnly.eq (costTicks_engineOnly s)) :)
@[simp] theorem costTicks_live (s : State) : (costTicks s).live = s.live :=
  (congrArg State.live (EngineOnly.eq (costTicks_engineOnly s)) :)
@[simp] theorem costTicks_program (s : State) : (costTicks s).program = s.program :=
  (congrArg State.program (EngineOnly.eq (costTicks_engineOnly s)) :)
@[simp] theorem costTicks_blocked (s : State) : (costTicks s).blocked = s.blocked :=
  (congrArg State.blocked (EngineOnly.eq (costTicks_engineOnly s)) :)
@[simp] theorem costTicks_immediate (s : State) : (costTicks s).immediate = s.immediate :=
  (congrArg State.immediate (EngineOnly.eq (costTicks_engineOnly s)) :)
@[simp] theorem costTicks_ret (s : State) : (costTicks s).ret = s.ret :=
  (congrArg State.ret (EngineOnly.eq (costTicks_engineOnly s)) :)
@[simp] theorem costTicks_ticksDue (s : State) : (costTicks s).ticksDue = s.ticksDue :=
  (congrArg State.ticksDue (EngineOnly.eq (costTicks_engineOnly s)) :)
@[simp] theorem costTicks_draws (s : State) : (costTicks s).draws = s.draws :=
  (congrArg State.draws (EngineOnly.eq (costTicks_engineOnly s)) :)
@[simp] theorem costTicks_costLeft (s : State) : (costTicks s).costLeft = none :=
  (congrArg State.costLeft (EngineOnly.eq (costTicks_engineOnly s)) :)

end Sys2Proof.Machine
end

