-- ==== Sys2Proof/Laws/Writes.lean ====
section
/-! SUPPORT. What sequences of writes can do: the rows and the descriptors they leave, and that only the
Engine's own fields change beside (R69). -/

namespace Sys2Proof.Machine

/-! ### engineMoved -/

theorem engineMoved.refl (s : State) : engineMoved s s :=
  ⟨⟨[], by simp⟩, ⟨[], by simp⟩, id, id, fun _ => ⟨rfl, rfl, rfl, rfl, rfl, rfl, rfl⟩⟩

theorem engineMoved.trans {s t u : State} (h : engineMoved s t) (k : engineMoved t u) : engineMoved s u := by
  obtain ⟨⟨o, ho, ht⟩, ⟨f, hf, df⟩, hr, hv, hs⟩ := h
  obtain ⟨⟨o', ho', ht'⟩, ⟨f', hf', df'⟩, hr', hv', hs'⟩ := k
  refine ⟨⟨o ++ o', by rw [ho', ho, List.append_assoc], by rw [ht', ht, List.length_append]; omega⟩,
    ⟨f ++ f', by rw [hf', hf, List.append_assoc], fun x hx => ?_⟩, hr ∘ hr', hv' ∘ hv, fun h => ?_⟩
  · rcases List.mem_append.1 hx with hx | hx
    · exact df x hx
    · exact df' x hx
  · obtain ⟨a1, a2, a3, a4, a5, a6, a7⟩ := hs h
    have : t.engineRunning = false := by
      cases ht : t.engineRunning
      · rfl
      · rw [hr ht] at h; cases h
    obtain ⟨b1, b2, b3, b4, b5, b6, b7⟩ := hs' this
    exact ⟨b1.trans a1, b2.trans a2, b3.trans a3, b4.trans a4, b5.trans a5, b6.trans a6, b7.trans a7⟩

theorem moveOnto_faults (r : DescRef) (s : State) : (moveOnto r s).faults = s.faults := by cases r <;> rfl
theorem moveOnto_out (r : DescRef) (s : State) : (moveOnto r s).out = s.out := by cases r <;> rfl
theorem moveOnto_tick (r : DescRef) (s : State) : (moveOnto r s).tick = s.tick := by cases r <;> rfl
theorem moveOnto_running (r : DescRef) (s : State) :
    (moveOnto r s).engineRunning = s.engineRunning := by cases r <;> rfl
theorem moveOnto_pending (r : DescRef) (s : State) :
    (moveOnto r s).vsIntPending = s.vsIntPending := by cases r <;> rfl

/-- A running Engine's tick in terms of its parts: enough for `engineMoved` whatever the position. -/
theorem engineMoved.of_running {s t : State} (hrun : s.engineRunning = true) (o : List (Nat × Byte))
    (ho : t.out = s.out ++ o) (ht : t.tick = s.tick + o.length) (f : List FaultRecord)
    (hf : t.faults = s.faults ++ f) (hd : ∀ x ∈ f, ∃ r, x = .descriptorNotOwned r)
    (hv : s.vsIntPending = true → t.vsIntPending = true) : engineMoved s t :=
  ⟨⟨o, ho, ht⟩, ⟨f, hf, hd⟩, fun _ => hrun, hv, fun h => by rw [hrun] at h; cases h⟩

theorem leaveSentinel_moved (s : State) (hrun : s.engineRunning = true) :
    engineMoved s (leaveSentinel s) ∧ (leaveSentinel s).engineRunning = true := by
  unfold leaveSentinel
  split
  · exact ⟨.of_running hrun [] (by simp [moveOnto_out]) (by simp [moveOnto_tick]) []
      (by simp [moveOnto_faults]) (by simp) (by simp [moveOnto_pending]), by rw [moveOnto_running]; exact hrun⟩
  · exact ⟨.refl s, hrun⟩

theorem haltEngine_moved (s : State) (hrun : s.engineRunning = true) : engineMoved s (haltEngine s) :=
  .of_running hrun [] (by simp [haltEngine, raise]) (by simp [haltEngine, raise]) [.descriptorNotOwned s.cur]
    (by simp [haltEngine, raise]) (by simp) (by simp [haltEngine, raise])

theorem vsyncEvent_cases (s : State) : vsyncEvent s = s ∨ vsyncEvent s = { s with vsIntPending := true } := by
  unfold vsyncEvent; split
  · exact .inr rfl
  · exact .inl rfl

theorem emitByte_moved (b : Byte) (s : State) (hrun : s.engineRunning = true) :
    engineMoved s (emitByte b s) := by
  unfold emitByte
  dsimp only
  split
  · split
    · rcases vsyncEvent_cases
        { s with out := s.out ++ [(s.tick, b)], tick := s.tick + 1, pos := s.pos + 1 } with h | h <;> rw [h] <;>
      exact .of_running hrun [(s.tick, b)] (by simp [moveOnto_out]) (by simp [moveOnto_tick]) []
        (by simp [moveOnto_faults]) (by simp) (by simp [moveOnto_pending])
    · exact .of_running hrun [(s.tick, b)] (by simp [moveOnto_out]) (by simp [moveOnto_tick]) []
        (by simp [moveOnto_faults]) (by simp) (by simp [moveOnto_pending])
  · exact .of_running hrun [(s.tick, b)] rfl rfl [] (by simp) (by simp) id

theorem engineTick_moved (s : State) : engineMoved s (engineTick s) := by
  rcases engineTick_cases s with ⟨-, e⟩ | ⟨hrun, e | ⟨b, -, -, -, -, e⟩⟩ <;> rw [e]
  · exact .refl s
  · obtain ⟨hs, hr⟩ := leaveSentinel_moved s hrun
    exact hs.trans (haltEngine_moved _ hr)
  · obtain ⟨hs, hr⟩ := leaveSentinel_moved s hrun
    exact hs.trans (emitByte_moved b _ hr)

theorem engineTicks_moved (n : Nat) (s : State) : engineMoved s (engineTicks n s) := by
  induction n generalizing s with
  | zero => exact .refl s
  | succ n ih => exact (engineTick_moved s).trans (ih _)

theorem gap_moved (s : State) : engineMoved s (gap s) := by
  unfold gap
  dsimp only
  split
  · exact engineTicks_moved _ { s with draws := _, costLeft := _ }
  · exact .refl s

theorem costTicks_moved (s : State) : engineMoved s (costTicks s) := by
  unfold costTicks
  split
  · exact engineTicks_moved _ { s with costLeft := none }
  · exact .refl s

/-! ### Rows -/

theorem rowByte_setRowByte (rows : List (List Byte)) (p off q o : Nat) (v : Byte) :
    rowByte (setRowByte rows p off v) q o =
      if q = p ∧ o = off ∧ (rowByte rows p off).isSome = true then some v else rowByte rows q o := by
  unfold setRowByte
  cases hp : rows[p]? with
  | none => simp [rowByte, hp]
  | some r =>
    obtain ⟨hlt, rfl⟩ := List.getElem?_eq_some_iff.1 hp
    by_cases hq : q = p
    · subst hq
      simp only [rowByte, List.getElem?_set_self hlt, hp, true_and]
      by_cases ho : o = off
      · subst ho
        by_cases hb : o < rows[q].length
        · simp [hb]
        · simp [List.getElem?_eq_none (not_lt.1 hb)]
          omega
      · simp [List.getElem?_set_ne (Ne.symm ho), ho]
    · simp [rowByte, List.getElem?_set_ne (Ne.symm hq), hq]

theorem setRowByte_length (rows : List (List Byte)) (p off : Nat) (v : Byte) :
    (setRowByte rows p off v).length = rows.length := by
  unfold setRowByte; split <;> simp

theorem setRowByte_rowLength (rows : List (List Byte)) (p off n : Nat) (v : Byte)
    (h : ∀ r ∈ rows, r.length = n) : ∀ r ∈ setRowByte rows p off v, r.length = n := by
  unfold setRowByte
  split
  · rename_i r hr
    intro x hx
    rcases List.mem_or_eq_of_mem_set hx with hx | rfl
    · exact h x hx
    · rw [List.length_set]; exact h r (List.mem_of_getElem? hr)
  · exact h

/-- The rows after a list of writes. -/
def writtenRows : List Write → List (List Byte) → List (List Byte)
  | [], rows => rows
  | .byte p off v :: ws, rows => writtenRows ws (setRowByte rows p off v)
  | .repoint _ _ _ :: ws, rows => writtenRows ws rows

/-- The descriptors after a list of writes. -/
def writtenDesc : List Write → PerBank (List Desc) → PerBank (List Desc)
  | [], d => d
  | .byte _ _ _ :: ws, d => writtenDesc ws d
  | .repoint b i p :: ws, d => writtenDesc ws (setDescRow d b i p)

theorem writtenRows_append (us vs : List Write) (rows : List (List Byte)) :
    writtenRows (us ++ vs) rows = writtenRows vs (writtenRows us rows) := by
  induction us generalizing rows with
  | nil => rfl
  | cons w us ih => cases w <;> exact ih _

theorem writtenRows_length (ws : List Write) (rows : List (List Byte)) :
    (writtenRows ws rows).length = rows.length := by
  induction ws generalizing rows with
  | nil => rfl
  | cons w ws ih =>
    cases w
    · exact (ih _).trans (setRowByte_length ..)
    · exact ih _

theorem writtenRows_rowLength (ws : List Write) (rows : List (List Byte)) (n : Nat)
    (h : ∀ r ∈ rows, r.length = n) : ∀ r ∈ writtenRows ws rows, r.length = n := by
  induction ws generalizing rows with
  | nil => exact h
  | cons w ws ih =>
    cases w
    · exact ih _ (setRowByte_rowLength rows _ _ n _ h)
    · exact ih _ h

theorem rowByte_isSome_written (ws : List Write) (rows : List (List Byte)) (q o : Nat) :
    (rowByte (writtenRows ws rows) q o).isSome = (rowByte rows q o).isSome := by
  induction ws generalizing rows with
  | nil => rfl
  | cons w ws ih =>
    cases w with
    | byte p off v =>
      refine (ih _).trans ?_
      rw [rowByte_setRowByte]
      split
      · rename_i h; obtain ⟨rfl, rfl, h⟩ := h; simp [h]
      · rfl
    | repoint b i p => exact ih _

/-- A byte no write addresses stays. -/
theorem rowByte_written_of_forall_ne (ws : List Write) (rows : List (List Byte)) (q o : Nat)
    (h : ∀ v, .byte q o v ∉ ws) : rowByte (writtenRows ws rows) q o = rowByte rows q o := by
  induction ws generalizing rows with
  | nil => rfl
  | cons w ws ih =>
    have ht : ∀ v, Write.byte q o v ∉ ws := fun v hv => h v (List.mem_cons_of_mem _ hv)
    cases w with
    | byte p off v =>
      refine (ih _ ht).trans ?_
      rw [rowByte_setRowByte, if_neg]
      rintro ⟨rfl, rfl, _⟩
      exact h v List.mem_cons_self
    | repoint b i p => exact ih _ ht

/-- An existing byte that some write addresses, all of them with the same value, holds that value. -/
theorem rowByte_written_of_mem (ws : List Write) (rows : List (List Byte)) (q o : Nat) (v : Byte)
    (hex : (rowByte rows q o).isSome = true) (hm : .byte q o v ∈ ws)
    (hall : ∀ u, .byte q o u ∈ ws → u = v) : rowByte (writtenRows ws rows) q o = some v := by
  induction ws generalizing rows with
  | nil => cases hm
  | cons w ws ih =>
    have ht : ∀ u, Write.byte q o u ∈ ws → u = v := fun u hu => hall u (List.mem_cons_of_mem _ hu)
    by_cases hmt : Write.byte q o v ∈ ws
    · cases w with
      | byte p off u =>
        refine ih (setRowByte rows p off u) ?_ hmt ht
        have := rowByte_isSome_written [.byte p off u] rows q o
        exact this.trans hex
      | repoint b i p => exact ih _ hex hmt ht
    · rcases List.mem_cons.1 hm with rfl | hm
      · have : ∀ u, Write.byte q o u ∉ ws := fun u hu => hmt (ht u hu ▸ hu)
        refine (rowByte_written_of_forall_ne ws _ q o this).trans ?_
        rw [rowByte_setRowByte, if_pos ⟨rfl, rfl, hex⟩]
      · exact absurd hm hmt

/-! ### Sequences of writes -/

/-- `t` is `s` but for what writes and the Engine ticks between them change. -/
def WritesOnly (s t : State) : Prop :=
  t = { s with rows := t.rows, desc := t.desc
               cur := t.cur, lat := t.lat, pos := t.pos, tick := t.tick, out := t.out
               vsIntPending := t.vsIntPending, engineRunning := t.engineRunning, faults := t.faults
               draws := t.draws, costLeft := t.costLeft }

theorem WritesOnly.trans {s t u : State} (h : WritesOnly s t) (k : WritesOnly t u) : WritesOnly s u := by
  unfold WritesOnly at *
  rw [k, h]

theorem WritesOnly.eq {s t : State} (h : WritesOnly s t) :
    t = { s with rows := t.rows, desc := t.desc
                 cur := t.cur, lat := t.lat, pos := t.pos, tick := t.tick, out := t.out
                 vsIntPending := t.vsIntPending, engineRunning := t.engineRunning, faults := t.faults
                 draws := t.draws, costLeft := t.costLeft } := h

theorem gap_only (s : State) : WritesOnly s (gap s) := by
  have h := gap_engineOnly s
  unfold EngineOnly at h
  unfold WritesOnly
  rw [h]

theorem applyWrite_only (w : Write) (s : State) : WritesOnly s (applyWrite w s) := by cases w <;> rfl

theorem runWrites_only (ws : List Write) (s : State) : WritesOnly s (runWrites ws s) := by
  induction ws generalizing s with
  | nil => rfl
  | cons w ws ih => exact ((gap_only s).trans (applyWrite_only w _)).trans (ih _)

theorem applyWrites_only (ws : List Write) (s : State) :
    applyWrites ws s = { s with rows := writtenRows ws s.rows, desc := writtenDesc ws s.desc } := by
  induction ws generalizing s with
  | nil => rfl
  | cons w ws ih => cases w <;> exact ih _

theorem runWrites_rows (ws : List Write) (s : State) : (runWrites ws s).rows = writtenRows ws s.rows := by
  induction ws generalizing s with
  | nil => rfl
  | cons w ws ih => cases w <;> simp [runWrites, ih, writtenRows]

theorem runWrites_desc (ws : List Write) (s : State) : (runWrites ws s).desc = writtenDesc ws s.desc := by
  induction ws generalizing s with
  | nil => rfl
  | cons w ws ih => cases w <;> simp [runWrites, ih, writtenDesc]

theorem applyWrite_moved (w : Write) (s : State) : engineMoved s (applyWrite w s) := by
  cases w <;> exact .refl s

theorem runWrites_moved (ws : List Write) (s : State) : engineMoved s (runWrites ws s) := by
  induction ws generalizing s with
  | nil => exact .refl s
  | cons w ws ih => exact ((gap_moved s).trans (applyWrite_moved w _)).trans (ih _)

/-- Writes of row bytes alone leave the descriptors. -/
theorem writtenDesc_bytes (ws : List Write) (d : PerBank (List Desc))
    (h : ∀ w ∈ ws, ∃ p off v, w = .byte p off v) : writtenDesc ws d = d := by
  induction ws with
  | nil => rfl
  | cons w ws ih =>
    obtain ⟨p, off, v, rfl⟩ := h w List.mem_cons_self
    exact ih fun w hw => h w (List.mem_cons_of_mem _ hw)

/-! ### The fields that writes leave alone -/

@[simp] theorem runWrites_params (ws : List Write) (s : State) : (runWrites ws s).params = s.params :=
  (congrArg State.params (WritesOnly.eq (runWrites_only ws s)) :)
@[simp] theorem runWrites_timings (ws : List Write) (s : State) : (runWrites ws s).timings = s.timings :=
  (congrArg State.timings (WritesOnly.eq (runWrites_only ws s)) :)
@[simp] theorem runWrites_configured (ws : List Write) (s : State) : (runWrites ws s).configured = s.configured :=
  (congrArg State.configured (WritesOnly.eq (runWrites_only ws s)) :)
@[simp] theorem runWrites_doubleBuffered (ws : List Write) (s : State) : (runWrites ws s).doubleBuffered = s.doubleBuffered :=
  (congrArg State.doubleBuffered (WritesOnly.eq (runWrites_only ws s)) :)
@[simp] theorem runWrites_backgroundExec (ws : List Write) (s : State) : (runWrites ws s).backgroundExec = s.backgroundExec :=
  (congrArg State.backgroundExec (WritesOnly.eq (runWrites_only ws s)) :)
@[simp] theorem runWrites_suspendCount (ws : List Write) (s : State) : (runWrites ws s).suspendCount = s.suspendCount :=
  (congrArg State.suspendCount (WritesOnly.eq (runWrites_only ws s)) :)
@[simp] theorem runWrites_inExecutor (ws : List Write) (s : State) : (runWrites ws s).inExecutor = s.inExecutor :=
  (congrArg State.inExecutor (WritesOnly.eq (runWrites_only ws s)) :)
@[simp] theorem runWrites_drawBank (ws : List Write) (s : State) : (runWrites ws s).drawBank = s.drawBank :=
  (congrArg State.drawBank (WritesOnly.eq (runWrites_only ws s)) :)
@[simp] theorem runWrites_spritesHidden (ws : List Write) (s : State) : (runWrites ws s).spritesHidden = s.spritesHidden :=
  (congrArg State.spritesHidden (WritesOnly.eq (runWrites_only ws s)) :)
@[simp] theorem runWrites_vpWidth (ws : List Write) (s : State) : (runWrites ws s).vpWidth = s.vpWidth :=
  (congrArg State.vpWidth (WritesOnly.eq (runWrites_only ws s)) :)
@[simp] theorem runWrites_vpHeight (ws : List Write) (s : State) : (runWrites ws s).vpHeight = s.vpHeight :=
  (congrArg State.vpHeight (WritesOnly.eq (runWrites_only ws s)) :)
@[simp] theorem runWrites_vpCol (ws : List Write) (s : State) : (runWrites ws s).vpCol = s.vpCol :=
  (congrArg State.vpCol (WritesOnly.eq (runWrites_only ws s)) :)
@[simp] theorem runWrites_vpRow (ws : List Write) (s : State) : (runWrites ws s).vpRow = s.vpRow :=
  (congrArg State.vpRow (WritesOnly.eq (runWrites_only ws s)) :)
@[simp] theorem runWrites_rowMap (ws : List Write) (s : State) : (runWrites ws s).rowMap = s.rowMap :=
  (congrArg State.rowMap (WritesOnly.eq (runWrites_only ws s)) :)
@[simp] theorem runWrites_pools (ws : List Write) (s : State) : (runWrites ws s).pools = s.pools :=
  (congrArg State.pools (WritesOnly.eq (runWrites_only ws s)) :)
@[simp] theorem runWrites_blank0 (ws : List Write) (s : State) : (runWrites ws s).blank0 = s.blank0 :=
  (congrArg State.blank0 (WritesOnly.eq (runWrites_only ws s)) :)
@[simp] theorem runWrites_blank1 (ws : List Write) (s : State) : (runWrites ws s).blank1 = s.blank1 :=
  (congrArg State.blank1 (WritesOnly.eq (runWrites_only ws s)) :)
@[simp] theorem runWrites_sentinel (ws : List Write) (s : State) : (runWrites ws s).sentinel = s.sentinel :=
  (congrArg State.sentinel (WritesOnly.eq (runWrites_only ws s)) :)
@[simp] theorem runWrites_queue (ws : List Write) (s : State) : (runWrites ws s).queue = s.queue :=
  (congrArg State.queue (WritesOnly.eq (runWrites_only ws s)) :)
@[simp] theorem runWrites_drainStart (ws : List Write) (s : State) : (runWrites ws s).drainStart = s.drainStart :=
  (congrArg State.drainStart (WritesOnly.eq (runWrites_only ws s)) :)
@[simp] theorem runWrites_drainFirst (ws : List Write) (s : State) : (runWrites ws s).drainFirst = s.drainFirst :=
  (congrArg State.drainFirst (WritesOnly.eq (runWrites_only ws s)) :)
@[simp] theorem runWrites_drainKind (ws : List Write) (s : State) : (runWrites ws s).drainKind = s.drainKind :=
  (congrArg State.drainKind (WritesOnly.eq (runWrites_only ws s)) :)
@[simp] theorem runWrites_paint (ws : List Write) (s : State) : (runWrites ws s).paint = s.paint :=
  (congrArg State.paint (WritesOnly.eq (runWrites_only ws s)) :)
@[simp] theorem runWrites_sprites (ws : List Write) (s : State) : (runWrites ws s).sprites = s.sprites :=
  (congrArg State.sprites (WritesOnly.eq (runWrites_only ws s)) :)
@[simp] theorem runWrites_refused (ws : List Write) (s : State) : (runWrites ws s).refused = s.refused :=
  (congrArg State.refused (WritesOnly.eq (runWrites_only ws s)) :)
@[simp] theorem runWrites_hostmem (ws : List Write) (s : State) : (runWrites ws s).hostmem = s.hostmem :=
  (congrArg State.hostmem (WritesOnly.eq (runWrites_only ws s)) :)
@[simp] theorem runWrites_live (ws : List Write) (s : State) : (runWrites ws s).live = s.live :=
  (congrArg State.live (WritesOnly.eq (runWrites_only ws s)) :)
@[simp] theorem runWrites_program (ws : List Write) (s : State) : (runWrites ws s).program = s.program :=
  (congrArg State.program (WritesOnly.eq (runWrites_only ws s)) :)
@[simp] theorem runWrites_blocked (ws : List Write) (s : State) : (runWrites ws s).blocked = s.blocked :=
  (congrArg State.blocked (WritesOnly.eq (runWrites_only ws s)) :)
@[simp] theorem runWrites_immediate (ws : List Write) (s : State) : (runWrites ws s).immediate = s.immediate :=
  (congrArg State.immediate (WritesOnly.eq (runWrites_only ws s)) :)
@[simp] theorem runWrites_ret (ws : List Write) (s : State) : (runWrites ws s).ret = s.ret :=
  (congrArg State.ret (WritesOnly.eq (runWrites_only ws s)) :)
@[simp] theorem runWrites_ticksDue (ws : List Write) (s : State) : (runWrites ws s).ticksDue = s.ticksDue :=
  (congrArg State.ticksDue (WritesOnly.eq (runWrites_only ws s)) :)

@[simp] theorem applyWrites_params (ws : List Write) (s : State) : (applyWrites ws s).params = s.params :=
  (congrArg State.params (applyWrites_only ws s) :)
@[simp] theorem applyWrites_timings (ws : List Write) (s : State) : (applyWrites ws s).timings = s.timings :=
  (congrArg State.timings (applyWrites_only ws s) :)
@[simp] theorem applyWrites_configured (ws : List Write) (s : State) : (applyWrites ws s).configured = s.configured :=
  (congrArg State.configured (applyWrites_only ws s) :)
@[simp] theorem applyWrites_engineRunning (ws : List Write) (s : State) : (applyWrites ws s).engineRunning = s.engineRunning :=
  (congrArg State.engineRunning (applyWrites_only ws s) :)
@[simp] theorem applyWrites_doubleBuffered (ws : List Write) (s : State) : (applyWrites ws s).doubleBuffered = s.doubleBuffered :=
  (congrArg State.doubleBuffered (applyWrites_only ws s) :)
@[simp] theorem applyWrites_backgroundExec (ws : List Write) (s : State) : (applyWrites ws s).backgroundExec = s.backgroundExec :=
  (congrArg State.backgroundExec (applyWrites_only ws s) :)
@[simp] theorem applyWrites_suspendCount (ws : List Write) (s : State) : (applyWrites ws s).suspendCount = s.suspendCount :=
  (congrArg State.suspendCount (applyWrites_only ws s) :)
@[simp] theorem applyWrites_vsIntPending (ws : List Write) (s : State) : (applyWrites ws s).vsIntPending = s.vsIntPending :=
  (congrArg State.vsIntPending (applyWrites_only ws s) :)
@[simp] theorem applyWrites_inExecutor (ws : List Write) (s : State) : (applyWrites ws s).inExecutor = s.inExecutor :=
  (congrArg State.inExecutor (applyWrites_only ws s) :)
@[simp] theorem applyWrites_drawBank (ws : List Write) (s : State) : (applyWrites ws s).drawBank = s.drawBank :=
  (congrArg State.drawBank (applyWrites_only ws s) :)
@[simp] theorem applyWrites_spritesHidden (ws : List Write) (s : State) : (applyWrites ws s).spritesHidden = s.spritesHidden :=
  (congrArg State.spritesHidden (applyWrites_only ws s) :)
@[simp] theorem applyWrites_vpWidth (ws : List Write) (s : State) : (applyWrites ws s).vpWidth = s.vpWidth :=
  (congrArg State.vpWidth (applyWrites_only ws s) :)
@[simp] theorem applyWrites_vpHeight (ws : List Write) (s : State) : (applyWrites ws s).vpHeight = s.vpHeight :=
  (congrArg State.vpHeight (applyWrites_only ws s) :)
@[simp] theorem applyWrites_vpCol (ws : List Write) (s : State) : (applyWrites ws s).vpCol = s.vpCol :=
  (congrArg State.vpCol (applyWrites_only ws s) :)
@[simp] theorem applyWrites_vpRow (ws : List Write) (s : State) : (applyWrites ws s).vpRow = s.vpRow :=
  (congrArg State.vpRow (applyWrites_only ws s) :)
@[simp] theorem applyWrites_rowMap (ws : List Write) (s : State) : (applyWrites ws s).rowMap = s.rowMap :=
  (congrArg State.rowMap (applyWrites_only ws s) :)
@[simp] theorem applyWrites_pools (ws : List Write) (s : State) : (applyWrites ws s).pools = s.pools :=
  (congrArg State.pools (applyWrites_only ws s) :)
@[simp] theorem applyWrites_blank0 (ws : List Write) (s : State) : (applyWrites ws s).blank0 = s.blank0 :=
  (congrArg State.blank0 (applyWrites_only ws s) :)
@[simp] theorem applyWrites_blank1 (ws : List Write) (s : State) : (applyWrites ws s).blank1 = s.blank1 :=
  (congrArg State.blank1 (applyWrites_only ws s) :)
@[simp] theorem applyWrites_sentinel (ws : List Write) (s : State) : (applyWrites ws s).sentinel = s.sentinel :=
  (congrArg State.sentinel (applyWrites_only ws s) :)
@[simp] theorem applyWrites_cur (ws : List Write) (s : State) : (applyWrites ws s).cur = s.cur :=
  (congrArg State.cur (applyWrites_only ws s) :)
@[simp] theorem applyWrites_lat (ws : List Write) (s : State) : (applyWrites ws s).lat = s.lat :=
  (congrArg State.lat (applyWrites_only ws s) :)
@[simp] theorem applyWrites_pos (ws : List Write) (s : State) : (applyWrites ws s).pos = s.pos :=
  (congrArg State.pos (applyWrites_only ws s) :)
@[simp] theorem applyWrites_tick (ws : List Write) (s : State) : (applyWrites ws s).tick = s.tick :=
  (congrArg State.tick (applyWrites_only ws s) :)
@[simp] theorem applyWrites_out (ws : List Write) (s : State) : (applyWrites ws s).out = s.out :=
  (congrArg State.out (applyWrites_only ws s) :)
@[simp] theorem applyWrites_queue (ws : List Write) (s : State) : (applyWrites ws s).queue = s.queue :=
  (congrArg State.queue (applyWrites_only ws s) :)
@[simp] theorem applyWrites_drainStart (ws : List Write) (s : State) : (applyWrites ws s).drainStart = s.drainStart :=
  (congrArg State.drainStart (applyWrites_only ws s) :)
@[simp] theorem applyWrites_drainFirst (ws : List Write) (s : State) : (applyWrites ws s).drainFirst = s.drainFirst :=
  (congrArg State.drainFirst (applyWrites_only ws s) :)
@[simp] theorem applyWrites_drainKind (ws : List Write) (s : State) : (applyWrites ws s).drainKind = s.drainKind :=
  (congrArg State.drainKind (applyWrites_only ws s) :)
@[simp] theorem applyWrites_paint (ws : List Write) (s : State) : (applyWrites ws s).paint = s.paint :=
  (congrArg State.paint (applyWrites_only ws s) :)
@[simp] theorem applyWrites_sprites (ws : List Write) (s : State) : (applyWrites ws s).sprites = s.sprites :=
  (congrArg State.sprites (applyWrites_only ws s) :)
@[simp] theorem applyWrites_faults (ws : List Write) (s : State) : (applyWrites ws s).faults = s.faults :=
  (congrArg State.faults (applyWrites_only ws s) :)
@[simp] theorem applyWrites_refused (ws : List Write) (s : State) : (applyWrites ws s).refused = s.refused :=
  (congrArg State.refused (applyWrites_only ws s) :)
@[simp] theorem applyWrites_hostmem (ws : List Write) (s : State) : (applyWrites ws s).hostmem = s.hostmem :=
  (congrArg State.hostmem (applyWrites_only ws s) :)
@[simp] theorem applyWrites_live (ws : List Write) (s : State) : (applyWrites ws s).live = s.live :=
  (congrArg State.live (applyWrites_only ws s) :)
@[simp] theorem applyWrites_program (ws : List Write) (s : State) : (applyWrites ws s).program = s.program :=
  (congrArg State.program (applyWrites_only ws s) :)
@[simp] theorem applyWrites_blocked (ws : List Write) (s : State) : (applyWrites ws s).blocked = s.blocked :=
  (congrArg State.blocked (applyWrites_only ws s) :)
@[simp] theorem applyWrites_immediate (ws : List Write) (s : State) : (applyWrites ws s).immediate = s.immediate :=
  (congrArg State.immediate (applyWrites_only ws s) :)
@[simp] theorem applyWrites_ret (ws : List Write) (s : State) : (applyWrites ws s).ret = s.ret :=
  (congrArg State.ret (applyWrites_only ws s) :)
@[simp] theorem applyWrites_ticksDue (ws : List Write) (s : State) : (applyWrites ws s).ticksDue = s.ticksDue :=
  (congrArg State.ticksDue (applyWrites_only ws s) :)
@[simp] theorem applyWrites_draws (ws : List Write) (s : State) : (applyWrites ws s).draws = s.draws :=
  (congrArg State.draws (applyWrites_only ws s) :)

end Sys2Proof.Machine
end

