-- ==== Sys2Proof/Laws/Draw.lean ====
section
/-! SUPPORT. What hiding sprites and drawing can do (R207, R250, R335): the fields they leave alone, the
addresses of pixels, and the one law of `draw` from which every drawing primitive's result follows. -/

namespace Sys2Proof.Machine

/-! ### Addresses of pixels (R172) -/

/-- The row list of a bank is one of two disjoint lists without repeats. -/
theorem viewportOK.bank_nodup {s : State} (h : viewportOK s) (b : Bank) : (s.rowMap.get b).Nodup := by
  obtain ⟨-, -, -, -, -, -, -, hn, -⟩ := h
  cases b
  · exact (List.nodup_append.1 hn).1
  · exact (List.nodup_append.1 hn).2.1

theorem viewportOK.drawBank_length {s : State} (h : viewportOK s) :
    (s.rowMap.get s.drawBank).length = s.vpHeight.toNat := by
  obtain ⟨-, -, -, -, -, hz, ho, -, -, hb, -⟩ := h
  cases hd : s.drawBank
  · exact hz
  · have : s.doubleBuffered = true := by
      cases hdb : s.doubleBuffered
      · rw [hb hdb] at hd; cases hd
      · rfl
    simpa [PerBank.get, this] using ho

theorem viewportOK.bank_lt {s : State} (h : viewportOK s) (b : Bank) (y p : Nat)
    (hp : (s.rowMap.get b)[y]? = some p) : p < s.rows.length := by
  obtain ⟨-, -, -, -, -, -, -, -, hl, -⟩ := h
  have hm := List.mem_of_getElem? hp
  cases b
  · exact hl p (List.mem_append_left _ hm)
  · exact hl p (List.mem_append_right _ hm)

theorem xor_two_lt {x w : Nat} (hx : x < w) (hw : w % 4 = 0) : x ^^^ 2 < w := by
  have h1 : (x ^^^ 2) / 4 = x / 4 := by
    have := Nat.xor_div_two_pow (a := x) (b := 2) (n := 2)
    simpa using this
  have h2 : (x ^^^ 2) % 4 < 4 := Nat.mod_lt _ (by omega)
  omega

theorem xor_two_inj {x y : Nat} (h : x ^^^ 2 = y ^^^ 2) : x = y := by
  have := congrArg (· ^^^ 2) h
  simpa [Nat.xor_assoc] using this

/-- A viewport pixel has an address, and the byte there exists. -/
theorem viewportOK.physAddr {s : State} (h : viewportOK s) {ax ay : Int} (hin : inVP s ax ay = true) :
    ∃ p off, physAddr s s.drawBank ax ay = some (p, off) ∧ off = ax.toNat ^^^ 2
      ∧ (s.rowMap.get s.drawBank)[ay.toNat]? = some p ∧ (rowByte s.rows p off).isSome = true := by
  have hl := h.drawBank_length
  have hin' := hin
  simp only [inVP, Bool.and_eq_true, decide_eq_true_eq] at hin'
  have hy : ay.toNat < (s.rowMap.get s.drawBank).length := by omega
  refine ⟨_, _, by rw [Machine.physAddr, if_pos hin, List.getElem?_eq_getElem hy], rfl,
    List.getElem?_eq_getElem hy, ?_⟩
  have hp := h.bank_lt s.drawBank _ _ (List.getElem?_eq_getElem hy)
  obtain ⟨hw0, hw4, -, -, hrow, -⟩ := h
  have hx : ax.toNat < s.vpWidth.toNat := by omega
  have hlen := hrow _ (List.getElem_mem hp)
  have := xor_two_lt hx (by omega)
  simp only [rowByte, List.getElem?_eq_getElem hp]
  rw [List.getElem?_eq_getElem (by omega)]
  rfl

/-- Different viewport pixels of a bank have different addresses (R25, R181). -/
theorem viewportOK.physAddr_inj {s : State} (h : viewportOK s) {b : Bank} {ax ay bx byy : Int} {q : Nat × Nat}
    (ha : Machine.physAddr s b ax ay = some q) (hb : Machine.physAddr s b bx byy = some q) :
    ax = bx ∧ ay = byy := by
  have split : ∀ {x y : Int}, Machine.physAddr s b x y = some q →
      inVP s x y = true ∧ (s.rowMap.get b)[y.toNat]? = some q.1 ∧ x.toNat ^^^ 2 = q.2 := by
    intro x y hxy
    unfold Machine.physAddr at hxy
    split at hxy
    · split at hxy
      · cases hxy; exact ⟨by assumption, by assumption, rfl⟩
      · cases hxy
    · cases hxy
  obtain ⟨ia, ma, xa⟩ := split ha
  obtain ⟨ib, mb, xb⟩ := split hb
  simp only [inVP, Bool.and_eq_true, decide_eq_true_eq] at ia ib
  have hx := xor_two_inj (xa.trans xb.symm)
  obtain ⟨la, ea⟩ := List.getElem?_eq_some_iff.1 ma
  obtain ⟨lb, eb⟩ := List.getElem?_eq_some_iff.1 mb
  have hy := (h.bank_nodup b).getElem_inj_iff.1 (ea.trans eb.symm)
  omega

theorem physAddr_inVP {s : State} {b : Bank} {ax ay : Int} {q : Nat × Nat}
    (h : physAddr s b ax ay = some q) : inVP s ax ay = true := by
  unfold physAddr at h
  split at h
  · assumption
  · cases h

theorem rawPixel_of_physAddr {s : State} {b : Bank} {ax ay : Int} {q : Nat × Nat}
    (h : physAddr s b ax ay = some q) : rawPixel s b ax ay = rowByte s.rows q.1 q.2 := by
  simp [rawPixel, h]

/-- The viewport invariant looks only at the geometry, the row maps, the sizes of rows, the banks and the
scrolling region. -/
theorem viewportOK.congr {s t : State} (h : viewportOK s) (hw : t.vpWidth = s.vpWidth)
    (hh : t.vpHeight = s.vpHeight) (hm : t.rowMap = s.rowMap) (hd : t.doubleBuffered = s.doubleBuffered)
    (hb : t.drawBank = s.drawBank) (hp : t.paint.scrollRegion = s.paint.scrollRegion)
    (hl : t.rows.length = s.rows.length) (hr : ∀ r ∈ t.rows, r.length = s.vpWidth.toNat) :
    viewportOK t := by
  unfold viewportOK regionOK at *
  rw [hw, hh, hm, hd, hb, hp, hl]
  obtain ⟨h1, h2, h3, h4, -, h5⟩ := h
  exact ⟨h1, h2, h3, h4, hr, h5⟩

theorem viewportOK.runWrites {s : State} (h : viewportOK s) (ws : List Write) :
    viewportOK (runWrites ws s) :=
  h.congr (by simp) (by simp) (by simp) (by simp) (by simp) (by simp)
    (by rw [runWrites_rows, writtenRows_length])
    (by rw [runWrites_rows]; exact writtenRows_rowLength ws s.rows _ h.2.2.2.2.1)

/-! ### Drawing changes few fields -/

theorem drawingOnly.eq {s t : State} (h : drawingOnly s t) :
    t = { s with
          rows := t.rows, sprites := t.sprites, spritesHidden := t.spritesHidden
          cur := t.cur, lat := t.lat, pos := t.pos, tick := t.tick, out := t.out
          vsIntPending := t.vsIntPending, engineRunning := t.engineRunning, faults := t.faults
          draws := t.draws, costLeft := t.costLeft } := h

theorem drawingOnly.refl (s : State) : drawingOnly s s := rfl

theorem drawingOnly.trans {s t u : State} (h : drawingOnly s t) (k : drawingOnly t u) : drawingOnly s u := by
  unfold drawingOnly at *
  rw [k, h]

/-! ### Hiding the sprites (R335) -/

theorem rawWrite_bytes {s : State} {ax ay : Int} {v : Byte} {w : Write} (h : w ∈ rawWrite s ax ay v) :
    ∃ p off, physAddr s s.drawBank ax ay = some (p, off) ∧ w = .byte p off v := by
  unfold rawWrite at h
  split at h
  · rcases List.mem_singleton.1 h with rfl; exact ⟨_, _, by assumption, rfl⟩
  · cases h

theorem hideWrites_bytes (s : State) : ∀ w ∈ hideWrites s, ∃ p off v, w = .byte p off v := by
  intro w hw
  unfold hideWrites at hw
  split at hw
  · cases hw
  · obtain ⟨sp, -, hw⟩ := List.mem_flatMap.1 hw
    unfold restoreWrites at hw
    split at hw
    · cases hw
    · obtain ⟨o, -, hw⟩ := List.mem_flatMap.1 hw
      obtain ⟨p, off, -, rfl⟩ := rawWrite_bytes hw
      exact ⟨p, off, _, rfl⟩

theorem hideSprites_of_hidden {s : State} (h : s.spritesHidden = true) : hideSprites s = s := by
  simp [hideSprites, h]

theorem hideSprites_of_shown {s : State} (h : s.spritesHidden = false) :
    hideSprites s = markHidden (runWrites (hideWrites s) s) := by
  simp [hideSprites, h]

/-- Writes of row bytes are drawing. -/
theorem runWrites_drawingOnly (ws : List Write) (s : State) (h : ∀ w ∈ ws, ∃ p off v, w = .byte p off v) :
    drawingOnly s (runWrites ws s) := by
  have hw := runWrites_only ws s
  have hd := runWrites_desc ws s
  rw [writtenDesc_bytes _ _ h] at hd
  unfold WritesOnly at hw
  rw [hd] at hw
  unfold drawingOnly
  rw [hw]

/-- Hiding the sprites is drawing. -/
theorem hideSprites_drawingOnly (s : State) : drawingOnly s (hideSprites s) := by
  unfold hideSprites
  split
  · rfl
  · exact (runWrites_drawingOnly _ _ (hideWrites_bytes s)).trans rfl

@[simp] theorem hideSprites_params (s : State) : (hideSprites s).params = s.params :=
  (congrArg State.params (hideSprites_drawingOnly s).eq :)
@[simp] theorem hideSprites_timings (s : State) : (hideSprites s).timings = s.timings :=
  (congrArg State.timings (hideSprites_drawingOnly s).eq :)
@[simp] theorem hideSprites_configured (s : State) : (hideSprites s).configured = s.configured :=
  (congrArg State.configured (hideSprites_drawingOnly s).eq :)
@[simp] theorem hideSprites_doubleBuffered (s : State) : (hideSprites s).doubleBuffered = s.doubleBuffered :=
  (congrArg State.doubleBuffered (hideSprites_drawingOnly s).eq :)
@[simp] theorem hideSprites_backgroundExec (s : State) : (hideSprites s).backgroundExec = s.backgroundExec :=
  (congrArg State.backgroundExec (hideSprites_drawingOnly s).eq :)
@[simp] theorem hideSprites_suspendCount (s : State) : (hideSprites s).suspendCount = s.suspendCount :=
  (congrArg State.suspendCount (hideSprites_drawingOnly s).eq :)
@[simp] theorem hideSprites_inExecutor (s : State) : (hideSprites s).inExecutor = s.inExecutor :=
  (congrArg State.inExecutor (hideSprites_drawingOnly s).eq :)
@[simp] theorem hideSprites_drawBank (s : State) : (hideSprites s).drawBank = s.drawBank :=
  (congrArg State.drawBank (hideSprites_drawingOnly s).eq :)
@[simp] theorem hideSprites_vpWidth (s : State) : (hideSprites s).vpWidth = s.vpWidth :=
  (congrArg State.vpWidth (hideSprites_drawingOnly s).eq :)
@[simp] theorem hideSprites_vpHeight (s : State) : (hideSprites s).vpHeight = s.vpHeight :=
  (congrArg State.vpHeight (hideSprites_drawingOnly s).eq :)
@[simp] theorem hideSprites_vpCol (s : State) : (hideSprites s).vpCol = s.vpCol :=
  (congrArg State.vpCol (hideSprites_drawingOnly s).eq :)
@[simp] theorem hideSprites_vpRow (s : State) : (hideSprites s).vpRow = s.vpRow :=
  (congrArg State.vpRow (hideSprites_drawingOnly s).eq :)
@[simp] theorem hideSprites_rowMap (s : State) : (hideSprites s).rowMap = s.rowMap :=
  (congrArg State.rowMap (hideSprites_drawingOnly s).eq :)
@[simp] theorem hideSprites_pools (s : State) : (hideSprites s).pools = s.pools :=
  (congrArg State.pools (hideSprites_drawingOnly s).eq :)
@[simp] theorem hideSprites_blank0 (s : State) : (hideSprites s).blank0 = s.blank0 :=
  (congrArg State.blank0 (hideSprites_drawingOnly s).eq :)
@[simp] theorem hideSprites_blank1 (s : State) : (hideSprites s).blank1 = s.blank1 :=
  (congrArg State.blank1 (hideSprites_drawingOnly s).eq :)
@[simp] theorem hideSprites_desc (s : State) : (hideSprites s).desc = s.desc :=
  (congrArg State.desc (hideSprites_drawingOnly s).eq :)
@[simp] theorem hideSprites_sentinel (s : State) : (hideSprites s).sentinel = s.sentinel :=
  (congrArg State.sentinel (hideSprites_drawingOnly s).eq :)
@[simp] theorem hideSprites_queue (s : State) : (hideSprites s).queue = s.queue :=
  (congrArg State.queue (hideSprites_drawingOnly s).eq :)
@[simp] theorem hideSprites_drainStart (s : State) : (hideSprites s).drainStart = s.drainStart :=
  (congrArg State.drainStart (hideSprites_drawingOnly s).eq :)
@[simp] theorem hideSprites_drainFirst (s : State) : (hideSprites s).drainFirst = s.drainFirst :=
  (congrArg State.drainFirst (hideSprites_drawingOnly s).eq :)
@[simp] theorem hideSprites_drainKind (s : State) : (hideSprites s).drainKind = s.drainKind :=
  (congrArg State.drainKind (hideSprites_drawingOnly s).eq :)
@[simp] theorem hideSprites_paint (s : State) : (hideSprites s).paint = s.paint :=
  (congrArg State.paint (hideSprites_drawingOnly s).eq :)
@[simp] theorem hideSprites_refused (s : State) : (hideSprites s).refused = s.refused :=
  (congrArg State.refused (hideSprites_drawingOnly s).eq :)
@[simp] theorem hideSprites_hostmem (s : State) : (hideSprites s).hostmem = s.hostmem :=
  (congrArg State.hostmem (hideSprites_drawingOnly s).eq :)
@[simp] theorem hideSprites_live (s : State) : (hideSprites s).live = s.live :=
  (congrArg State.live (hideSprites_drawingOnly s).eq :)
@[simp] theorem hideSprites_program (s : State) : (hideSprites s).program = s.program :=
  (congrArg State.program (hideSprites_drawingOnly s).eq :)
@[simp] theorem hideSprites_blocked (s : State) : (hideSprites s).blocked = s.blocked :=
  (congrArg State.blocked (hideSprites_drawingOnly s).eq :)
@[simp] theorem hideSprites_immediate (s : State) : (hideSprites s).immediate = s.immediate :=
  (congrArg State.immediate (hideSprites_drawingOnly s).eq :)
@[simp] theorem hideSprites_ret (s : State) : (hideSprites s).ret = s.ret :=
  (congrArg State.ret (hideSprites_drawingOnly s).eq :)
@[simp] theorem hideSprites_ticksDue (s : State) : (hideSprites s).ticksDue = s.ticksDue :=
  (congrArg State.ticksDue (hideSprites_drawingOnly s).eq :)

@[simp] theorem hideSprites_spritesHidden (s : State) : (hideSprites s).spritesHidden = true := by
  unfold hideSprites
  split
  · assumption
  · rfl

theorem hideSprites_moved (s : State) : engineMoved s (hideSprites s) := by
  unfold hideSprites
  split
  · exact .refl s
  · exact runWrites_moved _ s

theorem hideSprites_rows (s : State) :
    (hideSprites s).rows = if s.spritesHidden then s.rows else writtenRows (hideWrites s) s.rows := by
  unfold hideSprites
  split
  · rfl
  · simp [runWrites_rows]

/-- Hiding within one atomic Producer step changes rows and sprites as hiding does (R331). -/
theorem hideSpritesAtOnce_eq (s : State) : hideSpritesAtOnce s =
    { s with rows := (hideSprites s).rows, sprites := (hideSprites s).sprites, spritesHidden := true } := by
  cases hh : s.spritesHidden
  · unfold hideSpritesAtOnce
    rw [hideSprites_rows, hideSprites_of_shown hh, hh, applyWrites_only,
      writtenDesc_bytes _ _ (hideWrites_bytes s)]
    simp [markHidden]
  · rw [hideSprites_of_hidden hh]
    unfold hideSpritesAtOnce
    rw [if_pos hh, ← hh]

theorem viewportOK.hideSprites {s : State} (h : viewportOK s) : viewportOK (hideSprites s) := by
  refine h.congr (by simp) (by simp) (by simp) (by simp) (by simp) (by simp) ?_ ?_
  · rw [hideSprites_rows]; split
    · rfl
    · exact writtenRows_length ..
  · rw [hideSprites_rows]; split
    · exact h.2.2.2.2.1
    · exact writtenRows_rowLength _ _ _ h.2.2.2.2.1

/-- What is in the viewport depends on its size alone. -/
theorem inVP_congr {s t : State} (hw : t.vpWidth = s.vpWidth) (hh : t.vpHeight = s.vpHeight) (ax ay : Int) :
    inVP t ax ay = inVP s ax ay := by simp [inVP, hw, hh]

@[simp] theorem inVP_hideSprites (s : State) (ax ay : Int) : inVP (hideSprites s) ax ay = inVP s ax ay :=
  inVP_congr (by simp) (by simp) ax ay

theorem physAddr_congr {s t : State} (hw : t.vpWidth = s.vpWidth) (hh : t.vpHeight = s.vpHeight)
    (hm : t.rowMap = s.rowMap) (b : Bank) (ax ay : Int) : physAddr t b ax ay = physAddr s b ax ay := by
  simp [physAddr, inVP_congr hw hh, hm]

@[simp] theorem physAddr_hideSprites (s : State) (b : Bank) (ax ay : Int) :
    physAddr (hideSprites s) b ax ay = physAddr s b ax ay :=
  physAddr_congr (by simp) (by simp) (by simp) b ax ay

/-! ### Drawing -/

/-! ### The fields that drawing leaves alone -/

@[simp] theorem draw_params (ws : State → List Write) (s : State) : (draw ws s).params = s.params := by
  unfold draw; split <;> simp
@[simp] theorem draw_timings (ws : State → List Write) (s : State) : (draw ws s).timings = s.timings := by
  unfold draw; split <;> simp
@[simp] theorem draw_configured (ws : State → List Write) (s : State) : (draw ws s).configured = s.configured := by
  unfold draw; split <;> simp
@[simp] theorem draw_doubleBuffered (ws : State → List Write) (s : State) : (draw ws s).doubleBuffered = s.doubleBuffered := by
  unfold draw; split <;> simp
@[simp] theorem draw_backgroundExec (ws : State → List Write) (s : State) : (draw ws s).backgroundExec = s.backgroundExec := by
  unfold draw; split <;> simp
@[simp] theorem draw_suspendCount (ws : State → List Write) (s : State) : (draw ws s).suspendCount = s.suspendCount := by
  unfold draw; split <;> simp
@[simp] theorem draw_inExecutor (ws : State → List Write) (s : State) : (draw ws s).inExecutor = s.inExecutor := by
  unfold draw; split <;> simp
@[simp] theorem draw_drawBank (ws : State → List Write) (s : State) : (draw ws s).drawBank = s.drawBank := by
  unfold draw; split <;> simp
@[simp] theorem draw_vpWidth (ws : State → List Write) (s : State) : (draw ws s).vpWidth = s.vpWidth := by
  unfold draw; split <;> simp
@[simp] theorem draw_vpHeight (ws : State → List Write) (s : State) : (draw ws s).vpHeight = s.vpHeight := by
  unfold draw; split <;> simp
@[simp] theorem draw_vpCol (ws : State → List Write) (s : State) : (draw ws s).vpCol = s.vpCol := by
  unfold draw; split <;> simp
@[simp] theorem draw_vpRow (ws : State → List Write) (s : State) : (draw ws s).vpRow = s.vpRow := by
  unfold draw; split <;> simp
@[simp] theorem draw_rowMap (ws : State → List Write) (s : State) : (draw ws s).rowMap = s.rowMap := by
  unfold draw; split <;> simp
@[simp] theorem draw_pools (ws : State → List Write) (s : State) : (draw ws s).pools = s.pools := by
  unfold draw; split <;> simp
@[simp] theorem draw_blank0 (ws : State → List Write) (s : State) : (draw ws s).blank0 = s.blank0 := by
  unfold draw; split <;> simp
@[simp] theorem draw_blank1 (ws : State → List Write) (s : State) : (draw ws s).blank1 = s.blank1 := by
  unfold draw; split <;> simp
@[simp] theorem draw_sentinel (ws : State → List Write) (s : State) : (draw ws s).sentinel = s.sentinel := by
  unfold draw; split <;> simp
@[simp] theorem draw_queue (ws : State → List Write) (s : State) : (draw ws s).queue = s.queue := by
  unfold draw; split <;> simp
@[simp] theorem draw_drainStart (ws : State → List Write) (s : State) : (draw ws s).drainStart = s.drainStart := by
  unfold draw; split <;> simp
@[simp] theorem draw_drainFirst (ws : State → List Write) (s : State) : (draw ws s).drainFirst = s.drainFirst := by
  unfold draw; split <;> simp
@[simp] theorem draw_drainKind (ws : State → List Write) (s : State) : (draw ws s).drainKind = s.drainKind := by
  unfold draw; split <;> simp
@[simp] theorem draw_paint (ws : State → List Write) (s : State) : (draw ws s).paint = s.paint := by
  unfold draw; split <;> simp
@[simp] theorem draw_refused (ws : State → List Write) (s : State) : (draw ws s).refused = s.refused := by
  unfold draw; split <;> simp
@[simp] theorem draw_hostmem (ws : State → List Write) (s : State) : (draw ws s).hostmem = s.hostmem := by
  unfold draw; split <;> simp
@[simp] theorem draw_live (ws : State → List Write) (s : State) : (draw ws s).live = s.live := by
  unfold draw; split <;> simp
@[simp] theorem draw_program (ws : State → List Write) (s : State) : (draw ws s).program = s.program := by
  unfold draw; split <;> simp
@[simp] theorem draw_blocked (ws : State → List Write) (s : State) : (draw ws s).blocked = s.blocked := by
  unfold draw; split <;> simp
@[simp] theorem draw_immediate (ws : State → List Write) (s : State) : (draw ws s).immediate = s.immediate := by
  unfold draw; split <;> simp
@[simp] theorem draw_ret (ws : State → List Write) (s : State) : (draw ws s).ret = s.ret := by
  unfold draw; split <;> simp
@[simp] theorem draw_ticksDue (ws : State → List Write) (s : State) : (draw ws s).ticksDue = s.ticksDue := by
  unfold draw; split <;> simp

/-- The law of `draw`: where the writes are exactly the addresses and values of `new`, the primitive
redraws the viewport by `new`. -/
theorem draw_redraws (ws : State → List Write) (new : State → Int → Int → Option Byte) {s : State}
    (hv : viewportOK s)
    (sound : ∀ w ∈ ws (hideSprites s), ∃ ax ay v, new (hideSprites s) ax ay = some v
      ∧ w ∈ rawWrite (hideSprites s) ax ay v)
    (complete : ∀ ax ay v, inVP s ax ay = true → new (hideSprites s) ax ay = some v →
      ∀ w ∈ rawWrite (hideSprites s) ax ay v, w ∈ ws (hideSprites s)) :
    redraws s (draw ws s) s.paint new := by
  have hvh := hv.hideSprites
  have addr : ∀ ax ay v, inVP s ax ay = true → new (hideSprites s) ax ay = some v →
      ∃ p off, physAddr (hideSprites s) (hideSprites s).drawBank ax ay = some (p, off)
        ∧ .byte p off v ∈ ws (hideSprites s)
        ∧ (rowByte (hideSprites s).rows p off).isSome = true := by
    intro ax ay v hin hn
    obtain ⟨p, off, ha, -, -, he⟩ := hvh.physAddr (ax := ax) (ay := ay) (by simpa using hin)
    exact ⟨p, off, ha, complete ax ay v hin hn _ (by unfold rawWrite; rw [ha]; exact List.mem_singleton_self _), he⟩
  refine ⟨fun hnone => ?_, fun hsome => ?_⟩
  · have : ws (hideSprites s) = [] := by
      refine List.eq_nil_iff_forall_not_mem.2 fun w hw => ?_
      obtain ⟨ax, ay, v, hn, hw⟩ := sound w hw
      obtain ⟨p, off, ha, -⟩ := rawWrite_bytes hw
      have hin := physAddr_inVP ha
      rw [inVP_hideSprites] at hin
      rw [hnone ax ay hin] at hn
      cases hn
    simp [draw, this]
  · obtain ⟨ax0, ay0, hin0, hn0⟩ := hsome
    obtain ⟨v0, hv0⟩ := Option.ne_none_iff_exists'.1 hn0
    obtain ⟨p0, off0, -, hm0, -⟩ := addr ax0 ay0 v0 hin0 hv0
    have hdraw : draw ws s = runWrites (ws (hideSprites s)) (hideSprites s) := by
      unfold draw
      split
      · rename_i h; rw [h] at hm0; cases hm0
      · rename_i h; rw [h]
    have hbytes : ∀ w ∈ ws (hideSprites s), ∃ p off v, w = .byte p off v := by
      intro w hw
      obtain ⟨ax, ay, v, -, hw⟩ := sound w hw
      obtain ⟨p, off, -, rfl⟩ := rawWrite_bytes hw
      exact ⟨p, off, v, rfl⟩
    have hrows : (draw ws s).rows = writtenRows (ws (hideSprites s)) (hideSprites s).rows := by
      rw [hdraw, runWrites_rows]
    have hphys : ∀ ax ay, physAddr (draw ws s) (draw ws s).drawBank ax ay
        = physAddr (hideSprites s) (hideSprites s).drawBank ax ay := by
      intro ax ay
      rw [hdraw, runWrites_drawBank]
      exact physAddr_congr (by simp) (by simp) (by simp) _ _ _
    refine ⟨fun ax ay hin => ?_, fun p off hno => ?_, ?_, ?_, ?_, ?_⟩
    · obtain ⟨p, off, ha, -, -, he⟩ := hvh.physAddr (ax := ax) (ay := ay) (by simpa using hin)
      rw [rawPixel_of_physAddr ((hphys ax ay).trans ha), rawPixel_of_physAddr ha, hrows]
      cases hn : new (hideSprites s) ax ay with
      | none =>
        refine rowByte_written_of_forall_ne _ _ _ _ fun v hw => ?_
        obtain ⟨bx, by', u, hn', hw⟩ := sound _ hw
        obtain ⟨q, o, hb, hq⟩ := rawWrite_bytes hw
        cases hq
        obtain ⟨rfl, rfl⟩ := hvh.physAddr_inj ha hb
        rw [hn] at hn'
        cases hn'
      | some v =>
        obtain ⟨p', off', ha', hm, -⟩ := addr ax ay v hin hn
        rw [ha] at ha'
        cases ha'
        refine rowByte_written_of_mem _ _ _ _ v he hm fun u hu => ?_
        obtain ⟨bx, by', u', hn', hw⟩ := sound _ hu
        obtain ⟨q, o, hb, hq⟩ := rawWrite_bytes hw
        cases hq
        obtain ⟨rfl, rfl⟩ := hvh.physAddr_inj ha hb
        rw [hn] at hn'
        cases hn'
        rfl
    · rw [hrows]
      refine rowByte_written_of_forall_ne _ _ _ _ fun v hw => ?_
      obtain ⟨bx, by', u, hn', hw⟩ := sound _ hw
      obtain ⟨q, o, hb, hq⟩ := rawWrite_bytes hw
      cases hq
      exact hno bx by' _ hn' hb
    · rw [hdraw]; simp
    · rw [hdraw]; simp
    · rw [hdraw]; exact (hideSprites_moved s).trans (runWrites_moved _ _)
    · rw [hdraw]
      exact (hideSprites_drawingOnly s).trans (runWrites_drawingOnly _ _ hbytes)

end Sys2Proof.Machine
end

