-- ==== Sys2Proof/Laws/Encoding.lean ====
section
/-! SUPPORT. What a field of an encoded record reads (R83, R84), and what each reader of host operands
reads after its writer (log entry 3). -/

namespace Sys2Proof

/-! ### Fields of a record -/

theorem place_same {w : Nat} (k : Nat) (v : BitVec w) (h : 8 * k + w ≤ 128) :
    (place k v).extractLsb' (8 * k) w = v := by
  apply BitVec.eq_of_getLsbD_eq
  intro i hi
  have h1 : 8 * k + i < 128 := by omega
  have h2 : ¬8 * k + i < 8 * k := by omega
  simp [place, hi, h1, h2]

theorem place_below {w : Nat} (k s n : Nat) (v : BitVec w) (h : s + n ≤ 8 * k) :
    (place k v).extractLsb' s n = 0#n := by
  apply BitVec.eq_of_getLsbD_eq
  intro i hi
  have h2 : s + i < 8 * k := by omega
  simp [place, BitVec.getLsbD_extractLsb', h2]

theorem place_above {w : Nat} (k s n : Nat) (v : BitVec w) (h : 8 * k + w ≤ s) :
    (place k v).extractLsb' s n = 0#n := by
  apply BitVec.eq_of_getLsbD_eq
  intro i hi
  have h2 : v.getLsbD (s + i - 8 * k) = false := BitVec.getLsbD_of_ge _ _ (by omega)
  simp [place, BitVec.getLsbD_extractLsb', h2]

/-! ### Readers after writers -/

theorem readNat_natDigits (f n : Nat) (hf : n ≤ f) (bs : List Byte) :
    readNat (natDigits f n ++ bs) = some (n, bs) := by
  induction f generalizing n with
  | zero =>
    obtain rfl : n = 0 := by omega
    rfl
  | succ f ih =>
    unfold natDigits
    split
    · rename_i h
      have : n % 256 = n := by omega
      simp [readNat, h, this]
    · rename_i h
      have h1 : (n % 128 + 128) % 256 = n % 128 + 128 := by omega
      have h2 : n % 128 + 128 * (n / 128) = n := by omega
      simp [readNat, h1, ih (n / 128) (by omega), h2]

@[simp] theorem readNat_putNat (n : Nat) (bs : List Byte) : readNat (putNat n ++ bs) = some (n, bs) :=
  readNat_natDigits n n le_rfl bs

theorem unzigzag_zigzag (v : Int) : unzigzag (zigzag v) = v := by
  cases v with
  | ofNat n => simp [zigzag, unzigzag]
  | negSucc n =>
    have h1 : (2 * n + 1) % 2 ≠ 0 := by omega
    have h2 : (2 * n + 1) / 2 = n := by omega
    rw [zigzag, unzigzag, if_neg h1, h2]
    omega

@[simp] theorem readInt_putInt (v : Int) (bs : List Byte) : readInt (putInt v ++ bs) = some (v, bs) := by
  simp [readInt, putInt, unzigzag_zigzag]

@[simp] theorem readBool_putBool (b : Bool) (bs : List Byte) : readBool (putBool b ++ bs) = some (b, bs) := by
  cases b <;> rfl

@[simp] theorem readWord16_putWord16 (v : BitVec 16) (bs : List Byte) :
    readWord16 (putWord16 v ++ bs) = some (v, bs) := by
  have : v.extractLsb' 8 8 ++ v.extractLsb' 0 8 = v := by
    apply BitVec.eq_of_toNat_eq
    have := v.isLt
    simp only [BitVec.toNat_append, BitVec.extractLsb'_toNat]
    rw [← Nat.shiftLeft_add_eq_or_of_lt (by omega)]
    simp only [Nat.shiftLeft_eq, Nat.shiftRight_eq_div_pow]
    omega
  simp [readWord16, putWord16, readByte, this]

theorem readMany_flatMap {α : Type} (rd : Reader α) (wr : α → List Byte) (l : List α)
    (h : ∀ a ∈ l, ∀ bs, rd (wr a ++ bs) = some (a, bs)) (bs : List Byte) :
    readMany rd l.length (l.flatMap wr ++ bs) = some (l, bs) := by
  induction l with
  | nil => rfl
  | cons a l ih =>
    simp [readMany, List.append_assoc, h a (by simp), ih fun b hb => h b (by simp [hb])]

/-- A list of items comes back if each item does. -/
theorem readList_putList {α : Type} (rd : Reader α) (wr : α → List Byte)
    (h : ∀ a bs, rd (wr a ++ bs) = some (a, bs)) (l : List α) (bs : List Byte) :
    readList rd (putList wr l ++ bs) = some (l, bs) := by
  simp [readList, putList, List.append_assoc, readMany_flatMap rd wr l fun a _ => h a]

@[simp] theorem readList_bytes (l bs : List Byte) :
    readList readByte (putList (fun b => [b]) l ++ bs) = some (l, bs) :=
  readList_putList _ _ (fun _ _ => rfl) l bs

@[simp] theorem readSpriteInit_putSpriteInit (s : SpriteInit) (bs : List Byte) :
    readSpriteInit (putSpriteInit s ++ bs) = some (s, bs) := by
  simp [readSpriteInit, putSpriteInit, List.append_assoc, readList_putList readNat putNat readNat_putNat]

@[simp] theorem readSpriteUpdate_putSpriteUpdate (u : SpriteUpdate) (bs : List Byte) :
    readSpriteUpdate (putSpriteUpdate u ++ bs) = some (u, bs) := by
  cases u <;> simp [readSpriteUpdate, putSpriteUpdate, readByte]

/-- Bit `i` of a record comes from bit `i % 8` of byte `i / 8` (R83). -/
theorem bytesToRecord_getLsbD (bs : List Byte) (i : Nat) (hi : i < 128) :
    (bytesToRecord bs).getLsbD i = ((bs[i / 8]?).getD 0).getLsbD (i % 8) := by
  induction bs generalizing i with
  | nil => simp [bytesToRecord]
  | cons b bs ih =>
    have e : bytesToRecord (b :: bs) = (bytesToRecord bs <<< 8) ||| b.setWidth 128 := rfl
    rw [e]
    by_cases h : i < 8
    · have h1 : i / 8 = 0 := by omega
      have h2 : i % 8 = i := by omega
      simp [h1, h2, h, hi]
    · obtain ⟨j, rfl⟩ : ∃ j, i = j + 8 := ⟨i - 8, by omega⟩
      have h1 : (j + 8) / 8 = j / 8 + 1 := by omega
      have h2 : b.getLsbD (j + 8) = false := BitVec.getLsbD_of_ge _ _ (by omega)
      have h3 := ih j (by omega)
      simp only [BitVec.getLsbD_eq_getElem (show j < 128 by omega)] at h3
      simp [h1, hi, h3]

theorem bytesToRecord_recordBytes (P : Record) : bytesToRecord (recordBytes P) = P := by
  apply BitVec.eq_of_getLsbD_eq
  intro i hi
  have h : i / 8 < 16 := by omega
  have h2 : 8 * (i / 8) + i % 8 = i := by omega
  have h3 : i % 8 < 8 := by omega
  simp [bytesToRecord_getLsbD _ i hi, recordBytes, h, recByte, h2, h3]

@[simp] theorem readRecord_recordBytes (P : Record) (bs : List Byte) :
    readRecord (recordBytes P ++ bs) = some (P, bs) := by
  have h := readMany_flatMap readByte (fun b => [b]) (recordBytes P) (fun _ _ _ => rfl) bs
  have hl : (recordBytes P).length = 16 := by simp [recordBytes]
  rw [hl] at h
  have hf : (recordBytes P).flatMap (fun b => [b]) = recordBytes P := by simp
  rw [hf] at h
  simp [readRecord, h, bytesToRecord_recordBytes]

end Sys2Proof
end

