-- ==== Sys2Proof/Laws/Sprites.lean ====
section
/-! SUPPORT. What showing sprites and ending a drain can do (R210, R336): the fields they leave alone, the
faults they record, and the slots' fields that only the Producer writes. -/

namespace Sys2Proof.Machine

/-- What drawing and showing can append to the record of faults. -/
def drawFaults (s t : State) : Prop :=
  ∃ fs, t.faults = s.faults ++ fs
    ∧ ∀ f ∈ fs, (∃ r, f = .descriptorNotOwned r) ∨ ∃ a n, f = .danglingReference a n

theorem drawFaults.refl (s : State) : drawFaults s s := ⟨[], by simp⟩

theorem drawFaults.trans {s t u : State} (h : drawFaults s t) (k : drawFaults t u) : drawFaults s u := by
  obtain ⟨f, hf, df⟩ := h
  obtain ⟨g, hg, dg⟩ := k
  refine ⟨f ++ g, by rw [hg, hf, List.append_assoc], fun x hx => ?_⟩
  rcases List.mem_append.1 hx with hx | hx
  · exact df x hx
  · exact dg x hx

theorem engineMoved.drawFaults {s t : State} (h : engineMoved s t) : drawFaults s t := by
  obtain ⟨f, hf, df⟩ := h.2.1
  exact ⟨f, hf, fun x hx => .inl (df x hx)⟩

/-! ### One sprite -/

theorem spriteWrites_bytes (s : State) (d : Nat) (f : Frame) (x y : Int) (r : SavedRect) :
    ∀ w ∈ spriteWrites s d f x y r, ∃ p off v, w = .byte p off v := by
  intro w hw
  unfold spriteWrites at hw
  obtain ⟨o, -, hw⟩ := List.mem_flatMap.1 hw
  dsimp only at hw
  split at hw
  · obtain ⟨p, off, -, rfl⟩ := rawWrite_bytes hw
    exact ⟨p, off, _, rfl⟩
  · cases hw

theorem drawSprite_drawingOnly (i : Nat) (sp : Sprite) (f : Frame) (d : Nat) (s : State) :
    drawingOnly s (drawSprite i sp f d s) := by
  unfold drawSprite
  exact drawingOnly.trans (by rfl) (runWrites_drawingOnly _ _ (spriteWrites_bytes _ _ _ _ _ _))

/-- What showing one sprite does: nothing, one fault, or its drawing. -/
theorem showSprite_cases (i : Nat) (s : State) :
    showSprite i s = s ∨ (∃ a n, showSprite i s = raise (.danglingReference a n) s)
    ∨ ∃ sp f d, s.sprites[i]? = some sp ∧ drawable sp = true ∧ sp.frames[sp.curFrame]? = some f
        ∧ d = (memU32 s (f.addr + 4)).toNat ∧ rangeLive s (f.addr + 4) 4 = true
        ∧ rangeLive s d (f.w * f.h) = true ∧ showSprite i s = drawSprite i sp f d s := by
  unfold showSprite
  split
  · exact .inl rfl
  · split
    · split
      · exact .inl rfl
      · dsimp only
        split
        · split
          · exact .inr (.inr ⟨_, _, _, by assumption, by assumption, by assumption, rfl, by assumption,
              by assumption, rfl⟩)
          · exact .inr (.inl ⟨_, _, rfl⟩)
        · exact .inr (.inl ⟨_, _, rfl⟩)
    · exact .inl rfl

theorem showSprite_drawingOnly (i : Nat) (s : State) : drawingOnly s (showSprite i s) := by
  rcases showSprite_cases i s with h | ⟨a, n, h⟩ | ⟨sp, f, d, -, -, -, -, -, -, h⟩ <;> rw [h]
  · exact .refl s
  · rfl
  · exact drawSprite_drawingOnly ..

theorem drawSprite_moved (i : Nat) (sp : Sprite) (f : Frame) (d : Nat) (s : State) :
    engineMoved s (drawSprite i sp f d s) := by
  unfold drawSprite
  exact runWrites_moved _ _

theorem showSprite_drawFaults (i : Nat) (s : State) : drawFaults s (showSprite i s) := by
  rcases showSprite_cases i s with h | ⟨a, n, h⟩ | ⟨sp, f, d, -, -, -, -, -, -, h⟩ <;> rw [h]
  · exact .refl s
  · exact ⟨[.danglingReference a n], rfl, by simp⟩
  · exact (drawSprite_moved ..).drawFaults

theorem sameProducerFields.refl (a : Sprite) : sameProducerFields a a :=
  ⟨rfl, rfl, rfl, rfl, rfl, rfl, rfl, rfl⟩

theorem sameProducerFields.trans {a b c : Sprite} (h : sameProducerFields a b) (k : sameProducerFields b c) :
    sameProducerFields a c := by
  obtain ⟨h1, h2, h3, h4, h5, h6, h7, h8⟩ := h
  obtain ⟨k1, k2, k3, k4, k5, k6, k7, k8⟩ := k
  exact ⟨k1.trans h1, k2.trans h2, k3.trans h3, k4.trans h4, k5.trans h5, k6.trans h6, k7.trans h7, k8.trans h8⟩

theorem shownSlot_same (s : State) (sp : Sprite) (r : SavedRect) : sameProducerFields sp (shownSlot s sp r) := by
  unfold shownSlot
  split
  · exact .refl sp
  · split <;> exact .refl sp

theorem forall₂_same_refl (l : List Sprite) : List.Forall₂ sameProducerFields l l :=
  List.forall₂_same.2 fun a _ => .refl a

theorem forall₂_same_set (l : List Sprite) (i : Nat) (a b : Sprite) (h : l[i]? = some a)
    (hs : sameProducerFields a b) : List.Forall₂ sameProducerFields l (l.set i b) := by
  induction l generalizing i with
  | nil => cases h
  | cons c l ih =>
    cases i with
    | zero => cases h; exact .cons hs (forall₂_same_refl l)
    | succ i => exact .cons (.refl c) (ih i h)

theorem forall₂_same_trans {l m n : List Sprite} (h : List.Forall₂ sameProducerFields l m)
    (k : List.Forall₂ sameProducerFields m n) : List.Forall₂ sameProducerFields l n := by
  induction h generalizing n with
  | nil => exact k
  | cons hs _ ih => cases k with | cons ks k => exact .cons (hs.trans ks) (ih k)

theorem drawSprite_sprites (i : Nat) (sp : Sprite) (f : Frame) (d : Nat) (s : State) :
    (drawSprite i sp f d s).sprites = s.sprites.set i (shownSlot s sp (spriteRect s
      (positionRead sp.x sp.xOld (Config.staleRead s.draws))
      (positionRead sp.y sp.yOld (Config.staleRead (s.draws + 1))) f)) := by
  simp [drawSprite]

theorem showSprite_same (i : Nat) (s : State) :
    List.Forall₂ sameProducerFields s.sprites (showSprite i s).sprites := by
  rcases showSprite_cases i s with h | ⟨a, n, h⟩ | ⟨sp, f, d, hsp, -, -, -, -, -, h⟩ <;> rw [h]
  · exact forall₂_same_refl _
  · exact forall₂_same_refl _
  · rw [drawSprite_sprites]
    exact forall₂_same_set _ _ _ _ hsp (shownSlot_same ..)

/-! ### All sprites -/

theorem showFrom_drawingOnly (n i : Nat) (s : State) : drawingOnly s (showFrom n i s) := by
  induction n generalizing i s with
  | zero => exact .refl s
  | succ n ih => exact (showSprite_drawingOnly i s).trans (ih _ _)

theorem showFrom_drawFaults (n i : Nat) (s : State) : drawFaults s (showFrom n i s) := by
  induction n generalizing i s with
  | zero => exact .refl s
  | succ n ih => exact (showSprite_drawFaults i s).trans (ih _ _)

theorem showFrom_same (n i : Nat) (s : State) :
    List.Forall₂ sameProducerFields s.sprites (showFrom n i s).sprites := by
  induction n generalizing i s with
  | zero => exact forall₂_same_refl _
  | succ n ih => exact forall₂_same_trans (showSprite_same i s) (ih _ _)

theorem showSprites_drawingOnly (s : State) : drawingOnly s (showSprites s) := by
  unfold showSprites
  split
  · exact .refl s
  · have h := showFrom_drawingOnly s.sprites.length 0 s
    unfold drawingOnly at *
    rw [h]

theorem showSprites_drawFaults (s : State) : drawFaults s (showSprites s) := by
  unfold showSprites
  split
  · exact .refl s
  · exact showFrom_drawFaults s.sprites.length 0 s

theorem showSprites_same (s : State) : List.Forall₂ sameProducerFields s.sprites (showSprites s).sprites := by
  unfold showSprites
  split
  · exact forall₂_same_refl _
  · exact showFrom_same s.sprites.length 0 s

/-- Afterwards the sprites count as shown, but where one bank had them shown already. -/
theorem showSprites_spritesHidden (s : State) : (showSprites s).spritesHidden = false := by
  unfold showSprites
  split
  · rename_i h
    simp only [Bool.and_eq_true, Bool.not_eq_true'] at h
    exact h.2
  · rfl

@[simp] theorem showSprites_params (s : State) : (showSprites s).params = s.params :=
  (congrArg State.params (showSprites_drawingOnly s).eq :)
@[simp] theorem showSprites_timings (s : State) : (showSprites s).timings = s.timings :=
  (congrArg State.timings (showSprites_drawingOnly s).eq :)
@[simp] theorem showSprites_configured (s : State) : (showSprites s).configured = s.configured :=
  (congrArg State.configured (showSprites_drawingOnly s).eq :)
@[simp] theorem showSprites_doubleBuffered (s : State) : (showSprites s).doubleBuffered = s.doubleBuffered :=
  (congrArg State.doubleBuffered (showSprites_drawingOnly s).eq :)
@[simp] theorem showSprites_backgroundExec (s : State) : (showSprites s).backgroundExec = s.backgroundExec :=
  (congrArg State.backgroundExec (showSprites_drawingOnly s).eq :)
@[simp] theorem showSprites_suspendCount (s : State) : (showSprites s).suspendCount = s.suspendCount :=
  (congrArg State.suspendCount (showSprites_drawingOnly s).eq :)
@[simp] theorem showSprites_inExecutor (s : State) : (showSprites s).inExecutor = s.inExecutor :=
  (congrArg State.inExecutor (showSprites_drawingOnly s).eq :)
@[simp] theorem showSprites_drawBank (s : State) : (showSprites s).drawBank = s.drawBank :=
  (congrArg State.drawBank (showSprites_drawingOnly s).eq :)
@[simp] theorem showSprites_vpWidth (s : State) : (showSprites s).vpWidth = s.vpWidth :=
  (congrArg State.vpWidth (showSprites_drawingOnly s).eq :)
@[simp] theorem showSprites_vpHeight (s : State) : (showSprites s).vpHeight = s.vpHeight :=
  (congrArg State.vpHeight (showSprites_drawingOnly s).eq :)
@[simp] theorem showSprites_vpCol (s : State) : (showSprites s).vpCol = s.vpCol :=
  (congrArg State.vpCol (showSprites_drawingOnly s).eq :)
@[simp] theorem showSprites_vpRow (s : State) : (showSprites s).vpRow = s.vpRow :=
  (congrArg State.vpRow (showSprites_drawingOnly s).eq :)
@[simp] theorem showSprites_rowMap (s : State) : (showSprites s).rowMap = s.rowMap :=
  (congrArg State.rowMap (showSprites_drawingOnly s).eq :)
@[simp] theorem showSprites_pools (s : State) : (showSprites s).pools = s.pools :=
  (congrArg State.pools (showSprites_drawingOnly s).eq :)
@[simp] theorem showSprites_blank0 (s : State) : (showSprites s).blank0 = s.blank0 :=
  (congrArg State.blank0 (showSprites_drawingOnly s).eq :)
@[simp] theorem showSprites_blank1 (s : State) : (showSprites s).blank1 = s.blank1 :=
  (congrArg State.blank1 (showSprites_drawingOnly s).eq :)
@[simp] theorem showSprites_desc (s : State) : (showSprites s).desc = s.desc :=
  (congrArg State.desc (showSprites_drawingOnly s).eq :)
@[simp] theorem showSprites_sentinel (s : State) : (showSprites s).sentinel = s.sentinel :=
  (congrArg State.sentinel (showSprites_drawingOnly s).eq :)
@[simp] theorem showSprites_queue (s : State) : (showSprites s).queue = s.queue :=
  (congrArg State.queue (showSprites_drawingOnly s).eq :)
@[simp] theorem showSprites_drainStart (s : State) : (showSprites s).drainStart = s.drainStart :=
  (congrArg State.drainStart (showSprites_drawingOnly s).eq :)
@[simp] theorem showSprites_drainFirst (s : State) : (showSprites s).drainFirst = s.drainFirst :=
  (congrArg State.drainFirst (showSprites_drawingOnly s).eq :)
@[simp] theorem showSprites_drainKind (s : State) : (showSprites s).drainKind = s.drainKind :=
  (congrArg State.drainKind (showSprites_drawingOnly s).eq :)
@[simp] theorem showSprites_paint (s : State) : (showSprites s).paint = s.paint :=
  (congrArg State.paint (showSprites_drawingOnly s).eq :)
@[simp] theorem showSprites_refused (s : State) : (showSprites s).refused = s.refused :=
  (congrArg State.refused (showSprites_drawingOnly s).eq :)
@[simp] theorem showSprites_hostmem (s : State) : (showSprites s).hostmem = s.hostmem :=
  (congrArg State.hostmem (showSprites_drawingOnly s).eq :)
@[simp] theorem showSprites_live (s : State) : (showSprites s).live = s.live :=
  (congrArg State.live (showSprites_drawingOnly s).eq :)
@[simp] theorem showSprites_program (s : State) : (showSprites s).program = s.program :=
  (congrArg State.program (showSprites_drawingOnly s).eq :)
@[simp] theorem showSprites_blocked (s : State) : (showSprites s).blocked = s.blocked :=
  (congrArg State.blocked (showSprites_drawingOnly s).eq :)
@[simp] theorem showSprites_immediate (s : State) : (showSprites s).immediate = s.immediate :=
  (congrArg State.immediate (showSprites_drawingOnly s).eq :)
@[simp] theorem showSprites_ret (s : State) : (showSprites s).ret = s.ret :=
  (congrArg State.ret (showSprites_drawingOnly s).eq :)
@[simp] theorem showSprites_ticksDue (s : State) : (showSprites s).ticksDue = s.ticksDue :=
  (congrArg State.ticksDue (showSprites_drawingOnly s).eq :)

/-! ### The end of a drain -/

theorem showAtEnd_drawingOnly (s : State) : drawingOnly s (showAtEnd s) := by
  unfold showAtEnd
  split
  · exact showSprites_drawingOnly s
  · exact .refl s

theorem showAtEnd_drawFaults (s : State) : drawFaults s (showAtEnd s) := by
  unfold showAtEnd
  split
  · exact showSprites_drawFaults s
  · exact .refl s

@[simp] theorem endDrain_inExecutor (s : State) : (endDrain s).inExecutor = false := rfl

/-- With one bank the sprites are shown when a drain ends (R204, R210). -/
theorem endDrain_spritesHidden (s : State) (h : s.doubleBuffered = false) :
    (endDrain s).spritesHidden = false := by
  show (showAtEnd s).spritesHidden = false
  unfold showAtEnd
  split
  · exact showSprites_spritesHidden s
  · rename_i hn
    simpa [h] using hn

@[simp] theorem endDrain_params (s : State) : (endDrain s).params = s.params :=
  (congrArg State.params (showAtEnd_drawingOnly s).eq :)
@[simp] theorem endDrain_timings (s : State) : (endDrain s).timings = s.timings :=
  (congrArg State.timings (showAtEnd_drawingOnly s).eq :)
@[simp] theorem endDrain_configured (s : State) : (endDrain s).configured = s.configured :=
  (congrArg State.configured (showAtEnd_drawingOnly s).eq :)
@[simp] theorem endDrain_doubleBuffered (s : State) : (endDrain s).doubleBuffered = s.doubleBuffered :=
  (congrArg State.doubleBuffered (showAtEnd_drawingOnly s).eq :)
@[simp] theorem endDrain_backgroundExec (s : State) : (endDrain s).backgroundExec = s.backgroundExec :=
  (congrArg State.backgroundExec (showAtEnd_drawingOnly s).eq :)
@[simp] theorem endDrain_drawBank (s : State) : (endDrain s).drawBank = s.drawBank :=
  (congrArg State.drawBank (showAtEnd_drawingOnly s).eq :)
@[simp] theorem endDrain_vpWidth (s : State) : (endDrain s).vpWidth = s.vpWidth :=
  (congrArg State.vpWidth (showAtEnd_drawingOnly s).eq :)
@[simp] theorem endDrain_vpHeight (s : State) : (endDrain s).vpHeight = s.vpHeight :=
  (congrArg State.vpHeight (showAtEnd_drawingOnly s).eq :)
@[simp] theorem endDrain_vpCol (s : State) : (endDrain s).vpCol = s.vpCol :=
  (congrArg State.vpCol (showAtEnd_drawingOnly s).eq :)
@[simp] theorem endDrain_vpRow (s : State) : (endDrain s).vpRow = s.vpRow :=
  (congrArg State.vpRow (showAtEnd_drawingOnly s).eq :)
@[simp] theorem endDrain_rowMap (s : State) : (endDrain s).rowMap = s.rowMap :=
  (congrArg State.rowMap (showAtEnd_drawingOnly s).eq :)
@[simp] theorem endDrain_pools (s : State) : (endDrain s).pools = s.pools :=
  (congrArg State.pools (showAtEnd_drawingOnly s).eq :)
@[simp] theorem endDrain_blank0 (s : State) : (endDrain s).blank0 = s.blank0 :=
  (congrArg State.blank0 (showAtEnd_drawingOnly s).eq :)
@[simp] theorem endDrain_blank1 (s : State) : (endDrain s).blank1 = s.blank1 :=
  (congrArg State.blank1 (showAtEnd_drawingOnly s).eq :)
@[simp] theorem endDrain_desc (s : State) : (endDrain s).desc = s.desc :=
  (congrArg State.desc (showAtEnd_drawingOnly s).eq :)
@[simp] theorem endDrain_sentinel (s : State) : (endDrain s).sentinel = s.sentinel :=
  (congrArg State.sentinel (showAtEnd_drawingOnly s).eq :)
@[simp] theorem endDrain_queue (s : State) : (endDrain s).queue = s.queue :=
  (congrArg State.queue (showAtEnd_drawingOnly s).eq :)
@[simp] theorem endDrain_drainStart (s : State) : (endDrain s).drainStart = s.drainStart :=
  (congrArg State.drainStart (showAtEnd_drawingOnly s).eq :)
@[simp] theorem endDrain_drainFirst (s : State) : (endDrain s).drainFirst = s.drainFirst :=
  (congrArg State.drainFirst (showAtEnd_drawingOnly s).eq :)
@[simp] theorem endDrain_drainKind (s : State) : (endDrain s).drainKind = s.drainKind :=
  (congrArg State.drainKind (showAtEnd_drawingOnly s).eq :)
@[simp] theorem endDrain_paint (s : State) : (endDrain s).paint = s.paint :=
  (congrArg State.paint (showAtEnd_drawingOnly s).eq :)
@[simp] theorem endDrain_refused (s : State) : (endDrain s).refused = s.refused :=
  (congrArg State.refused (showAtEnd_drawingOnly s).eq :)
@[simp] theorem endDrain_hostmem (s : State) : (endDrain s).hostmem = s.hostmem :=
  (congrArg State.hostmem (showAtEnd_drawingOnly s).eq :)
@[simp] theorem endDrain_live (s : State) : (endDrain s).live = s.live :=
  (congrArg State.live (showAtEnd_drawingOnly s).eq :)
@[simp] theorem endDrain_program (s : State) : (endDrain s).program = s.program :=
  (congrArg State.program (showAtEnd_drawingOnly s).eq :)
@[simp] theorem endDrain_blocked (s : State) : (endDrain s).blocked = s.blocked :=
  (congrArg State.blocked (showAtEnd_drawingOnly s).eq :)
@[simp] theorem endDrain_immediate (s : State) : (endDrain s).immediate = s.immediate :=
  (congrArg State.immediate (showAtEnd_drawingOnly s).eq :)
@[simp] theorem endDrain_ret (s : State) : (endDrain s).ret = s.ret :=
  (congrArg State.ret (showAtEnd_drawingOnly s).eq :)
@[simp] theorem endDrain_ticksDue (s : State) : (endDrain s).ticksDue = s.ticksDue :=
  (congrArg State.ticksDue (showAtEnd_drawingOnly s).eq :)

/-- Only a pump's end takes a suspension back (R204). -/
theorem endDrain_suspendCount (s : State) :
    (endDrain s).suspendCount = if s.drainKind = .pump then s.suspendCount - 1 else s.suspendCount := by
  show (if (showAtEnd s).drainKind = .pump then (showAtEnd s).suspendCount - 1
    else (showAtEnd s).suspendCount) = _
  rw [(congrArg State.drainKind (showAtEnd_drawingOnly s).eq :),
    (congrArg State.suspendCount (showAtEnd_drawingOnly s).eq :)]

end Sys2Proof.Machine
end

