-- ==== Sys2Proof/Laws/Exec.lean ====
section
/-! SUPPORT. What a primitive and a record can do (R201, R204, R207, R375): each answers a next state,
and what they leave alone. Then what one step can do, by agent, and steps one after the other. -/

namespace Sys2Proof.Machine

/-- `t` is `s` but for what primitives can change: rows, row maps, descriptors, the sentinel and the drawing
bank, the paint state, the Executor's fields of sprites, faults, the Engine's own fields, and the count of
free values drawn. -/
def primOnly (s t : State) : Prop :=
  t = { s with
        rows := t.rows, rowMap := t.rowMap, desc := t.desc, sentinel := t.sentinel, drawBank := t.drawBank
        paint := t.paint, sprites := t.sprites, spritesHidden := t.spritesHidden
        cur := t.cur, lat := t.lat, pos := t.pos, tick := t.tick, out := t.out
        vsIntPending := t.vsIntPending, engineRunning := t.engineRunning, faults := t.faults
        draws := t.draws, costLeft := t.costLeft }

theorem primOnly.eq {s t : State} (h : primOnly s t) :
    t = { s with
          rows := t.rows, rowMap := t.rowMap, desc := t.desc, sentinel := t.sentinel, drawBank := t.drawBank
          paint := t.paint, sprites := t.sprites, spritesHidden := t.spritesHidden
          cur := t.cur, lat := t.lat, pos := t.pos, tick := t.tick, out := t.out
          vsIntPending := t.vsIntPending, engineRunning := t.engineRunning, faults := t.faults
          draws := t.draws, costLeft := t.costLeft } := h

theorem primOnly.refl (s : State) : primOnly s s := rfl

theorem primOnly.trans {s t u : State} (h : primOnly s t) (k : primOnly t u) : primOnly s u := by
  unfold primOnly at *
  rw [k, h]

theorem drawingOnly.primOnly {s t : State} (h : drawingOnly s t) : primOnly s t := by
  unfold drawingOnly at h
  unfold Machine.primOnly
  rw [h]

theorem WritesOnly.primOnly {s t : State} (h : WritesOnly s t) : primOnly s t := by
  unfold WritesOnly at h
  unfold Machine.primOnly
  rw [h]

theorem gap_primOnly (s : State) : primOnly s (gap s) := (gap_only s).primOnly

theorem costTicks_primOnly (s : State) : primOnly s (costTicks s) := by
  have h := costTicks_engineOnly s
  unfold EngineOnly at h
  unfold primOnly
  rw [h]

theorem beginExec_primOnly (P : Record) (s : State) : primOnly s (beginExec P s) := rfl

theorem costTicks_ticksOnly (s : State) : ticksOnly s (costTicks s) := by
  have h := costTicks_engineOnly s
  unfold EngineOnly at h
  unfold ticksOnly
  rw [h]

theorem gap_ticksOnly (s : State) : ticksOnly s (gap s) := by
  have h := gap_engineOnly s
  unfold EngineOnly at h
  unfold ticksOnly
  rw [h]

theorem ticksOnly.drawingOnly {s t : State} (h : ticksOnly s t) : drawingOnly s t := by
  unfold ticksOnly at h
  unfold Machine.drawingOnly
  rw [h]

theorem draw_drawing (ws : State → List Write) (s : State) : primOnly s (draw ws s) := by
  unfold draw
  split
  · exact .refl s
  · exact (hideSprites_drawingOnly s).primOnly.trans (runWrites_only _ _).primOnly

theorem draw_moved (ws : State → List Write) (s : State) : engineMoved s (draw ws s) := by
  unfold draw
  split
  · exact .refl s
  · exact (hideSprites_moved s).trans (runWrites_moved _ _)

theorem vScrollBy_primOnly (dy : Int) (s : State) : primOnly s (vScrollBy dy s) := by
  unfold vScrollBy
  exact ((hideSprites_drawingOnly s).primOnly.trans (by rfl)).trans (runWrites_only _ _).primOnly

theorem vScrollBy_moved (dy : Int) (s : State) : engineMoved s (vScrollBy dy s) := by
  unfold vScrollBy
  refine (hideSprites_moved s).trans (engineMoved.trans ?_ (runWrites_moved _ _))
  exact engineMoved.refl (hideSprites s)

/-! ### Which instructions are primitives -/

theorem decodePrim_isPrimitive {P : Record} {i : Instr} (h : decodePrim P = .ok i) : isPrimitive i = true := by
  unfold decodePrim at h
  split at h <;> cases h <;> rfl

theorem decodeHostOp_not_isPrimitive {bs : List Byte} {i : Instr} (h : decodeHostOp bs = .ok i) :
    isPrimitive i = false := by
  unfold decodeHostOp at h
  split at h
  · cases h
  · split at h
    · split at h
      · rename_i j hj
        cases h
        unfold readHostOperands at hj
        split at hj <;>
          simp only [Option.map_eq_some_iff, Option.bind_eq_some_iff, Option.some.injEq, reduceCtorEq] at hj
        all_goals grind [isPrimitive, encodePrim]
      · cases h
    · cases h

/-! ### Primitives and records answer a next state -/

theorem ifNext {p : Prop} [Decidable p] {a b : Host.Outcome State Fault Refusal} {s : State}
    (ha : p → ∃ t, a = .next t ∧ primOnly s t) (hb : ¬p → ∃ t, b = .next t ∧ primOnly s t) :
    ∃ t, (if p then a else b) = .next t ∧ primOnly s t := by
  split
  · exact ha (by assumption)
  · exact hb (by assumption)

/-- Every primitive answers a next state and changes only what primitives can change. -/
theorem exec_primitive (i : Instr) (s : State) (h : isPrimitive i = true) :
    ∃ t, exec i s = .next t ∧ primOnly s t := by
  cases i with
  | setPenColor | setBrushColor | moveTo | setGlyphOptions | setPaintOptions | setScrollingRegion | setOrigin
    | setClippingRect => exact ⟨_, rfl, rfl⟩
  | setPixel | setPixelAt | fillRect | drawRect | fillEllipse | drawEllipse | invertRect | copyRect
    | swapFGBG => exact ⟨_, rfl, draw_drawing _ s⟩
  | lineTo p => exact ⟨_, rfl, (draw_drawing _ s).trans (by rfl)⟩
  | clear =>
    refine ⟨_, rfl, ?_⟩
    split
    · exact (draw_drawing _ s).trans (by rfl)
    · exact draw_drawing _ s
  | vScroll dy => exact ifNext (fun _ => ⟨_, rfl, .refl s⟩) fun _ => ⟨_, rfl, vScrollBy_primOnly dy s⟩
  | hScroll dx => exact ifNext (fun _ => ⟨_, rfl, .refl s⟩) fun _ => ⟨_, rfl, draw_drawing _ s⟩
  | drawGlyph | drawPath | fillPath =>
    exact ifNext (fun _ => ⟨_, rfl, draw_drawing _ s⟩) fun _ => ⟨_, rfl, rfl⟩
  | renderGlyphsBuffer =>
    exact ifNext (fun _ => ifNext (fun _ => ifNext (fun _ => ifNext (fun _ => ⟨_, rfl, draw_drawing _ s⟩)
      fun _ => ⟨_, rfl, rfl⟩) fun _ => ⟨_, rfl, rfl⟩) fun _ => ⟨_, rfl, .refl s⟩) fun _ => ⟨_, rfl, rfl⟩
  | drawBitmap =>
    exact ifNext (fun _ => ifNext (fun _ => ⟨_, rfl, draw_drawing _ s⟩) fun _ => ⟨_, rfl, rfl⟩)
      fun _ => ⟨_, rfl, rfl⟩
  | refreshSprites =>
    exact ⟨_, rfl, ((hideSprites_drawingOnly s).trans (showSprites_drawingOnly _)).primOnly⟩
  | swapBuffers =>
    exact ifNext (fun _ => ⟨_, rfl, ((showSprites_drawingOnly s).primOnly.trans (gap_primOnly _)).trans (by rfl)⟩)
      fun _ => ⟨_, rfl, .refl s⟩
  | _ => cases h

@[simp] theorem onNext_next (t : State) (f : State → Host.Outcome State Fault Refusal) :
    onNext (.next t) f = f t := rfl

@[simp] theorem mapNext_next (t : State) (f : State → State) : mapNext f (.next t) = .next (f t) := rfl

/-- Executing a record answers a next state and changes only what primitives can change. -/
theorem runRecord_next (P : Record) (s : State) : ∃ t, runRecord exec P s = .next t ∧ primOnly s t := by
  unfold runRecord
  split
  · rename_i i h
    obtain ⟨t, ht, hp⟩ := exec_primitive i (beginExec P s) (decodePrim_isPrimitive h)
    rw [ht]
    exact ⟨_, rfl, ((beginExec_primOnly P s).trans hp).trans (costTicks_primOnly t)⟩
  · exact ⟨_, rfl, primOnly.trans (by rfl) (costTicks_primOnly _)⟩

/-- The record of an immediate AddPrimitive answers a next state, its drain over. -/
theorem immediateStep_next (P : Record) (s : State) :
    ∃ t, immediateStep exec P s = .next (endImmediate t)
      ∧ primOnly (enterDrain .immediate { s with immediate := none }) t := by
  obtain ⟨t, ht, hp⟩ := runRecord_next P (enterDrain .immediate { s with immediate := none })
  exact ⟨t, by rw [immediateStep, ht]; rfl, hp⟩

/-! ### The queue's room -/

theorem atMost_iff {α : Type} (l : List α) (n : Nat) : atMost l n = true ↔ l.length ≤ n := by
  induction l generalizing n with
  | nil => simp [atMost]
  | cons a l ih => cases n <;> simp [atMost, ih]

theorem queueHasRoom_iff (s : State) : queueHasRoom s = true ↔ s.queue.length < s.params.queueSpare + 1 := by
  rw [queueHasRoom, atMost_iff]; omega

/-! ### Steps, by agent -/

theorem step_of_engineTurn {s : State} (h : engineTurn s = true) : step s = .next (engineStep s) := by
  simp [step, h]

theorem step_of_drain {s : State} (h : engineTurn s = false) (hx : s.inExecutor = true) :
    step s = mapNext reschedule (drainStep exec s) := by
  simp [step, h, agentStep, hx]

theorem step_of_entry {s : State} (h : engineTurn s = false) (hi : isrEnterable s = true) :
    step s = .next (reschedule (isrEntry s)) := by
  have hx : s.inExecutor = false := by simpa using (by simpa [isrEnterable] using hi : _ ∧ _).2
  simp [step, h, agentStep, hx, hi]

theorem step_of_producer {s : State} (h : engineTurn s = false) (hx : s.inExecutor = false)
    (hi : isrEnterable s = false) : step s = mapNext reschedule (producerStep exec s) := by
  simp [step, h, agentStep, hx, hi]

/-- Where a changed outcome is a next state, so is the outcome. -/
theorem mapNext_eq {f : State → State} {o : Host.Outcome State Fault Refusal} {t : State} (h : mapNext f o = .next t) : ∃ u, o = .next u ∧ t = f u := by
  cases o <;> cases h; exact ⟨_, rfl, rfl⟩

/-- What a step of the Producer can do: execute the record of an immediate AddPrimitive, run a waiting
AddPrimitive where there is room, wait or stand idle while the Engine ticks, run its next host operation, or
refuse what is none. -/
theorem producer_cases {s u : State} (h : producerStep exec s = .next u) :
    (∃ P, s.immediate = some P ∧ immediateStep exec P s = .next u)
    ∨ (s.immediate = none ∧ ∃ P, s.blocked = some P ∧ queueHasRoom s = true
        ∧ exec (.addPrimitive P) { s with blocked := none } = .next u)
    ∨ (s.immediate = none ∧ s.blocked.isSome = true ∧ queueHasRoom s = false ∧ u = engineTick s)
    ∨ (s.immediate = none ∧ s.blocked = none ∧ s.program = [] ∧ u = engineTick s)
    ∨ (s.immediate = none ∧ s.blocked = none ∧ ∃ op rest, s.program = op :: rest
        ∧ ((∃ i, decodeHostOp op = .ok i ∧ exec i { s with program := rest } = .next u)
          ∨ u = refuse { s with program := rest })) := by
  unfold producerStep at h
  split at h
  · rename_i P hP
    exact .inl ⟨P, hP, h⟩
  · rename_i hm
    split at h
    · rename_i P hP
      split at h
      · exact .inr (.inl ⟨hm, P, hP, by assumption, h⟩)
      · cases h
        exact .inr (.inr (.inl ⟨hm, by rw [hP]; rfl, by simp_all, rfl⟩))
    · rename_i hb
      split at h
      · rename_i hp
        cases h
        exact .inr (.inr (.inr (.inl ⟨hm, hb, hp, rfl⟩)))
      · rename_i op rest hp
        split at h
        · rename_i i hi
          exact .inr (.inr (.inr (.inr ⟨hm, hb, op, rest, hp, .inl ⟨i, hi, h⟩⟩)))
        · cases h
          exact .inr (.inr (.inr (.inr ⟨hm, hb, op, rest, hp, .inr rfl⟩)))

/-- What one turn of the drain loop can do: end the drain, or run the record at the head (R204, R206, R210). -/
theorem drainStep_cases {s u : State} (h : drainStep exec s = .next u) :
  ((s.queue = [] ∨ ∃ P ps, s.queue = P :: ps ∧ mustRequeue s P = true) ∧ u = endDrain s)
  ∨ (∃ P ps v, s.queue = P :: ps ∧ mustRequeue s P = false ∧ runRecord exec P { s with queue := ps } = .next v ∧ u = afterPrimitive v) := by
  unfold drainStep at h
  split at h
  · rename_i hq; cases h; exact .inl ⟨.inl hq, rfl⟩
  · rename_i P ps hq
    split at h
    · rename_i hm; cases h; exact .inl ⟨.inr ⟨P, ps, hq, hm⟩, rfl⟩
    · rename_i hm
      obtain ⟨v, hv, rfl⟩ := mapNext_eq h
      exact .inr ⟨P, ps, v, hq, by simpa using hm, hv, rfl⟩

/-- What one step can do: an Engine tick, one turn of a drain, the entry into the interrupt, or a step of the
Producer (R20, R69, R209). -/
theorem step_cases {s t : State} (h : step s = .next t) :
   (engineTurn s = true ∧ t = engineStep s)
   ∨ (engineTurn s = false ∧ s.inExecutor = true ∧ ∃ u, drainStep exec s = .next u ∧ t = reschedule u)
   ∨ (engineTurn s = false ∧ s.inExecutor = false ∧ isrEnterable s = true ∧ t = reschedule (isrEntry s))
   ∨ (engineTurn s = false ∧ s.inExecutor = false ∧ isrEnterable s = false ∧ ∃ u, producerStep exec s = .next u ∧ t = reschedule u) := by
  cases he : engineTurn s
  · cases hx : s.inExecutor
    · cases hi : isrEnterable s
      · rw [step_of_producer he hx hi] at h
        obtain ⟨u, hu, rfl⟩ := mapNext_eq h
        exact .inr (.inr (.inr ⟨rfl, rfl, rfl, u, hu, rfl⟩))
      · rw [step_of_entry he hi] at h; cases h
        exact .inr (.inr (.inl ⟨rfl, rfl, rfl, rfl⟩))
    · rw [step_of_drain he hx] at h
      obtain ⟨u, hu, rfl⟩ := mapNext_eq h
      exact .inr (.inl ⟨rfl, rfl, u, hu, rfl⟩)
  · rw [step_of_engineTurn he] at h; cases h
    exact .inl ⟨rfl, rfl⟩

/-! ### Many steps -/

/-- Steps one after the other. -/
theorem stepMany_add {m n : Nat} {s t : State} (h : stepMany m s = .next t) :
    stepMany (m + n) s = stepMany n t := by
  induction m generalizing s with
  | zero => cases h; rw [Nat.zero_add]
  | succ m ih =>
    rw [Nat.succ_add, stepMany]
    rw [stepMany] at h
    cases hs : step s <;> rw [hs] at h <;> first | cases h | exact ih h

/-- The Engine ticks that are due run out, and change only what ticks change. -/
theorem stepMany_catchUp (s : State) :
    ∃ n t, stepMany n s = .next t ∧ engineTurn t = false ∧ EngineOnly { s with ticksDue := t.ticksDue } t := by
  generalize hk : s.ticksDue = k
  induction k generalizing s with
  | zero => exact ⟨0, s, rfl, by simp [engineTurn, hk], rfl⟩
  | succ k ih =>
    by_cases he : engineTurn s = true
    · obtain ⟨n, t, h1, h2, h3⟩ := ih (engineStep s) (by simp [engineStep, hk])
      refine ⟨n + 1, t, ?_, h2, ?_⟩
      · unfold stepMany
        rw [step_of_engineTurn he]
        exact h1
      · have h := engineTick_engineOnly s
        unfold EngineOnly engineStep at *
        rw [h3, h]
    · exact ⟨0, s, rfl, by simpa using he, rfl⟩

end Sys2Proof.Machine
end

