-- ==== Sys2Proof/Laws/Memory.lean ====
section
/-! SUPPORT. The laws of host memory and of the set of allocated ranges: read after write, the canonical
forms kept by every operation, and which addresses insertion and removal change. -/

namespace Sys2Proof.Machine

/-! ### Host memory -/

/-- A read after a write of one byte. -/
theorem Memory.read_write (m : Memory) (a b : Nat) (v : Byte) :
    Memory.read (Memory.write m a v) b = if b = a then some v else Memory.read m b := by
  induction m with
  | nil => simp only [Memory.write, Memory.read]; simp only [eq_comm]
  | cons c m ih =>
    simp only [Memory.write]
    split
    · simp only [Memory.read]; simp only [eq_comm]
    · split
      · rename_i h
        simp only [Memory.read, h]
        by_cases hb : b = a
        · simp [hb]
        · simp [hb, Ne.symm hb]
      · rename_i h
        simp only [Memory.read, ih]
        by_cases hb : b = a
        · subst hb; simp [h]
        · simp [hb]

/-- A read after a write of several bytes from `a` on. -/
theorem Memory.read_writeBytes (vs : List Byte) (m : Memory) (a b : Nat) :
    Memory.read (Memory.writeBytes m a vs) b =
      if a ≤ b ∧ b < a + vs.length then vs[b - a]? else Memory.read m b := by
  induction vs generalizing m a with
  | nil => simp [Memory.writeBytes]
  | cons v vs ih =>
    simp only [Memory.writeBytes, ih, Memory.read_write, List.length_cons]
    by_cases h : a + 1 ≤ b ∧ b < a + 1 + vs.length
    · have : b - a = (b - (a + 1)) + 1 := by omega
      rw [if_pos h, if_pos (by omega), this, List.getElem?_cons_succ]
    · rw [if_neg h]
      by_cases hb : b = a
      · subst hb; simp
      · rw [if_neg hb, if_neg (by omega)]

/-- Every address of a canonical memory's tail is above its head's. -/
theorem Memory.wf_cons (c : Host.Cell) (m : Memory) :
    Memory.wf (c :: m) = true ↔ (∀ d ∈ m, c.1 < d.1) ∧ Memory.wf m = true := by
  induction m generalizing c with
  | nil => simp [Memory.wf]
  | cons d m ih =>
    simp only [Memory.wf, Bool.and_eq_true, decide_eq_true_eq, List.mem_cons, forall_eq_or_imp]
    constructor
    · rintro ⟨h, k⟩
      exact ⟨⟨h, fun e he => h.trans ((ih d).1 k |>.1 e he)⟩, k⟩
    · rintro ⟨⟨h, _⟩, k⟩
      exact ⟨h, k⟩

theorem Memory.mem_write {m : Memory} {a : Nat} {v : Byte} {d : Host.Cell}
    (h : d ∈ Memory.write m a v) : d = (a, v) ∨ d ∈ m := by
  induction m with
  | nil => simpa [Memory.write] using h
  | cons c m ih =>
    simp only [Memory.write] at h
    split at h
    · simpa using h
    · split at h
      · rcases List.mem_cons.1 h with h | h
        · exact .inl h
        · exact .inr (List.mem_cons_of_mem _ h)
      · rcases List.mem_cons.1 h with h | h
        · exact .inr (h ▸ List.mem_cons_self)
        · exact (ih h).imp_right (List.mem_cons_of_mem _)

/-- A write keeps the canonical form. -/
theorem Memory.write_wf (m : Memory) (a : Nat) (v : Byte) (h : Memory.wf m = true) :
    Memory.wf (Memory.write m a v) = true := by
  induction m with
  | nil => rfl
  | cons c m ih =>
    obtain ⟨hc, hm⟩ := (Memory.wf_cons c m).1 h
    simp only [Memory.write]
    split
    · rename_i hlt
      refine (Memory.wf_cons _ _).2 ⟨fun d hd => ?_, h⟩
      rcases List.mem_cons.1 hd with rfl | hd
      · exact hlt
      · exact hlt.trans (hc d hd)
    · split
      · rename_i heq
        exact (Memory.wf_cons _ _).2 ⟨fun d hd => heq ▸ hc d hd, hm⟩
      · rename_i hlt hne
        refine (Memory.wf_cons _ _).2 ⟨fun d hd => ?_, ih hm⟩
        rcases Memory.mem_write hd with rfl | hd
        · exact lt_of_le_of_ne (not_lt.1 hlt) hne
        · exact hc d hd

theorem Memory.writeBytes_wf (vs : List Byte) (m : Memory) (a : Nat) (h : Memory.wf m = true) :
    Memory.wf (Memory.writeBytes m a vs) = true := by
  induction vs generalizing m a with
  | nil => exact h
  | cons v vs ih => exact ih _ _ (Memory.write_wf m a v h)

theorem reset_memory_wf : Memory.wf State.reset.hostmem = true := rfl

/-! ### Allocated ranges -/

/-- Which addresses insertion adds. -/
theorem Ranges.contains_insert (rs : Ranges) (lo hi a : Nat) (h : lo < hi) :
    Ranges.contains (Ranges.insert rs lo hi) a =
      ((decide (lo ≤ a) && decide (a < hi)) || Ranges.contains rs a) := by
  induction rs generalizing lo hi with
  | nil => simp [Ranges.insert, Ranges.contains]
  | cons r rs ih =>
    simp only [Ranges.insert]
    split
    · simp only [Ranges.contains, ih lo hi h]
      ac_rfl
    · split
      · simp only [Ranges.contains]
      · rename_i h1 h2
        rw [ih _ _ (by omega)]
        simp only [Ranges.contains]
        by_cases hr : r.1 ≤ a ∧ a < r.2
        · have : min r.1 lo ≤ a ∧ a < max r.2 hi := by omega
          simp [hr, this]
        · by_cases hl : lo ≤ a ∧ a < hi
          · have : min r.1 lo ≤ a ∧ a < max r.2 hi := by omega
            simp [hl, this]
          · have e1 : (decide (r.1 ≤ a) && decide (a < r.2)) = false := by simpa using hr
            have e2 : (decide (lo ≤ a) && decide (a < hi)) = false := by simpa using hl
            rw [e1, e2]
            by_cases hm : min r.1 lo ≤ a ∧ a < max r.2 hi
            · exfalso; omega
            · have e3 : (decide (min r.1 lo ≤ a) && decide (a < max r.2 hi)) = false := by simpa using hm
              rw [e3]; simp

/-- Which addresses removal takes away. -/
theorem Ranges.contains_remove (rs : Ranges) (lo hi a : Nat) :
    Ranges.contains (Ranges.remove rs lo hi) a =
      (Ranges.contains rs a && !(decide (lo ≤ a) && decide (a < hi))) := by
  have app : ∀ xs ys : Ranges, Ranges.contains (xs ++ ys) a = (Ranges.contains xs a || Ranges.contains ys a) := by
    intro xs ys
    induction xs with
    | nil => simp [Ranges.contains]
    | cons x xs ih => simp only [List.cons_append, Ranges.contains, ih, Bool.or_assoc]
  have piece : ∀ (p : Prop) [Decidable p] (x y : Nat), (p ↔ x < y) →
      Ranges.contains (if p then [(x, y)] else []) a = (decide (x ≤ a) && decide (a < y)) := by
    intro p _ x y hp
    split
    · simp [Ranges.contains]
    · rename_i hn
      have : ¬(x ≤ a ∧ a < y) := by rw [hp] at hn; omega
      simpa [Ranges.contains] using this
  induction rs with
  | nil => simp [Ranges.remove, Ranges.contains]
  | cons r rs ih =>
    simp only [Ranges.remove, app, ih, Ranges.contains]
    rw [piece _ _ _ Iff.rfl, piece _ _ _ Iff.rfl]
    by_cases hl : lo ≤ a ∧ a < hi
    · have e : (decide (lo ≤ a) && decide (a < hi)) = true := by simpa using hl
      have h1 : ¬ a < min r.2 lo := by omega
      have h2 : ¬ max r.1 hi ≤ a := by omega
      simp [e, h1, h2]
    · have e : (decide (lo ≤ a) && decide (a < hi)) = false := by simpa using hl
      rw [e]
      by_cases hr : r.1 ≤ a ∧ a < r.2
      · have : (r.1 ≤ a ∧ a < min r.2 lo) ∨ (max r.1 hi ≤ a ∧ a < r.2) := by omega
        rcases this with ⟨x, y⟩ | ⟨x, y⟩ <;> simp [hr, x, y]
      · have h1 : (decide (r.1 ≤ a) && decide (a < min r.2 lo)) = false := by
          have : ¬(r.1 ≤ a ∧ a < min r.2 lo) := by omega
          simpa using this
        have h2 : (decide (max r.1 hi ≤ a) && decide (a < r.2)) = false := by
          have : ¬(max r.1 hi ≤ a ∧ a < r.2) := by omega
          simpa using this
        have h3 : (decide (r.1 ≤ a) && decide (a < r.2)) = false := by simpa using hr
        rw [h1, h2, h3]; simp

/-- The canonical form, range by range: not empty, and every later range starts above its end. -/
theorem Ranges.wf_cons (r : Nat × Nat) (rs : Ranges) :
    Ranges.wf (r :: rs) = true ↔ r.1 < r.2 ∧ (∀ q ∈ rs, r.2 < q.1) ∧ Ranges.wf rs = true := by
  induction rs generalizing r with
  | nil => simp [Ranges.wf]
  | cons q rs ih =>
    simp only [Ranges.wf, Bool.and_eq_true, decide_eq_true_eq, List.mem_cons, forall_eq_or_imp]
    constructor
    · rintro ⟨⟨h, k⟩, w⟩
      obtain ⟨h1, h2, _⟩ := (ih q).1 w
      exact ⟨h, ⟨k, fun p hp => by have := h2 p hp; omega⟩, w⟩
    · rintro ⟨h, ⟨k, _⟩, w⟩
      exact ⟨⟨h, k⟩, w⟩

/-- A lower bound of the starts of the ranges and of `lo` bounds the starts after an insertion. -/
theorem Ranges.mem_insert_above {rs : Ranges} {lo hi n : Nat} {q : Nat × Nat}
    (hl : n < lo) (hr : ∀ p ∈ rs, n < p.1) (h : q ∈ Ranges.insert rs lo hi) : n < q.1 := by
  induction rs generalizing lo hi with
  | nil => rcases List.mem_singleton.1 h with rfl; exact hl
  | cons r rs ih =>
    simp only [Ranges.insert] at h
    split at h
    · rcases List.mem_cons.1 h with rfl | h
      · exact hr _ List.mem_cons_self
      · exact ih hl (fun p hp => hr p (List.mem_cons_of_mem _ hp)) h
    · split at h
      · rcases List.mem_cons.1 h with rfl | h
        · exact hl
        · exact hr q h
      · have := hr r List.mem_cons_self
        exact ih (by omega) (fun p hp => hr p (List.mem_cons_of_mem _ hp)) h

/-- Insertion keeps the canonical form. -/
theorem Ranges.insert_wf (rs : Ranges) (lo hi : Nat) (h : lo < hi) (w : Ranges.wf rs = true) :
    Ranges.wf (Ranges.insert rs lo hi) = true := by
  induction rs generalizing lo hi with
  | nil => simpa [Ranges.insert, Ranges.wf] using h
  | cons r rs ih =>
    obtain ⟨h1, h2, h3⟩ := (Ranges.wf_cons r rs).1 w
    simp only [Ranges.insert]
    split
    · rename_i hlt
      exact (Ranges.wf_cons _ _).2 ⟨h1, fun q hq => Ranges.mem_insert_above hlt h2 hq, ih lo hi h h3⟩
    · split
      · rename_i _ hlt
        refine (Ranges.wf_cons _ _).2 ⟨h, fun q hq => ?_, w⟩
        rcases List.mem_cons.1 hq with rfl | hq
        · exact hlt
        · have := h2 q hq; omega
      · exact ih _ _ (by omega) h3

theorem Ranges.mem_remove {rs : Ranges} {lo hi : Nat} {q : Nat × Nat} (h : q ∈ Ranges.remove rs lo hi) :
    ∃ r ∈ rs, r.1 ≤ q.1 ∧ q.2 ≤ r.2 := by
  induction rs with
  | nil => cases h
  | cons r rs ih =>
    simp only [Ranges.remove, List.mem_append] at h
    rcases h with h | h | h
    · split at h
      · rcases List.mem_singleton.1 h with rfl
        exact ⟨r, List.mem_cons_self, by simp⟩
      · cases h
    · split at h
      · rcases List.mem_singleton.1 h with rfl
        exact ⟨r, List.mem_cons_self, by simp⟩
      · cases h
    · obtain ⟨p, hp, hq⟩ := ih h
      exact ⟨p, List.mem_cons_of_mem _ hp, hq⟩

/-- Removal keeps the canonical form. -/
theorem Ranges.remove_wf (rs : Ranges) (lo hi : Nat) (h : lo < hi) (w : Ranges.wf rs = true) :
    Ranges.wf (Ranges.remove rs lo hi) = true := by
  induction rs with
  | nil => rfl
  | cons r rs ih =>
    obtain ⟨h1, h2, h3⟩ := (Ranges.wf_cons r rs).1 w
    have above : ∀ q ∈ Ranges.remove rs lo hi, r.2 < q.1 := by
      intro q hq
      obtain ⟨p, hp, hq⟩ := Ranges.mem_remove hq
      have := h2 p hp; omega
    have tail := ih h3
    simp only [Ranges.remove]
    by_cases ha : r.1 < min r.2 lo <;> by_cases hb : max r.1 hi < r.2
    · rw [if_pos ha, if_pos hb]
      refine (Ranges.wf_cons _ _).2 ⟨ha, ?_, (Ranges.wf_cons _ _).2 ⟨hb, above, tail⟩⟩
      intro q hq
      rcases List.mem_cons.1 hq with rfl | hq
      · show min r.2 lo < max r.1 hi; omega
      · have := above q hq; show min r.2 lo < q.1; omega
    · rw [if_pos ha, if_neg hb]
      refine (Ranges.wf_cons _ _).2 ⟨ha, fun q hq => ?_, tail⟩
      have := above q hq; show min r.2 lo < q.1; omega
    · rw [if_neg ha, if_pos hb]
      exact (Ranges.wf_cons _ _).2 ⟨hb, above, tail⟩
    · rw [if_neg ha, if_neg hb]; exact tail

end Sys2Proof.Machine
end

