-- ==== Sys2Proof/Laws/Paint.lean ====
section
/-! SUPPORT. Membership in the pixel sets of R255 and R302, what depends on which fields of the state, and
the law of painting a set of points (R178, R250). -/

namespace Sys2Proof.Machine

/-! ### Sets of pixels -/

theorem mem_intRange {lo hi v : Int} : v ∈ intRange lo hi ↔ lo ≤ v ∧ v ≤ hi := by
  simp only [intRange, List.mem_map, List.mem_range]
  constructor
  · rintro ⟨k, hk, rfl⟩; omega
  · rintro ⟨h1, h2⟩; exact ⟨(v - lo).toNat, by omega, by omega⟩

theorem mem_cornerPixels {r : Rect} {x y : Int} :
    (⟨x, y⟩ : Point) ∈ cornerPixels r ↔ r.x1 ≤ x ∧ x ≤ r.x2 ∧ r.y1 ≤ y ∧ y ≤ r.y2 := by
  simp only [cornerPixels, List.mem_flatMap, List.mem_map, mem_intRange, Point.mk.injEq]
  constructor
  · rintro ⟨b, ⟨h1, h2⟩, a, ⟨h3, h4⟩, rfl, rfl⟩; exact ⟨h3, h4, h1, h2⟩
  · rintro ⟨h1, h2, h3, h4⟩; exact ⟨y, ⟨h3, h4⟩, x, ⟨h1, h2⟩, rfl, rfl⟩

theorem mem_rectPixels {r : Rect} {x y : Int} : (⟨x, y⟩ : Point) ∈ rectPixels r ↔ inRect r x y = true := by
  simp only [rectPixels, mem_cornerPixels, normRect, inRect, Bool.and_eq_true, decide_eq_true_eq]
  tauto

theorem mem_rectOffsets {w h : Nat} {o : Nat × Nat} : o ∈ rectOffsets w h ↔ o.1 < w ∧ o.2 < h := by
  obtain ⟨k, j⟩ := o
  simp only [rectOffsets, List.mem_flatMap, List.mem_map, List.mem_range, Prod.mk.injEq]
  constructor
  · rintro ⟨a, ha, b, hb, rfl, rfl⟩; exact ⟨hb, ha⟩
  · rintro ⟨h1, h2⟩; exact ⟨j, h2, k, h1, rfl, rfl⟩

/-! ### What depends on which fields -/

@[simp] theorem inClip_hideSprites (s : State) (ax ay : Int) : inClip (hideSprites s) ax ay = inClip s ax ay := by
  simp [inClip]

@[simp] theorem fg_hideSprites (s : State) : fg (hideSprites s) = fg s := by simp [fg]
@[simp] theorem bg_hideSprites (s : State) : bg (hideSprites s) = bg s := by simp [bg]
@[simp] theorem absPoint_hideSprites (s : State) (p : Point) : absPoint (hideSprites s) p = absPoint s p := by
  simp [absPoint]
@[simp] theorem vpByte_hideSprites (s : State) (c : Colour) : vpByte (hideSprites s) c = vpByte s c := by
  simp [vpByte]
@[simp] theorem memByte_hideSprites (s : State) (a : Nat) : memByte (hideSprites s) a = memByte s a := by
  simp [memByte]
@[simp] theorem memU16_hideSprites (s : State) (a : Nat) : memU16 (hideSprites s) a = memU16 s a := by
  simp [memU16]
@[simp] theorem memU32_hideSprites (s : State) (a : Nat) : memU32 (hideSprites s) a = memU32 s a := by
  simp [memU32]
@[simp] theorem rangeLive_hideSprites (s : State) (a n : Nat) :
    rangeLive (hideSprites s) a n = rangeLive s a n := by simp [rangeLive]
@[simp] theorem pathPoint_hideSprites (s : State) (a k : Nat) :
    pathPoint (hideSprites s) a k = pathPoint s a k := by simp [pathPoint]
@[simp] theorem pathPoints_hideSprites (s : State) (a n : Nat) :
    pathPoints (hideSprites s) a n = pathPoints s a n :=
  List.map_congr_left fun k _ => pathPoint_hideSprites s a k
@[simp] theorem glyphBit_hideSprites (s : State) (d gw gh : Nat) (i j : Int) :
    glyphBit (hideSprites s) d gw gh i j = glyphBit s d gw gh i j := by simp [glyphBit]
@[simp] theorem glyphOn_hideSprites (s : State) (d gw gh : Nat) (o : GlyphOpts) (i j : Int) :
    glyphOn (hideSprites s) d gw gh o i j = glyphOn s d gw gh o i j := by simp [glyphOn]
@[simp] theorem cellColour_hideSprites (s : State) (d gw gh : Nat) (o : GlyphOpts) (f k : Colour) (u j : Nat) :
    cellColour (hideSprites s) d gw gh o f k u j = cellColour s d gw gh o f k u j := by simp [cellColour]

theorem inClip_inVP {s : State} {ax ay : Int} (h : inClip s ax ay = true) : inVP s ax ay = true := by
  simp only [inClip, Bool.and_eq_true] at h
  exact h.1.1.1.1

/-- Every viewport pixel has a colour. -/
theorem viewportOK.getPix {s : State} (h : viewportOK s) {ax ay : Int} (hin : inVP s ax ay = true) :
    ∃ c, getPix s ax ay = some c := by
  obtain ⟨p, off, ha, -, -, he⟩ := h.physAddr hin
  obtain ⟨v, hv⟩ := Option.isSome_iff_exists.1 he
  exact ⟨_, by rw [Machine.getPix, rawPixel_of_physAddr ha, hv]; rfl⟩

theorem getPix_inVP {s : State} {ax ay : Int} {c : Colour} (h : getPix s ax ay = some c) :
    inVP s ax ay = true := by
  unfold getPix rawPixel at h
  split at h
  · exact physAddr_inVP (by assumption)
  · cases h

/-! ### PaintPix -/

/-- What PaintPix writes: the one write of the painted byte, where the point is visible. -/
theorem paintPix_eq (h : State) (p : Point) (c : Colour) :
    paintPix h p c =
      if inClip h (p.x + h.paint.origin.x) (p.y + h.paint.origin.y) = true then
        match paintedByte h (p.x + h.paint.origin.x) (p.y + h.paint.origin.y) c with
        | some v => rawWrite h (p.x + h.paint.origin.x) (p.y + h.paint.origin.y) v
        | none => []
      else [] := by
  unfold paintPix paintedByte absPoint
  dsimp only
  split
  · split
    · unfold invertPix putPix
      cases getPix h (p.x + h.paint.origin.x) (p.y + h.paint.origin.y) <;> rfl
    · rfl
  · rfl

/-- The law of painting points in their own colours: `new` gives each visible point's byte. -/
theorem draw_points_redraws (pts : State → List (Point × Colour)) (new : State → Int → Int → Option Byte)
    {s : State} (hv : viewportOK s)
    (hnew : ∀ ax ay v, inVP s ax ay = true →
      (new (hideSprites s) ax ay = some v ↔
        inClip s ax ay = true ∧
        ∃ c, (⟨ax - s.paint.origin.x, ay - s.paint.origin.y⟩, c) ∈ pts (hideSprites s)
          ∧ paintedByte (hideSprites s) ax ay c = some v)) :
    redraws s (draw (fun h => (pts h).flatMap fun q => paintPix h q.1 q.2) s) s.paint new := by
  refine draw_redraws _ new hv (fun w hw => ?_) (fun ax ay v hin hn w hw => ?_)
  · obtain ⟨⟨⟨x, y⟩, c⟩, hm, hw⟩ := List.mem_flatMap.1 hw
    rw [paintPix_eq] at hw
    dsimp only at hw
    split at hw
    · rename_i hc
      split at hw
      · rename_i v hb
        rw [inClip_hideSprites] at hc
        refine ⟨_, _, v, ?_, hw⟩
        rw [hnew _ _ _ (inClip_inVP hc)]
        refine ⟨hc, c, ?_, hb⟩
        simpa using hm
      · cases hw
    · cases hw
  · obtain ⟨hc, c, hm, hb⟩ := (hnew ax ay v hin).1 hn
    refine List.mem_flatMap.2 ⟨_, hm, ?_⟩
    rw [paintPix_eq]
    have ex : ax - s.paint.origin.x + (hideSprites s).paint.origin.x = ax := by simp
    have ey : ay - s.paint.origin.y + (hideSprites s).paint.origin.y = ay := by simp
    rw [ex, ey, if_pos (by simpa using hc), hb]
    exact hw

/-- The law of painting a set of points with one colour. -/
theorem draw_paintAll_redraws (ps : State → List Point) (c : State → Colour)
    (inSet : State → Int → Int → Bool) {s : State} (hv : viewportOK s)
    (hmem : ∀ x y, (⟨x, y⟩ : Point) ∈ ps (hideSprites s) ↔ inSet (hideSprites s) x y = true) :
    redraws s (draw (fun h => paintAll h (ps h) (c h)) s) s.paint
      (fun h => paintedSet h (inSet h) (c h)) := by
  have := draw_points_redraws (fun h => (ps h).map fun p => (p, c h))
    (fun h => paintedSet h (inSet h) (c h)) hv ?_
  · simpa [paintAll, List.flatMap_map] using this
  · intro ax ay v hin
    simp only [paintedSet, List.mem_map, Prod.mk.injEq, inClip_hideSprites, hideSprites_paint]
    constructor
    · intro h
      split at h
      · rename_i hc
        rw [Bool.and_eq_true] at hc
        exact ⟨hc.1, _, ⟨_, (hmem _ _).2 hc.2, rfl, rfl⟩, h⟩
      · cases h
    · rintro ⟨hc, _, ⟨p, hp, rfl, rfl⟩, h⟩
      rw [if_pos (by rw [Bool.and_eq_true]; exact ⟨hc, (hmem _ _).1 hp⟩)]
      exact h

/-- Painting one point is painting the set that holds it alone. -/
theorem paintAll_singleton (h : State) (p : Point) (c : Colour) : paintAll h [p] c = paintPix h p c := by
  simp [paintAll]

/-- A later change of the paint state. -/
theorem redraws.setPaint {s t : State} {pt : Paint} {new : State → Int → Int → Option Byte}
    (h : redraws s t pt new) (pt' : Paint) : redraws s { t with paint := pt' } pt' new := by
  refine ⟨fun hn => by rw [h.1 hn], fun hs => ?_⟩
  obtain ⟨h1, h2, h3, h4, h5, h6⟩ := h.2 hs
  refine ⟨h1, h2, h3, h4, h5, ?_⟩
  unfold drawingOnly at *
  rw [h6]

end Sys2Proof.Machine
end

