-- ==== Sys2Proof/Laws/PerInstr.lean ====
section
/-! SUPPORT. A family over all instructions: every encoding starts with the instruction's code, the tag of
R85 or the code of R95. -/

namespace Sys2Proof.Laws

/-- The tag (R85) or host operation code (R95) of an instruction. -/
def codeOf : Instr → Byte
  | .setPenColor _ => 0x00
  | .setBrushColor _ => 0x01
  | .setPixel _ => 0x02
  | .setPixelAt _ _ => 0x03
  | .moveTo _ => 0x04
  | .lineTo _ => 0x05
  | .fillRect _ => 0x06
  | .drawRect _ => 0x07
  | .fillEllipse _ _ => 0x08
  | .drawEllipse _ _ => 0x09
  | .clear => 0x0A
  | .vScroll _ => 0x0B
  | .hScroll _ => 0x0C
  | .drawGlyph _ _ _ _ => 0x0D
  | .renderGlyphsBuffer _ _ _ => 0x0E
  | .setGlyphOptions _ => 0x0F
  | .setPaintOptions _ _ => 0x10
  | .invertRect _ => 0x11
  | .copyRect _ _ => 0x12
  | .setScrollingRegion _ => 0x13
  | .swapFGBG _ => 0x14
  | .drawBitmap _ _ => 0x15
  | .refreshSprites => 0x16
  | .swapBuffers => 0x17
  | .drawPath _ _ => 0x18
  | .fillPath _ _ => 0x19
  | .setOrigin _ => 0x1A
  | .setClippingRect _ => 0x1B
  | .decodeModeline _ => 0x80
  | .setResolution _ _ _ _ => 0x81
  | .addPrimitive _ => 0x82
  | .suspend => 0x83
  | .resume => 0x84
  | .processPrimitives => 0x85
  | .enableBackgroundExecution _ => 0x86
  | .moveScreen _ _ => 0x87
  | .shrinkScreen _ _ => 0x88
  | .readPixel _ _ => 0x89
  | .setSprites _ => 0x8A
  | .spriteWrite _ _ => 0x8B
  | .spriteAddFrame _ _ => 0x8C
  | .hostAlloc _ _ => 0x8D
  | .hostFree _ _ => 0x8E
  | .hostWrite _ _ => 0x8F

/-- The encoding of `i` starts with its code. -/
def EncodedCode.Statement (i : Instr) : Prop := ∃ rest, encode i = codeOf i :: rest

theorem recordBytes_cons (P : Record) : ∃ rest, recordBytes P = recByte P 0 :: rest := ⟨_, rfl⟩

/-- A primitive's encoding starts with byte 0 of its record. -/
theorem encodedCode_of_prim {i : Instr} {P : Record} (h : encodePrim i = some P) (hc : recByte P 0 = codeOf i) :
    EncodedCode.Statement i := by
  unfold EncodedCode.Statement encode
  rw [h, ← hc]
  exact recordBytes_cons P

@[simp] theorem recByte_or (X Y : Record) (k : Nat) : recByte (X ||| Y) k = recByte X k ||| recByte Y k :=
  BitVec.extractLsb'_or

@[simp] theorem recByte_place_tag (t : Byte) : recByte (place 0 t) 0 = t := place_same 0 t (by omega)

@[simp] theorem recByte_place_zero {w : Nat} (k : Nat) (v : BitVec w) : recByte (place (k + 1) v) 0 = 0 :=
  place_below (k + 1) _ _ v (by omega)

@[simp] theorem recByte_placeS16_zero (k : Nat) (v : Int) : recByte (placeS16 (k + 1) v) 0 = 0 :=
  recByte_place_zero k _

@[simp] theorem recByte_placePoint_zero (k : Nat) (p : Point) : recByte (placePoint (k + 1) p) 0 = 0 := by
  simp [placePoint]

@[simp] theorem recByte_placeRect_zero (k : Nat) (r : Rect) : recByte (placeRect (k + 1) r) 0 = 0 := by
  simp [placeRect]

theorem EncodedCode.setPenColor : ∀ c, EncodedCode.Statement (.setPenColor c) := by
  intro c
  refine encodedCode_of_prim rfl ?_
  simp [codeOf]

theorem EncodedCode.setBrushColor : ∀ c, EncodedCode.Statement (.setBrushColor c) := by
  intro c
  refine encodedCode_of_prim rfl ?_
  simp [codeOf]

theorem EncodedCode.setPixel : ∀ p, EncodedCode.Statement (.setPixel p) := by
  intro p
  refine encodedCode_of_prim rfl ?_
  simp [codeOf]

theorem EncodedCode.setPixelAt : ∀ p c, EncodedCode.Statement (.setPixelAt p c) := by
  intro p c
  refine encodedCode_of_prim rfl ?_
  simp [codeOf]

theorem EncodedCode.moveTo : ∀ p, EncodedCode.Statement (.moveTo p) := by
  intro p
  refine encodedCode_of_prim rfl ?_
  simp [codeOf]

theorem EncodedCode.lineTo : ∀ p, EncodedCode.Statement (.lineTo p) := by
  intro p
  refine encodedCode_of_prim rfl ?_
  simp [codeOf]

theorem EncodedCode.fillRect : ∀ r, EncodedCode.Statement (.fillRect r) := by
  intro r
  refine encodedCode_of_prim rfl ?_
  simp [codeOf]

theorem EncodedCode.drawRect : ∀ r, EncodedCode.Statement (.drawRect r) := by
  intro r
  refine encodedCode_of_prim rfl ?_
  simp [codeOf]

theorem EncodedCode.fillEllipse : ∀ w h, EncodedCode.Statement (.fillEllipse w h) := by
  intro w h
  refine encodedCode_of_prim rfl ?_
  simp [codeOf]

theorem EncodedCode.drawEllipse : ∀ w h, EncodedCode.Statement (.drawEllipse w h) := by
  intro w h
  refine encodedCode_of_prim rfl ?_
  simp [codeOf]

theorem EncodedCode.clear : EncodedCode.Statement .clear := by
  refine encodedCode_of_prim rfl ?_
  simp [codeOf]

theorem EncodedCode.vScroll : ∀ dy, EncodedCode.Statement (.vScroll dy) := by
  intro dy
  refine encodedCode_of_prim rfl ?_
  simp [codeOf]

theorem EncodedCode.hScroll : ∀ dx, EncodedCode.Statement (.hScroll dx) := by
  intro dx
  refine encodedCode_of_prim rfl ?_
  simp [codeOf]

theorem EncodedCode.drawGlyph : ∀ p gw gh data, EncodedCode.Statement (.drawGlyph p gw gh data) := by
  intro p gw gh data
  refine encodedCode_of_prim rfl ?_
  simp [codeOf]

theorem EncodedCode.renderGlyphsBuffer : ∀ col row gbuf, EncodedCode.Statement (.renderGlyphsBuffer col row gbuf) := by
  intro col row gbuf
  refine encodedCode_of_prim rfl ?_
  simp [codeOf]

theorem EncodedCode.setGlyphOptions : ∀ o, EncodedCode.Statement (.setGlyphOptions o) := by
  intro o
  refine encodedCode_of_prim rfl ?_
  simp [codeOf]

theorem EncodedCode.setPaintOptions : ∀ swap inv, EncodedCode.Statement (.setPaintOptions swap inv) := by
  intro swap inv
  refine encodedCode_of_prim rfl ?_
  simp [codeOf]

theorem EncodedCode.invertRect : ∀ r, EncodedCode.Statement (.invertRect r) := by
  intro r
  refine encodedCode_of_prim rfl ?_
  simp [codeOf]

theorem EncodedCode.copyRect : ∀ r d, EncodedCode.Statement (.copyRect r d) := by
  intro r d
  refine encodedCode_of_prim rfl ?_
  simp [codeOf]

theorem EncodedCode.setScrollingRegion : ∀ r, EncodedCode.Statement (.setScrollingRegion r) := by
  intro r
  refine encodedCode_of_prim rfl ?_
  simp [codeOf]

theorem EncodedCode.swapFGBG : ∀ r, EncodedCode.Statement (.swapFGBG r) := by
  intro r
  refine encodedCode_of_prim rfl ?_
  simp [codeOf]

theorem EncodedCode.drawBitmap : ∀ p bmp, EncodedCode.Statement (.drawBitmap p bmp) := by
  intro p bmp
  refine encodedCode_of_prim rfl ?_
  simp [codeOf]

theorem EncodedCode.refreshSprites : EncodedCode.Statement .refreshSprites := by
  refine encodedCode_of_prim rfl ?_
  simp [codeOf]

theorem EncodedCode.swapBuffers : EncodedCode.Statement .swapBuffers := by
  refine encodedCode_of_prim rfl ?_
  simp [codeOf]

theorem EncodedCode.drawPath : ∀ pts n, EncodedCode.Statement (.drawPath pts n) := by
  intro pts n
  refine encodedCode_of_prim rfl ?_
  simp [codeOf]

theorem EncodedCode.fillPath : ∀ pts n, EncodedCode.Statement (.fillPath pts n) := by
  intro pts n
  refine encodedCode_of_prim rfl ?_
  simp [codeOf]

theorem EncodedCode.setOrigin : ∀ p, EncodedCode.Statement (.setOrigin p) := by
  intro p
  refine encodedCode_of_prim rfl ?_
  simp [codeOf]

theorem EncodedCode.setClippingRect : ∀ r, EncodedCode.Statement (.setClippingRect r) := by
  intro r
  refine encodedCode_of_prim rfl ?_
  simp [codeOf]

theorem EncodedCode.decodeModeline : ∀ text, EncodedCode.Statement (.decodeModeline text) := fun _ => ⟨_, rfl⟩

theorem EncodedCode.setResolution : ∀ text rw rh dbl, EncodedCode.Statement (.setResolution text rw rh dbl) := fun _ _ _ _ => ⟨_, rfl⟩

theorem EncodedCode.addPrimitive : ∀ rec, EncodedCode.Statement (.addPrimitive rec) := fun _ => ⟨_, rfl⟩

theorem EncodedCode.suspend : EncodedCode.Statement .suspend := ⟨_, rfl⟩

theorem EncodedCode.resume : EncodedCode.Statement .resume := ⟨_, rfl⟩

theorem EncodedCode.processPrimitives : EncodedCode.Statement .processPrimitives := ⟨_, rfl⟩

theorem EncodedCode.enableBackgroundExecution : ∀ on, EncodedCode.Statement (.enableBackgroundExecution on) := fun _ => ⟨_, rfl⟩

theorem EncodedCode.moveScreen : ∀ dx dy, EncodedCode.Statement (.moveScreen dx dy) := fun _ _ => ⟨_, rfl⟩

theorem EncodedCode.shrinkScreen : ∀ sx sy, EncodedCode.Statement (.shrinkScreen sx sy) := fun _ _ => ⟨_, rfl⟩

theorem EncodedCode.readPixel : ∀ x y, EncodedCode.Statement (.readPixel x y) := fun _ _ => ⟨_, rfl⟩

theorem EncodedCode.setSprites : ∀ slots, EncodedCode.Statement (.setSprites slots) := fun _ => ⟨_, rfl⟩

theorem EncodedCode.spriteWrite : ∀ slot upd, EncodedCode.Statement (.spriteWrite slot upd) := fun _ _ => ⟨_, rfl⟩

theorem EncodedCode.spriteAddFrame : ∀ slot bmp, EncodedCode.Statement (.spriteAddFrame slot bmp) := fun _ _ => ⟨_, rfl⟩

theorem EncodedCode.hostAlloc : ∀ addr len, EncodedCode.Statement (.hostAlloc addr len) := fun _ _ => ⟨_, rfl⟩

theorem EncodedCode.hostFree : ∀ addr len, EncodedCode.Statement (.hostFree addr len) := fun _ _ => ⟨_, rfl⟩

theorem EncodedCode.hostWrite : ∀ addr bytes, EncodedCode.Statement (.hostWrite addr bytes) := fun _ _ => ⟨_, rfl⟩

end Sys2Proof.Laws
end

