-- ==== Sys2Proof/Laws/Relations.lean ====
section
/-! SUPPORT. Every primitive is put together from a few parts: a relation that holds of each part holds of every
primitive and record (R201, R204, R207). -/

namespace Sys2Proof.Machine

/-! ### Drawing primitives write bytes only -/

/-- A list of writes of row bytes. -/
def bytesOnly (ws : List Write) : Prop := ∀ w ∈ ws, ∃ p off v, w = .byte p off v

theorem bytesOnly.nil : bytesOnly [] := fun _ h => nomatch h

theorem bytesOnly.flatMap {α : Type} {l : List α} {f : α → List Write} (h : ∀ a ∈ l, bytesOnly (f a)) :
    bytesOnly (l.flatMap f) := by
  intro w hw
  obtain ⟨a, ha, hw⟩ := List.mem_flatMap.1 hw
  exact h a ha w hw

theorem bytesOnly_rawWrite {s : State} {ax ay : Int} {v : Byte} : bytesOnly (rawWrite s ax ay v) := by
  intro w hw
  obtain ⟨p, off, -, h⟩ := rawWrite_bytes hw
  exact ⟨p, off, v, h⟩

theorem bytesOnly_putPix {s : State} {ax ay : Int} {c : Colour} : bytesOnly (putPix s ax ay c) :=
  bytesOnly_rawWrite

theorem bytesOnly_invertPix {s : State} {ax ay : Int} : bytesOnly (invertPix s ax ay) := by
  unfold invertPix
  split
  · exact bytesOnly_putPix
  · exact .nil

theorem bytesOnly_paintPix {s : State} {p : Point} {c : Colour} : bytesOnly (paintPix s p c) := by
  unfold paintPix
  dsimp only
  split
  · split
    · exact bytesOnly_invertPix
    · exact bytesOnly_putPix
  · exact .nil

theorem bytesOnly_paintAll {s : State} {ps : List Point} {c : Colour} : bytesOnly (paintAll s ps c) :=
  .flatMap fun _ _ => bytesOnly_paintPix

theorem bytesOnly_paintCell {s : State} {p : Point} {cell : List (Point × Colour)} :
    bytesOnly (paintCell s p cell) :=
  .flatMap fun _ _ => bytesOnly_paintPix

theorem bytesOnly_clearWrites {s : State} : bytesOnly (clearWrites s) := .flatMap fun _ _ => bytesOnly_putPix

theorem bytesOnly_swapPix {s : State} {a : Point} : bytesOnly (swapPix s a) := by
  unfold swapPix
  split
  · exact .nil
  · split
    · exact bytesOnly_putPix
    · split
      · exact bytesOnly_putPix
      · exact .nil

theorem bytesOnly_copyPix {s : State} {r : Rect} {d p : Point} : bytesOnly (copyPix s r d p) := by
  unfold copyPix
  dsimp only
  split
  · split
    · exact bytesOnly_putPix
    · exact .nil
  · exact .nil

theorem bytesOnly_bitmapWrites {s : State} {p : Point} {w h data : Nat} :
    bytesOnly (bitmapWrites s p w h data) := by
  refine .flatMap fun o _ => ?_
  dsimp only
  split
  · split
    · exact bytesOnly_putPix
    · exact .nil
  · exact .nil

theorem bytesOnly_hScrollWrites {dx : Int} {s : State} : bytesOnly (hScrollWrites dx s) := by
  refine .flatMap fun p _ => ?_
  split
  · exact bytesOnly_putPix
  · exact .nil

/-! ### Primitives -/

/-- The parts that primitives are put together from. -/
structure PrimParts (R : State → State → Prop) : Prop where
  refl : ∀ s, R s s
  trans : ∀ {s t u}, R s t → R t u → R s u
  /-- a change of the paint state that keeps the viewport invariant -/
  paint : ∀ s p, (viewportOK s → viewportOK { s with paint := p }) → R s { s with paint := p }
  /-- a recorded DanglingReference -/
  dangling : ∀ s a n, R s (raise (.danglingReference a n) s)
  draw : ∀ ws s, (∀ h, bytesOnly (ws h)) → R s (draw ws s)
  vScroll : ∀ dy s, 0 < regionWidth s.paint.scrollRegion → 0 < regionHeight s.paint.scrollRegion →
    R s (vScrollBy dy s)
  refresh : ∀ s, R s (showSprites (hideSprites s))
  swap : ∀ s, s.doubleBuffered = true → R s (flipBanks (gap (showSprites s)))

theorem viewportOK_paint {s : State} {p : Paint} (hr : viewportOK s → regionOK { s with paint := p }) :
    viewportOK s → viewportOK { s with paint := p } := by
  intro h
  have := hr h
  obtain ⟨h1, h2, h3, h4, h5, h6, h7, h8, h9, h10, -⟩ := h
  exact ⟨h1, h2, h3, h4, h5, h6, h7, h8, h9, h10, this⟩

theorem viewportOK_samePaintRegion {s : State} {p : Paint} (h : p.scrollRegion = s.paint.scrollRegion) :
    viewportOK s → viewportOK { s with paint := p } := by
  refine viewportOK_paint fun hv => ?_
  have := hv.2.2.2.2.2.2.2.2.2.2
  unfold regionOK at *
  dsimp only at *
  rw [h]
  exact this

theorem regionOK_clamp {s : State} (hv : viewportOK s) (r : Rect) :
    regionOK { s with paint := { s.paint with scrollRegion := clampRegion s.vpWidth s.vpHeight r } } := by
  obtain ⟨h1, -, h3, -⟩ := hv
  unfold regionOK clampRegion clamp
  dsimp only
  split
  · left; decide
  · right; right
    dsimp only
    omega

theorem regionOK_reset {s : State} (hv : viewportOK s) :
    regionOK { s with paint := Paint.reset s.vpWidth s.vpHeight } := by
  obtain ⟨h1, -, h3, -⟩ := hv
  unfold regionOK Paint.reset
  dsimp only
  omega

/-- A relation that holds of the parts holds of every primitive. -/
theorem PrimParts.exec {R : State → State → Prop} (c : PrimParts R) (i : Instr) (h : isPrimitive i = true)
    (s t : State) (ht : exec i s = .next t) : R s t := by
  cases i with
  | setPenColor | setBrushColor | moveTo | setGlyphOptions | setPaintOptions | setOrigin
    | setClippingRect => cases ht; exact c.paint _ _ (viewportOK_samePaintRegion rfl)
  | setScrollingRegion r => cases ht; exact c.paint _ _ (viewportOK_paint fun hv => regionOK_clamp hv r)
  | setPixel p => cases ht; exact c.draw _ _ fun h => bytesOnly_paintPix
  | setPixelAt p k => cases ht; exact c.draw _ _ fun h => bytesOnly_paintPix
  | fillRect | drawRect | fillEllipse | drawEllipse =>
    cases ht; exact c.draw _ _ fun h => bytesOnly_paintAll
  | invertRect r => cases ht; exact c.draw _ _ fun h => .flatMap fun _ _ => bytesOnly_invertPix
  | swapFGBG r => cases ht; exact c.draw _ _ fun h => .flatMap fun _ _ => bytesOnly_swapPix
  | copyRect r d => cases ht; exact c.draw _ _ fun h => .flatMap fun _ _ => bytesOnly_copyPix
  | lineTo p =>
    cases ht
    exact c.trans (c.draw (fun h => paintAll h (linePixels h.paint.penPos p) (fg h)) s fun _ => bytesOnly_paintAll) (c.paint _ _ (viewportOK_samePaintRegion rfl))
  | clear =>
    simp only [Machine.exec, execClear] at ht
    split at ht <;> cases ht
    · exact c.trans (c.draw _ s fun _ => bytesOnly_clearWrites) (c.paint _ _ (viewportOK_paint regionOK_reset))
    · exact c.draw _ s fun _ => bytesOnly_clearWrites
  | vScroll dy =>
    simp only [Machine.exec, execVScroll] at ht
    split at ht <;> cases ht
    · exact c.refl _
    · exact c.vScroll _ _ (by omega) (by omega)
  | hScroll dx =>
    simp only [Machine.exec, execHScroll] at ht
    split at ht <;> cases ht
    · exact c.refl _
    · exact c.draw _ _ fun _ => bytesOnly_hScrollWrites
  | drawGlyph =>
    simp only [Machine.exec, execDrawGlyph] at ht
    split at ht <;> cases ht
    · exact c.draw _ _ fun h => bytesOnly_paintCell
    · exact c.dangling _ _ _
  | drawPath | fillPath =>
    simp only [Machine.exec, execDrawPath, execFillPath] at ht
    split at ht <;> cases ht
    · exact c.draw _ _ fun h => bytesOnly_paintAll
    · exact c.dangling _ _ _
  | renderGlyphsBuffer =>
    simp only [Machine.exec, execRenderGlyphsBuffer] at ht
    split at ht
    · split at ht
      · split at ht
        · split at ht <;> cases ht
          · exact c.draw _ _ fun h => bytesOnly_paintCell
          · exact c.dangling _ _ _
        · cases ht; exact c.dangling _ _ _
      · cases ht; exact c.refl _
    · cases ht; exact c.dangling _ _ _
  | drawBitmap =>
    simp only [Machine.exec, execDrawBitmap] at ht
    split at ht
    · split at ht <;> cases ht
      · exact c.draw _ _ fun h => bytesOnly_bitmapWrites
      · exact c.dangling _ _ _
    · cases ht; exact c.dangling _ _ _
  | refreshSprites => cases ht; exact c.refresh s
  | swapBuffers =>
    simp only [Machine.exec, execSwapBuffers] at ht
    split at ht <;> cases ht
    · exact c.swap _ (by assumption)
    · exact c.refl _
  | _ => cases h

/-- The parts that the execution of a record is put together from. -/
structure RecordParts (R : State → State → Prop) : Prop extends PrimParts R where
  /-- a recorded ReservedPrimitive -/
  reserved : ∀ s b, R s (raise (.reservedPrimitive b) s)
  start : ∀ s P, R s (beginExec P s)
  cost : ∀ s, R s (costTicks s)

theorem RecordParts.runRecord {R : State → State → Prop} (c : RecordParts R) (P : Record) (s t : State)
    (h : runRecord exec P s = .next t) : R s t := by
  unfold Machine.runRecord at h
  split at h
  · rename_i i hi
    obtain ⟨u, hu, rfl⟩ := mapNext_eq h
    exact c.trans (c.trans (c.start s P) (c.exec i (decodePrim_isPrimitive hi) _ u hu)) (c.cost u)
  · cases h
    exact c.trans (c.trans (c.start s P) (c.reserved _ _)) (c.cost _)

end Sys2Proof.Machine
end

