-- ==== Sys2Proof/Laws/Shapes.lean ====
section
/-! SUPPORT. What holds of the shapes of Operands, Draw and Glyph: clipped rectangles (R262), bitmaps (R82),
closed paths (R267) and glyph cells (R302). -/

namespace Sys2Proof.Machine

theorem mem_rawWrite_inVP {h : State} {ax ay v w} (hw : w ∈ rawWrite h ax ay v) : inVP h ax ay = true := by
  obtain ⟨p, o, ha, -⟩ := rawWrite_bytes hw; exact physAddr_inVP ha

theorem bitmapColour_eq (b : Byte) : bitmapColour b = if b.extractLsb' 6 2 ≠ 0 then some (b.extractLsb' 0 6) else none := by
  unfold bitmapColour; split <;> simp_all

theorem mem_closedEdges (ps : List Point) (e : Point × Point) : e ∈ closedEdges ps ↔ ∃ k < ps.length, ps[k]? = some e.1 ∧ ps[(k+1) % ps.length]? = some e.2 := by
  cases ps with
  | nil => simp [closedEdges]
  | cons p ps =>
    rw [List.mem_iff_getElem?]
    simp only [closedEdges, List.getElem?_zip_eq_some, List.length_cons]
    constructor
    · rintro ⟨k, h1, h2⟩
      have hk : k < (p :: ps).length := (List.getElem?_eq_some_iff.1 h1).1
      refine ⟨k, hk, h1, ?_⟩
      rw [List.length_cons] at hk
      by_cases hl : k < ps.length
      · rw [Nat.mod_eq_of_lt (by omega), List.getElem?_cons_succ]
        rwa [List.getElem?_append_left hl] at h2
      · have : k = ps.length := by omega
        subst this
        rw [Nat.mod_self]
        rw [List.getElem?_append_right (by omega)] at h2
        simpa using h2
    · rintro ⟨k, hk, h1, h2⟩
      refine ⟨k, h1, ?_⟩
      by_cases hl : k < ps.length
      · rw [Nat.mod_eq_of_lt (by omega), List.getElem?_cons_succ] at h2
        rwa [List.getElem?_append_left hl]
      · have : k = ps.length := by omega
        subst this
        rw [Nat.mod_self] at h2
        rw [List.getElem?_append_right (by omega)]
        simpa using h2

theorem paintCell_eq (h : State) (p : Point) (cell : List (Point × Colour)) :
    paintCell h p cell = (cell.map fun q => ((⟨p.x + q.1.x, p.y + q.1.y⟩ : Point), q.2)).flatMap fun q => paintPix h q.1 q.2 := by
  simp [paintCell, List.flatMap_map]

theorem mem_glyphCell (s : State) (data gw gh : Nat) (o : GlyphOpts) (f k : Colour) (x y : Int) (c : Colour) :
    ((⟨x, y⟩ : Point), c) ∈ glyphCell s data gw gh o f k ↔
      let m : Nat := if o.doubleWidth then 2 else 1
      0 ≤ x ∧ x < m * (glyphWidth o gw gh : Nat) ∧ 0 ≤ y ∧ y < gh ∧ cellColour s data gw gh o f k (x.toNat / m) y.toNat = some c := by
  have hm : 0 < (if o.doubleWidth then 2 else 1) := by split <;> omega
  simp only [glyphCell, List.mem_flatMap, mem_rectOffsets]
  generalize (if o.doubleWidth then 2 else 1) = m at hm ⊢
  constructor
  · rintro ⟨⟨u, j⟩, ⟨hu, hj⟩, h⟩
    dsimp only at hu hj h
    split at h
    · rename_i c' hc
      obtain ⟨t, ht, h⟩ := List.mem_map.1 h
      rw [List.mem_range] at ht
      simp only [Prod.mk.injEq, Point.mk.injEq] at h
      obtain ⟨⟨rfl, rfl⟩, rfl⟩ := h
      have e : ((m : Int) * u + t).toNat / m = u := by
        have : ((m : Int) * u + t).toNat = m * u + t := by
          have : ((m : Int) * u + t) = ((m * u + t : Nat) : Int) := by push_cast; ring
          rw [this, Int.toNat_natCast]
        rw [this, Nat.mul_add_div hm, Nat.div_eq_of_lt ht, Nat.add_zero]
      rw [e, Int.toNat_natCast]
      refine ⟨by positivity, ?_, by omega, by omega, hc⟩
      have : m * u + t < m * glyphWidth o gw gh := by
        calc m * u + t < m * u + m := by omega
          _ = m * (u + 1) := by ring
          _ ≤ _ := Nat.mul_le_mul_left _ hu
      exact_mod_cast this
    · cases h
  · rintro ⟨h1, h2, h3, h4, h5⟩
    refine ⟨(x.toNat / m, y.toNat), ⟨?_, by dsimp only; omega⟩, ?_⟩
    · dsimp only
      rw [Nat.div_lt_iff_lt_mul hm]
      zify; rw [Int.toNat_of_nonneg h1, mul_comm]; exact_mod_cast h2
    · dsimp only
      rw [h5]
      refine List.mem_map.2 ⟨x.toNat % m, List.mem_range.2 (Nat.mod_lt _ hm), ?_⟩
      have := Nat.div_add_mod x.toNat m
      simp only [Prod.mk.injEq, Point.mk.injEq, and_true]
      refine ⟨?_, by omega⟩
      have : ((m * (x.toNat / m) + x.toNat % m : Nat) : Int) = x := by rw [this]; omega
      push_cast at this
      exact_mod_cast this

@[simp] theorem glyphCell_hideSprites (s : State) (data gw gh : Nat) (o : GlyphOpts) (f k : Colour) :
    glyphCell (hideSprites s) data gw gh o f k = glyphCell s data gw gh o f k := by simp [glyphCell]

theorem glyphWidth_cast (o : GlyphOpts) (gw gh : Nat) (hw : 0 < gw) (hh : 0 < gh) :
    ((glyphWidth o gw gh : Nat) : Int) = gw + (if o.italic then ((gh : Int) - 1) / 4 else 0) := by
  unfold glyphWidth glyphShear
  split <;> simp
  omega

theorem mem_clipped {h : State} {r : Rect} {a : Point} : a ∈ clippedPixels h r ↔ inClip h a.x a.y = true ∧ inRect r (a.x - h.paint.origin.x) (a.y - h.paint.origin.y) = true := by
  simp only [clippedPixels, List.mem_filter, List.mem_map]
  constructor
  · rintro ⟨⟨⟨x, y⟩, hp, rfl⟩, hc⟩
    exact ⟨hc, by simpa [absPoint] using mem_rectPixels.1 hp⟩
  · rintro ⟨hc, hr⟩
    exact ⟨⟨_, mem_rectPixels.2 hr, by simp [absPoint]⟩, hc⟩

end Sys2Proof.Machine
end

