-- ==== Sys2Proof/Laws/SpriteBytes.lean ====
section
/-! SUPPORT. Which row bytes showing sprites can change (R334, R336): those under a sprite that may be shown. -/

namespace Sys2Proof.Machine

theorem positionRead_mem (cur : BitVec 16) (old : List (BitVec 16)) (k : Nat) :
    ∃ v ∈ cur :: old, positionRead cur old k = v.toInt := by
  unfold positionRead
  split
  · exact ⟨cur, List.mem_cons_self, rfl⟩
  · rename_i a l
    by_cases h : k < (cur :: a :: l).length
    · exact ⟨_, List.getElem_mem h, by rw [List.getD_eq_getElem _ _ h]⟩
    · exact ⟨cur, List.mem_cons_self, by rw [List.getD_eq_default _ _ (by omega)]⟩

/-- A pixel of a sprite's rectangle lies in the sprite's frame and in the viewport (R334). -/
theorem spriteRect_offset {s : State} {x y : Int} {f : Frame} {o : Nat × Nat}
    (ho : o ∈ rectOffsets (spriteRect s x y f).w (spriteRect s x y f).h) :
    let ax : Int := (spriteRect s x y f).x + o.1
    let ay : Int := (spriteRect s x y f).y + o.2
    x ≤ ax ∧ ax < x + f.w ∧ 0 ≤ ax ∧ ax < s.vpWidth ∧ y ≤ ay ∧ ay < y + f.h ∧ 0 ≤ ay ∧ ay < s.vpHeight := by
  rw [mem_rectOffsets] at ho
  unfold spriteRect at ho ⊢
  dsimp only at ho ⊢
  split
  · rename_i h
    rw [if_pos h] at ho
    dsimp only at ho
    omega
  · rename_i h
    rw [if_neg h] at ho
    dsimp only at ho ⊢
    omega

/-- The pixels of a sprite's rectangle are those of its frame in the viewport (R334). -/
theorem mem_spriteRect {s : State} {x y ax ay : Int} {f : Frame}
    (hx : x ≤ ax ∧ ax < x + f.w) (hy : y ≤ ay ∧ ay < y + f.h) (hin : inVP s ax ay = true) :
    ∃ o ∈ rectOffsets (spriteRect s x y f).w (spriteRect s x y f).h,
      ax = (spriteRect s x y f).x + o.1 ∧ ay = (spriteRect s x y f).y + o.2 := by
  simp only [inVP, Bool.and_eq_true, decide_eq_true_eq] at hin
  unfold spriteRect
  dsimp only
  split
  · omega
  · refine ⟨((ax - max x 0).toNat, (ay - max y 0).toNat), ?_, ?_, ?_⟩
    · rw [mem_rectOffsets]; dsimp only; omega
    · dsimp only; omega
    · dsimp only; omega

/-- Every write of a sprite is a viewport pixel under its frame. -/
theorem spriteWrites_pixel {s : State} {d : Nat} {f : Frame} {x y : Int} {w : Write}
    (hw : w ∈ spriteWrites s d f x y (spriteRect s x y f)) :
    ∃ ax ay c, x ≤ ax ∧ ax < x + f.w ∧ y ≤ ay ∧ ay < y + f.h ∧ w ∈ putPix s ax ay c
      ∧ bitmapColour (memByte s (d + ((ay - y) * f.w + (ax - x)).toNat)) = some c := by
  obtain ⟨o, ho, hw⟩ := List.mem_flatMap.1 hw
  have h := spriteRect_offset ho
  dsimp only at hw h
  split at hw
  · rename_i c hc
    exact ⟨_, _, c, h.1, h.2.1, h.2.2.2.2.1, h.2.2.2.2.2.1, hw, hc⟩
  · cases hw

/-- Showing one sprite leaves every byte that is not under it. -/
theorem showSprite_rowByte (i : Nat) (s : State) (p off : Nat)
    (h : ∀ sp ax ay, s.sprites[i]? = some sp → mayShowAt sp ax ay →
      physAddr s s.drawBank ax ay ≠ some (p, off)) :
    rowByte (showSprite i s).rows p off = rowByte s.rows p off := by
  rcases showSprite_cases i s with e | ⟨a, n, e⟩ | ⟨sp, f, d, hsp, hd, hf, -, -, -, e⟩ <;> rw [e]
  · rfl
  · unfold drawSprite
    rw [runWrites_rows]
    refine rowByte_written_of_forall_ne _ _ _ _ fun v hv => ?_
    obtain ⟨ax, ay, c, h1, h2, h3, h4, hw, -⟩ := spriteWrites_pixel hv
    obtain ⟨q, o, ha, hw⟩ := rawWrite_bytes hw
    cases hw
    obtain ⟨vx, hvx, ex⟩ := positionRead_mem sp.x sp.xOld (Config.staleRead s.draws)
    obtain ⟨vy, hvy, ey⟩ := positionRead_mem sp.y sp.yOld (Config.staleRead (s.draws + 1))
    rw [ex] at h1 h2
    rw [ey] at h3 h4
    exact h sp ax ay hsp ⟨hd, f, hf, vx, hvx, vy, hvy, h1, h2, h3, h4⟩ ha

theorem showSprite_sprites_ne (i j : Nat) (s : State) (h : i ≠ j) :
    (showSprite i s).sprites[j]? = s.sprites[j]? := by
  rcases showSprite_cases i s with e | ⟨a, n, e⟩ | ⟨sp, f, d, -, -, -, -, -, -, e⟩ <;> rw [e]
  · rfl
  · rw [drawSprite_sprites, List.getElem?_set_ne h]

@[simp] theorem showSprite_vpWidth (i : Nat) (s : State) : (showSprite i s).vpWidth = s.vpWidth :=
  (congrArg State.vpWidth (showSprite_drawingOnly i s).eq :)
@[simp] theorem showSprite_vpHeight (i : Nat) (s : State) : (showSprite i s).vpHeight = s.vpHeight :=
  (congrArg State.vpHeight (showSprite_drawingOnly i s).eq :)
@[simp] theorem showSprite_rowMap (i : Nat) (s : State) : (showSprite i s).rowMap = s.rowMap :=
  (congrArg State.rowMap (showSprite_drawingOnly i s).eq :)
@[simp] theorem showSprite_drawBank (i : Nat) (s : State) : (showSprite i s).drawBank = s.drawBank :=
  (congrArg State.drawBank (showSprite_drawingOnly i s).eq :)

/-- Showing the slots from `i` on leaves every byte that is under none of them. -/
theorem showFrom_rowByte (n i : Nat) (s : State) (p off : Nat)
    (h : ∀ j sp ax ay, i ≤ j → s.sprites[j]? = some sp → mayShowAt sp ax ay →
      physAddr s s.drawBank ax ay ≠ some (p, off)) :
    rowByte (showFrom n i s).rows p off = rowByte s.rows p off := by
  induction n generalizing i s with
  | zero => rfl
  | succ n ih =>
    refine (ih (i + 1) (showSprite i s) fun j sp ax ay hj hsp hm => ?_).trans
      (showSprite_rowByte i s p off fun sp ax ay => h i sp ax ay le_rfl)
    rw [showSprite_sprites_ne i j s (by omega)] at hsp
    rw [physAddr_congr (showSprite_vpWidth i s) (showSprite_vpHeight i s) (showSprite_rowMap i s),
      showSprite_drawBank]
    exact h j sp ax ay (by omega) hsp hm

/-- Showing sprites leaves every byte that is under none of them (R336). -/
theorem showSprites_rowByte (s : State) (p off : Nat)
    (h : ∀ ax ay, (∃ sp ∈ s.sprites, mayShowAt sp ax ay) → physAddr s s.drawBank ax ay ≠ some (p, off)) :
    rowByte (showSprites s).rows p off = rowByte s.rows p off := by
  unfold showSprites
  split
  · rfl
  · exact showFrom_rowByte _ 0 s p off fun j sp ax ay _ hsp hm =>
      h ax ay ⟨sp, List.mem_of_getElem? hsp, hm⟩

end Sys2Proof.Machine
end

