-- ==== Sys2Proof/Tests/Slice0.lean ====
section
/-! SUPPORT. Tests: words written out from R83 to R95, small steps with the values of spec/95_test_vectors.md,
and for each statement with hypotheses a concrete state and operands that meet them (`witness_…`). -/

namespace Sys2Proof.Tests

set_option Elab.async false

open Sys2Proof.Machine

/-! ### Small states

The engine of `tiny` stands still, so that no free number of ticks falls between writes. -/

/-- The timings of the tiny mode of spec/95_test_vectors.md section 0. -/
def tinyT : Timings :=
  { label := [0x74, 0x69, 0x6E, 0x79], clockMHz := ⟨1, 0⟩
    hVisible := 8, hFrontPorch := 4, hSyncPulse := 4, hBackPorch := 4
    vVisible := 4, vFrontPorch := 1, vSyncPulse := 1, vBackPorch := 2
    hSyncPol := .neg, vSyncPol := .neg, scanCount := 1, hStartingBlock := .frontPorch }

/-- The reset state with QueueCapacity 2, MaxDescLen 40 and MaxSprites 2. -/
def base : State :=
  { State.reset with params := { State.reset.params with queueSpare := 1, maxDescWords := 10, maxSprites := 2 } }

/-- Just configured in the tiny mode, an 8 by 4 viewport, the engine running. -/
def tinyRun (dbl : Bool) : State := applyResolution tinyT 8 dbl 4 [] base

/-- The same with the engine halted. -/
def tiny (dbl : Bool) : State := { tinyRun dbl with engineRunning := false }

/-- `tiny` with colours in the first row, through the identity placement of R172. -/
def painted (row0 : List Byte) : State :=
  { tiny false with rows := row0 :: (tiny false).rows.tail }

/-- `tiny` with host bytes at 0x1000, all of them allocated. -/
def hosted (bytes : List Byte) : State :=
  { tiny false with hostmem := Memory.writeBytes [] 0x1000 bytes, live := [(0x1000, 0x1000 + bytes.length)] }

/-- What `f` sees in the next state. -/
def look {α : Type} (o : Host.Outcome State Fault Refusal) (f : State → α) : Option α :=
  match o with
  | .next t => some (f t)
  | .fault _ => none
  | .refused _ => none

/-- The bytes of row `y` of the drawing bank, in logical order. -/
def rowOf (y : Int) (s : State) : List (Option Byte) :=
  (List.range 8).map fun (x : Nat) => rawPixel s s.drawBank x y

/-- A row of raw bytes as `rowOf` gives it. -/
def bytes (l : List Byte) : List (Option Byte) := l.map some

/-- A record from its first bytes, the others 0. -/
def rec16 (l : List Byte) : Record := bytesToRecord l

/-! ### Well-formedness: a term that each check refuses -/

theorem test_fitsS16_refuses : (Instr.setPixel ⟨32768, 0⟩).wellFormed = false
    ∧ (Instr.setPixel ⟨0, -32769⟩).wellFormed = false ∧ (Instr.setPixel ⟨-32768, 32767⟩).wellFormed = true := by
  decide

theorem test_rect_refuses : (Instr.fillRect ⟨0, 0, 40000, 0⟩).wellFormed = false
    ∧ (Instr.copyRect ⟨0, 0, 0, 0⟩ ⟨0, 40000⟩).wellFormed = false := by decide

theorem test_fitsU8_refuses : (Instr.drawGlyph ⟨0, 0⟩ 256 8 0).wellFormed = false
    ∧ (Instr.drawGlyph ⟨0, 0⟩ 255 256 0).wellFormed = false := by decide

theorem test_fitsU16_refuses : (Instr.fillEllipse 65536 0).wellFormed = false
    ∧ (Instr.drawPath 0 65536).wellFormed = false ∧ (Instr.drawEllipse 65535 65535).wellFormed = true := by decide

theorem test_fitsU32_refuses : (Instr.drawBitmap ⟨0, 0⟩ 4294967296).wellFormed = false
    ∧ (Instr.renderGlyphsBuffer 0 0 4294967295).wellFormed = true := by decide

/-! ### Decoding words written out by hand -/

theorem test_decode_colours :
    decode (recordBytes 0x000000000000000000000033AA55FF00#128) = .ok (.setPenColor 0x33#6)
    ∧ decode (recordBytes 0x000000000000000000000FF000000001#128) = .ok (.setBrushColor 0b110000#6) := by decide

theorem test_decode_pixels :
    decodePrim 0x00000000000000330002000500000003#128 = .ok (.setPixelAt ⟨5, 2⟩ 0x33#6)
    ∧ decodePrim 0x0000000000000000012CFFFB00000004#128 = .ok (.moveTo ⟨-5, 300⟩)
    ∧ decodePrim 0x00000000000000000001000300000005#128 = .ok (.lineTo ⟨3, 1⟩) := by decide

theorem test_decode_rects :
    decodePrim 0x00000000000300050002000400000006#128 = .ok (.fillRect ⟨4, 2, 5, 3⟩)
    ∧ decodePrim 0x00000000000200020000000000000007#128 = .ok (.drawRect ⟨0, 0, 2, 2⟩)
    ∧ decodePrim 0x00000000000000030000000000000011#128 = .ok (.invertRect ⟨0, 0, 3, 0⟩)
    ∧ decodePrim 0x00000000000000020000000000000014#128 = .ok (.swapFGBG ⟨0, 0, 2, 0⟩)
    ∧ decodePrim 0x0000000001DF027F0008000000000013#128 = .ok (.setScrollingRegion ⟨0, 8, 639, 479⟩)
    ∧ decodePrim 0x0000000000090009000000000000001B#128 = .ok (.setClippingRect ⟨0, 0, 9, 9⟩) := by decide

theorem test_decode_shapes :
    decodePrim 0x0000000000000000FFFF000400000008#128 = .ok (.fillEllipse 4 65535)
    ∧ decodePrim 0x00000000000000000002000400000009#128 = .ok (.drawEllipse 4 2)
    ∧ decodePrim 0x00000000000000048000000000000018#128 = .ok (.drawPath 0x80000000 4) := by decide

theorem test_decode_glyphs :
    decodePrim 0x0000123456780810FFFF00010000000D#128 = .ok (.drawGlyph ⟨1, -1⟩ 16 8 0x12345678)
    ∧ decodePrim 0x0000000000005000000100010000000E#128 = .ok (.renderGlyphsBuffer 1 1 0x5000)
    ∧ decodePrim 0x0000000000000000000000830000000F#128 = .ok (.setGlyphOptions 0x03#7) := by decide

theorem test_decode_scrolls :
    decodePrim 0x0000000000000000000000010000000B#128 = .ok (.vScroll 1)
    ∧ decodePrim 0x00000000000000000000FFFE0000000C#128 = .ok (.hScroll (-2)) := by decide

theorem test_decode_others :
    decodePrim 0x0000000000001000FFFD000200000015#128 = .ok (.drawBitmap ⟨2, -3⟩ 0x1000)
    ∧ decodePrim 0x00000000000000000000000000000016#128 = .ok .refreshSprites
    ∧ decodePrim 0x00000000000000000000000000000017#128 = .ok .swapBuffers
    ∧ decodePrim 0x00000000000000030000400000000019#128 = .ok (.fillPath 0x4000 3)
    ∧ decodePrim 0x00000000000000000000000A0000001A#128 = .ok (.setOrigin ⟨10, 0⟩)
    ∧ decodePrim 0x0000000000000000000000000000000A#128 = .ok .clear := by decide

theorem test_decode_reserved :
    decodePrim 0x0000000000000000000000000000001C#128 = .error (.reservedTag 0x1C)
    ∧ decodeHostOp [0x90] = .error (.reservedCode 0x90)
    ∧ decodeHostOp [0x87, 8] = .error (.malformedOperands 0x87) := by decide

theorem test_decode_hostOps :
    decodeHostOp [0x80, 2, 0x22, 0x22] = .ok (.decodeModeline [0x22, 0x22])
    ∧ decodeHostOp [0x81, 1, 0x22, 16, 9, 1] = .ok (.setResolution [0x22] 8 (-5) true)
    ∧ decodeHostOp ([0x82, 0x17] ++ List.replicate 15 0) = .ok (.addPrimitive 0x17)
    ∧ decodeHostOp [0x84] = .ok .resume ∧ decodeHostOp [0x85] = .ok .processPrimitives
    ∧ decodeHostOp [0x86, 0] = .ok (.enableBackgroundExecution false)
    ∧ decodeHostOp [0x88, 2, 3] = .ok (.shrinkScreen 1 (-2))
    ∧ decodeHostOp [0x89, 10, 4] = .ok (.readPixel 5 2) := by decide

theorem test_decode_hostMemory :
    decodeHostOp [0x8D, 0x80, 0x20, 16] = .ok (.hostAlloc 0x1000 16)
    ∧ decodeHostOp [0x8E, 0x80, 0x20, 16] = .ok (.hostFree 0x1000 16)
    ∧ decodeHostOp [0x8F, 0x80, 0x20, 2, 7, 8] = .ok (.hostWrite 0x1000 [7, 8]) := by decide

theorem test_decode_sprites :
    decodeHostOp [0x8A, 1, 4, 0, 0xFF, 0xFF, 1, 9, 0, 1, 0] = .ok (.setSprites [⟨4, 0xFFFF, [9], 0, true, false⟩])
    ∧ decodeHostOp [0x8B, 0, 0, 4, 0] = .ok (.spriteWrite 0 (.x 4))
    ∧ decodeHostOp [0x8C, 1, 9] = .ok (.spriteAddFrame 1 9) := by decide

/-! ### Pixels, lines, rectangles (V9, V12, V14) -/

theorem test_setPixel_clipped : look (exec (.setPixel ⟨-2, 0⟩) (tiny false)) (rowOf 0)
    = some (bytes (List.replicate 8 0xC0)) := by decide +kernel

theorem test_setPixelAt : look (exec (.setPixelAt ⟨5, 2⟩ 0x33#6) (tiny false)) (fun t => (rowOf 2 t, t.rows[2]?))
    = some (bytes [0xC0, 0xC0, 0xC0, 0xC0, 0xC0, 0xF3, 0xC0, 0xC0],
        some [0xC0, 0xC0, 0xC0, 0xC0, 0xC0, 0xC0, 0xC0, 0xF3]) := by decide +kernel

theorem test_line_pixels : linePixels ⟨0, 0⟩ ⟨4, 2⟩ = [⟨0, 0⟩, ⟨1, 1⟩, ⟨2, 1⟩, ⟨3, 2⟩, ⟨4, 2⟩]
    ∧ linePixels ⟨3, 1⟩ ⟨0, 0⟩ = [⟨3, 1⟩, ⟨2, 1⟩, ⟨1, 0⟩, ⟨0, 0⟩] := by decide +kernel

theorem test_lineTo_moves_pen : look (exec (.lineTo ⟨-1, 0⟩)
    { tiny false with paint := { (tiny false).paint with penPos := ⟨-10, 0⟩ } })
    (fun t => (t.paint.penPos, rowOf 0 t)) = some (⟨-1, 0⟩, bytes (List.replicate 8 0xC0)) := by decide +kernel

theorem test_fillRect_swapped_corners : look (exec (.fillRect ⟨1, 1, 0, 0⟩)
    { tiny false with paint := { (tiny false).paint with brushColor := 7#6 } }) (fun t => (rowOf 0 t, rowOf 2 t))
    = some (bytes [0xC7, 0xC7, 0xC0, 0xC0, 0xC0, 0xC0, 0xC0, 0xC0], bytes (List.replicate 8 0xC0)) := by
  decide +kernel

theorem test_drawRect_outline : look (exec (.drawRect ⟨0, 0, 2, 2⟩) (tiny false)) (rowOf 1)
    = some (bytes [0xFF, 0xC0, 0xFF, 0xC0, 0xC0, 0xC0, 0xC0, 0xC0]) := by decide +kernel

/-! ### Ellipses (V13), copies and recolouring (V15, V42), Clear (V28) -/

theorem test_ellipse_sizes :
    (ellipseOutline ⟨3, 3⟩ 6 4).length = 12 ∧ (ellipseFill ⟨3, 3⟩ 6 4).length = 23
    ∧ (ellipseOutline ⟨4, 2⟩ 1 4).length = 5 ∧ ellipseFill ⟨0, 0⟩ 0 3 = [] := by decide +kernel

theorem test_drawEllipse_row : look (exec (.drawEllipse 4 2)
    { tiny false with paint := { (tiny false).paint with penPos := ⟨4, 2⟩ } }) (rowOf 2)
    = some (bytes [0xC0, 0xC0, 0xFF, 0xC0, 0xC0, 0xC0, 0xFF, 0xC0]) := by decide +kernel

theorem test_copyRect_overlap : look (exec (.copyRect ⟨0, 0, 3, 0⟩ ⟨2, 0⟩)
    (painted [0xC3, 0xC4, 0xC1, 0xC2, 0xC7, 0xC8, 0xC5, 0xC6])) (rowOf 0)
    = some (bytes [0xC1, 0xC2, 0xC1, 0xC2, 0xC3, 0xC4, 0xC7, 0xC8]) := by decide +kernel

theorem test_invertRect : look (exec (.invertRect ⟨0, 0, 3, 0⟩)
    (painted [0xC5, 0xFF, 0xC0, 0xC3, 0xC0, 0xC0, 0xC0, 0xC0])) (rowOf 0)
    = some (bytes [0xFF, 0xFC, 0xFA, 0xC0, 0xC0, 0xC0, 0xC0, 0xC0]) := by decide +kernel

theorem test_swapFGBG : look (exec (.swapFGBG ⟨0, 0, 2, 0⟩)
    { painted [0xC5, 0xC0, 0xC3, 0xC0, 0xC0, 0xC0, 0xC0, 0xC0] with
      paint := { (tiny false).paint with penColor := 3#6 } }) (rowOf 0)
    = some (bytes [0xC0, 0xC3, 0xC5, 0xC0, 0xC0, 0xC0, 0xC0, 0xC0]) := by decide +kernel

theorem test_clear_ignores_clip : look (exec .clear
    { tiny false with paint := { (tiny false).paint with
        brushColor := 3#6, origin := ⟨2, 2⟩, clipRect := ⟨0, 0, 1, 1⟩ } })
    (fun t => (rowOf 3 t, t.paint.brushColor, t.paint.origin, t.paint.clipRect))
    = some (bytes (List.replicate 8 0xC3), 0#6, ⟨0, 0⟩, ⟨0, 0, 7, 3⟩) := by decide +kernel

/-! ### Bitmaps, paths, glyphs (V16, V17, V18, V43) -/

theorem test_drawBitmap_alpha : look (exec (.drawBitmap ⟨0, 0⟩ 0x1000)
    (hosted [2, 0, 1, 0, 8, 0x10, 0, 0, 0x45, 0x03])) (rowOf 0)
    = some (bytes [0xC5, 0xC0, 0xC0, 0xC0, 0xC0, 0xC0, 0xC0, 0xC0]) := by decide +kernel

theorem test_fillPath_selfCrossing :
    (pathInterior [⟨0, 0⟩, ⟨4, 0⟩, ⟨0, 2⟩, ⟨4, 2⟩]).length = 6
    ∧ (⟨2, 1⟩ : Point) ∈ pathInterior [⟨0, 0⟩, ⟨4, 0⟩, ⟨0, 2⟩, ⟨4, 2⟩]
    ∧ (pathInterior [⟨0, 0⟩, ⟨4, 0⟩, ⟨0, 4⟩]).length = 14 := by decide +kernel

theorem test_drawPath : look (exec (.drawPath 0x1000 3)
    (hosted [0, 0, 0, 0, 2, 0, 0, 0, 0, 0, 2, 0])) (fun t => (rowOf 0 t, rowOf 1 t))
    = some (bytes [0xFF, 0xFF, 0xFF, 0xC0, 0xC0, 0xC0, 0xC0, 0xC0],
        bytes [0xFF, 0xFF, 0xC0, 0xC0, 0xC0, 0xC0, 0xC0, 0xC0]) := by decide +kernel

theorem test_drawGlyph_bold : look (exec (.drawGlyph ⟨0, 0⟩ 8 1 0x1000)
    { hosted [0x81] with paint := { (tiny false).paint with penColor := 3#6, brushColor := 0x30#6
                                                            glyphOpt := glyphOpts 0x02 } }) (rowOf 0)
    = some (bytes [0xC3, 0xC3, 0xC0, 0xC0, 0xC0, 0xC0, 0xC0, 0xC3]) := by decide +kernel

theorem test_drawGlyph_italic : look (exec (.drawGlyph ⟨0, 0⟩ 1 5 0x1000)
    { hosted [0x80, 0x80, 0x80, 0x80, 0x80] with paint := { (tiny false).paint with glyphOpt := glyphOpts 0x04 } })
    (fun t => (rowOf 0 t, rowOf 1 t))
    = some (bytes [0xC0, 0xFF, 0xC0, 0xC0, 0xC0, 0xC0, 0xC0, 0xC0],
        bytes [0xFF, 0xC0, 0xC0, 0xC0, 0xC0, 0xC0, 0xC0, 0xC0]) := by decide +kernel

theorem test_renderGlyphsBuffer : look (exec (.renderGlyphsBuffer 1 0 0x1000)
    (hosted [4, 0, 1, 0, 0x18, 0x10, 0, 0, 2, 0, 1, 0, 0x10, 0x10, 0, 0, 0, 0, 0, 0, 1, 0, 3, 1, 0, 0xA0]))
    (rowOf 0) = some (bytes [0xC0, 0xC0, 0xC0, 0xC0, 0xC3, 0xC0, 0xC3, 0xC0]) := by decide +kernel

/-! ### Scrolling (V19, V20) -/

theorem test_vScroll_columns : look (exec (.vScroll 1)
    { tiny false with
      rows := [[0xD2, 0xD3, 0xD0, 0xD1, 0xD2, 0xD3, 0xD0, 0xD1], [0xE2, 0xE3, 0xE0, 0xE1, 0xE2, 0xE3, 0xE0, 0xE1],
               List.replicate 8 0xC0, List.replicate 8 0xC0]
      paint := { (tiny false).paint with scrollRegion := ⟨0, 0, 1, 1⟩ } })
    (fun t => (t.rowMap.zero, rowOf 0 t, t.rows[1]?))
    = some ([1, 0, 2, 3], bytes [0xE0, 0xE1, 0xD2, 0xD3, 0xD0, 0xD1, 0xD2, 0xD3],
        some [0xD2, 0xD3, 0xE0, 0xE1, 0xD2, 0xD3, 0xD0, 0xD1]) := by decide +kernel

theorem test_vScroll_repoints : look (exec (.vScroll 5) (tiny false))
    (fun t => (t.rowMap.zero, t.desc.zero.map (·.buf)))
    = some ([3, 0, 1, 2], [.blank false, .row 3, .blank false, .row 0, .blank false, .row 1, .blank false, .row 2,
        .blank false, .blank true, .blank false, .blank false]) := by decide +kernel

theorem test_hScroll : look (exec (.hScroll 3) (painted [0xC3, 0xC4, 0xC1, 0xC2, 0xC7, 0xC8, 0xC5, 0xC6])) (rowOf 0)
    = some (bytes [0xC6, 0xC7, 0xC8, 0xC1, 0xC2, 0xC3, 0xC4, 0xC5]) := by decide +kernel

/-! ### Sprites (V22, V44) -/

/-- Two bitmap headers (2 by 1, pixels of colour 1; 2 by 1, pixels of colour 2) at 0x1000 and 0x1008. -/
def sprited : State :=
  hosted [2, 0, 1, 0, 0x10, 0x10, 0, 0, 2, 0, 1, 0, 0x12, 0x10, 0, 0, 0xC1, 0xC1, 0xC2, 0xC2]

/-- Two sprites that overlap at `x = 1`. -/
def overlapping : List SpriteInit :=
  [⟨0, 0, [0x1000], 0, true, false⟩, ⟨1, 0, [0x1008], 0, true, false⟩]

/-- `sprited` with the overlapping sprites installed. -/
def installed : State :=
  { sprited with sprites := overlapping.map (installSlot sprited) }

theorem test_refreshSprites_overlap : look (exec .refreshSprites installed)
    (fun t => (rowOf 0 t, t.sprites.map Sprite.savedBg, t.spritesHidden))
    = some (bytes [0xC1, 0xC2, 0xC2, 0xC0, 0xC0, 0xC0, 0xC0, 0xC0], [[0xC0, 0xC0], [0xC1, 0xC0]], false) := by
  decide +kernel

/-- V44: the first sprite's pixels freed; the second is drawn. -/
def freed : State := { installed with live := [(0x1000, 0x1010), (0x1012, 0x1014)] }

theorem test_freed_frame_skipped : look (exec .refreshSprites freed)
    (fun t => (rowOf 0 t, t.faults, t.sprites.map Sprite.savedRect))
    = some (bytes [0xC0, 0xC2, 0xC2, 0xC0, 0xC0, 0xC0, 0xC0, 0xC0], [.danglingReference 0x1010 2],
        [none, some ⟨1, 0, 2, 1⟩]) := by decide +kernel

theorem test_hide_reverses_order : rowOf 0 (hideSprites (showSprites installed))
    = bytes (List.replicate 8 0xC0) := by decide +kernel

theorem test_static_sprite_drawn_once : look (exec .refreshSprites
    { sprited with sprites := [installSlot sprited ⟨7, 0, [0x1000], 0, true, true⟩] })
    (fun t => (rowOf 0 t, t.sprites.map fun q => (q.allowDraw, q.savedRect)))
    = some (bytes [0xC0, 0xC0, 0xC0, 0xC0, 0xC0, 0xC0, 0xC0, 0xC1], [(false, none)]) := by decide +kernel

theorem test_setSprites : look (exec (.setSprites overlapping) sprited)
    (fun t => t.sprites.map fun q => (q.x, q.frames, q.savedBg, q.allowDraw))
    = some [(0, [⟨0x1000, 2, 1⟩], [0, 0], true), (1, [⟨0x1008, 2, 1⟩], [0, 0], true)] := by decide +kernel

theorem test_spriteWrite : look (exec (.spriteWrite 1 (.x 4)) installed) (fun t => t.sprites.map Sprite.x)
    = some [0, 4] ∧ look (exec (.spriteWrite 2 (.x 4)) installed) (fun t => t.refused) = some true := by
  decide +kernel

theorem test_spriteAddFrame_grows : look (exec (.spriteAddFrame 0 0x1004)
    { installed with hostmem := Memory.writeBytes installed.hostmem 0x1004 [1, 0, 3, 0] })
    (fun t => t.sprites.map fun q => (q.frames.length, q.savedBg.length)) = some [(2, 6), (1, 2)] := by
  decide +kernel

theorem test_swapBuffers : look (exec .swapBuffers (tiny true)) (fun t => (t.drawBank, t.sentinel.next))
    = some (.one, .entry .zero 0) := by decide +kernel

/-! ### Queue and drains (V23 to V25) -/

theorem test_addPrimitive_full : look (exec (.addPrimitive 5) { tiny false with queue := [1, 2] })
    (fun t => (t.queue, t.blocked)) = some ([1, 2], some 5)
    ∧ look (exec (.addPrimitive 5) { tiny false with queue := [1] }) (fun t => (t.queue, t.blocked))
      = some ([1, 5], none) := by decide +kernel

/-- V25: the pump runs at count 2 and takes it back to 1, one record a step. -/
theorem test_pump_in_order : look (onNext (exec .processPrimitives
    { tiny false with queue := [rec16 [0, 0, 0, 0, 3], rec16 [2, 0, 0, 0, 1], rec16 [0, 0, 0, 0, 4]], suspendCount := 1 })
    (stepMany 4)) (fun t => (rowOf 0 t, t.paint.penColor, t.queue, t.suspendCount, t.inExecutor))
    = some (bytes [0xC0, 0xC3, 0xC0, 0xC0, 0xC0, 0xC0, 0xC0, 0xC0], 4, [], 1, false)
    ∧ look (exec .processPrimitives { tiny false with suspendCount := 1 })
      (fun t => (t.suspendCount, t.inExecutor, t.drainKind)) = some (2, true, .pump) := by decide +kernel

/-- R201: the older record first, then its own. -/
theorem test_immediate_in_order : look (onNext (exec (.addPrimitive (rec16 [2, 0, 0, 0, 1]))
    { tiny false with queue := [rec16 [0, 0, 0, 0, 3]], backgroundExec := false }) (stepMany 3))
    (fun t => (rowOf 0 t, t.queue, t.immediate, t.inExecutor, t.drainFirst))
    = some (bytes [0xC0, 0xC3, 0xC0, 0xC0, 0xC0, 0xC0, 0xC0, 0xC0], [], none, false, false) := by decide +kernel

theorem test_swap_waits_when_not_first : look (step
    { tiny true with queue := [rec16 [0x17], rec16 [0, 0, 0, 0, 3]], inExecutor := true, drainFirst := false })
    (fun t => (t.inExecutor, t.queue.length, t.drawBank)) = some (false, 2, .zero) := by decide +kernel

theorem test_resume_unbalanced : look (exec .resume base) (fun t => (t.suspendCount, t.faults))
    = some (0, [.unbalancedResume])
    ∧ look (exec .resume { base with suspendCount := 2 }) (fun t => (t.suspendCount, t.faults)) = some (1, []) := by
  decide +kernel

theorem test_reserved_record : look (step
    { tiny false with queue := [rec16 [0xC3]], inExecutor := true }) (fun t => (t.faults, t.queue))
    = some ([.reservedPrimitive 0xC3], []) := by decide +kernel

/-! ### Configuration (V1 to V10) -/

/-- The modeline of the tiny mode. -/
def tinyText : List Byte :=
  keyword ['"', 't', 'i', 'n', 'y', '"', ' ', '1', ' ', '8', ' ', '1', '2', ' ', '1', '6', ' ', '2', '0', ' ',
    '4', ' ', '5', ' ', '6', ' ', '8', ' ', '-', 'H', 'S', 'y', 'n', 'c', ' ', '-', 'V', 'S', 'y', 'n', 'c']

theorem test_parse_tiny : parseModeline tinyText = some tinyT := by decide +kernel

theorem test_parse_refuses : parseModeline (tinyText.take 34) = none
    ∧ parseModeline (tinyText ++ keyword [' ', 'x']) = none ∧ parseModeline tinyText.tail = none := by decide +kernel

theorem test_parse_options : (parseModeline (tinyText ++ 0x20 :: (kwDoubleScan ++ 0x20 :: kwVisible))).map
    (fun t => (t.scanCount, t.hStartingBlock)) = some (2, .visibleArea)
    ∧ parseModeline (tinyText ++ 0x20 :: (kwVisible ++ 0x20 :: kwDoubleScan)) = none := by decide +kernel

theorem test_readClock : readClock (keyword ['2', '5', '.', '1', '7', '5']) = some ⟨25175, 3⟩
    ∧ readClock (keyword ['2', '5', '.']) = none ∧ readClock (keyword ['2', '5', '.', '5', '0']) = some ⟨255, 1⟩ := by
  decide +kernel

theorem test_blank_lines : ((List.range 20).map fun k => (blankLine base.params tinyT false).getD (k ^^^ 2) 0)
    = List.replicate 4 0xC0 ++ (List.replicate 4 0x80 ++ List.replicate 12 0xC0)
    ∧ (blankLine base.params tinyT true).take 4 = List.replicate 4 0x40 := by decide +kernel

theorem test_chain_layout : (tinyRun false).desc.zero.map (fun d => (d.buf, d.length, d.eof))
    = [(.blank false, 12, false), (.row 0, 8, false), (.blank false, 12, false), (.row 1, 8, false),
       (.blank false, 12, false), (.row 2, 8, false), (.blank false, 12, false), (.row 3, 8, false),
       (.blank false, 20, true), (.blank true, 20, false), (.blank false, 20, false), (.blank false, 20, false)]
    ∧ (tinyRun false).desc.zero.getLast?.map Desc.next = some .sentinel := by decide +kernel

theorem test_setResolution : look (exec (.setResolution tinyText 9 4 false) base)
    (fun t => (t.vpWidth, t.vpCol, t.configured, t.engineRunning, t.ret)) = some (8, 0, true, true, .success true) := by
  decide +kernel

theorem test_moveScreen : look (exec (.moveScreen 4 0) { tiny false with suspendCount := 1 })
    (fun t => (t.timings.hFrontPorch, t.timings.hBackPorch, t.engineRunning)) = some (0, 8, true)
    ∧ look (exec (.moveScreen 4 0) (tiny false)) (fun t => t.faults)
      = some [.unsuspendedReconfigure (.moveScreen 4 0)] := by decide +kernel

theorem test_shrinkScreen : look (exec (.shrinkScreen 2 0) { tiny false with suspendCount := 1 }) (fun t => t.faults)
    = some [.malformedTimings (shrunkTimings 2 0 tinyT)]
    ∧ look (exec (.shrinkScreen 0 1) { tiny false with suspendCount := 1 }) (fun t => t.faults)
      = some [.shrinkBelowViewport 0 1] := by decide +kernel

/-! ### The Engine (V40) and host access (V34) -/

theorem test_engine_first_bytes : (engineTicks 14 { painted [0xC3, 0xC4, 0xC1, 0xC2, 0xC7, 0xC8, 0xC5, 0xC6] with engineRunning := true }).out.map Prod.snd
    = List.replicate 4 0xC0 ++ (List.replicate 4 0x80 ++ List.replicate 4 0xC0) ++ [0xC1, 0xC2] := by decide +kernel

theorem test_engine_event_at_100 : (engineTicks 99 (tinyRun false)).vsIntPending = false
    ∧ (engineTicks 100 (tinyRun false)).vsIntPending = true := by decide +kernel

theorem test_readPixel : look (exec (.readPixel 2 0) (painted [0xC3, 0xC4, 0xC1, 0xC2, 0xC7, 0xC8, 0xC5, 0xC6]))
    (fun t => t.ret) = some (.pixel (some 0xC3))
    ∧ look (exec (.readPixel 8 0) (tiny false)) (fun t => t.ret) = some (.pixel none) := by decide +kernel

theorem test_hostWrite : look (exec (.hostWrite 0x1001 [9]) (hosted [1, 2, 3])) (fun t => t.hostmem)
    = some [(0x1000, 1), (0x1001, 9), (0x1002, 3)]
    ∧ look (exec (.hostWrite 0x1002 [9, 9]) (hosted [1, 2, 3])) (fun t => (t.hostmem.length, t.refused))
      = some (3, true) := by decide +kernel

theorem test_hostAlloc_joins : look (exec (.hostAlloc 4 4) { base with live := [(0, 4), (8, 12)] }) (fun t => t.live)
    = some [(0, 12)] ∧ look (exec (.hostFree 2 8) { base with live := [(0, 12)] }) (fun t => t.live)
    = some [(0, 2), (10, 12)] := by decide +kernel

/-! ### Fetching -/

theorem test_fetch_primitive : look (step (base.withFetchWord 128 0x330000000000000003))
    (fun t => (t.queue, t.faults)) = some ([], [])
    ∧ look (step (base.withFetchWord 128 0x3F00000001)) (fun t => t.paint.brushColor) = some 0x3F := by
  decide +kernel

theorem test_fetch_hostOp : look (step (base.withFetchWord 8 0x83)) (fun t => t.suspendCount) = some 1 := by
  decide +kernel

/-! ### Witnesses: for each statement with hypotheses, a state and operands that meet them -/

theorem viewportOK_tiny (dbl : Bool) : viewportOK (tiny dbl) := by
  cases dbl <;> (unfold viewportOK regionOK; decide +kernel)

theorem viewportOK_painted (r : List Byte) (h : r.length = 8) : viewportOK (painted r) := by
  obtain ⟨h1, h2, h3, h4, h5, h6, h7, h8, h9, h10, h11⟩ := viewportOK_tiny false
  refine ⟨h1, h2, h3, h4, fun q hq => ?_, h6, h7, h8, h9, h10, h11⟩
  rcases List.mem_cons.1 hq with rfl | hq
  · exact h
  · exact h5 q (List.mem_cons_of_mem _ hq)

theorem viewportOK_sprited : viewportOK sprited := viewportOK_tiny false

theorem viewportOK_installed : viewportOK installed := viewportOK_tiny false

/-- `installed` with its sprites shown. -/
def shown : State := showSprites installed

theorem viewportOK_shown : viewportOK shown := by
  unfold viewportOK regionOK; decide +kernel

/-- The running tiny mode meets every invariant, and steps. -/
theorem scanOK_tinyRun (dbl : Bool) : scanOK (tinyRun dbl) := by
  refine ⟨⟨?_, fun _ => rfl, fun h => ?_, nofun, nofun, rfl⟩, ?_, fun _ => ?_, ?_, fun _ => .inl rfl⟩
  · cases dbl <;> decide +kernel
  · exact absurd h (by cases dbl <;> decide)
  · exact viewportOK_tiny dbl
  · cases dbl <;> decide +kernel
  · cases dbl <;> decide +kernel

theorem witness_DecodeEncodeRoundTrip : (Instr.copyRect ⟨-32768, 32767, 0, -1⟩ ⟨0, 32767⟩).wellFormed = true
    ∧ (Instr.drawGlyph ⟨-1, 0⟩ 255 255 4294967295).wellFormed = true
    ∧ (Instr.drawPath 4294967295 65535).wellFormed = true
    ∧ (Instr.hostWrite 5000000000 [1]).wellFormed = true := by decide

theorem witness_TagAloneSelects :
    (∀ k < 16, k = 0 ∨ 4 ≤ k → recByte 0x33FFFFFF00#128 k = recByte 0x3300000000#128 k)
    ∧ recByte 0xC300FFFF00#128 0 = recByte 0x0300000000#128 0
    ∧ decodePrim 0xC300FFFF00#128 = decodePrim 0x0300000000#128
    ∧ decodePrim 0x830000000F#128 = decodePrim 0x030000000F#128
    ∧ 0x1C ≤ (recByte 0x1C#128 0).toNat ∧ ¬0x1C ≤ (recByte 0x1B#128 0).toNat := by decide

theorem witness_ReservedRecordExecutes :
    0x1C ≤ (recByte 0x1C#128 0).toNat ∧ 0x1C ≤ (recByte 0xFF#128 0).toNat := by decide

/-- A drain in progress with a SwapBuffers first in the queue. -/
def draining : State := { tiny true with queue := [rec16 [0x17], rec16 [0, 0, 0, 0, 3]], inExecutor := true }

theorem witness_StepRunsDecodedRecord : engineTurn draining = false ∧ draining.inExecutor = true
    ∧ draining.queue = rec16 [0x17] :: [rec16 [0, 0, 0, 0, 3]] ∧ mustRequeue draining (rec16 [0x17]) = false
    ∧ decodePrim (rec16 [0x17]) = .ok .swapBuffers
    ∧ mustRequeue draining (rec16 [0x1C]) = false ∧ 0x1C ≤ (recByte (rec16 [0x1C]) 0).toNat := by decide +kernel

theorem witness_StepRunsDecodedHostOp :
    let s : State := { tiny false with program := [[0x83], [0x84]] }
    engineTurn s = false ∧ s.inExecutor = false ∧ isrEnterable s = false ∧ s.blocked = none ∧ s.immediate = none
      ∧ s.program = [0x83] :: [[0x84]] ∧ decodeHostOp [0x83] = .ok .suspend
      ∧ decodeHostOp [0x86] = .error (.malformedOperands 0x86) ∧ (0x7F#8).toNat < 0x80 ∧ 0x8F < (0x90#8).toNat := by
  decide +kernel

theorem witness_SetColours : recByte (0xFF00000000#128) 0 = 0x00 ∧ recByte (0xFF00000001#128) 0 = 0x01 := by decide

theorem witness_SetPointsAndClip : recByte 0x012CFFFB00000004#128 0 = 0x04 ∧ recByte 0x0000000A0000001A#128 0 = 0x1A
    ∧ recByte (rec16 [0x1B, 0, 0, 0, 8, 0, 0, 0, 9, 0, 9, 0]) 0 = 0x1B
    ∧ (∀ ax ay, inVP (tiny false) ax ay = true →
        inRect (leRect (rec16 [0x1B, 0, 0, 0, 8, 0, 0, 0, 9, 0, 9, 0]) 4) ax ay = false) := by
  refine ⟨by decide, by decide, by decide, fun ax ay h => ?_⟩
  have hr : leRect (rec16 [0x1B, 0, 0, 0, 8, 0, 0, 0, 9, 0, 9, 0]) 4 = ⟨8, 0, 9, 9⟩ := by decide
  have hw : (tiny false).vpWidth = 8 := by decide
  rw [hr, ← Bool.not_eq_true]
  simp only [inVP, hw, inRect, Bool.and_eq_true, decide_eq_true_eq] at h ⊢
  omega

theorem witness_SetOptions : recByte 0xFF0000000F#128 0 = 0x0F ∧ recByte 0x0200000010#128 0 = 0x10 := by decide

theorem witness_SetScrollingRegionClamps : 0 ≤ base.vpWidth ∧ 0 ≤ base.vpHeight
    ∧ (base.vpWidth = 0 ∨ base.vpHeight = 0) ∧ 0 < (tiny false).vpWidth ∧ 0 < (tiny false).vpHeight := by decide

/-- For the drawing statements: a state with pixels to write, and one with none (its viewport is empty). -/
theorem witness_drawing : viewportOK (tiny false) ∧ viewportOK base
    ∧ (∃ ax ay, inVP (tiny false) ax ay = true) ∧ ∀ ax ay, inVP base ax ay = false := by
  refine ⟨viewportOK_tiny false, ?_, ⟨0, 0, by decide⟩, fun ax ay => ?_⟩
  · unfold viewportOK regionOK; decide
  · have hw : base.vpWidth = 0 := by decide
    rw [← Bool.not_eq_true]
    simp only [inVP, hw, Bool.and_eq_true, decide_eq_true_eq]
    omega

theorem witness_PixelsPaintOnePoint : viewportOK (tiny false) := witness_drawing.1

theorem witness_LineToPaintsWalk : viewportOK (tiny true) := viewportOK_tiny true

theorem witness_RectanglesPaint : viewportOK shown := viewportOK_shown

theorem witness_EllipsesPaint : viewportOK (tiny false) := witness_drawing.1

theorem witness_EllipseShape : (1 = 0 ∨ 0 = 0) ∧ (1 : Nat) = 1 ∧ 0 < 1
    ∧ (⟨1 + 0, 1 + 1⟩ : Point) ∈ ellipseOutline ⟨1, 1⟩ 1 2 := by decide +kernel

theorem witness_ClearFills : viewportOK shown ∧ viewportOK base := ⟨viewportOK_shown, witness_drawing.2.1⟩

theorem witness_RecolourRectangles : viewportOK (painted [0xC5, 0xFF, 0xC0, 0xC3, 0xC0, 0xC0, 0xC0, 0xC0]) :=
  viewportOK_painted _ rfl

theorem witness_CopyRectIsOverlapSafe : viewportOK (painted [0xC3, 0xC4, 0xC1, 0xC2, 0xC7, 0xC8, 0xC5, 0xC6]) :=
  viewportOK_painted _ rfl

theorem witness_DrawBitmapIsAlphaThresholded : viewportOK sprited ∧ rangeLive sprited 0x1000 8 = true
    ∧ rangeLive sprited (memU32 sprited (0x1000 + 4)).toNat
        ((memU16 sprited 0x1000).toNat * (memU16 sprited (0x1000 + 2)).toNat) = true :=
  ⟨viewportOK_sprited, by decide +kernel, by decide +kernel⟩

theorem witness_PathsPaint : viewportOK sprited ∧ rangeLive sprited 0x1000 (4 * 5) = true
    ∧ rangeLive sprited 0x9000 (4 * 0) = true := ⟨viewportOK_sprited, by decide +kernel, by decide +kernel⟩

theorem witness_PathInteriorIsEvenOdd : edgeCrossing 1 (⟨0, 4⟩, ⟨4, 0⟩) = some ⟨12, 4⟩
    ∧ edgeCrossing 4 (⟨0, 4⟩, ⟨4, 0⟩) = none ∧ edgeCrossing 0 (⟨0, 4⟩, ⟨4, 0⟩) = some ⟨16, 4⟩
    ∧ min (4 : Int) 0 ≤ 0 ∧ (3 : Int) < max 4 0 := by decide +kernel

theorem witness_DrawGlyphPaintsCell : viewportOK sprited ∧ rangeLive sprited 0x1000 (2 * ((9 + 7) / 8)) = true
    ∧ rangeLive sprited 0x9000 (0 * ((9 + 7) / 8)) = true :=
  ⟨viewportOK_sprited, by decide +kernel, by decide +kernel⟩

/-- A glyph buffer at 0x1000: 4 by 1 glyphs, 2 columns, 1 row, map at 0x1010, font at 0x1018. -/
def glyphed : State :=
  hosted [4, 0, 1, 0, 0x18, 0x10, 0, 0, 2, 0, 1, 0, 0x10, 0x10, 0, 0, 0, 0, 0, 0, 1, 0, 3, 1, 0, 0xA0]

theorem witness_RenderGlyphsBufferPaintsCell : viewportOK glyphed ∧ rangeLive glyphed 0x1000 16 = true
    ∧ (glyphBuffer glyphed 0x1000).columns ≤ 2 ∧ 1 < (glyphBuffer glyphed 0x1000).columns
    ∧ 0 < (glyphBuffer glyphed 0x1000).rows ∧ 0 < (glyphBuffer glyphed 0x1000).glyphsWidth
    ∧ rangeLive glyphed (0x1010 + 4 * (0 * 2 + 1)) 4 = true ∧ rangeLive glyphed (0x1018 + 1 * ((4 + 7) / 8) * 1) 1 = true
    ∧ memU32 glyphed 0x1014 = 0x01030001 :=
  ⟨viewportOK_tiny false, by decide +kernel⟩

theorem witness_CellColourByOptions : (0 : Nat) < 1
    ∧ cellColour (hosted [0x81]) 0x1000 8 1 (glyphOpts 0x21) 3#6 0x30#6 0 0 = some 0x30#6
    ∧ cellColour (hosted [0x81]) 0x1000 8 1 (glyphOpts 0x21) 3#6 0x30#6 1 0 = some 3#6
    ∧ cellColour (hosted [0x81]) 0x1000 8 1 (glyphOpts 0x20) 3#6 0x30#6 1 0 = none := by decide +kernel

theorem witness_UnallocatedReferencesAreRecorded : rangeLive base 0 8 = false ∧ rangeLive base 0 (4 * 1) = false
    ∧ rangeLive base 0 (1 * ((1 + 7) / 8)) = false ∧ rangeLive base 0 16 = false
    ∧ rangeLive { sprited with live := [(0x1000, 0x1008)] } 0x1000 8 = true
    ∧ rangeLive { sprited with live := [(0x1000, 0x1008)] } (memU32 sprited 0x1004).toNat
        ((memU16 sprited 0x1000).toNat * (memU16 sprited 0x1002).toNat) = false := by decide +kernel

/-- The glyph buffer alone allocated, and the glyph buffer with its map but not its font. -/
theorem witness_UnallocatedReferencesAreRecorded_cell :
    let s : State := { glyphed with live := [(0x1000, 0x1010)] }
    let u : State := { glyphed with live := [(0x1000, 0x1018)] }
    let g := glyphBuffer glyphed 0x1000
    glyphBuffer s 0x1000 = g ∧ glyphBuffer u 0x1000 = g ∧ 1 < g.columns ∧ 0 < g.rows
      ∧ rangeLive s 0x1000 16 = true ∧ rangeLive s (g.map + 4 * (0 * g.columns + 1)) 4 = false
      ∧ rangeLive u 0x1000 16 = true ∧ rangeLive u (g.map + 4 * (0 * g.columns + 1)) 4 = true
      ∧ rangeLive u (g.font + 1 * 1 * g.glyphsHeight) (g.glyphsHeight * 1) = false
      ∧ ((memU32 u (g.map + 4 * (0 * g.columns + 1))).extractLsb' 0 8).toNat = 1 := by decide +kernel

/-- The scroll statements: an empty region, a shift by a whole turn, and a shift that moves something. -/
theorem witness_HScrollRotatesRows : viewportOK (tiny false) ∧ viewportOK base
    ∧ base.paint.scrollRegion.x2 < base.paint.scrollRegion.x1
    ∧ (16 : Int) % ((tiny false).paint.scrollRegion.x2 - (tiny false).paint.scrollRegion.x1 + 1) = 0
    ∧ (7 : Int) % ((tiny false).paint.scrollRegion.x2 - (tiny false).paint.scrollRegion.x1 + 1) ≠ 0
    ∧ (tiny false).paint.scrollRegion.x1 ≤ (tiny false).paint.scrollRegion.x2
    ∧ (tiny false).paint.scrollRegion.y1 ≤ (tiny false).paint.scrollRegion.y2 :=
  ⟨viewportOK_tiny false, witness_drawing.2.1, by decide, by decide, by decide, by decide, by decide⟩

theorem witness_VScrollRotatesRows : viewportOK (tiny true) ∧ viewportOK base
    ∧ base.paint.scrollRegion.y2 < base.paint.scrollRegion.y1
    ∧ (-4 : Int) % ((tiny true).paint.scrollRegion.y2 - (tiny true).paint.scrollRegion.y1 + 1) = 0
    ∧ (-1 : Int) % ((tiny true).paint.scrollRegion.y2 - (tiny true).paint.scrollRegion.y1 + 1) ≠ 0
    ∧ (tiny true).paint.scrollRegion.x1 ≤ (tiny true).paint.scrollRegion.x2
    ∧ (tiny true).paint.scrollRegion.y1 ≤ (tiny true).paint.scrollRegion.y2 :=
  ⟨viewportOK_tiny true, witness_drawing.2.1, by decide, by decide, by decide, by decide, by decide⟩

theorem next_of_look {α : Type} {o : Host.Outcome State Fault Refusal} {f : State → α} {a : α}
    (h : look o f = some a) : ∃ t, o = .next t ∧ f t = a := by
  cases o with
  | next t => exact ⟨t, rfl, Option.some.inj h⟩
  | fault r => cases h
  | refused r => cases h

/-- A primitive always answers a next state. -/
theorem prim_next (i : Instr) (s : State) (h : isPrimitive i = true) : ∃ t, exec i s = .next t :=
  (exec_primitive i s h).imp fun _ => And.left

theorem witness_ScrollingBackRestores : viewportOK (tiny false) ∧ (tiny false).spritesHidden = true
    ∧ (tiny false).params.channelDepth = .two
    ∧ (∃ t u, exec (.hScroll 3) (tiny false) = .next t ∧ exec (.hScroll (-3)) t = .next u)
    ∧ ∃ t u, exec (.vScroll 1) (tiny false) = .next t ∧ exec (.vScroll (-1)) t = .next u := by
  refine ⟨viewportOK_tiny false, by decide, by decide, ?_, ?_⟩
  · obtain ⟨t, ht⟩ := prim_next (.hScroll 3) (tiny false) rfl
    obtain ⟨u, hu⟩ := prim_next (.hScroll (-3)) t rfl
    exact ⟨t, u, ht, hu⟩
  · obtain ⟨t, ht⟩ := prim_next (.vScroll 1) (tiny false) rfl
    obtain ⟨u, hu⟩ := prim_next (.vScroll (-1)) t rfl
    exact ⟨t, u, ht, hu⟩

theorem witness_SetSpritesInstalls : overlapping.length ≤ sprited.params.maxSprites
    ∧ (∀ i ∈ overlapping, ∀ a ∈ i.frames, rangeLive sprited a 8 = true)
    ∧ ([⟨0, 0, [0x1000, 0x9000], 0, true, false⟩] : List SpriteInit).flatMap SpriteInit.frames = [0x1000] ++ 0x9000 :: []
    ∧ rangeLive sprited 0x1000 8 = true ∧ rangeLive sprited 0x9000 8 = false
    ∧ sprited.params.maxSprites < (overlapping ++ overlapping).length := by decide +kernel

theorem witness_SpriteFieldsWritten : installed.sprites[1]? = some (installSlot sprited ⟨1, 0, [0x1008], 0, true, false⟩)
    ∧ rangeLive installed 0x1008 8 = true ∧ rangeLive installed 0x9000 8 = false
    ∧ installed.sprites.length ≤ 2 := by decide +kernel

theorem witness_HideSpritesRestores : viewportOK shown ∧ shown.spritesHidden = false ∧ shown.doubleBuffered = false
    ∧ (∃ sp ∈ shown.sprites, savedAt sp 1 0 = true) ∧ viewportOK (tiny true) ∧ (tiny true).doubleBuffered = true
    ∧ (tiny true).spritesHidden = true :=
  ⟨viewportOK_shown, by decide +kernel, by decide +kernel, by decide +kernel, viewportOK_tiny true, rfl, rfl⟩

theorem witness_RefreshSpritesFrame : viewportOK shown := viewportOK_shown

/-- `sprited` with one sprite, at the viewport's right edge. -/
def single (isStatic : Bool) : State :=
  { sprited with sprites := [installSlot sprited ⟨7, 0, [0x1000], 0, true, isStatic⟩] }

/-- For the second clause: pixels that are gone behind a live header, and a header that is gone. -/
theorem witness_OneSpriteIsShown_dangling :
    let sp := installSlot sprited ⟨0, 0, [0x1000], 0, true, false⟩
    let sq := installSlot sprited ⟨1, 0, [0x1008], 0, true, false⟩
    freed.spritesHidden = true ∧ freed.sprites = [] ++ sp :: [sq] ∧ drawable sp = true
    ∧ sp.frames[sp.curFrame]? = some ⟨0x1000, 2, 1⟩ ∧ rangeLive freed (0x1000 + 4) 4 = true
    ∧ (memU32 freed (0x1000 + 4)).toNat = 0x1010 ∧ rangeLive freed 0x1010 (2 * 1) = false
    ∧ installed.sprites = [sp] ++ sq :: [] ∧ drawable sq = true
    ∧ sq.frames[sq.curFrame]? = some ⟨0x1008, 2, 1⟩
    ∧ rangeLive { installed with live := [(0x1000, 0x1008)] } (0x1008 + 4) 4 = false := by decide +kernel

theorem witness_OneSpriteIsShown (b : Bool) : viewportOK (single b) ∧ (single b).spritesHidden = true
    ∧ (single b).sprites = [installSlot sprited ⟨7, 0, [0x1000], 0, true, b⟩]
    ∧ drawable (installSlot sprited ⟨7, 0, [0x1000], 0, true, b⟩) = true
    ∧ (installSlot sprited ⟨7, 0, [0x1000], 0, true, b⟩).frames[0]? = some ⟨0x1000, 2, 1⟩
    ∧ rangeLive (single b) (0x1000 + 4) 4 = true
    ∧ rangeLive (single b) (memU32 (single b) (0x1000 + 4)).toNat (2 * 1) = true := by
  refine ⟨viewportOK_tiny false, ?_⟩
  cases b <;> decide +kernel

theorem witness_ShowThenHideRestores : viewportOK installed ∧ installed.doubleBuffered = false
    ∧ installed.spritesHidden = true ∧ (∀ sp ∈ installed.sprites, sp.savedRect = none)
    ∧ ∀ sp ∈ installed.sprites, sp.isStatic = false :=
  ⟨viewportOK_installed, by decide +kernel, by decide +kernel, by decide +kernel, by decide +kernel⟩

theorem witness_SwapBuffersFlips : viewportOK (tiny true) ∧ (tiny true).doubleBuffered = true
    ∧ viewportOK (tiny false) ∧ (tiny false).doubleBuffered = false :=
  ⟨viewportOK_tiny true, rfl, viewportOK_tiny false, rfl⟩

/-- The Producer waits on a full queue while suspended. -/
def stuck : State := { tiny false with queue := [1, 2], blocked := some 3, suspendCount := 1 }

/-- The Producer waits on a full queue while the Engine runs. -/
def waiting : State := { tinyRun false with queue := [1, 2], blocked := some 3 }

theorem scanOK_waiting : scanOK waiting := by
  obtain ⟨⟨h1, h2, h3, h4, -, h6⟩, h7, h8, h9⟩ := scanOK_tinyRun false
  exact ⟨⟨h1, h2, h3, h4, fun _ => rfl, h6⟩, h7, h8, h9⟩

/-- While the Producer waits, the Engine moves (R10, R201); with room again the record is appended. -/
theorem test_waiting : look (step waiting) (fun t => (t.tick, t.queue, t.blocked)) = some (1, [1, 2], some 3)
    ∧ look (step { waiting with queue := [2] }) (fun t => (t.tick, t.queue, t.blocked))
      = some (0, [2, 3], none) := by decide +kernel

theorem witness_AddPrimitiveQueuesOrWaits : (tiny false).backgroundExec = true
    ∧ ({ tiny false with queue := [1] } : State).queue.length < (tiny false).params.queueSpare + 1
    ∧ (tiny false).params.queueSpare + 1 ≤ ({ tiny false with queue := [1, 2] } : State).queue.length
    ∧ (engineTurn waiting = false ∧ waiting.inExecutor = false ∧ isrEnterable waiting = false
      ∧ waiting.immediate = none ∧ waiting.blocked = some 3 ∧ waiting.backgroundExec = true
      ∧ waiting.params.queueSpare + 1 ≤ waiting.queue.length ∧ waiting.engineRunning = true)
    ∧ scanOK waiting ∧ ({ waiting with queue := [1] } : State).queue.length < waiting.params.queueSpare + 1
    ∧ producerStuck stuck ∧ ∃ t, step stuck = .next t := by
  refine ⟨by decide, by decide, by decide, by decide +kernel, scanOK_waiting, by decide, by decide +kernel, ?_⟩
  obtain ⟨t, ht, -⟩ := next_of_look (show look (step stuck) (fun t => t.queue.length) = some 2 by decide +kernel)
  exact ⟨t, ht⟩

theorem witness_AddPrimitiveImmediateExecutes :
    let s : State := { tiny false with backgroundExec := false, immediate := some (rec16 [0, 0, 0, 0, 3]) }
    let d : State := { s with inExecutor := true, drainKind := .immediate, queue := [1, 2] }
    s.backgroundExec = false ∧ decodePrim (rec16 [0, 0, 0, 0, 3]) = .ok (.setPenColor 3#6)
      ∧ engineTurn s = false ∧ s.inExecutor = false ∧ s.immediate = some (rec16 [0, 0, 0, 0, 3])
      ∧ engineTurn d = false ∧ d.inExecutor = true ∧ d.drainKind = .immediate ∧ d.backgroundExec = false
      ∧ d.immediate.isSome = true ∧ d.queue = 1 :: [2] ∧ ({ d with queue := [] } : State).queue = [] := by
  decide +kernel

/-- A run that is going, one that has ended, and the two that are stuck (R365, R399). -/
theorem test_runStatus : runStatus { tinyRun false with program := [[0x83]] } = .going
    ∧ runStatus (tinyRun false) = .ended ∧ runStatus { tinyRun false with queue := [1], suspendCount := 1 } = .ended
    ∧ runStatus { tinyRun false with inExecutor := true, drainKind := .pump, suspendCount := 1 } = .going
    ∧ runStatus { tinyRun false with immediate := some 1, backgroundExec := false } = .going
    ∧ runStatus (tiny false) = .stuck ∧ runStatus { stuck with engineRunning := true } = .stuck
    ∧ (runFor 5 { tinyRun false with program := [[0x83]] }).1 = .ended
    ∧ (runFor 5 { tinyRun false with program := [[0x83]] }).2.suspendCount = 1 := by decide +kernel

theorem witness_ExecutionControl : ({ base with suspendCount := 1 } : State).suspendCount = 0 + 1
    ∧ base.suspendCount = 0 := by decide

theorem witness_PumpRunsQueueInOrder :
    let s : State := { tiny false with inExecutor := true, drainKind := .pump, suspendCount := 1, queue := [1, 2] }
    engineTurn s = false ∧ s.inExecutor = true ∧ s.drainKind = .pump ∧ s.queue = 1 :: [2]
      ∧ ({ s with queue := [] } : State).queue = [] ∧ s.doubleBuffered = false := by
  decide +kernel

/-- A pending interrupt that can be taken. -/
def pending : State := { tinyRun false with vsIntPending := true }

theorem witness_InterruptEntry : pending.vsIntPending = true ∧ pending.configured = true
    ∧ pending.engineRunning = true ∧ pending.suspendCount = 0 ∧ pending.backgroundExec = true
    ∧ pending.inExecutor = false ∧ engineTurn pending = false
    ∧ engineTurn { pending with ticksDue := 1 } = true := by decide

theorem witness_InterruptDrainTurn : engineTurn draining = false ∧ draining.inExecutor = true
    ∧ draining.drainKind = .isr ∧ ({ draining with queue := [] } : State).queue = []
    ∧ recByte (rec16 [0x17]) 0 = 0x17 ∧ ({ draining with drainFirst := false } : State).drainFirst = false
    ∧ draining.drainFirst = true ∧ decodePrim (rec16 [0x17]) = .ok .swapBuffers
    ∧ recByte (rec16 [0x16]) 0 ≠ 0x17 ∧ decodePrim (rec16 [0x16]) = .ok .refreshSprites
    ∧ recByte (rec16 [0x1C]) 0 ≠ 0x17 ∧ 0x1C ≤ (recByte (rec16 [0x1C]) 0).toNat := by decide +kernel

theorem witness_SwapOnlyFirstInDrain : ({ draining with drainFirst := false } : State).inExecutor = true
    ∧ ({ draining with drainFirst := false } : State).drainKind = .isr
    ∧ ∃ t, step { draining with drainFirst := false } = .next t := by
  refine ⟨rfl, rfl, ?_⟩
  obtain ⟨t, ht, -⟩ := next_of_look (show look (step { draining with drainFirst := false })
    (fun t => t.queue.length) = some 2 by decide +kernel)
  exact ⟨t, ht⟩

theorem witness_NoInterruptWhileSuspended :
    let s : State := { tiny false with suspendCount := 1, vsIntPending := true, program := [[0x85]] }
    s.inExecutor = false ∧ 0 < s.suspendCount ∧ ({ s with backgroundExec := false } : State).backgroundExec = false
      ∧ ∃ t, step s = .next t ∧ t.inExecutor = true := by
  refine ⟨rfl, by decide, rfl, ?_⟩
  obtain ⟨t, ht, h⟩ := next_of_look (show look (step
    { tiny false with suspendCount := 1, vsIntPending := true, program := [[0x85]] })
    (fun t => (t.suspendCount, t.inExecutor)) = some (2, true) by decide +kernel)
  exact ⟨t, ht, by injection h⟩

/-- The words of the tiny mode with a tab, several blanks and leading zeros. -/
def looseWords : List (List Byte × List Byte) :=
  [([0x09], keyword ['0', '1', '.', '5', '0']), ([0x20, 0x20], keyword ['0', '8']), ([0x20], keyword ['1', '2']),
    ([0x20], keyword ['1', '6']), ([0x20], keyword ['2', '0']), ([0x20, 0x09], keyword ['0', '0', '4']),
    ([0x20], keyword ['5']), ([0x20], keyword ['6']), ([0x20], keyword ['8']), ([0x20], kwMinusH),
    ([0x20], kwMinusV), ([0x20], kwDoubleScan), ([0x20], kwSync)]

/-- The last row of V2, in the tiny mode. -/
theorem test_parse_loose : parseModeline (modelineText [0x20, 0x20] tinyT.label looseWords [0x20]) =
    some { tinyT with clockMHz := ⟨15, 1⟩, scanCount := 2, hStartingBlock := .sync } := by decide +kernel

theorem witness_DecodeModelineMapsTokens : modelineParts [0x20, 0x20] tinyT.label looseWords [0x20]
    ∧ isUint (keyword ['0', '1']) ∧ isUint (keyword ['5', '0'])
    ∧ (∀ u ∈ [keyword ['0', '8'], keyword ['1', '2'], keyword ['1', '6'], keyword ['2', '0'],
        keyword ['0', '0', '4'], keyword ['5'], keyword ['6'], keyword ['8']], isUint u)
    ∧ looseWords.map Prod.snd =
        [keyword ['0', '1'] ++ (if keyword ['5', '0'] = [] then [] else 0x2E#8 :: keyword ['5', '0']),
          keyword ['0', '8'], keyword ['1', '2'], keyword ['1', '6'], keyword ['2', '0'],
          keyword ['0', '0', '4'], keyword ['5'], keyword ['6'], keyword ['8'],
          if SyncPol.neg = .pos then kwPlusH else kwMinusH, if SyncPol.neg = .pos then kwPlusV else kwMinusV]
        ++ (if true then [kwDoubleScan] else []) ++ ((some HBlock.sync).map blockWord).toList
    ∧ ¬modelineGrammar [] := by
  refine ⟨?_, ?_, ?_, ?_, by decide +kernel, ?_⟩
  · unfold modelineParts isSpace; decide +kernel
  · unfold isUint; decide +kernel
  · unfold isUint; decide +kernel
  · unfold isUint; decide +kernel
  · rintro ⟨_, _, _, _, h, -⟩
    simp [modelineText] at h

theorem witness_SetResolutionReconfigures : parseModeline tinyText = some tinyT
    ∧ timingsWF base.params tinyT = true := by decide +kernel

theorem witness_MoveScreenRedistributesPorches :
    let s : State := { tiny true with suspendCount := 1 }
    s.configured = true ∧ 0 < s.suspendCount ∧ timingsWF s.params (movedTimings (-4) 1 s.timings) = true
      ∧ ({ tiny true with backgroundExec := false } : State).backgroundExec = false := by decide +kernel

/-- The 4 by 2 viewport of a ShrinkScreen that fits exactly. -/
def narrow : State := { applyResolution tinyT 4 false 2 [] base with engineRunning := false, suspendCount := 1 }

theorem witness_ShrinkScreenRecentres : narrow.configured = true ∧ 0 < narrow.suspendCount
    ∧ timingsWF narrow.params (shrunkTimings 0 1 narrow.timings) = true
    ∧ narrow.vpWidth ≤ (shrunkTimings 0 1 narrow.timings).hVisible
    ∧ narrow.vpHeight ≤ (shrunkTimings 0 1 narrow.timings).vVisible := by decide +kernel

theorem witness_ConfigurationTurnedAway : parseModeline tinyText.tail = none
    ∧ parseModeline tinyText = some tinyT ∧ timingsWF State.reset.params { tinyT with hVisible := 0 } = false
    ∧ base.configured = false ∧ (tiny false).configured = true ∧ (tiny false).suspendCount = 0
    ∧ (tiny false).backgroundExec = true ∧ timingsWF base.params (movedTimings 8 0 tinyT) = false
    ∧ timingsWF base.params (shrunkTimings 2 0 tinyT) = false
    ∧ timingsWF base.params (shrunkTimings 0 1 tinyT) = true ∧ tinyT.vVisible - 2 * 1 < (tiny false).vpHeight := by
  decide +kernel

/-- A modeline that parses to timings that are not well formed, whatever the capacities. -/
theorem witness_ConfigurationTurnedAway_malformed : ∃ t,
    parseModeline (tinyText.take 9 ++ 0x32 :: tinyText.drop 9) = some t ∧ timingsWF base.params t = false := by
  refine ⟨_, rfl, ?_⟩
  decide +kernel

theorem witness_BlankLinesCarrySync : timingsWF base.params tinyT = true
    ∧ timingsWF base.params { tinyT with hStartingBlock := .backPorch, hSyncPol := .pos } = true
    ∧ (0 : Int) < hTotal tinyT ∧ (19 : Int) < hTotal tinyT ∧ base.params.channelDepth = .two := by
  decide +kernel

/-- Depth one, with a bit map that gives each signal a bit of its own. -/
def depthOne : Params := { base.params with channelDepth := .one, channelBitMap1 := some ⟨0, 1, 2, 6, 7⟩ }

theorem witness_BlankLinesCarrySync_depthOne : depthOne.channelDepth = .one
    ∧ depthOne.channelBitMap1 = some ⟨0, 1, 2, 6, 7⟩ ∧ ([0, 1, 2, 6, 7] : List (Fin 8)).Nodup := by decide

/-- D5 and C2: a blank byte of depth one has its sync levels and no colour. -/
theorem test_depthOne_blank : pixbyte depthOne true false 0 = 0x80 ∧ pixbyte depthOne false true 0 = 0x40 := by
  decide +kernel

theorem witness_ChainPlaysOneFrame : timingsWF base.params tinyT = true ∧ (0 : Int) ≤ 4 ∧ (4 : Int) % 4 = 0
    ∧ (0 : Int) ≤ 2 ∧ (4 : Int) + 4 ≤ tinyT.hVisible ∧ (2 : Int) + 2 ≤ tinyT.vVisible
    ∧ (([5, 6] : List Nat).length : Int) = 2 ∧ (([] : List Nat).length : Int) = 0 ∧ 0 < tinyT.scanCount
    ∧ 0 < (chain tinyT ⟨4, 2, 4, 2⟩ .zero [5, 6]).length := by decide

theorem witness_ReadPixelReadsBack : viewportOK (tiny false) ∧ (tiny false).configured = true
    ∧ (tiny false).paint.invertNot = false
    ∧ inClip (tiny false) (7 + (tiny false).paint.origin.x) (3 + (tiny false).paint.origin.y) = true
    ∧ ∃ t, exec (.setPixelAt ⟨7, 3⟩ 5#6) (tiny false) = .next t :=
  ⟨viewportOK_tiny false, rfl, rfl, by decide, prim_next _ _ rfl⟩

theorem witness_HostMemoryOperations : storesOK (hosted [1, 2, 3])
    ∧ (∀ k < ([9, 9] : List Byte).length, Ranges.contains (hosted [1, 2, 3]).live (0x1001 + k) = true)
    ∧ (∃ k < ([9, 9] : List Byte).length, Ranges.contains (hosted [1, 2, 3]).live (0x1002 + k) = false) := by
  unfold storesOK; decide +kernel

/-- Inside the first descriptor of the chain, at its last byte. -/
def atEnd : State :=
  { tinyRun false with cur := .entry .zero 0, lat := ((tinyRun false).desc.zero)[0]?.getD (Desc.linkTo .sentinel), pos := 11 }

/-- The same, with the latched descriptor of length zero. -/
def zeroLength : State := { atEnd with lat := { atEnd.lat with length := 0 } }

/-- U23: a zero-length descriptor records DescriptorNotOwned and halts the Engine. -/
theorem test_zero_length_halts : engineTick zeroLength =
    { zeroLength with engineRunning := false, faults := [.descriptorNotOwned (.entry .zero 0)] } := by decide +kernel

theorem witness_EngineEmitsOneByte : atEnd.engineRunning = true ∧ atEnd.cur ≠ .sentinel ∧ 0 < atEnd.lat.length
    ∧ atEnd.lat.owner = .dma ∧ bufferOf atEnd atEnd.lat.buf = some atEnd.blank0
    ∧ atEnd.blank0[atEnd.lat.offset + (atEnd.pos ^^^ 2)]? = some 0xC0 ∧ atEnd.pos + 1 = atEnd.lat.length
    ∧ ({ atEnd with pos := 0 } : State).pos + 1 ≠ atEnd.lat.length
    ∧ ({ atEnd with lat := danglingDesc } : State).lat.owner = .cpu
    ∧ zeroLength.engineRunning = true ∧ zeroLength.cur ≠ .sentinel ∧ zeroLength.lat.length = 0
    ∧ bufferOf atEnd ({ atEnd.lat with buf := .none } : Desc).buf = none
    ∧ (tinyRun false).cur = .sentinel ∧ (tinyRun false).sentinel.next = .entry .zero 0
    ∧ ((tinyRun false).desc.get .zero)[0]? = some atEnd.lat
    ∧ (tiny false).engineRunning = false ∧ (tiny false).configured = true := by decide +kernel

/-- For the statements about every step: states that meet all the invariants, and steps from them. -/
theorem witness_StepKeepsRecords : storesOK (tinyRun true) ∧ boundsOK (tinyRun true) ∧ outputOK (tinyRun true)
    ∧ spritesOK (tinyRun true) ∧ controlOK (tinyRun true) ∧ ∃ t, step { tinyRun true with ticksDue := 1 } = .next t :=
  ⟨by unfold storesOK; decide, by unfold boundsOK; decide, rfl, fun _ sp h => (List.not_mem_nil h).elim,
    (scanOK_tinyRun true).1, _, step_of_engineTurn rfl⟩

theorem witness_StepKeepsScanOut : scanOK (tinyRun false) ∧ (tinyRun false).engineRunning = true
    ∧ (∀ r, FaultRecord.descriptorNotOwned r ∉ (tinyRun false).faults)
    ∧ ∃ t, step { tinyRun false with ticksDue := 1 } = .next t :=
  ⟨scanOK_tinyRun false, rfl, fun _ h => (List.not_mem_nil h).elim, _, step_of_engineTurn rfl⟩

theorem witness_StepIsMonotone : ∃ t, step { tinyRun false with ticksDue := 1, refused := true } = .next t :=
  ⟨_, step_of_engineTurn rfl⟩

theorem witness_OnlyTheirWritersWrite : (∃ t, exec .clear (tiny false) = .next t)
    ∧ (∃ t, exec .suspend (tiny false) = .next t) ∧ writesTimings .clear = false ∧ isSetResolution .clear = false
    ∧ isHostWrite .clear = false ∧ writesLive .clear = false ∧ isPrimitive .clear = true
    ∧ isPrimitive .suspend = false ∧ beginsDrain .suspend = false ∧ writesRows .suspend = false
    ∧ writesSprites .suspend = false ∧ isVScroll .clear = false ∧ isSwapBuffers .clear = false
    ∧ movesEngine .suspend = false ∧ writesSuspension .clear = false ∧ isEnableBackground .clear = false
    ∧ isAddPrimitive .clear = false ∧ returnsValue .clear = false ∧ beginsDrain .clear = false :=
  ⟨prim_next _ _ rfl, ⟨_, rfl⟩, rfl, rfl, rfl, rfl, rfl, rfl, rfl, rfl, rfl, rfl, rfl, rfl, rfl, rfl, rfl, rfl, rfl⟩

end Sys2Proof.Tests
end

section
/-! PROOFS. What every step keeps (R7, R44, R362, R364, R376): the records of faults, refusals and output
only grow, the tick and the configuration never go back, and the parameters stay. -/

namespace Sys2Proof.Machine

/-! ### Growing -/

/-- From `s` to `t` nothing recorded is taken back and no parameter changes. -/
def onlyGrows (s t : State) : Prop :=
  s.faults <+: t.faults ∧ (s.refused = true → t.refused = true) ∧ s.out <+: t.out ∧ s.tick ≤ t.tick
    ∧ (s.configured = true → t.configured = true) ∧ t.params = s.params

theorem onlyGrows.refl (s : State) : onlyGrows s s :=
  ⟨⟨[], List.append_nil _⟩, id, ⟨[], List.append_nil _⟩, le_rfl, id, rfl⟩

theorem onlyGrows.trans {s t u : State} (h : onlyGrows s t) (k : onlyGrows t u) : onlyGrows s u := by
  obtain ⟨hf, hr, ho, ht, hc, hp⟩ := h
  obtain ⟨kf, kr, ko, kt, kc, kp⟩ := k
  exact ⟨hf.trans kf, kr ∘ hr, ho.trans ko, ht.trans kt, kc ∘ hc, kp.trans hp⟩

theorem raise_onlyGrows (f : FaultRecord) (s : State) : onlyGrows s (raise f s) :=
  ⟨⟨[f], rfl⟩, id, ⟨[], List.append_nil _⟩, le_rfl, id, rfl⟩

theorem refuse_onlyGrows (s : State) : onlyGrows s (refuse s) :=
  ⟨⟨[], List.append_nil _⟩, fun _ => rfl, ⟨[], List.append_nil _⟩, le_rfl, id, rfl⟩

/-- Engine ticks let faults, output and tick grow; the rest must be the same. -/
theorem engineMoved.onlyGrows {s t : State} (h : engineMoved s t) (hr : t.refused = s.refused)
    (hc : t.configured = s.configured) (hp : t.params = s.params) : onlyGrows s t := by
  obtain ⟨⟨o, ho, ht⟩, ⟨f, hf, -⟩, -⟩ := h
  exact ⟨⟨f, hf.symm⟩, hr ▸ id, ⟨o, ho.symm⟩, by omega, hc ▸ id, hp⟩

theorem engineTick_onlyGrows (s : State) : onlyGrows s (engineTick s) :=
  (engineTick_moved s).onlyGrows (by simp) (by simp) (by simp)

/-! ### Drawing and sprites -/

theorem hideSprites_onlyGrows (s : State) : onlyGrows s (hideSprites s) :=
  (hideSprites_moved s).onlyGrows (by simp) (by simp) (by simp)

/-- Hiding at once takes no tick and records nothing. -/
theorem hideSpritesAtOnce_onlyGrows (s : State) : onlyGrows s (hideSpritesAtOnce s) := by
  rw [hideSpritesAtOnce_eq]
  exact .refl s

theorem draw_onlyGrows (ws : State → List Write) (s : State) : onlyGrows s (draw ws s) :=
  (draw_moved ws s).onlyGrows (by simp) (by simp) (by simp)

theorem vScrollBy_onlyGrows (dy : Int) (s : State) : onlyGrows s (vScrollBy dy s) :=
  have h := (vScrollBy_primOnly dy s).eq
  (vScrollBy_moved dy s).onlyGrows (congrArg State.refused h :) (congrArg State.configured h :)
    (congrArg State.params h :)

theorem showSprite_onlyGrows (i : Nat) (s : State) : onlyGrows s (showSprite i s) := by
  rcases showSprite_cases i s with h | ⟨a, n, h⟩ | ⟨sp, f, d, -, -, -, -, -, -, h⟩ <;> rw [h]
  · exact .refl s
  · exact raise_onlyGrows _ s
  · have hd := (drawSprite_drawingOnly i sp f d s).eq
    exact (drawSprite_moved i sp f d s).onlyGrows (congrArg State.refused hd :)
      (congrArg State.configured hd :) (congrArg State.params hd :)

theorem showFrom_onlyGrows (n i : Nat) (s : State) : onlyGrows s (showFrom n i s) := by
  induction n generalizing i s with
  | zero => exact .refl s
  | succ n ih => exact (showSprite_onlyGrows i s).trans (ih _ _)

theorem showSprites_onlyGrows (s : State) : onlyGrows s (showSprites s) := by
  unfold showSprites
  split
  · exact .refl s
  · exact showFrom_onlyGrows s.sprites.length 0 s

theorem endDrain_onlyGrows (s : State) : onlyGrows s (endDrain s) := by
  have h : onlyGrows s (showAtEnd s) := by
    unfold showAtEnd
    split
    · exact showSprites_onlyGrows s
    · exact .refl s
  exact h

/-! ### Primitives and records -/

theorem recordParts_onlyGrows : RecordParts onlyGrows where
  refl := .refl
  trans := .trans
  paint s _ _ := .refl s
  dangling s _ _ := raise_onlyGrows _ s
  draw ws s _ := draw_onlyGrows ws s
  vScroll dy s _ _ := vScrollBy_onlyGrows dy s
  refresh s := (hideSprites_onlyGrows s).trans (showSprites_onlyGrows _)
  swap s _ :=
    have hgap := (gap_moved (showSprites s)).onlyGrows (by simp) (by simp) (by simp)
    (showSprites_onlyGrows s).trans hgap
  reserved s _ := raise_onlyGrows _ s
  start s _ := .refl s
  cost s := (costTicks_moved s).onlyGrows (by simp) (by simp) (by simp)

/-! ### Host operations -/

/-- The configuration operations that rebuild the scan-out leave the record as it is. -/
theorem rebuildScan_onlyGrows (t : Timings) (g : Geometry) (s : State) : onlyGrows s (rebuildScan t g s) :=
  .refl s

theorem applyResolution_onlyGrows (t : Timings) (rw : Int) (dbl : Bool) (ah : Nat) (split : List Nat)
    (s : State) : onlyGrows s (applyResolution t rw dbl ah split s) :=
  ⟨⟨[], List.append_nil _⟩, id, ⟨[], List.append_nil _⟩, le_rfl, fun _ => rfl, rfl⟩

theorem exec_onlyGrows (i : Instr) {s t : State} (h : exec i s = .next t) : onlyGrows s t := by
  cases hi : isPrimitive i with
  | true => exact recordParts_onlyGrows.exec i hi s t h
  | false =>
    cases i with
    | decodeModeline | suspend | processPrimitives | enableBackgroundExecution | readPixel | hostAlloc
      | hostFree => cases h; exact .refl s
    | setResolution text rw rh dbl =>
      simp only [exec, execSetResolution] at h
      split at h
      · cases h; exact .refl s
      · split at h <;> cases h
        · exact applyResolution_onlyGrows _ _ _ _ _ { s with draws := s.draws + 1 }
        · exact raise_onlyGrows _ s
    | addPrimitive P =>
      simp only [exec, execAddPrimitive] at h
      split at h
      · split at h <;> cases h <;> exact .refl s
      · cases h; exact .refl s
    | resume =>
      simp only [exec, execResume] at h
      split at h <;> cases h
      · exact raise_onlyGrows _ s
      · exact .refl s
    | moveScreen dx dy =>
      simp only [exec, execMoveScreen] at h
      split_ifs at h <;> cases h
      · exact refuse_onlyGrows s
      · exact raise_onlyGrows _ s
      · exact rebuildScan_onlyGrows _ _ s
      · exact raise_onlyGrows _ s
    | shrinkScreen sx sy =>
      simp only [exec, execShrinkScreen] at h
      split_ifs at h <;> cases h
      · exact refuse_onlyGrows s
      · exact raise_onlyGrows _ s
      · exact raise_onlyGrows _ s
      · exact raise_onlyGrows _ s
      · exact rebuildScan_onlyGrows _ _ s
    | setSprites slots =>
      simp only [exec, execSetSprites] at h
      split at h
      · have hide := hideSpritesAtOnce_onlyGrows s
        split at h <;> cases h
        · exact hide.trans (raise_onlyGrows _ _)
        · exact hide
      · cases h; exact refuse_onlyGrows s
    | spriteWrite slot upd =>
      simp only [exec, execSpriteWrite] at h
      split at h <;> cases h
      · exact .refl s
      · exact refuse_onlyGrows s
    | spriteAddFrame slot bmp =>
      simp only [exec, execSpriteAddFrame] at h
      split at h
      · split at h <;> cases h
        · exact .refl s
        · exact raise_onlyGrows _ s
      · cases h; exact refuse_onlyGrows s
    | hostWrite addr bytes =>
      simp only [exec, execHostWrite] at h
      split at h <;> cases h
      · exact .refl s
      · exact refuse_onlyGrows s
    | _ => cases hi

/-! ### Steps -/

theorem drainStep_onlyGrows {s u : State} (h : drainStep exec s = .next u) : onlyGrows s u := by
  rcases drainStep_cases h with ⟨-, rfl⟩ | ⟨P, ps, v, -, -, hrun, rfl⟩
  · exact endDrain_onlyGrows s
  · have hrec : onlyGrows s v := recordParts_onlyGrows.runRecord P { s with queue := ps } v hrun
    refine hrec.trans ?_
    unfold afterPrimitive
    dsimp only
    split
    · exact endDrain_onlyGrows { v with drainFirst := false }
    · exact .refl v

theorem producerStep_onlyGrows {s u : State} (h : producerStep exec s = .next u) : onlyGrows s u := by
  rcases producer_cases h with ⟨P, -, hP⟩ | ⟨-, P, -, -, hP⟩ | ⟨-, -, -, rfl⟩ | ⟨-, -, -, rfl⟩
    | ⟨-, -, op, rest, -, ⟨i, -, hi⟩ | rfl⟩
  · obtain ⟨v, hv, rfl⟩ := mapNext_eq hP
    exact recordParts_onlyGrows.runRecord P (enterDrain .immediate { s with immediate := none }) v hv
  · exact exec_onlyGrows (.addPrimitive P) (s := { s with blocked := none }) hP
  · exact engineTick_onlyGrows s
  · exact engineTick_onlyGrows s
  · exact exec_onlyGrows i (s := { s with program := rest }) hi
  · exact refuse_onlyGrows s

theorem reschedule_onlyGrows (s : State) : onlyGrows s (reschedule s) := .refl s

theorem step_onlyGrows {s t : State} (h : step s = .next t) : onlyGrows s t := by
  rcases step_cases h with ⟨-, rfl⟩ | ⟨-, -, u, hu, rfl⟩ | ⟨-, -, -, rfl⟩ | ⟨-, -, -, u, hu, rfl⟩
  · exact engineTick_onlyGrows s
  · exact (drainStep_onlyGrows hu).trans (reschedule_onlyGrows u)
  · exact .refl s
  · exact (producerStep_onlyGrows hu).trans (reschedule_onlyGrows u)

/-- Settles O59: every agent's move only lets the records grow. -/
theorem stepIsMonotone : Obligations.StepIsMonotone := fun _ _ h => step_onlyGrows h

end Sys2Proof.Machine
end

section
/-! PROOFS. In a coherent state the Engine has a byte at every tick: every descriptor of the chains is one it
can play (R134, R135, R138), and so is what it finds when it leaves the sentinel (R136). -/

namespace Sys2Proof.Machine

/-! ### Well-formed timings (R126) -/

/-- What the chain's arithmetic needs of well-formed timings. -/
theorem timingsWF_arith {p : Params} {t : Timings} (h : timingsWF p t = true) :
    0 < t.hVisible ∧ t.hVisible % 4 = 0 ∧ 0 < hTotal t ∧ hTotal t % 4 = 0 ∧ 0 ≤ visStart t
      ∧ visStart t % 4 = 0 ∧ visStart t + t.hVisible ≤ hTotal t ∧ 0 < vTotal t ∧ 0 < t.scanCount := by
  simp only [timingsWF, Bool.and_eq_true, Bool.or_eq_true, decide_eq_true_eq] at h
  unfold hTotal vTotal visStart
  cases t.hStartingBlock <;> dsimp only <;> omega

@[simp] theorem blankLine_length (p : Params) (t : Timings) (v : Bool) :
    (blankLine p t v).length = (hTotal t).toNat := by simp [blankLine]

/-! ### Segments (R134, R135) -/

/-- The segment takes whole groups of four clocks, one group at least, and its bytes exist. -/
def segmentFits (s : State) (sg : Segment) : Prop :=
  0 < sg.length ∧ sg.length % 4 = 0
    ∧ ∃ bytes, bufferOf s sg.buf = some bytes ∧ sg.offset + sg.length ≤ bytes.length

theorem chainOK.bufferOf_blank {s : State} (hc : chainOK s) (hconf : s.configured = true) (v : Bool) :
    bufferOf s (.blank v) = some (blankLine s.params s.timings v) := by
  obtain ⟨-, -, -, -, -, -, h0, h1, -⟩ := hc hconf
  cases v
  · exact congrArg some h0
  · exact congrArg some h1

/-- A part of a blank buffer. -/
theorem segmentFits_blank {s : State} (hc : chainOK s) (hconf : s.configured = true) {v : Bool}
    {off len : Int} {e : Bool} (hoff : 0 ≤ off) (hpos : 0 < len) (hlen : len % 4 = 0)
    (hend : off + len ≤ hTotal s.timings) : segmentFits s ⟨.blank v, off.toNat, len.toNat, e⟩ := by
  refine ⟨by dsimp only; omega, by dsimp only; omega, _, hc.bufferOf_blank hconf v, ?_⟩
  rw [blankLine_length]
  dsimp only
  omega

/-- The row map of a bank that has a chain. -/
theorem viewportOK.rowMap_length {s : State} (hv : viewportOK s) {b : Bank}
    (hb : b = .zero ∨ s.doubleBuffered = true) : (s.rowMap.get b).length = s.vpHeight.toNat := by
  obtain ⟨-, -, -, -, -, hz, ho, -⟩ := hv
  cases b with
  | zero => exact hz
  | one => simpa [PerBank.get, show s.doubleBuffered = true by simpa using hb] using ho

/-- A row of the viewport. -/
theorem segmentFits_row {s : State} (hv : viewportOK s) {b : Bank} (hb : b = .zero ∨ s.doubleBuffered = true)
    {y : Nat} {e : Bool} (hy : (y : Int) < s.vpHeight) :
    segmentFits s ⟨.row ((s.rowMap.get b).getD y 0), 0, s.vpWidth.toNat, e⟩ := by
  have hlt : y < (s.rowMap.get b).length := by rw [hv.rowMap_length hb]; omega
  have hp : (s.rowMap.get b).getD y 0 < s.rows.length :=
    hv.bank_lt b y _ (by rw [List.getElem?_eq_getElem hlt, List.getD_eq_getElem _ _ hlt])
  obtain ⟨hw, hw4, -, h0, hrows, -⟩ := hv
  refine ⟨by dsimp only; omega, by dsimp only; omega, _, List.getElem?_eq_getElem hp, ?_⟩
  rw [hrows _ (List.getElem_mem hp)]
  dsimp only
  omega

theorem viewportLine_lt {t : Timings} {g : Geometry} {l y : Nat} (h : viewportLine t g l = some y) :
    (y : Int) < g.vpHeight := by
  unfold viewportLine at h
  dsimp only at h
  split at h <;> cases h
  omega

theorem segmentFits_of_mem_line {s : State} (hv : viewportOK s) (hc : chainOK s) (hconf : s.configured = true)
    {b : Bank} (hb : b = .zero ∨ s.doubleBuffered = true) {l : Nat} {sg : Segment}
    (h : sg ∈ lineSegments s.timings (geometry s) (s.rowMap.get b) l) : segmentFits s sg := by
  obtain ⟨hwf, hcol, hcol4, hright, -⟩ := hc hconf
  obtain ⟨-, -, ht, ht4, hvis, hvis4, hvisEnd, -⟩ := timingsWF_arith hwf
  unfold lineSegments at h
  split at h
  · rename_i y hy
    have hrow : segmentFits s ⟨.row ((s.rowMap.get b).getD y 0), 0, s.vpWidth.toNat, false⟩ :=
      segmentFits_row hv hb (viewportLine_lt hy)
    obtain ⟨hw, hw4, -⟩ := hv
    have hpreLen : preLen s.timings (geometry s) = visStart s.timings + s.vpCol := rfl
    have hpostLen : postLen s.timings (geometry s)
        = hTotal s.timings - preLen s.timings (geometry s) - s.vpWidth := rfl
    have hwidth : (geometry s).vpWidth = s.vpWidth := rfl
    simp only [viewportSegments, List.mem_append, List.mem_cons, List.mem_ite_nil_right, List.not_mem_nil,
      or_false] at h
    rcases h with ⟨hpre, rfl⟩ | rfl | ⟨hpost, rfl⟩
    · exact segmentFits_blank hc hconf le_rfl hpre (by omega) (by omega)
    · exact hrow
    · exact segmentFits_blank hc hconf (by omega) hpost (by omega) (by omega)
  · cases List.mem_singleton.1 h
    exact segmentFits_blank hc hconf le_rfl ht ht4 (by omega)

/-- The `eof` mark changes nothing that fitting depends on. -/
theorem segmentFits_of_mem_markLast {s : State} {l : List Segment} (hl : ∀ sg ∈ l, segmentFits s sg) :
    ∀ sg ∈ markLast l, segmentFits s sg := by
  induction l with
  | nil => exact hl
  | cons a l ih =>
    have ha := hl a List.mem_cons_self
    cases l with
    | nil => intro sg h; cases List.mem_singleton.1 h; exact ha
    | cons c l =>
      intro sg h
      rcases List.mem_cons.1 h with rfl | h
      · exact ha
      · exact ih (fun sg hsg => hl sg (List.mem_cons_of_mem _ hsg)) sg h

theorem segmentFits_of_mem_frame {s : State} (hv : viewportOK s) (hc : chainOK s) (hconf : s.configured = true)
    {b : Bank} (hb : b = .zero ∨ s.doubleBuffered = true) {sg : Segment}
    (h : sg ∈ frameSegments s.timings (geometry s) (s.rowMap.get b)) : segmentFits s sg := by
  obtain ⟨l, -, h⟩ := List.mem_flatMap.1 h
  obtain ⟨r, -, h⟩ := List.mem_flatMap.1 h
  have hline := fun sg => segmentFits_of_mem_line (sg := sg) (l := l) hv hc hconf hb
  unfold scanSegments at h
  split at h
  · exact segmentFits_of_mem_markLast hline sg h
  · exact hline sg h

theorem lineSegments_ne_nil (t : Timings) (g : Geometry) (m : List Nat) (l : Nat) :
    lineSegments t g m l ≠ [] := by
  unfold lineSegments
  split <;> simp [viewportSegments]

theorem markLast_ne_nil {l : List Segment} (h : l ≠ []) : markLast l ≠ [] := by
  match l with
  | [_] => simp [markLast]
  | _ :: _ :: _ => simp [markLast]

theorem scanSegments_ne_nil (t : Timings) (g : Geometry) (m : List Nat) (l r : Nat) :
    scanSegments t g m l r ≠ [] := by
  unfold scanSegments
  split
  · exact markLast_ne_nil (lineSegments_ne_nil t g m l)
  · exact lineSegments_ne_nil t g m l

/-- A frame has a first line, and that line a first repetition with a segment. -/
theorem frameSegments_ne_nil {p : Params} {t : Timings} (h : timingsWF p t = true) (g : Geometry)
    (m : List Nat) : frameSegments t g m ≠ [] := by
  obtain ⟨-, -, -, -, -, -, -, hv, hscan⟩ := timingsWF_arith h
  intro hnil
  have hline := List.flatMap_eq_nil_iff.1 hnil 0 (by simpa using hv)
  exact scanSegments_ne_nil t g m 0 0 (List.flatMap_eq_nil_iff.1 hline 0 (by simpa using hscan))

/-! ### Descriptors (R135) -/

@[simp] theorem linkSegments_length (b : Bank) (i : Nat) (l : List Segment) :
    (linkSegments b i l).length = l.length := by
  induction l generalizing i with
  | nil => rfl
  | cons sg l ih => simp [linkSegments, ih]

/-- Each descriptor is made from one of the segments, and linked to the sentinel or inside the list. -/
theorem mem_linkSegments {b : Bank} {i : Nat} {l : List Segment} {d : Desc} (h : d ∈ linkSegments b i l) :
    ∃ sg ∈ l, d.owner = .dma ∧ d.buf = sg.buf ∧ d.offset = sg.offset ∧ d.length = sg.length
      ∧ (d.next = .sentinel ∨ ∃ j, d.next = .entry b j ∧ j < i + l.length) := by
  induction l generalizing i with
  | nil => cases h
  | cons a l ih =>
    rcases List.mem_cons.1 h with rfl | h
    · refine ⟨a, List.mem_cons_self, rfl, rfl, rfl, rfl, ?_⟩
      cases l with
      | nil => exact .inl rfl
      | cons c l => exact .inr ⟨i + 1, rfl, by simp⟩
    · obtain ⟨sg, hsg, howner, hbuf, hoff, hlen, hnext⟩ := ih h
      refine ⟨sg, List.mem_cons_of_mem _ hsg, howner, hbuf, hoff, hlen, hnext.imp_right ?_⟩
      rintro ⟨j, hj, hlt⟩
      exact ⟨j, hj, by rw [List.length_cons]; omega⟩

/-- The descriptor array of a bank in use is its chain. -/
theorem chainOK.desc_get {s : State} (hc : chainOK s) (hconf : s.configured = true) {b : Bank}
    (hb : b = .zero ∨ s.doubleBuffered = true) :
    s.desc.get b = chain s.timings (geometry s) b (s.rowMap.get b) := by
  obtain ⟨-, -, -, -, -, -, -, -, hz, ho⟩ := hc hconf
  cases b with
  | zero => exact hz
  | one => simpa [PerBank.get, show s.doubleBuffered = true by simpa using hb] using ho

/-- The Engine can play every descriptor of a bank in use. -/
theorem playable_of_mem_desc {s : State} (hv : viewportOK s) (hc : chainOK s) (hconf : s.configured = true)
    {b : Bank} (hb : b = .zero ∨ s.doubleBuffered = true) {d : Desc} (h : d ∈ s.desc.get b) :
    playable s d := by
  have hdesc := hc.desc_get hconf hb
  rw [hdesc] at h
  obtain ⟨sg, hsg, howner, hbuf, hoff, hlen, hnext⟩ := mem_linkSegments h
  obtain ⟨hpos, hlen4, hbytes⟩ := segmentFits_of_mem_frame hv hc hconf hb hsg
  refine ⟨howner, hlen ▸ hpos, hlen ▸ hlen4, by rwa [hbuf, hoff, hlen], hnext.imp_right ?_⟩
  rintro ⟨j, hj, hlt⟩
  exact ⟨b, j, hj, by rw [hdesc, chain, linkSegments_length]; omega⟩

/-! ### The Engine's tick (R138) -/

theorem visBank_inUse (s : State) : visBank s = .zero ∨ s.doubleBuffered = true := by
  cases h : s.doubleBuffered
  · exact .inl (by simp [visBank, h])
  · exact .inr rfl

/-- The first descriptor of the visible bank, onto which the Engine moves from the sentinel (R136). -/
theorem playable_deref_visBank {s : State} (hv : viewportOK s) (hc : chainOK s) (hconf : s.configured = true) :
    playable s (deref s (visBank s) 0) := by
  have hb := visBank_inUse s
  obtain ⟨hwf, -⟩ := hc hconf
  have hlen : 0 < (s.desc.get (visBank s)).length := by
    rw [hc.desc_get hconf hb, chain, linkSegments_length]
    exact List.length_pos_iff.2 (frameSegments_ne_nil hwf _ _)
  rw [deref, List.getElem?_eq_getElem hlen]
  exact playable_of_mem_desc hv hc hconf hb (List.getElem_mem hlen)

/-- Off the sentinel, a running Engine stands inside a descriptor it can play. -/
theorem leaveSentinel_plays {s : State} (h : scanOK s) (hrun : s.engineRunning = true) :
    (leaveSentinel s).cur ≠ .sentinel ∧ playable (leaveSentinel s) (leaveSentinel s).lat
      ∧ (leaveSentinel s).pos < (leaveSentinel s).lat.length := by
  obtain ⟨⟨-, hconf, -⟩, hv, hc, hsent, hplace⟩ := h
  unfold leaveSentinel
  split
  · have hplay := playable_deref_visBank hv hc (hconf hrun)
    have ⟨_, hpos, _⟩ := hplay
    rw [hsent]
    exact ⟨nofun, hplay, hpos⟩
  · rename_i hcur
    exact ⟨hcur, (hplace hrun).resolve_left hcur⟩

/-- Inside a playable descriptor there is a byte: the exchange of bytes by `xor 2` stays in its group of four. -/
theorem engineByte_of_playable {s : State} (h : playable s s.lat) (hpos : s.pos < s.lat.length) :
    ∃ v, engineByte s = some v := by
  obtain ⟨-, -, hlen4, ⟨bytes, hbuf, hend⟩, -⟩ := h
  have hx : s.pos ^^^ 2 < s.lat.length := xor_two_lt hpos hlen4
  refine ⟨bytes[s.lat.offset + (s.pos ^^^ 2)], ?_⟩
  rw [engineByte, hbuf]
  exact List.getElem?_eq_getElem (by omega)

/-- In a coherent state a running Engine emits a byte (R138). -/
theorem engineTick_emits {s : State} (h : scanOK s) (hrun : s.engineRunning = true) :
    ∃ v, engineTick s = emitByte v (leaveSentinel s) := by
  obtain ⟨hcur, hplay, hpos⟩ := leaveSentinel_plays h hrun
  obtain ⟨v, hv⟩ := engineByte_of_playable hplay hpos
  obtain ⟨howner, hlen, -⟩ := hplay
  have hguard : (leaveSentinel s).cur ≠ .sentinel ∧ (leaveSentinel s).lat.length ≠ 0
      ∧ (leaveSentinel s).lat.owner = .dma := ⟨hcur, hlen.ne', howner⟩
  exact ⟨v, by simp only [engineTick, hrun, if_true, if_pos hguard, hv]⟩

@[simp] theorem leaveSentinel_tick (s : State) : (leaveSentinel s).tick = s.tick := by
  unfold leaveSentinel
  split
  · exact moveOnto_tick _ s
  · rfl

@[simp] theorem vsyncEvent_tick (s : State) : (vsyncEvent s).tick = s.tick := by
  rcases vsyncEvent_cases s with h | h <;> rw [h]

@[simp] theorem emitByte_tick (v : Byte) (s : State) : (emitByte v s).tick = s.tick + 1 := by
  unfold emitByte
  dsimp only
  split
  · rw [moveOnto_tick]
    split
    · exact vsyncEvent_tick _
    · rfl
  · rfl

theorem engineTick_tick {s : State} (h : scanOK s) (hrun : s.engineRunning = true) :
    (engineTick s).tick = s.tick + 1 := by
  obtain ⟨v, hv⟩ := engineTick_emits h hrun
  rw [hv, emitByte_tick, leaveSentinel_tick]

end Sys2Proof.Machine
end

section
/-! PROOFS. AddPrimitive and the queue (R200, R201), and a Producer that waits for ever (R365, R398, R399). -/

namespace Sys2Proof.Machine

theorem exec_addPrimitive_room (P : Record) {s : State} (hbg : s.backgroundExec = true)
    (h : s.queue.length < s.params.queueSpare + 1) :
    exec (.addPrimitive P) s = .next { s with queue := s.queue ++ [P] } := by
  simp [exec, execAddPrimitive, hbg, (queueHasRoom_iff s).2 h]

theorem queueHasRoom_eq_false {s : State} (h : s.params.queueSpare + 1 ≤ s.queue.length) :
    queueHasRoom s = false := by
  rw [← Bool.not_eq_true, queueHasRoom_iff]
  omega

theorem exec_addPrimitive_full (P : Record) {s : State} (hbg : s.backgroundExec = true)
    (h : s.params.queueSpare + 1 ≤ s.queue.length) :
    exec (.addPrimitive P) s = .next { s with blocked := some P } := by
  simp [exec, execAddPrimitive, hbg, queueHasRoom_eq_false h]

/-! ### The Producer waits (R10, R201) -/

theorem producerStep_full {P : Record} {s : State} (him : s.immediate = none) (hbl : s.blocked = some P)
    (h : queueHasRoom s = false) : producerStep exec s = .next (engineTick s) := by
  simp [producerStep, him, hbl, h]

theorem producerStep_room {P : Record} {s : State} (him : s.immediate = none) (hbl : s.blocked = some P)
    (hbg : s.backgroundExec = true) (h : s.queue.length < s.params.queueSpare + 1) :
    producerStep exec s = .next { s with queue := s.queue ++ [P], blocked := none } := by
  simpa [producerStep, him, hbl, (queueHasRoom_iff s).2 h]
    using exec_addPrimitive_room P (s := { s with blocked := none }) hbg h

/-! ### A Producer that waits for ever (R365, R398) -/

/-- Without its interrupt enabled no drain is entered. -/
theorem isrEnterable_of_disabled {s : State} (h : vsIntEnabled s = false) : isrEnterable s = false := by
  simp [isrEnterable, h]

/-- Engine ticks do not enable the interrupt: they can halt the Engine, never start it. -/
theorem vsIntEnabled_engineTick {s : State} (h : vsIntEnabled s = false) :
    vsIntEnabled (engineTick s) = false := by
  obtain ⟨-, -, hrun, -⟩ := engineTick_moved s
  rw [← Bool.not_eq_true] at h ⊢
  refine mt (fun ht => ?_) h
  simp only [vsIntEnabled, Bool.and_eq_true, engineTick_configured, engineTick_suspendCount,
    engineTick_backgroundExec] at ht ⊢
  obtain ⟨⟨⟨hc, hr⟩, hs⟩, hb⟩ := ht
  exact ⟨⟨⟨hc, hrun hr⟩, hs⟩, hb⟩

theorem producerStuck_engineTick {s : State} (h : producerStuck s) : producerStuck (engineTick s) := by
  obtain ⟨hbl, him, hroom, hx, hint⟩ := h
  exact ⟨by simpa using hbl, by simpa using him, by simpa [queueHasRoom] using hroom, by simpa using hx,
    vsIntEnabled_engineTick hint⟩

/-- Every step of a stuck Producer's machine is an Engine tick, due or not. -/
theorem step_of_producerStuck {s t : State} (h : producerStuck s) (ht : step s = .next t) :
    t = { engineTick s with ticksDue := t.ticksDue, draws := t.draws } := by
  obtain ⟨hbl, him, hroom, hx, hint⟩ := h
  obtain ⟨P, hP⟩ := Option.isSome_iff_exists.1 hbl
  cases he : engineTurn s
  · rw [step_of_producer he hx (isrEnterable_of_disabled hint), producerStep_full him hP hroom] at ht
    cases ht
    rfl
  · rw [step_of_engineTurn he] at ht
    cases ht
    simp [engineStep]

theorem runFor_of_stuck {s : State} (h : isStuck s) (n : Nat) : (runFor n s).1 = .stuck := by
  have hs : runStatus s = .stuck := if_pos h
  cases n with
  | zero => exact hs
  | succ n => simp [runFor, hs]

/-- Settles O38: AddPrimitive by the queue's room, a waiting Producer's step by the same, and a stuck one's
by `step_of_producerStuck`. -/
theorem addPrimitiveQueuesOrWaits : Obligations.AddPrimitiveQueuesOrWaits := by
  refine ⟨fun P s hbg => ⟨exec_addPrimitive_room P hbg, exec_addPrimitive_full P hbg⟩,
    fun P s he hx hi him hbl => ⟨fun hfull => ?full, fun hroom hbg => ?room⟩, fun s t hstuck ht => ?stuck⟩
  case full =>
    have hstep := step_of_producer he hx hi
    rw [producerStep_full him hbl (queueHasRoom_eq_false hfull)] at hstep
    exact ⟨_, hstep, rfl, engineTick_tick⟩
  case room =>
    have hstep := step_of_producer he hx hi
    rw [producerStep_room him hbl hbg hroom] at hstep
    exact ⟨_, hstep, rfl⟩
  case stuck =>
    have heq := step_of_producerStuck hstuck ht
    have hstuck' : producerStuck t := by rw [heq]; exact producerStuck_engineTick hstuck
    refine ⟨hstuck', ?_, ?_, ?_, fun ⟨_, hnot, _⟩ => hnot (.inl hstuck'), runFor_of_stuck (.inl hstuck)⟩
    all_goals rw [heq]; simp

end Sys2Proof.Machine
end

section
/-! PROOFS. What a host operation can do (R95), said once, and what every step is put together from: a relation
that holds of each part holds of every step (R20, R69). -/

namespace Sys2Proof.Machine

/-! ### Drawing and showing -/

/-- The parts that hiding sprites and drawing are put together from (R69, R207, R335). -/
structure DrawParts (R : State → State → Prop) : Prop where
  refl : ∀ s, R s s
  trans : ∀ {s t u}, R s t → R t u → R s u
  tick : ∀ s, R s (engineTick s)
  /-- free values drawn, and cost spent where there is an `Exec` (R404) -/
  count : ∀ s n c, (s.costLeft = none → c = none) → R s { s with draws := n, costLeft := c }
  byte : ∀ s p off v, R s { s with rows := setRowByte s.rows p off v }
  hide : ∀ s, R s (markHidden s)

section
variable {R : State → State → Prop} (c : DrawParts R)
include c

theorem DrawParts.ticks (n : Nat) (s : State) : R s (engineTicks n s) := by
  induction n generalizing s with
  | zero => exact c.refl s
  | succ n ih => exact c.trans (c.tick s) (ih _)

theorem DrawParts.gap (s : State) : R s (gap s) := by
  unfold Machine.gap
  dsimp only
  split
  · exact c.trans (c.count s (s.draws + 1) _ fun h => by rw [h]; rfl) (c.ticks _ _)
  · exact c.count s (s.draws + 1) s.costLeft id

theorem DrawParts.costTicks (s : State) : R s (costTicks s) := by
  have hnone : R s { s with costLeft := none } := c.count s s.draws none fun _ => rfl
  unfold Machine.costTicks
  split
  · exact c.trans hnone (c.ticks _ _)
  · exact hnone

theorem DrawParts.runWrites {ws : List Write} (h : bytesOnly ws) (s : State) : R s (runWrites ws s) := by
  induction ws generalizing s with
  | nil => exact c.refl s
  | cons w ws ih =>
    obtain ⟨p, off, v, rfl⟩ := h w List.mem_cons_self
    exact c.trans (c.trans (c.gap s) (c.byte _ p off v)) (ih (fun w hw => h w (List.mem_cons_of_mem _ hw)) _)

theorem DrawParts.hideSprites (s : State) : R s (hideSprites s) := by
  unfold Machine.hideSprites
  split
  · exact c.refl s
  · exact c.trans (c.runWrites (hideWrites_bytes s) s) (c.hide _)

theorem DrawParts.draw (ws : State → List Write) (h : ∀ u, bytesOnly (ws u)) (s : State) :
    R s (draw ws s) := by
  have hbytes := h (Machine.hideSprites s)
  unfold Machine.draw
  split
  · exact c.refl s
  · rename_i hws
    exact c.trans (c.hideSprites s) (c.runWrites (hws ▸ hbytes) _)

end

/-- The parts that showing sprites is put together from (R336). -/
structure ShowParts (R : State → State → Prop) : Prop extends DrawParts R where
  slot : ∀ s i sp r, s.sprites[i]? = some sp → R s { s with sprites := s.sprites.set i (shownSlot s sp r) }
  shown : ∀ s, R s { s with spritesHidden := false }
  dangling : ∀ s a n, R s (raise (.danglingReference a n) s)

section
variable {R : State → State → Prop} (c : ShowParts R)
include c

theorem ShowParts.showSprite (i : Nat) (s : State) : R s (showSprite i s) := by
  rcases showSprite_cases i s with h | ⟨a, n, h⟩ | ⟨sp, f, d, hsp, -, -, -, -, -, h⟩ <;> rw [h]
  · exact c.refl s
  · exact c.dangling s a n
  · have hslot := fun r => c.trans (c.slot s i sp r hsp) (c.count _ (s.draws + 2) s.costLeft id)
    exact c.trans (hslot _) (c.runWrites (spriteWrites_bytes _ _ _ _ _ _) _)

theorem ShowParts.showFrom (n i : Nat) (s : State) : R s (showFrom n i s) := by
  induction n generalizing i s with
  | zero => exact c.refl s
  | succ n ih => exact c.trans (c.showSprite i s) (ih _ _)

theorem ShowParts.showSprites (s : State) : R s (showSprites s) := by
  unfold Machine.showSprites
  split
  · exact c.refl s
  · exact c.trans (c.showFrom _ 0 s) (c.shown _)

/-- A relation that does not look at the paint state, row maps, descriptors, the banks and what is recorded holds
of every record. -/
theorem ShowParts.recordParts (paint : ∀ s p, R s { s with paint := p })
    (rowMap : ∀ s m, R s { s with rowMap := m }) (repoint : ∀ s d, R s { s with desc := d })
    (flip : ∀ s, s.doubleBuffered = true → R s (flipBanks s))
    (reserved : ∀ s b, R s (raise (.reservedPrimitive b) s)) (start : ∀ s P, R s (beginExec P s)) :
    RecordParts R where
  refl := c.refl
  trans := c.trans
  paint s p _ := paint s p
  dangling := c.dangling
  draw ws s h := c.draw ws h s
  vScroll dy s _ _ := by
    have hwrites : ∀ ws u, R u (Machine.runWrites ws u) := by
      intro ws
      induction ws with
      | nil => exact c.refl
      | cons w ws ih =>
        intro u
        refine c.trans (c.trans (c.gap u) ?_) (ih _)
        cases w with
        | byte p off v => exact c.byte _ p off v
        | repoint b i p => exact repoint _ _
    exact c.trans (c.trans (c.hideSprites s) (rowMap _ _)) (hwrites _ _)
  refresh s := c.trans (c.hideSprites s) (c.showSprites _)
  swap s h := c.trans (c.trans (c.showSprites s) (c.gap _)) (flip _ (by simpa using h))
  reserved := reserved
  start := start
  cost := c.costTicks

end

/-! ### Host operations -/

/-- All that a host operation can do, from `s` to the state it leaves. -/
inductive HostEffect (s : State) : Instr → State → Prop
  /-- only a value is returned (R120, R131, R180) -/
  | returned {i : Instr} (r : HostReturn) (h : returnsValue i = true) : HostEffect s i { s with ret := r }
  /-- R364 -/
  | refused {i : Instr} : HostEffect s i { s with refused := true }
  /-- a fault that is not the Engine's (R361) -/
  | recorded {i : Instr} (f : FaultRecord) (h : ∀ r, f ≠ .descriptorNotOwned r) :
      HostEffect s i { s with faults := s.faults ++ [f] }
  /-- SetResolution with timings that are not well formed (R131) -/
  | malformed {text : List Byte} {rw rh : Int} {dbl : Bool} (t : Timings) :
      HostEffect s (.setResolution text rw rh dbl)
        { s with faults := s.faults ++ [.malformedTimings t], ret := .success false }
  /-- SetResolution, accepted (R131, R170) -/
  | configured {text : List Byte} {rw rh : Int} {dbl : Bool} (t : Timings) (ah : Nat) (split : List Nat)
      (hwf : timingsWF s.params t = true) (hah : ah ≤ (requestedHeight t rw rh).toNat) :
      HostEffect s (.setResolution text rw rh dbl)
        (applyResolution t rw dbl ah split { s with draws := s.draws + 1 })
  /-- MoveScreen, accepted (R140) -/
  | moved {dx dy : Int} (hc : s.configured = true)
      (hwf : timingsWF s.params (movedTimings dx dy s.timings) = true) :
      HostEffect s (.moveScreen dx dy) (rebuildScan (movedTimings dx dy s.timings) (geometry s) s)
  /-- ShrinkScreen, accepted (R141) -/
  | shrunk {sx sy : Int} (hc : s.configured = true)
      (hwf : timingsWF s.params (shrunkTimings sx sy s.timings) = true)
      (hw : s.vpWidth ≤ (shrunkTimings sx sy s.timings).hVisible)
      (hh : s.vpHeight ≤ (shrunkTimings sx sy s.timings).vVisible) :
      HostEffect s (.shrinkScreen sx sy)
        (rebuildScan (shrunkTimings sx sy s.timings) (recentred (shrunkTimings sx sy s.timings) s) s)
  /-- AddPrimitive with room (R201) -/
  | queued {P : Record} (hroom : s.queue.length < s.params.queueSpare + 1) :
      HostEffect s (.addPrimitive P) { s with queue := s.queue ++ [P] }
  /-- AddPrimitive that waits for room (R201) -/
  | waits {P : Record} (hbg : s.backgroundExec = true) : HostEffect s (.addPrimitive P) { s with blocked := some P }
  /-- an immediate AddPrimitive begins its drain (R201) -/
  | immediate {P : Record} (hbg : s.backgroundExec = false) :
      HostEffect s (.addPrimitive P)
        { s with immediate := some P, inExecutor := true, drainKind := .immediate
                 drainStart := s.tick, drainFirst := true }
  /-- R202 -/
  | suspended : HostEffect s .suspend { s with suspendCount := s.suspendCount + 1 }
  /-- R203 -/
  | resumed : HostEffect s .resume { s with suspendCount := s.suspendCount - 1 }
  /-- ProcessPrimitives begins its pump (R204) -/
  | pumps :
      HostEffect s .processPrimitives
        { s with suspendCount := s.suspendCount + 1, inExecutor := true, drainKind := .pump
                 drainStart := s.tick, drainFirst := true }
  /-- R205 -/
  | mode {on : Bool} : HostEffect s (.enableBackgroundExecution on) { s with backgroundExec := on }
  /-- SetSprites, its headers allocated (R331) -/
  | installed {slots : List SpriteInit} (hn : slots.length ≤ s.params.maxSprites) :
      HostEffect s (.setSprites slots)
        { s with rows := (hideSprites s).rows, spritesHidden := true
                 sprites := slots.map (installSlot (hideSpritesAtOnce s)) }
  /-- SetSprites with a header outside `live` (R331, log entry 12) -/
  | deadHeader {slots : List SpriteInit} (a : Nat) :
      HostEffect s (.setSprites slots)
        { s with rows := (hideSprites s).rows, spritesHidden := true, sprites := (hideSprites s).sprites
                 faults := s.faults ++ [.danglingReference a 8] }
  /-- one slot written (R332, R333) -/
  | slot {i : Instr} {n : Nat} {old : Sprite} (new : Sprite) (hi : writesSprites i = true)
      (hold : s.sprites[n]? = some old) (hrect : new.savedRect = old.savedRect) :
      HostEffect s i { s with sprites := s.sprites.set n new }
  /-- HostAlloc and HostFree (R182) -/
  | ranges {i : Instr} (l : Ranges) (hi : writesLive i = true) (hwf : Ranges.wf s.live = true → Ranges.wf l = true) :
      HostEffect s i { s with live := l }
  /-- HostWrite (R182) -/
  | written {a : Nat} {bytes : List Byte} :
      HostEffect s (.hostWrite a bytes) { s with hostmem := Memory.writeBytes s.hostmem a bytes }

theorem Ranges.alloc_wf (l : Ranges) (a n : Nat) (h : Ranges.wf l = true) :
    Ranges.wf (if n = 0 then l else Ranges.insert l a (a + n)) = true := by
  split
  · exact h
  · exact Ranges.insert_wf l _ _ (by omega) h

theorem Ranges.free_wf (l : Ranges) (a n : Nat) (h : Ranges.wf l = true) :
    Ranges.wf (if n = 0 then l else Ranges.remove l a (a + n)) = true := by
  split
  · exact h
  · exact Ranges.remove_wf l _ _ (by omega) h

theorem updateSlot_savedRect (u : SpriteUpdate) (sp : Sprite) : (updateSlot u sp).savedRect = sp.savedRect := by
  cases u <;> rfl

/-- Each arm of a host operation is one of its effects. -/
theorem exec_hostEffect {i : Instr} {s t : State} (hi : isPrimitive i = false) (h : exec i s = .next t) :
    HostEffect s i t := by
  cases i with
  | decodeModeline | readPixel => cases h; exact .returned _ rfl
  | suspend => cases h; exact .suspended
  | processPrimitives => cases h; exact .pumps
  | enableBackgroundExecution => cases h; exact .mode
  | hostAlloc a n => cases h; exact .ranges _ rfl (Ranges.alloc_wf _ a n)
  | hostFree a n => cases h; exact .ranges _ rfl (Ranges.free_wf _ a n)
  | setResolution text rw rh dbl =>
    simp only [exec, execSetResolution] at h
    split at h
    · cases h; exact .returned _ rfl
    · split at h <;> cases h
      · exact .configured _ _ _ (by assumption) (Nat.min_le_left _ _)
      · exact .malformed _
  | addPrimitive P =>
    simp only [exec, execAddPrimitive] at h
    split at h
    · split at h <;> cases h
      · rename_i hroom; exact .queued ((queueHasRoom_iff s).1 hroom)
      · exact .waits (by assumption)
    · rename_i hbg; cases h; exact .immediate (by simpa using hbg)
  | resume =>
    simp only [exec, execResume] at h
    split at h <;> cases h
    · exact .recorded _ nofun
    · exact .resumed
  | moveScreen dx dy =>
    simp only [exec, execMoveScreen] at h
    split_ifs at h with hc _ hwf <;> cases h
    · exact .refused
    · exact .recorded _ nofun
    · exact .moved (by simpa using hc) hwf
    · exact .recorded _ nofun
  | shrinkScreen sx sy =>
    simp only [exec, execShrinkScreen] at h
    split_ifs at h with hc _ hwf hfit <;> cases h
    · exact .refused
    · exact .recorded _ nofun
    · exact .recorded _ nofun
    · exact .recorded _ nofun
    · exact .shrunk (by simpa using hc) (by simpa using hwf) (by omega) (by omega)
  | setSprites slots =>
    simp only [exec, execSetSprites] at h
    split at h
    · rename_i hn
      split at h <;> cases h
      · rw [raise, hideSpritesAtOnce_eq]; exact .deadHeader _
      · have hinst := HostEffect.installed (s := s) ((atMost_iff slots _).1 hn)
        rw [hideSpritesAtOnce_eq] at hinst ⊢
        exact hinst
    · cases h; exact .refused
  | spriteWrite slot upd =>
    simp only [exec, execSpriteWrite] at h
    split at h <;> cases h
    · exact .slot _ rfl (by assumption) (updateSlot_savedRect _ _)
    · exact .refused
  | spriteAddFrame slot bmp =>
    simp only [exec, execSpriteAddFrame] at h
    split at h
    · rename_i sp hsp
      split at h <;> cases h
      · exact .slot _ rfl hsp rfl
      · exact .recorded _ nofun
    · cases h; exact .refused
  | hostWrite addr bytes =>
    simp only [exec, execHostWrite] at h
    split at h <;> cases h
    · exact .written
    · exact .refused
  | _ => cases hi

/-! ### Steps -/

/-- `t` is `s` but for the queue, which does not grow, the state of the Executor and of the interrupt, what the
Producer still has to do, and the schedule. -/
def bookkeepingOnly (s t : State) : Prop :=
  t.queue.length ≤ s.queue.length
    ∧ t = { s with
            queue := t.queue, inExecutor := t.inExecutor, drainKind := t.drainKind, drainStart := t.drainStart
            drainFirst := t.drainFirst, suspendCount := t.suspendCount, vsIntPending := t.vsIntPending
            program := t.program, blocked := t.blocked, immediate := t.immediate
            ticksDue := t.ticksDue, draws := t.draws }

theorem bookkeepingOnly.eq {s t : State} (h : bookkeepingOnly s t) :
    t = { s with
          queue := t.queue, inExecutor := t.inExecutor, drainKind := t.drainKind, drainStart := t.drainStart
          drainFirst := t.drainFirst, suspendCount := t.suspendCount, vsIntPending := t.vsIntPending
          program := t.program, blocked := t.blocked, immediate := t.immediate
          ticksDue := t.ticksDue, draws := t.draws } := h.2

/-- The parts that steps are put together from. -/
structure StepParts (R : State → State → Prop) : Prop extends RecordParts R where
  tick : ∀ s, R s (engineTick s)
  shown : ∀ s, R s (showSprites s)
  bookkeeping : ∀ {s t}, bookkeepingOnly s t → R s t
  host : ∀ {s i t}, HostEffect s i t → R s t
  refused : ∀ s, R s (refuse s)

theorem StepParts.endDrain {R : State → State → Prop} (c : StepParts R) (s : State) : R s (endDrain s) := by
  have hshow : R s (showAtEnd s) := by
    unfold showAtEnd
    split
    · exact c.shown s
    · exact c.refl s
  exact c.trans hshow (c.bookkeeping ⟨le_rfl, rfl⟩)

theorem StepParts.drainStep {R : State → State → Prop} (c : StepParts R) {s u : State}
    (h : drainStep exec s = .next u) : R s u := by
  rcases drainStep_cases h with ⟨-, rfl⟩ | ⟨P, ps, v, hq, -, hrun, rfl⟩
  · exact c.endDrain s
  · have htake : bookkeepingOnly s { s with queue := ps } := ⟨by rw [hq]; exact Nat.le_succ _, rfl⟩
    refine c.trans (c.trans (c.bookkeeping htake) (c.runRecord P _ v hrun)) ?_
    have hfirst : R v { v with drainFirst := false } := c.bookkeeping ⟨le_rfl, rfl⟩
    unfold afterPrimitive
    dsimp only
    split
    · exact c.trans hfirst (c.endDrain _)
    · exact hfirst

theorem StepParts.producerStep {R : State → State → Prop} (c : StepParts R) {s u : State}
    (h : producerStep exec s = .next u) : R s u := by
  rcases producer_cases h with ⟨P, -, hP⟩ | ⟨-, P, -, -, hP⟩ | ⟨-, -, -, rfl⟩ | ⟨-, -, -, rfl⟩
    | ⟨-, -, op, rest, -, ⟨i, hi, hex⟩ | rfl⟩
  · obtain ⟨v, hv, rfl⟩ := mapNext_eq hP
    have hdrain : bookkeepingOnly s (enterDrain .immediate { s with immediate := none }) := ⟨le_rfl, rfl⟩
    exact c.trans (c.trans (c.bookkeeping hdrain) (c.runRecord P _ v hv)) (c.bookkeeping ⟨le_rfl, rfl⟩)
  · have hroom : bookkeepingOnly s { s with blocked := none } := ⟨le_rfl, rfl⟩
    exact c.trans (c.bookkeeping hroom) (c.host (exec_hostEffect rfl hP))
  · exact c.tick s
  · exact c.tick s
  · have hnext : bookkeepingOnly s { s with program := rest } := ⟨le_rfl, rfl⟩
    exact c.trans (c.bookkeeping hnext) (c.host (exec_hostEffect (decodeHostOp_not_isPrimitive hi) hex))
  · have hnext : bookkeepingOnly s { s with program := rest } := ⟨le_rfl, rfl⟩
    exact c.trans (c.bookkeeping hnext) (c.refused _)

/-- A relation that holds of the parts holds of every step. -/
theorem StepParts.step {R : State → State → Prop} (c : StepParts R) {s t : State} (h : step s = .next t) :
    R s t := by
  have hresched : ∀ u, R u (reschedule u) := fun u => c.bookkeeping ⟨le_rfl, rfl⟩
  rcases step_cases h with ⟨-, rfl⟩ | ⟨-, -, u, hu, rfl⟩ | ⟨-, -, -, rfl⟩ | ⟨-, -, -, u, hu, rfl⟩
  · exact c.trans (c.tick s) (c.bookkeeping ⟨le_rfl, rfl⟩)
  · exact c.trans (c.drainStep hu) (hresched u)
  · exact c.bookkeeping ⟨le_rfl, rfl⟩
  · exact c.trans (c.producerStep hu) (hresched u)

end Sys2Proof.Machine
end

section
/-! PROOFS. Every step keeps the canonical stores (R45), the capacities of queue and sprites (R40, R43), one output
byte a tick (R29, R376), and no saved background while the sprites are hidden (R335, R336). -/

namespace Sys2Proof.Machine

/-! ### Canonical stores -/

theorem HostEffect.storesOK {s t : State} {i : Instr} (h : HostEffect s i t) (hs : storesOK s) : storesOK t := by
  cases h with
  | ranges l hi hwf => exact ⟨hs.1, hwf hs.2⟩
  | written => exact ⟨Memory.writeBytes_wf _ _ _ hs.1, hs.2⟩
  | _ => exact hs

theorem showParts_storesOK : ShowParts fun s t => storesOK s → storesOK t where
  refl _ := id
  trans h k := k ∘ h
  tick s h := by simpa [storesOK] using h
  count _ _ _ _ := id
  byte _ _ _ _ := id
  hide _ := id
  slot _ _ _ _ _ := id
  shown _ := id
  dangling _ _ _ := id

theorem stepParts_storesOK : StepParts fun s t => storesOK s → storesOK t where
  toRecordParts := showParts_storesOK.recordParts (fun _ _ => id) (fun _ _ => id) (fun _ _ => id)
    (fun _ _ => id) (fun _ _ => id) (fun _ _ => id)
  tick := showParts_storesOK.tick
  shown := showParts_storesOK.showSprites
  bookkeeping h hs := by rw [h.eq]; exact hs
  host h := h.storesOK
  refused _ := id

/-! ### Capacities -/

theorem HostEffect.boundsOK {s t : State} {i : Instr} (h : HostEffect s i t) (hs : boundsOK s) : boundsOK t := by
  obtain ⟨hq, hsp⟩ := hs
  cases h with
  | configured => exact ⟨hq, by simpa [applyResolution, rebuildScan] using hsp⟩
  | queued hroom => exact ⟨by simpa using hroom, hsp⟩
  | installed hn => exact ⟨hq, by simpa using hn⟩
  | deadHeader =>
    refine ⟨hq, ?_⟩
    have hlen : (hideSprites s).sprites.length = s.sprites.length := by
      unfold hideSprites
      split
      · rfl
      · simp only [markHidden, runWrites_doubleBuffered, runWrites_sprites]
        split <;> simp
    simpa [hlen] using hsp
  | slot => exact ⟨hq, by simpa using hsp⟩
  | _ => exact ⟨hq, hsp⟩

theorem showParts_boundsOK : ShowParts fun s t => boundsOK s → boundsOK t where
  refl _ := id
  trans h k := k ∘ h
  tick s h := by simpa [boundsOK] using h
  count _ _ _ _ := id
  byte _ _ _ _ := id
  hide s h := ⟨h.1, by simp only [markHidden]; split <;> simpa using h.2⟩
  slot _ _ _ _ _ h := ⟨h.1, by simpa using h.2⟩
  shown _ := id
  dangling _ _ _ := id

theorem stepParts_boundsOK : StepParts fun s t => boundsOK s → boundsOK t where
  toRecordParts := showParts_boundsOK.recordParts (fun _ _ => id) (fun _ _ => id) (fun _ _ => id)
    (fun _ _ => id) (fun _ _ => id) (fun _ _ => id)
  tick := showParts_boundsOK.tick
  shown := showParts_boundsOK.showSprites
  bookkeeping h hs := by
    have hlen := h.1
    rw [h.eq]
    exact ⟨hlen.trans hs.1, hs.2⟩
  host h := h.boundsOK
  refused _ := id

/-! ### One output byte a tick -/

/-- The state after an emitted byte, before the Engine moves on; `p` is the interrupt's latch. -/
def emitted (v : Byte) (s : State) (p : Bool) : State :=
  { s with out := s.out ++ [(s.tick, v)], tick := s.tick + 1, pos := s.pos + 1, vsIntPending := p }

/-- The Engine stays in its descriptor, or moves on at its end. -/
theorem emitByte_cases (v : Byte) (s : State) :
    (s.pos + 1 ≠ s.lat.length ∧ emitByte v s = emitted v s s.vsIntPending)
    ∨ (s.pos + 1 = s.lat.length ∧ ∃ p, emitByte v s = moveOnto s.lat.next (emitted v s p)) := by
  unfold emitByte
  dsimp only
  split
  · rename_i hend
    refine .inr ⟨hend, ?_⟩
    split
    · rcases vsyncEvent_cases (emitted v s s.vsIntPending) with h | h
      · exact ⟨s.vsIntPending, congrArg (fun u => moveOnto u.lat.next u) h⟩
      · exact ⟨true, congrArg (fun u => moveOnto u.lat.next u) h⟩
    · exact ⟨s.vsIntPending, rfl⟩
  · rename_i hne
    exact .inl ⟨hne, rfl⟩

/-- An emitted byte comes with its tick, and a halt emits nothing. -/
theorem outputOK_engineTick (s : State) (h : outputOK s) : outputOK (engineTick s) := by
  have hmove : ∀ {r u}, outputOK u → outputOK (moveOnto r u) := fun {r u} hu => by
    rwa [outputOK, moveOnto_out, moveOnto_tick]
  have hleave : outputOK (leaveSentinel s) := by
    unfold leaveSentinel
    split
    · exact hmove h
    · exact h
  rcases engineTick_cases s with ⟨-, e⟩ | ⟨-, e | ⟨v, -, -, -, -, e⟩⟩ <;> rw [e]
  · exact h
  · exact hleave
  · have hemit : ∀ p, outputOK (emitted v (leaveSentinel s) p) := fun p => by
      simpa [outputOK, emitted, List.range_succ] using hleave
    rcases emitByte_cases v (leaveSentinel s) with ⟨-, e⟩ | ⟨-, p, e⟩ <;> rw [e]
    · exact hemit _
    · exact hmove (hemit p)

theorem showParts_outputOK : ShowParts fun s t => outputOK s → outputOK t where
  refl _ := id
  trans h k := k ∘ h
  tick := outputOK_engineTick
  count _ _ _ _ := id
  byte _ _ _ _ := id
  hide _ := id
  slot _ _ _ _ _ := id
  shown _ := id
  dangling _ _ _ := id

theorem HostEffect.outputOK {s t : State} {i : Instr} (h : HostEffect s i t) (hs : outputOK s) : outputOK t := by
  cases h <;> exact hs

theorem stepParts_outputOK : StepParts fun s t => outputOK s → outputOK t where
  toRecordParts := showParts_outputOK.recordParts (fun _ _ => id) (fun _ _ => id) (fun _ _ => id)
    (fun _ _ => id) (fun _ _ => id) (fun _ _ => id)
  tick := outputOK_engineTick
  shown := showParts_outputOK.showSprites
  bookkeeping h hs := by rw [h.eq]; exact hs
  host h := h.outputOK
  refused _ := id

/-! ### No saved background while hidden -/

theorem spritesOK_markHidden (s : State) (h : s.doubleBuffered = true → ∀ sp ∈ s.sprites, sp.savedRect = none) :
    spritesOK (markHidden s) := by
  intro _ sp hsp
  simp only [markHidden] at hsp
  split at hsp
  · rename_i hdb; exact h hdb sp hsp
  · obtain ⟨_, -, rfl⟩ := List.mem_map.1 hsp
    rfl

theorem drawParts_spritesOK : DrawParts fun s t => spritesOK s → spritesOK t where
  refl _ := id
  trans h k := k ∘ h
  tick s h := by simpa [spritesOK] using h
  count _ _ _ _ := id
  byte _ _ _ _ := id
  hide s h := spritesOK_markHidden s fun hdb => h (.inr hdb)

/-- With two banks showing saves nothing. -/
theorem showParts_savedRect : ShowParts fun s t => t.doubleBuffered = s.doubleBuffered ∧
    (s.doubleBuffered = true → (∀ sp ∈ s.sprites, sp.savedRect = none) → ∀ sp ∈ t.sprites, sp.savedRect = none) where
  refl _ := ⟨rfl, fun _ h => h⟩
  trans h k := ⟨k.1.trans h.1, fun hdb hs => k.2 (h.1.trans hdb) (h.2 hdb hs)⟩
  tick s := ⟨by simp, fun _ h => by simpa using h⟩
  count _ _ _ _ := ⟨rfl, fun _ h => h⟩
  byte _ _ _ _ := ⟨rfl, fun _ h => h⟩
  hide s := ⟨rfl, fun hdb h => by simpa [markHidden, hdb] using h⟩
  slot s i sp r hsp := by
    refine ⟨rfl, fun hdb h x hx => ?_⟩
    rcases List.mem_or_eq_of_mem_set hx with hx | rfl
    · exact h x hx
    · have hnone := h sp (List.mem_of_getElem? hsp)
      simp only [shownSlot, hdb]
      split <;> exact hnone
  shown _ := ⟨rfl, fun _ h => h⟩
  dangling _ _ _ := ⟨rfl, fun _ h => h⟩

theorem spritesOK_showSprites (s : State) (h : spritesOK s) : spritesOK (showSprites s) := by
  rintro (hh | hdb)
  · rw [showSprites_spritesHidden] at hh; cases hh
  · rw [showSprites_doubleBuffered] at hdb
    exact (showParts_savedRect.showSprites s).2 hdb (h (.inr hdb))

theorem recordParts_spritesOK : RecordParts fun s t => spritesOK s → spritesOK t where
  refl := drawParts_spritesOK.refl
  trans := drawParts_spritesOK.trans
  paint _ _ _ := id
  dangling _ _ _ := id
  draw ws s h := drawParts_spritesOK.draw ws h s
  vScroll dy s _ _ h := by
    have hhide := drawParts_spritesOK.hideSprites s h
    simpa [vScrollBy, spritesOK] using hhide
  refresh s h := spritesOK_showSprites _ (drawParts_spritesOK.hideSprites s h)
  swap s _ h := drawParts_spritesOK.gap _ (spritesOK_showSprites s h)
  reserved _ _ := id
  start _ _ := id
  cost := drawParts_spritesOK.costTicks

theorem HostEffect.spritesOK {s t : State} {i : Instr} (h : HostEffect s i t) (hs : spritesOK s) :
    spritesOK t := by
  cases h with
  | configured =>
    intro _ sp hsp
    obtain ⟨_, -, rfl⟩ := List.mem_map.1 hsp
    rfl
  | installed =>
    intro _ sp hsp
    obtain ⟨_, -, rfl⟩ := List.mem_map.1 hsp
    rfl
  | deadHeader => exact fun _ => drawParts_spritesOK.hideSprites s hs (.inl (hideSprites_spritesHidden s))
  | slot new hi hold hrect =>
    intro hh sp hsp
    rcases List.mem_or_eq_of_mem_set hsp with hsp | rfl
    · exact hs hh sp hsp
    · exact hrect.trans (hs hh _ (List.mem_of_getElem? hold))
  | _ => exact hs

theorem stepParts_spritesOK : StepParts fun s t => spritesOK s → spritesOK t where
  toRecordParts := recordParts_spritesOK
  tick := drawParts_spritesOK.tick
  shown := spritesOK_showSprites
  bookkeeping h hs := by rw [h.eq]; exact hs
  host h := h.spritesOK
  refused _ := id

/-! ### Legal control values -/

/-- What every part of a record does to the values of `controlOK`: it starts no Engine, leaves bank 0 alone without
double buffering, and keeps the rest. -/
def controlFrame (s t : State) : Prop :=
  (t.engineRunning = true → s.engineRunning = true)
    ∧ ((s.doubleBuffered = false → s.drawBank = .zero) → t.doubleBuffered = false → t.drawBank = .zero)
    ∧ t.configured = s.configured ∧ t.inExecutor = s.inExecutor ∧ t.drainKind = s.drainKind
    ∧ t.suspendCount = s.suspendCount ∧ t.backgroundExec = s.backgroundExec ∧ t.immediate = s.immediate
    ∧ t.blocked = s.blocked

theorem controlFrame.refl (s : State) : controlFrame s s := ⟨id, id, rfl, rfl, rfl, rfl, rfl, rfl, rfl⟩

theorem controlFrame.trans {s t u : State} (h : controlFrame s t) (k : controlFrame t u) : controlFrame s u := by
  obtain ⟨h1, h2, h3, h4, h5, h6, h7, h8, h9⟩ := h
  obtain ⟨k1, k2, k3, k4, k5, k6, k7, k8, k9⟩ := k
  exact ⟨h1 ∘ k1, k2 ∘ h2, k3.trans h3, k4.trans h4, k5.trans h5, k6.trans h6, k7.trans h7, k8.trans h8,
    k9.trans h9⟩

theorem engineTick_controlFrame (s : State) : controlFrame s (engineTick s) := by
  obtain ⟨-, -, hrun, -⟩ := engineTick_moved s
  exact ⟨hrun, by simp, by simp, by simp, by simp, by simp, by simp, by simp, by simp⟩

theorem showParts_controlFrame : ShowParts controlFrame where
  refl := .refl
  trans := .trans
  tick := engineTick_controlFrame
  count s _ _ _ := .refl s
  byte s _ _ _ := .refl s
  hide s := .refl s
  slot s _ _ _ _ := .refl s
  shown s := .refl s
  dangling s _ _ := .refl s

theorem recordParts_controlFrame : RecordParts controlFrame :=
  showParts_controlFrame.recordParts (fun s _ => .refl s) (fun s _ => .refl s) (fun s _ => .refl s)
    (fun s hdb => ⟨id, fun _ h => by simp [flipBanks, hdb] at h, rfl, rfl, rfl, rfl, rfl, rfl, rfl⟩)
    (fun s _ => .refl s) (fun s _ => .refl s)

/-- Outside an `Exec` nothing is left of a cost, and showing sprites begins none. -/
theorem showParts_costLeft : ShowParts fun s t => s.costLeft = none → t.costLeft = none where
  refl _ := id
  trans h k := k ∘ h
  tick s h := by simpa using h
  count _ _ _ h := h
  byte _ _ _ _ := id
  hide _ := id
  slot _ _ _ _ _ := id
  shown _ := id
  dangling _ _ _ := id

/-- An `Exec` leaves nothing of its cost (R404). -/
theorem runRecord_costLeft {P : Record} {s t : State} (h : runRecord exec P s = .next t) : t.costLeft = none := by
  unfold runRecord at h
  split at h
  · obtain ⟨u, -, rfl⟩ := mapNext_eq h
    exact costTicks_costLeft u
  · cases h
    exact costTicks_costLeft _

theorem controlOK.of_frame {s t : State} (h : controlOK s) (k : controlFrame s t) (hcost : t.costLeft = none) :
    controlOK t := by
  obtain ⟨hbank, hrun, hexec, him, hbl, -⟩ := h
  obtain ⟨krun, kbank, kc, kx, kk, ks, kb, ki, kl⟩ := k
  refine ⟨kbank hbank, fun ht => ?_, ?_, ?_, ?_, hcost⟩
  · rw [kc]; exact hrun (krun ht)
  · rwa [kx, kk, ks, kb, kc, ki]
  · rwa [ki, kb]
  · rwa [kl, kb]

/-- The end of a drain leaves the Executor, so what holds of a drain in progress is not asked. -/
theorem controlOK.leave {s : State} (h : controlOK s) (n : Nat) :
    controlOK { s with inExecutor := false, suspendCount := n } := by
  obtain ⟨hbank, hrun, -, him, hbl, hcost⟩ := h
  exact ⟨hbank, hrun, nofun, him, hbl, hcost⟩

theorem controlOK.endDrain {s : State} (h : controlOK s) : controlOK (endDrain s) := by
  have hshow : controlOK (showAtEnd s) := by
    unfold showAtEnd
    split
    · obtain ⟨-, -, -, -, -, hcost⟩ := id h
      exact h.of_frame (showParts_controlFrame.showSprites s) (showParts_costLeft.showSprites s hcost)
    · exact h
  exact hshow.leave _

theorem controlOK.drainStep {s u : State} (h : controlOK s) (hu : drainStep exec s = .next u) : controlOK u := by
  rcases drainStep_cases hu with ⟨-, rfl⟩ | ⟨P, ps, v, -, -, hrun, rfl⟩
  · exact h.endDrain
  · have hframe : controlFrame s v := recordParts_controlFrame.runRecord P { s with queue := ps } v hrun
    have hv : controlOK v := h.of_frame hframe (runRecord_costLeft hrun)
    have hfirst : controlOK { v with drainFirst := false } := hv
    unfold afterPrimitive
    dsimp only
    split
    · exact hfirst.endDrain
    · exact hfirst

/-- The interrupt is entered only where it is enabled (R209). -/
theorem controlOK.isrEntry {s : State} (h : controlOK s) (hi : isrEnterable s = true) : controlOK (isrEntry s) := by
  simp only [isrEnterable, vsIntEnabled, Bool.and_eq_true, decide_eq_true_eq] at hi
  obtain ⟨⟨-, ⟨⟨hconf, -⟩, hsusp⟩, hbg⟩, -⟩ := hi
  obtain ⟨hbank, hrun, -, him, hbl, hcost⟩ := h
  exact ⟨hbank, hrun, fun _ => ⟨fun _ => ⟨hsusp, hbg, hconf⟩, nofun, nofun⟩, him, hbl, hcost⟩

/-- A host operation runs with no drain in progress and no AddPrimitive waiting. -/
theorem HostEffect.controlOK {s t : State} {i : Instr} (h : HostEffect s i t) (hs : controlOK s)
    (hx : s.inExecutor = false) (him : s.immediate = none) (hbl : s.blocked = none) : controlOK t := by
  obtain ⟨hbank, hrun, hexec, himm, hblk, hcost⟩ := hs
  have hexec' : ∀ {p : Prop}, s.inExecutor = true → p := fun h => by rw [hx] at h; cases h
  have himm' : ∀ {p : Prop}, s.immediate.isSome = true → p := fun h => by rw [him] at h; cases h
  have hblk' : ∀ {p : Prop}, s.blocked.isSome = true → p := fun h => by rw [hbl] at h; cases h
  cases h with
  | configured => exact ⟨fun _ => rfl, fun _ => rfl, hexec', himm, hblk, hcost⟩
  | moved hc => exact ⟨hbank, fun _ => hc, hexec', himm, hblk, hcost⟩
  | shrunk hc => exact ⟨hbank, fun _ => hc, hexec', himm, hblk, hcost⟩
  | waits hbg => exact ⟨hbank, hrun, hexec, himm, fun _ => hbg, hcost⟩
  | immediate hbg => exact ⟨hbank, hrun, fun _ => ⟨nofun, nofun, fun _ => rfl⟩, fun _ => hbg, hblk, hcost⟩
  | suspended => exact ⟨hbank, hrun, hexec', himm, hblk, hcost⟩
  | resumed => exact ⟨hbank, hrun, hexec', himm, hblk, hcost⟩
  | pumps => exact ⟨hbank, hrun, fun _ => ⟨nofun, fun _ => Nat.succ_pos _, nofun⟩, himm, hblk, hcost⟩
  | mode => exact ⟨hbank, hrun, hexec', himm', hblk', hcost⟩
  | _ => exact ⟨hbank, hrun, hexec, himm, hblk, hcost⟩

/-- The record of an immediate AddPrimitive is executed in a drain state of its own, which ends with it. -/
theorem controlOK.immediateStep {P : Record} {s u : State} (h : controlOK s)
    (hu : immediateStep exec P s = .next u) : controlOK u := by
  obtain ⟨v, hv, rfl⟩ := mapNext_eq hu
  have hcost : v.costLeft = none := runRecord_costLeft hv
  obtain ⟨hbank, hrun, -, -, hbl, -⟩ := h
  obtain ⟨krun, kbank, kc, -, -, -, kb, ki, kl⟩ := recordParts_controlFrame.runRecord P _ v hv
  refine ⟨kbank hbank, fun ht => kc.trans (hrun (krun ht)), nofun, fun hi => ?_, fun hl => ?_, hcost⟩
  · rw [endImmediate, ki] at hi; cases hi
  · exact kb.trans (hbl (kl ▸ hl))

theorem controlOK.producerStep {s u : State} (h : controlOK s) (hx : s.inExecutor = false)
    (hu : producerStep exec s = .next u) : controlOK u := by
  have htick : controlOK (engineTick s) := by
    obtain ⟨-, -, -, -, -, hcost⟩ := id h
    exact h.of_frame (engineTick_controlFrame s) (by simpa using hcost)
  rcases producer_cases hu with ⟨P, -, hP⟩ | ⟨him, P, hP, -, hu⟩ | ⟨-, -, -, rfl⟩ | ⟨-, -, -, rfl⟩
    | ⟨him, hbl, op, rest, -, ⟨i, hi, hex⟩ | rfl⟩
  · exact h.immediateStep hP
  · have hfree : controlOK { s with blocked := none } := by
      obtain ⟨hbank, hrun, hexec, himm, -, hcost⟩ := h
      exact ⟨hbank, hrun, hexec, himm, nofun, hcost⟩
    exact (exec_hostEffect rfl hu).controlOK hfree hx him rfl
  · exact htick
  · exact htick
  · have hnext : controlOK { s with program := rest } := h
    exact (exec_hostEffect (decodeHostOp_not_isPrimitive hi) hex).controlOK hnext hx him hbl
  · exact h

theorem controlOK.step {s t : State} (h : controlOK s) (ht : step s = .next t) : controlOK t := by
  have hresched : ∀ {u}, controlOK u → controlOK (reschedule u) := id
  rcases step_cases ht with ⟨-, rfl⟩ | ⟨-, -, u, hu, rfl⟩ | ⟨-, -, hi, rfl⟩ | ⟨-, hx, -, u, hu, rfl⟩
  · obtain ⟨-, -, -, -, -, hcost⟩ := id h
    exact h.of_frame (engineTick_controlFrame s) (by simpa [engineStep] using hcost)
  · exact hresched (h.drainStep hu)
  · exact hresched (h.isrEntry hi)
  · exact hresched (h.producerStep hx hu)

/-- Settles O57: four of the invariants hold of each part of a step, and the control values by agent. -/
theorem stepKeepsRecords : Obligations.StepKeepsRecords := fun _ _ ht =>
  ⟨stepParts_storesOK.step ht, stepParts_boundsOK.step ht, stepParts_outputOK.step ht,
    stepParts_spritesOK.step ht, fun h => h.step ht⟩

end Sys2Proof.Machine
end

section
/-! PROOFS. Where the rows of the viewport stand in a chain (R134, R135, R309), and what re-pointing their
descriptors makes of it (R308). -/

namespace Sys2Proof.Machine

/-! ### Lists of lists -/

theorem getElem?_flatMap_range {α : Type} {f : Nat → List α} {n l o : Nat} (hl : l < n) (ho : o < (f l).length) :
    ((List.range n).flatMap f)[((List.range l).flatMap f).length + o]? = (f l)[o]? := by
  induction n with
  | zero => omega
  | succ n ih =>
    rw [List.range_succ, List.flatMap_append, List.flatMap_singleton]
    rcases Nat.lt_succ_iff_lt_or_eq.1 hl with hlt | rfl
    · have hs := ih hlt
      rw [List.getElem?_eq_getElem ho] at hs
      rw [List.getElem?_append_left (List.getElem?_eq_some_iff.1 hs).1, hs, List.getElem?_eq_getElem ho]
    · rw [List.getElem?_append_right (Nat.le_add_right _ _), Nat.add_sub_cancel_left]

theorem exists_of_getElem?_flatMap_range {α : Type} {f : Nat → List α} {n j : Nat} {a : α}
    (h : ((List.range n).flatMap f)[j]? = some a) :
    ∃ l < n, ∃ o, j = ((List.range l).flatMap f).length + o ∧ (f l)[o]? = some a := by
  induction n with
  | zero => cases h
  | succ n ih =>
    rw [List.range_succ, List.flatMap_append, List.flatMap_singleton] at h
    by_cases hj : j < ((List.range n).flatMap f).length
    · rw [List.getElem?_append_left hj] at h
      obtain ⟨l, hl, ho⟩ := ih h
      exact ⟨l, by omega, ho⟩
    · rw [List.getElem?_append_right (by omega)] at h
      exact ⟨n, Nat.lt_succ_self n, _, by omega, h⟩

theorem length_flatMap_range_const {α : Type} {f : Nat → List α} {k : Nat} (hf : ∀ r, (f r).length = k) (n : Nat) :
    ((List.range n).flatMap f).length = n * k := by
  simp [List.length_flatMap, hf]

/-! ### Segments by viewport row -/

/-- The segment with the physical row that `m` gives to its viewport row. -/
def Segment.onRow (m : List Nat) (sg : Segment) : Segment :=
  match sg.buf with
  | .row y => { sg with buf := .row (m.getD y 0) }
  | _ => sg

/-- The segments of a frame with the viewport's own row numbers in place of physical rows. -/
def framePlan (t : Timings) (g : Geometry) : List Segment := frameSegments t g (List.range g.vpHeight.toNat)

theorem lineSegments_onRow (t : Timings) (g : Geometry) (m : List Nat) (l : Nat) :
    lineSegments t g m l = (lineSegments t g (List.range g.vpHeight.toNat) l).map (Segment.onRow m) := by
  unfold lineSegments
  cases hv : viewportLine t g l with
  | none => rfl
  | some y =>
    have hy : y < (List.range g.vpHeight.toNat).length := by
      have := viewportLine_lt hv
      rw [List.length_range]
      omega
    dsimp only
    rw [List.getD_eq_getElem _ _ hy, List.getElem_range]
    unfold viewportSegments
    split <;> split <;> rfl

theorem markLast_onRow (m : List Nat) (l : List Segment) :
    markLast (l.map (Segment.onRow m)) = (markLast l).map (Segment.onRow m) := by
  induction l with
  | nil => rfl
  | cons a l ih =>
    cases l with
    | nil => obtain ⟨buf, off, len, e⟩ := a; cases buf <;> rfl
    | cons c l => exact congrArg (a.onRow m :: ·) ih

theorem frameSegments_onRow (t : Timings) (g : Geometry) (m : List Nat) :
    frameSegments t g m = (framePlan t g).map (Segment.onRow m) := by
  have hscan : ∀ l r, scanSegments t g m l r
      = (scanSegments t g (List.range g.vpHeight.toNat) l r).map (Segment.onRow m) := by
    intro l r
    unfold scanSegments
    rw [lineSegments_onRow t g m l]
    split
    · exact markLast_onRow m _
    · rfl
  simp only [framePlan, frameSegments, List.map_flatMap, hscan]

/-! ### The descriptors of a chain -/

/-- Descriptor `j` of a chain of `n`, made from its segment (R135). -/
def segmentDesc (b : Bank) (n j : Nat) (sg : Segment) : Desc :=
  { owner := .dma, buf := sg.buf, offset := sg.offset, length := sg.length, size := alignedSize sg.length
    eof := sg.eof, next := if j + 1 = n then .sentinel else .entry b (j + 1) }

theorem linkSegments_getElem? (b : Bank) (i j : Nat) (l : List Segment) :
    (linkSegments b i l)[j]? = (l[j]?).map (segmentDesc b (i + l.length) (i + j)) := by
  induction l generalizing i j with
  | nil => rfl
  | cons a l ih =>
    cases j with
    | zero => cases l <;> simp [linkSegments, segmentDesc]
    | succ j =>
      rw [linkSegments, List.getElem?_cons_succ, List.getElem?_cons_succ, ih, List.length_cons,
        show i + 1 + l.length = i + (l.length + 1) by omega, show i + 1 + j = i + (j + 1) by omega]

theorem chain_getElem? (t : Timings) (g : Geometry) (b : Bank) (m : List Nat) (j : Nat) :
    (chain t g b m)[j]?
      = ((framePlan t g)[j]?).map fun sg => segmentDesc b (framePlan t g).length j (sg.onRow m) := by
  rw [chain, linkSegments_getElem?, frameSegments_onRow]
  simp [Function.comp_def]

/-! ### The places of the rows -/

theorem markLast_map_buf (l : List Segment) : (markLast l).map Segment.buf = l.map Segment.buf := by
  induction l with
  | nil => rfl
  | cons a l ih =>
    cases l with
    | nil => rfl
    | cons c l => exact congrArg (a.buf :: ·) ih

/-- The buffers of a frame: the `eof` mark has no part in them. -/
theorem framePlan_map_buf (t : Timings) (g : Geometry) :
    (framePlan t g).map Segment.buf =
      (List.range (vTotal t).toNat).flatMap fun l => (List.range t.scanCount).flatMap fun _ =>
        (lineSegments t g (List.range g.vpHeight.toNat) l).map Segment.buf := by
  have hscan : ∀ l r, (scanSegments t g (List.range g.vpHeight.toNat) l r).map Segment.buf
      = (lineSegments t g (List.range g.vpHeight.toNat) l).map Segment.buf := by
    intro l r
    unfold scanSegments
    split
    · exact markLast_map_buf _
    · rfl
  simp only [framePlan, frameSegments, List.map_flatMap, hscan]

/-- A viewport inside the visible lines (R127). -/
def rowsVisible (t : Timings) (g : Geometry) : Prop := 0 ≤ g.vpRow ∧ g.vpRow + g.vpHeight ≤ t.vVisible

theorem viewportLine_eq {t : Timings} {g : Geometry} (h : rowsVisible t g) (l : Nat) :
    viewportLine t g l =
      if g.vpRow.toNat ≤ l ∧ l < g.vpRow.toNat + g.vpHeight.toNat then some (l - g.vpRow.toNat) else none := by
  obtain ⟨h0, hfit⟩ := h
  have hreg : region t l = .visible ↔ (l : Int) < t.vVisible := by
    unfold region
    split_ifs <;> simp_all
  unfold viewportLine
  dsimp only
  by_cases hl : g.vpRow.toNat ≤ l ∧ l < g.vpRow.toNat + g.vpHeight.toNat
  · rw [if_pos hl, if_pos ⟨hreg.2 (by omega), by omega, by omega⟩]
    congr 1
    omega
  · rw [if_neg hl, if_neg fun hc => by have := hreg.1 hc.1; omega]

/-- The buffers of line `l`. -/
def lineBufs (t : Timings) (g : Geometry) (l : Nat) : List Buf :=
  (lineSegments t g (List.range g.vpHeight.toNat) l).map Segment.buf

/-- The segments of a viewport line before its row. -/
def preCount (t : Timings) (g : Geometry) : Nat := if 0 < preLen t g then 1 else 0

theorem lineBufs_viewport {t : Timings} {g : Geometry} (h : rowsVisible t g) {y : Nat}
    (hy : y < g.vpHeight.toNat) :
    lineBufs t g (g.vpRow.toNat + y) = List.replicate (preCount t g) (.blank false)
      ++ .row y :: List.replicate (segmentsPerRow t g - 1 - preCount t g) (.blank false) := by
  have hline : viewportLine t g (g.vpRow.toNat + y) = some y := by
    rw [viewportLine_eq h, if_pos (by omega), Nat.add_sub_cancel_left]
  have hlen : y < (List.range g.vpHeight.toNat).length := by simpa using hy
  unfold lineBufs lineSegments
  rw [hline]
  dsimp only
  rw [List.getD_eq_getElem _ _ hlen, List.getElem_range]
  unfold viewportSegments segmentsPerRow preCount
  split <;> split <;> rfl

theorem lineBufs_other {t : Timings} {g : Geometry} (h : rowsVisible t g) {l : Nat}
    (hl : ¬(g.vpRow.toNat ≤ l ∧ l < g.vpRow.toNat + g.vpHeight.toNat)) :
    lineBufs t g l = [.blank (region t l == .sync)] := by
  unfold lineBufs lineSegments
  rw [viewportLine_eq h, if_neg hl]
  rfl

theorem preCount_lt (t : Timings) (g : Geometry) : preCount t g < segmentsPerRow t g := by
  unfold preCount segmentsPerRow
  omega

theorem lineBufs_viewport_length {t : Timings} {g : Geometry} (h : rowsVisible t g) {y : Nat}
    (hy : y < g.vpHeight.toNat) : (lineBufs t g (g.vpRow.toNat + y)).length = segmentsPerRow t g := by
  have := preCount_lt t g
  rw [lineBufs_viewport h hy]
  simp only [List.length_append, List.length_replicate, List.length_cons]
  omega

/-- A row stands in a line only at its place: after the segment before it, if there is one. -/
theorem lineBufs_getElem?_row {t : Timings} {g : Geometry} (h : rowsVisible t g) {l o y : Nat} :
    (lineBufs t g l)[o]? = some (.row y) ↔
      y < g.vpHeight.toNat ∧ l = g.vpRow.toNat + y ∧ o = preCount t g := by
  constructor
  · intro ho
    by_cases hl : g.vpRow.toNat ≤ l ∧ l < g.vpRow.toNat + g.vpHeight.toNat
    · obtain ⟨k, rfl⟩ := Nat.exists_eq_add_of_le hl.1
      have hk : k < g.vpHeight.toNat := by omega
      rw [lineBufs_viewport h hk] at ho
      rcases Nat.lt_trichotomy o (preCount t g) with hlt | rfl | hgt
      · rw [List.getElem?_append_left (by simpa using hlt)] at ho
        simp [hlt] at ho
      · rw [List.getElem?_append_right (by simp)] at ho
        simp only [List.length_replicate, Nat.sub_self, List.getElem?_cons_zero, Option.some.injEq,
          Buf.row.injEq] at ho
        subst ho
        exact ⟨hk, rfl, rfl⟩
      · obtain ⟨d, rfl⟩ := Nat.exists_eq_add_of_lt hgt
        rw [List.getElem?_append_right (by simp; omega), List.length_replicate, Nat.add_assoc,
          Nat.add_sub_cancel_left, List.getElem?_cons_succ, List.getElem?_replicate] at ho
        split at ho <;> cases ho
    · rw [lineBufs_other h hl] at ho
      cases o <;> cases ho
  · rintro ⟨hy, rfl, rfl⟩
    rw [lineBufs_viewport h hy, List.getElem?_append_right (by simp)]
    simp

/-- The descriptors before line `l`, up to the end of the viewport (R135, R137). -/
theorem length_linesBefore {t : Timings} {g : Geometry} (h : rowsVisible t g) {l : Nat}
    (hl : l ≤ g.vpRow.toNat + g.vpHeight.toNat) :
    ((List.range l).flatMap fun l => (List.range t.scanCount).flatMap fun _ => lineBufs t g l).length
      = t.scanCount * (l + (l - g.vpRow.toNat) * (segmentsPerRow t g - 1)) := by
  induction l with
  | zero => simp
  | succ l ih =>
    rw [List.range_succ, List.flatMap_append, List.flatMap_singleton, List.length_append, ih (by omega),
      length_flatMap_range_const fun _ => rfl, ← Nat.mul_add]
    congr 1
    by_cases hin : g.vpRow.toNat ≤ l
    · obtain ⟨y, rfl⟩ := Nat.exists_eq_add_of_le hin
      have hpos := preCount_lt t g
      rw [lineBufs_viewport_length h (by omega), Nat.add_sub_cancel_left, Nat.add_assoc _ y 1,
        Nat.add_sub_cancel_left, Nat.add_mul, Nat.one_mul]
      omega
    · rw [lineBufs_other h (by omega), show l - g.vpRow.toNat = 0 by omega,
        show l + 1 - g.vpRow.toNat = 0 by omega]
      simp

/-- The viewport rows stand in a frame at the places of R309, and nowhere else. -/
theorem framePlan_row_iff {t : Timings} {g : Geometry} (h : rowsVisible t g)
    (hv : t.vVisible ≤ vTotal t) (j y : Nat) :
    ((framePlan t g)[j]?).map Segment.buf = some (.row y) ↔
      y < g.vpHeight.toNat ∧ ∃ r < t.scanCount, j = rowDescIndex t g y r := by
  rw [← List.getElem?_map, framePlan_map_buf]
  change ((List.range (vTotal t).toNat).flatMap fun l => (List.range t.scanCount).flatMap fun _ =>
    lineBufs t g l)[j]? = _ ↔ _
  have hplace : ∀ y r, y < g.vpHeight.toNat →
      ((List.range (g.vpRow.toNat + y)).flatMap fun l => (List.range t.scanCount).flatMap fun _ =>
          lineBufs t g l).length
        + (((List.range r).flatMap fun _ => lineBufs t g (g.vpRow.toNat + y)).length + preCount t g)
        = rowDescIndex t g y r := by
    intro y r hy
    rw [length_linesBefore h (by omega), length_flatMap_range_const fun _ => lineBufs_viewport_length h hy,
      Nat.add_sub_cancel_left, ← Nat.add_assoc]
    rfl
  constructor
  · intro hj
    obtain ⟨l, -, o, rfl, ho⟩ := exists_of_getElem?_flatMap_range hj
    obtain ⟨r, hr, q, rfl, hq⟩ := exists_of_getElem?_flatMap_range ho
    obtain ⟨hy, rfl, rfl⟩ := (lineBufs_getElem?_row h).1 hq
    exact ⟨hy, r, hr, hplace y r hy⟩
  · rintro ⟨hy, r, hr, rfl⟩
    have hrow := (lineBufs_getElem?_row h).2 ⟨hy, rfl, rfl⟩
    have hin := (List.getElem?_eq_some_iff.1 hrow).1
    have hrep := getElem?_flatMap_range (f := fun _ => lineBufs t g (g.vpRow.toNat + y)) hr hin
    rw [hrow] at hrep
    obtain ⟨h0, hfit⟩ := h
    rw [← hplace y r hy, getElem?_flatMap_range (by omega) (List.getElem?_eq_some_iff.1 hrep).1, hrep]

/-! ### Re-pointed descriptors -/

theorem PerBank.get_set {α : Type} (p : PerBank α) (b c : Bank) (v : α) :
    (p.set b v).get c = if c = b then v else p.get c := by
  cases b <;> cases c <;> rfl

theorem setDescRow_getElem? (d : PerBank (List Desc)) (b c : Bank) (i j p : Nat) :
    ((setDescRow d b i p).get c)[j]? =
      if c = b ∧ j = i then ((d.get b)[i]?).map fun e => { e with buf := .row p } else (d.get c)[j]? := by
  unfold setDescRow
  cases he : (d.get b)[i]? with
  | none =>
    dsimp only
    split
    · rename_i h; obtain ⟨rfl, rfl⟩ := h; exact he
    · rfl
  | some e =>
    obtain ⟨hlt, -⟩ := List.getElem?_eq_some_iff.1 he
    dsimp only
    rw [PerBank.get_set]
    by_cases hc : c = b
    · subst hc
      rw [if_pos rfl]
      by_cases hj : j = i
      · subst hj; simp [hlt]
      · simp [hj, List.getElem?_set_ne (Ne.symm hj)]
    · simp [hc]

/-- A descriptor that no write re-points stays. -/
theorem writtenDesc_of_forall_ne (ws : List Write) (d : PerBank (List Desc)) (b : Bank) (j : Nat)
    (h : ∀ p, .repoint b j p ∉ ws) : ((writtenDesc ws d).get b)[j]? = (d.get b)[j]? := by
  induction ws generalizing d with
  | nil => rfl
  | cons w ws ih =>
    have ht : ∀ p, Write.repoint b j p ∉ ws := fun p hp => h p (List.mem_cons_of_mem _ hp)
    cases w with
    | byte => exact ih d ht
    | repoint c i p =>
      refine (ih _ ht).trans ?_
      rw [setDescRow_getElem?, if_neg]
      rintro ⟨rfl, rfl⟩
      exact h p List.mem_cons_self

/-- A descriptor that some write re-points, all of them to the same row, has that row. -/
theorem writtenDesc_of_mem (ws : List Write) (d : PerBank (List Desc)) (b : Bank) (j p : Nat)
    (hm : .repoint b j p ∈ ws) (hall : ∀ q, .repoint b j q ∈ ws → q = p) :
    ((writtenDesc ws d).get b)[j]? = ((d.get b)[j]?).map fun e => { e with buf := .row p } := by
  induction ws generalizing d with
  | nil => cases hm
  | cons w ws ih =>
    have ht : ∀ q, Write.repoint b j q ∈ ws → q = p := fun q hq => hall q (List.mem_cons_of_mem _ hq)
    by_cases hmt : Write.repoint b j p ∈ ws
    · cases w with
      | byte => exact ih d hmt ht
      | repoint c i q =>
        refine (ih _ hmt ht).trans ?_
        rw [setDescRow_getElem?]
        split
        · rename_i hci
          obtain ⟨rfl, rfl⟩ := hci
          rw [Option.map_map]
          rfl
        · rfl
    · obtain rfl := (List.mem_cons.1 hm).resolve_right hmt
      have hno : ∀ q, Write.repoint b j q ∉ ws := fun q hq => hmt (ht q hq ▸ hq)
      refine (writtenDesc_of_forall_ne ws _ b j hno).trans ?_
      rw [setDescRow_getElem?, if_pos ⟨rfl, rfl⟩]

/-- Re-pointing the descriptors of the rows that change makes the chain of one row map the chain of another
(R309). -/
theorem writtenDesc_eq_chain {t : Timings} {g : Geometry} (h : rowsVisible t g) (hv : t.vVisible ≤ vTotal t)
    {d : PerBank (List Desc)} {b : Bank} {m m' : List Nat} (hd : d.get b = chain t g b m) {ws : List Write}
    (sound : ∀ j p, .repoint b j p ∈ ws → ∃ y < g.vpHeight.toNat, ∃ r < t.scanCount,
      j = rowDescIndex t g y r ∧ p = m'.getD y 0)
    (complete : ∀ y < g.vpHeight.toNat, m'.getD y 0 ≠ m.getD y 0 → ∀ r < t.scanCount,
      .repoint b (rowDescIndex t g y r) (m'.getD y 0) ∈ ws) :
    (writtenDesc ws d).get b = chain t g b m' := by
  refine List.ext_getElem? fun j => ?_
  have hplace : ∀ y y' r, ((framePlan t g)[j]?).map Segment.buf = some (.row y) → y' < g.vpHeight.toNat →
      r < t.scanCount → j = rowDescIndex t g y' r → y' = y := by
    intro y y' r hy hy' hr hj
    have := (framePlan_row_iff h hv j y').2 ⟨hy', r, hr, hj⟩
    rw [this] at hy
    cases hy
    rfl
  have hold := chain_getElem? t g b m j
  rw [← hd] at hold
  rw [chain_getElem?]
  cases hsg : (framePlan t g)[j]? with
  | none =>
    have hno : ∀ p, Write.repoint b j p ∉ ws := by
      intro p hp
      obtain ⟨y, hy, r, hr, hj, -⟩ := sound j p hp
      have := (framePlan_row_iff h hv j y).2 ⟨hy, r, hr, hj⟩
      rw [hsg] at this
      cases this
    rw [writtenDesc_of_forall_ne ws d b j hno, hold, hsg]
    rfl
  | some sg =>
    rw [hsg] at hold hplace
    by_cases hw : ∃ p, Write.repoint b j p ∈ ws
    · obtain ⟨p, hp⟩ := hw
      obtain ⟨y, hy, r, hr, hj, rfl⟩ := sound j p hp
      have hbuf : sg.buf = .row y := by
        have := (framePlan_row_iff h hv j y).2 ⟨hy, r, hr, hj⟩
        rw [hsg] at this
        exact Option.some.inj this
      have hall : ∀ q, Write.repoint b j q ∈ ws → q = m'.getD y 0 := by
        intro q hq
        obtain ⟨y', hy', r', hr', hj', rfl⟩ := sound j q hq
        rw [hplace y y' r' (by rw [Option.map_some, hbuf]) hy' hr' hj']
      rw [writtenDesc_of_mem ws d b j _ hp hall, hold]
      simp [segmentDesc, Segment.onRow, hbuf]
    · have hno : ∀ p, Write.repoint b j p ∉ ws := not_exists.1 hw
      rw [writtenDesc_of_forall_ne ws d b j hno, hold]
      have hsame : sg.onRow m = sg.onRow m' := by
        unfold Segment.onRow
        split
        · rename_i y hbuf
          obtain ⟨hy, r, hr, hj⟩ := (framePlan_row_iff h hv j y).1 (by rw [hsg, Option.map_some, hbuf])
          have : m'.getD y 0 = m.getD y 0 := by
            by_contra hne
            exact hno _ (hj ▸ complete y hy hne r hr)
          rw [this]
        · rfl
      rw [Option.map_some, Option.map_some, hsame]

end Sys2Proof.Machine
end

section
/-! PROOFS. Every step keeps all that scan-out needs (R24, R25, R309), so that a running Engine emits a byte at every
tick and never halts (R138, R397). In the middle of a VScroll the chain of the drawing bank is not that of its row
map; what the Engine needs is weaker, and holds there too: it can play every descriptor there is. -/

namespace Sys2Proof.Machine

/-! ### What a running Engine needs (R138) -/

/-- Rows of the viewport's width, descriptors that can all be played, and a sentinel that leads to one of them. -/
def stocked (s : State) : Prop :=
  (∀ r ∈ s.rows, r.length = s.vpWidth.toNat) ∧ (∀ b, ∀ d ∈ s.desc.get b, playable s d)
    ∧ ∃ b, s.sentinel.next = .entry b 0 ∧ 0 < (s.desc.get b).length

/-- The Engine is at the sentinel or inside a descriptor it can play. -/
def placed (s : State) : Prop := s.cur = .sentinel ∨ (playable s s.lat ∧ s.pos < s.lat.length)

/-- The Engine runs and has all it needs to go on. -/
def plays (s : State) : Prop := s.engineRunning = true ∧ stocked s ∧ placed s

theorem EngineOnly.stocked {s t : State} (h : EngineOnly s t) (hs : stocked s) : stocked t := by
  rw [h.eq]
  exact hs

/-- A link to a descriptor leads to one that can be played. -/
theorem stocked.deref {s : State} (h : stocked s) {b : Bank} {i : Nat} (hi : i < (s.desc.get b).length) :
    playable s (deref s b i) := by
  obtain ⟨-, hplay, -⟩ := h
  rw [Machine.deref, List.getElem?_eq_getElem hi]
  exact hplay b _ (List.getElem_mem hi)

theorem stocked.placed_moveOnto {s : State} (h : stocked s) {r : DescRef}
    (hr : r = .sentinel ∨ ∃ b i, r = .entry b i ∧ i < (s.desc.get b).length) : placed (moveOnto r s) := by
  rcases hr with rfl | ⟨b, i, rfl, hi⟩
  · exact .inl rfl
  · have hplay := h.deref hi
    have ⟨_, hpos, _⟩ := hplay
    exact .inr ⟨hplay, hpos⟩

theorem plays.leaveSentinel {s : State} (h : plays s) :
    (leaveSentinel s).cur ≠ .sentinel ∧ playable (leaveSentinel s) (leaveSentinel s).lat
      ∧ (leaveSentinel s).pos < (leaveSentinel s).lat.length := by
  obtain ⟨-, hstock, hplace⟩ := h
  have ⟨_, _, b, hnext, hlen⟩ := hstock
  unfold Machine.leaveSentinel
  split
  · have hplay := hstock.deref hlen
    have ⟨_, hpos, _⟩ := hplay
    rw [hnext]
    exact ⟨nofun, hplay, hpos⟩
  · rename_i hcur
    exact ⟨hcur, hplace.resolve_left hcur⟩

/-- An emitted byte comes with its tick; the Engine goes on and records nothing. -/
theorem emitByte_effect (v : Byte) (s : State) :
    (emitByte v s).out = s.out ++ [(s.tick, v)] ∧ (emitByte v s).faults = s.faults
      ∧ (emitByte v s).engineRunning = s.engineRunning := by
  rcases emitByte_cases v s with ⟨-, h⟩ | ⟨-, p, h⟩ <;> rw [h]
  · exact ⟨rfl, rfl, rfl⟩
  · exact ⟨moveOnto_out _ _, moveOnto_faults _ _, moveOnto_running _ _⟩

/-- After a byte the Engine is further inside its descriptor, or on what that one leads to. -/
theorem placed_emitByte (v : Byte) {s : State} (hstock : stocked s) (hplay : playable s s.lat)
    (hpos : s.pos < s.lat.length) : placed (emitByte v s) := by
  have ⟨_, _, _, _, hnext⟩ := hplay
  rcases emitByte_cases v s with ⟨hne, h⟩ | ⟨-, p, h⟩ <;> rw [h]
  · exact .inr ⟨hplay, Nat.lt_of_le_of_ne hpos hne⟩
  · exact stocked.placed_moveOnto (s := emitted v s p) hstock hnext

theorem leaveSentinel_keeps (s : State) :
    (leaveSentinel s).out = s.out ∧ (leaveSentinel s).faults = s.faults
      ∧ (leaveSentinel s).engineRunning = s.engineRunning := by
  unfold leaveSentinel
  split
  · exact ⟨moveOnto_out _ s, moveOnto_faults _ s, moveOnto_running _ s⟩
  · exact ⟨rfl, rfl, rfl⟩

/-- A running Engine that has all it needs emits a byte, records nothing, and has all it needs again. -/
theorem plays.engineTick {s : State} (h : plays s) :
    plays (engineTick s) ∧ (engineTick s).tick = s.tick + 1 ∧ (engineTick s).faults = s.faults
      ∧ ∃ v, (engineTick s).out = s.out ++ [(s.tick, v)] := by
  obtain ⟨hcur, hplay, hpos⟩ := h.leaveSentinel
  obtain ⟨v, hv⟩ := engineByte_of_playable hplay hpos
  have ⟨howner, hlen, _⟩ := hplay
  obtain ⟨hrun, hstock, -⟩ := h
  have hguard : (Machine.leaveSentinel s).cur ≠ .sentinel ∧ (Machine.leaveSentinel s).lat.length ≠ 0
      ∧ (Machine.leaveSentinel s).lat.owner = .dma := ⟨hcur, hlen.ne', howner⟩
  have htick : Machine.engineTick s = emitByte v (Machine.leaveSentinel s) := by
    simp only [Machine.engineTick, hrun, if_true, if_pos hguard, hv]
  obtain ⟨hout, hfaults, hrun'⟩ := emitByte_effect v (Machine.leaveSentinel s)
  obtain ⟨lout, lfaults, lrun⟩ := leaveSentinel_keeps s
  have hplace := placed_emitByte v ((leaveSentinel_engineOnly s).stocked hstock) hplay hpos
  rw [← htick] at hout hfaults hrun' hplace
  refine ⟨⟨hrun'.trans (lrun.trans hrun), (engineTick_engineOnly s).stocked hstock, hplace⟩, ?_,
    hfaults.trans lfaults, v, ?_⟩
  · rw [htick, emitByte_tick, leaveSentinel_tick]
  · rw [hout, lout, leaveSentinel_tick]

theorem plays.engineTicks {s : State} (h : plays s) (n : Nat) :
    plays (engineTicks n s) ∧ (engineTicks n s).faults = s.faults := by
  induction n generalizing s with
  | zero => exact ⟨h, rfl⟩
  | succ n ih =>
    obtain ⟨ht, -, hf, -⟩ := h.engineTick
    obtain ⟨hn, hfn⟩ := ih ht
    exact ⟨hn, hfn.trans hf⟩

theorem plays.gap {s : State} (h : plays s) : plays (gap s) ∧ (gap s).faults = s.faults := by
  have hticks : ∀ d c n, plays (Machine.engineTicks n { s with draws := d, costLeft := c })
      ∧ (Machine.engineTicks n { s with draws := d, costLeft := c }).faults = s.faults :=
    fun d c n => plays.engineTicks (s := { s with draws := d, costLeft := c }) h n
  unfold Machine.gap
  dsimp only
  split
  · exact hticks _ _ _
  · exact ⟨h, rfl⟩

/-! ### Rows of the same lengths -/

theorem setRowByte_map_length (rows : List (List Byte)) (p off : Nat) (v : Byte) :
    (setRowByte rows p off v).map List.length = rows.map List.length := by
  unfold setRowByte
  split
  · rename_i r hr
    obtain ⟨hlt, rfl⟩ := List.getElem?_eq_some_iff.1 hr
    have hself : rows[p].length = (rows.map List.length)[p]'(by simpa using hlt) := by simp
    rw [List.map_set, List.length_set, hself, List.set_getElem_self]
  · rfl

theorem writtenRows_map_length (ws : List Write) (rows : List (List Byte)) :
    (writtenRows ws rows).map List.length = rows.map List.length := by
  induction ws generalizing rows with
  | nil => rfl
  | cons w ws ih =>
    cases w with
    | byte p off v => exact (ih _).trans (setRowByte_map_length rows p off v)
    | repoint => exact ih _

theorem hideSprites_rows_map_length (s : State) :
    (hideSprites s).rows.map List.length = s.rows.map List.length := by
  rw [hideSprites_rows]
  split
  · rfl
  · exact writtenRows_map_length _ _

/-- Whether a descriptor can be played depends on the rows by their lengths alone. -/
theorem playable.withRows {s : State} {d : Desc} (h : playable s d) {rows : List (List Byte)}
    (hr : rows.map List.length = s.rows.map List.length) : playable { s with rows := rows } d := by
  obtain ⟨howner, hpos, hlen4, ⟨bytes, hbuf, hend⟩, hnext⟩ := h
  refine ⟨howner, hpos, hlen4, ?_, hnext⟩
  cases hb : d.buf with
  | blank v => rw [hb] at hbuf; exact ⟨bytes, hbuf, hend⟩
  | none => rw [hb] at hbuf; cases hbuf
  | row p =>
    rw [hb] at hbuf
    have hp : (rows[p]?).map List.length = some bytes.length := by
      rw [← List.getElem?_map, hr, List.getElem?_map, show s.rows[p]? = some bytes from hbuf, Option.map_some]
    obtain ⟨bytes', hbuf', hlen⟩ := Option.map_eq_some_iff.1 hp
    exact ⟨bytes', hbuf', hlen ▸ hend⟩

theorem forall_length_of_map {rows rows' : List (List Byte)} (hr : rows'.map List.length = rows.map List.length)
    {n : Nat} (h : ∀ r ∈ rows, r.length = n) : ∀ r ∈ rows', r.length = n := by
  rw [← List.forall_mem_map (P := (· = n))] at h ⊢
  rwa [hr]

/-! ### Writes while the Engine runs -/

/-- A write that leaves every descriptor playable: a row byte, or a row for a descriptor that shows a row. -/
def writeFits (s : State) : Write → Prop
  | .byte _ _ _ => True
  | .repoint b i p => p < s.rows.length ∧ ∃ e, (s.desc.get b)[i]? = some e ∧ ∃ q, e.buf = .row q

theorem writeFits_applyWrite {s : State} {v : Write} (w : Write) (h : writeFits s v) :
    writeFits (applyWrite w s) v := by
  cases v with
  | byte => trivial
  | repoint b i p =>
    obtain ⟨hp, e, he, q, hq⟩ := h
    cases w with
    | byte p' off u => exact ⟨by simpa [applyWrite, setRowByte_length] using hp, e, he, q, hq⟩
    | repoint c j k =>
      refine ⟨hp, ?_⟩
      simp only [applyWrite, setDescRow_getElem?]
      split
      · rename_i hbi
        obtain ⟨rfl, rfl⟩ := hbi
        exact ⟨_, by rw [he]; rfl, k, rfl⟩
      · exact ⟨e, he, q, hq⟩

theorem setDescRow_get_length (d : PerBank (List Desc)) (b c : Bank) (i p : Nat) :
    ((setDescRow d b i p).get c).length = (d.get c).length := by
  unfold setDescRow
  split
  · rw [PerBank.get_set]
    split
    · rename_i h; rw [h, List.length_set]
    · rfl
  · rfl

/-- The links of a descriptor depend on the lengths of the chains alone. -/
theorem playable.withDesc {s : State} {d : Desc} (h : playable s d) {desc : PerBank (List Desc)}
    (hl : ∀ b, (desc.get b).length = (s.desc.get b).length) : playable { s with desc := desc } d := by
  obtain ⟨howner, hpos, hlen4, hbytes, hnext⟩ := h
  refine ⟨howner, hpos, hlen4, hbytes, hnext.imp_right ?_⟩
  rintro ⟨b, i, hi, hlt⟩
  exact ⟨b, i, hi, (hl b).symm ▸ hlt⟩

/-- A descriptor that shows a row can show any other. -/
theorem playable.repoint {s : State} {e : Desc} (hrows : ∀ r ∈ s.rows, r.length = s.vpWidth.toNat)
    (h : playable s e) {q p : Nat} (hq : e.buf = .row q) (hp : p < s.rows.length) :
    playable s { e with buf := .row p } := by
  obtain ⟨howner, hpos, hlen4, ⟨bytes, hbuf, hend⟩, hnext⟩ := h
  rw [hq] at hbuf
  refine ⟨howner, hpos, hlen4, ⟨_, List.getElem?_eq_getElem hp, ?_⟩, hnext⟩
  rw [hrows _ (List.getElem_mem hp), ← hrows bytes (List.mem_of_getElem? hbuf)]
  exact hend

theorem stocked.applyWrite {s : State} (h : stocked s) {w : Write} (hw : writeFits s w) :
    stocked (applyWrite w s) := by
  obtain ⟨hrows, hplay, b, hnext, hlen⟩ := h
  cases w with
  | byte p off v =>
    have hr := setRowByte_map_length s.rows p off v
    exact ⟨forall_length_of_map hr hrows, fun c d hd => (hplay c d hd).withRows hr, b, hnext, hlen⟩
  | repoint c i p =>
    obtain ⟨hp, e, he, q, hq⟩ := hw
    have hl := setDescRow_get_length s.desc c
    refine ⟨hrows, fun k d hd => playable.withDesc (s := s) ?_ fun k => hl k i p, b, hnext, ?_⟩
    · obtain ⟨j, hj⟩ := List.mem_iff_getElem?.1 hd
      simp only [Machine.applyWrite, setDescRow_getElem?, he] at hj
      split at hj
      · cases hj
        exact (hplay c e (List.mem_of_getElem? he)).repoint hrows hq hp
      · exact hplay k d (List.mem_of_getElem? hj)
    · exact (hl b i p).symm ▸ hlen

theorem placed.applyWrite {s : State} (h : placed s) (w : Write) : placed (applyWrite w s) := by
  refine h.imp (fun hc => ?_) fun ⟨hplay, hpos⟩ => ?_
  · cases w <;> exact hc
  · cases w with
    | byte p off v => exact ⟨hplay.withRows (setRowByte_map_length s.rows p off v), hpos⟩
    | repoint c i p => exact ⟨hplay.withDesc fun k => setDescRow_get_length s.desc c k i p, hpos⟩

theorem plays.runWrites {ws : List Write} {s : State} (h : plays s) (hws : ∀ w ∈ ws, writeFits s w) :
    plays (runWrites ws s) ∧ (runWrites ws s).faults = s.faults := by
  induction ws generalizing s with
  | nil => exact ⟨h, rfl⟩
  | cons w ws ih =>
    obtain ⟨⟨hrun, hstock, hplace⟩, hf⟩ := h.gap
    have hfits : ∀ v ∈ w :: ws, writeFits (Machine.gap s) v := by
      intro v hv
      have := hws v hv
      cases v with
      | byte => trivial
      | repoint => simpa [writeFits] using this
    have hw : plays (applyWrite w (Machine.gap s)) :=
      ⟨by cases w <;> exact hrun, hstock.applyWrite (hfits w List.mem_cons_self), hplace.applyWrite w⟩
    obtain ⟨hn, hfn⟩ := ih hw fun v hv => writeFits_applyWrite w (hfits v (List.mem_cons_of_mem _ hv))
    exact ⟨hn, hfn.trans (by cases w <;> exact hf)⟩

/-! ### Coherent scan-out -/

/-- What `scanOK` asks beside the values of `controlOK`. -/
def scanCore (s : State) : Prop :=
  (s.engineRunning = true → s.configured = true) ∧ viewportOK s ∧ chainOK s ∧ engineOK s

/-- A bank that is not in use has no descriptors. -/
theorem chainOK.inUse {s : State} (hc : chainOK s) (hconf : s.configured = true) {b : Bank} {d : Desc}
    (hd : d ∈ s.desc.get b) : b = .zero ∨ s.doubleBuffered = true := by
  obtain ⟨-, -, -, -, -, -, -, -, -, ho⟩ := hc hconf
  cases b with
  | zero => exact .inl rfl
  | one =>
    refine .inr ?_
    by_contra hdb
    rw [show s.desc.get .one = [] by simpa [PerBank.get, hdb] using ho] at hd
    cases hd

theorem scanCore.plays {s : State} (h : scanCore s) (hrun : s.engineRunning = true) : plays s := by
  obtain ⟨hconf, hv, hc, hsent, hplace⟩ := h
  have hconf := hconf hrun
  have ⟨_, _, _, _, hrows, _⟩ := hv
  have ⟨hwf, _⟩ := hc hconf
  refine ⟨hrun, ⟨hrows, fun b d hd => playable_of_mem_desc hv hc hconf (hc.inUse hconf hd) hd,
    visBank s, by rw [hsent]; rfl, ?_⟩, hplace hrun⟩
  rw [hc.desc_get hconf (visBank_inUse s), chain, linkSegments_length]
  exact List.length_pos_iff.2 (frameSegments_ne_nil hwf _ _)

/-- From `s` to `t` scan-out stays coherent, a running Engine runs on, and none of its faults is recorded. -/
def keepsScan (s t : State) : Prop :=
  scanCore s → scanCore t ∧ (s.engineRunning = true → t.engineRunning = true)
    ∧ ((∀ r, .descriptorNotOwned r ∉ s.faults) → ∀ r, .descriptorNotOwned r ∉ t.faults)

theorem keepsScan.of_core {s t : State} (h : scanCore s → scanCore t) (hr : t.engineRunning = s.engineRunning)
    (hf : t.faults = s.faults) : keepsScan s t := fun hs => ⟨h hs, hr ▸ id, hf ▸ id⟩

theorem keepsScan.refl (s : State) : keepsScan s s := .of_core id rfl rfl

theorem keepsScan.trans {s t u : State} (h : keepsScan s t) (k : keepsScan t u) : keepsScan s u := by
  intro hs
  obtain ⟨ht, hr, hf⟩ := h hs
  obtain ⟨hu, kr, kf⟩ := k ht
  exact ⟨hu, kr ∘ hr, kf ∘ hf⟩

/-- A fault that is not the Engine's. -/
theorem keepsScan_fault (s : State) (f : FaultRecord) (hf : ∀ r, f ≠ .descriptorNotOwned r) :
    keepsScan s { s with faults := s.faults ++ [f] } := by
  refine fun hs => ⟨hs, id, fun h r hr => ?_⟩
  rcases List.mem_append.1 hr with hr | hr
  · exact h r hr
  · exact hf r (List.mem_singleton.1 hr).symm

theorem scanCore.withRows {s : State} (h : scanCore s) {rows : List (List Byte)}
    (hr : rows.map List.length = s.rows.map List.length) : scanCore { s with rows := rows } := by
  obtain ⟨hconf, hv, hc, hsent, hplace⟩ := h
  have ⟨_, _, _, _, hrows, _⟩ := hv
  have hlen : rows.length = s.rows.length := by simpa using congrArg List.length hr
  refine ⟨hconf, hv.congr rfl rfl rfl rfl rfl rfl hlen (forall_length_of_map hr hrows), hc, hsent, fun hrun => ?_⟩
  exact (hplace hrun).imp_right fun ⟨hplay, hpos⟩ => ⟨hplay.withRows hr, hpos⟩

theorem keepsScan_engineTick (s : State) : keepsScan s (engineTick s) := by
  intro h
  cases hrun : s.engineRunning with
  | false =>
    have hstill : engineTick s = s := by simp [engineTick, hrun]
    rw [hstill]
    exact ⟨h, nofun, id⟩
  | true =>
    obtain ⟨⟨hrun', -, hplace⟩, -, hf, -⟩ := (h.plays hrun).engineTick
    obtain ⟨hconf, hv, hc, hsent, -⟩ := h
    refine ⟨⟨fun _ => by simpa using hconf hrun, ?_, ?_, ?_, fun _ => hplace⟩, fun _ => hrun', hf ▸ id⟩
    · rw [(engineTick_engineOnly s).eq]; exact hv
    · rw [(engineTick_engineOnly s).eq]; exact hc
    · rw [(engineTick_engineOnly s).eq]; exact hsent

theorem showParts_keepsScan : ShowParts keepsScan where
  refl := .refl
  trans := .trans
  tick := keepsScan_engineTick
  count _ _ _ _ := .of_core id rfl rfl
  byte s p off v := .of_core (fun h => h.withRows (setRowByte_map_length s.rows p off v)) rfl rfl
  hide _ := .of_core id rfl rfl
  slot _ _ _ _ _ := .of_core id rfl rfl
  shown _ := .of_core id rfl rfl
  dangling s a n := keepsScan_fault s (.danglingReference a n) nofun

/-! ### The rotated row map (R308) -/

/-- Where row `y` gets its content from. -/
def rotatedRow (r : Rect) (dy : Int) (y : Nat) : Nat :=
  if r.y1 ≤ (y : Int) ∧ (y : Int) ≤ r.y2 then (rotateFrom r.y1 (regionHeight r) dy y).toNat else y

theorem rotateFrom_bounds (lo d v : Int) {n : Int} (hn : 0 < n) :
    lo ≤ rotateFrom lo n d v ∧ rotateFrom lo n d v < lo + n := by
  have h0 := Int.emod_nonneg (v - lo - d) hn.ne'
  have h1 := Int.emod_lt_of_pos (v - lo - d) hn
  unfold rotateFrom
  omega

theorem rotateFrom_inj {lo n d v w : Int} (hv : lo ≤ v ∧ v < lo + n) (hw : lo ≤ w ∧ w < lo + n)
    (h : rotateFrom lo n d v = rotateFrom lo n d w) : v = w := by
  have hmod : (v - lo - d) % n = (w - lo - d) % n := by
    unfold rotateFrom at h
    omega
  have hdvd : n ∣ v - w := by
    rw [Int.emod_eq_emod_iff_emod_sub_eq_zero] at hmod
    have hsub : v - lo - d - (w - lo - d) = v - w := by ring
    exact Int.dvd_of_emod_eq_zero (hsub ▸ hmod)
  have hzero := Int.eq_zero_of_abs_lt_dvd hdvd (by rw [abs_lt]; omega)
  omega

theorem rotatedMap_eq (r : Rect) (dy : Int) (m : List Nat) (h2 : r.y2 < m.length)
    (hh : 0 < regionHeight r) :
    rotatedMap r dy m = ((List.range m.length).map (rotatedRow r dy)).map (m.getD · 0) := by
  rw [rotatedMap, List.map_map]
  refine List.map_congr_left fun y hy => ?_
  unfold rotatedRow
  dsimp only [Function.comp_apply]
  split
  · have hb := rotateFrom_bounds r.y1 dy y hh
    have hheight : r.y1 + regionHeight r = r.y2 + 1 := by unfold regionHeight; omega
    have hlt : (rotateFrom r.y1 (regionHeight r) dy y).toNat < m.length := by omega
    rw [List.getD_eq_getElem _ _ hlt, List.getD_eq_getElem _ _ hlt]
  · rfl

/-- The rotation gives every row of the bank one place. -/
theorem rotatedMap_perm (r : Rect) (dy : Int) (m : List Nat) (h1 : 0 ≤ r.y1) (h2 : r.y2 < m.length)
    (hh : 0 < regionHeight r) : (rotatedMap r dy m).Perm m := by
  have hheight : r.y1 + regionHeight r = r.y2 + 1 := by unfold regionHeight; omega
  have hb := fun v => rotateFrom_bounds r.y1 dy v hh
  have hinj : ∀ y ∈ List.range m.length, ∀ z ∈ List.range m.length, rotatedRow r dy y = rotatedRow r dy z → y = z := by
    intro y _ z _ h
    have hby := hb y
    have hbz := hb z
    unfold rotatedRow at h
    split at h <;> split at h
    · have hsame : rotateFrom r.y1 (regionHeight r) dy y = rotateFrom r.y1 (regionHeight r) dy z := by omega
      have := rotateFrom_inj (by omega) (by omega) hsame
      omega
    · omega
    · omega
    · exact h
  have hsub : ∀ x ∈ (List.range m.length).map (rotatedRow r dy), x ∈ List.range m.length := by
    intro x hx
    obtain ⟨y, hy, rfl⟩ := List.mem_map.1 hx
    have hby := hb y
    rw [List.mem_range] at hy ⊢
    unfold rotatedRow
    split <;> omega
  have hperm : ((List.range m.length).map (rotatedRow r dy)).Perm (List.range m.length) :=
    ((List.nodup_range.map_on hinj).subperm hsub).perm_of_length_le (by simp)
  have hm : (List.range m.length).map (m.getD · 0) = m := by
    refine List.ext_getElem (by simp) fun i _ hi => ?_
    rw [List.getElem_map, List.getElem_range, List.getD_eq_getElem _ _ hi]
  rw [rotatedMap_eq r dy m h2 hh]
  exact (hperm.map _).trans (.of_eq hm)

theorem rotatedMap_getD_outside (r : Rect) (dy : Int) (m : List Nat) {y : Nat} (hy : y < m.length)
    (h : ¬(r.y1 ≤ (y : Int) ∧ (y : Int) ≤ r.y2)) : (rotatedMap r dy m).getD y 0 = m.getD y 0 := by
  rw [List.getD_eq_getElem _ _ (by simpa [rotatedMap] using hy)]
  simp [rotatedMap, h]

theorem viewportOK.setRowMap {s : State} (h : viewportOK s) {b : Bank} {m : List Nat}
    (hm : m.Perm (s.rowMap.get b)) : viewportOK { s with rowMap := s.rowMap.set b m } := by
  obtain ⟨h1, h2, h3, h4, h5, hz, ho, hn, hl, hrest⟩ := h
  cases b with
  | zero =>
    have hp : (m ++ s.rowMap.one).Perm (s.rowMap.zero ++ s.rowMap.one) := hm.append_right _
    exact ⟨h1, h2, h3, h4, h5, hm.length_eq.trans hz, ho, hp.nodup_iff.2 hn, fun p hp' => hl p (hp.mem_iff.1 hp'),
      hrest⟩
  | one =>
    have hp : (s.rowMap.zero ++ m).Perm (s.rowMap.zero ++ s.rowMap.one) := hm.append_left _
    exact ⟨h1, h2, h3, h4, h5, hz, hm.length_eq.trans ho, hp.nodup_iff.2 hn, fun p hp' => hl p (hp.mem_iff.1 hp'),
      hrest⟩

/-! ### VScroll (R308, R309) -/

theorem bytesOnly_keepColumns (old s : State) (r : Rect) : bytesOnly (keepColumns old s r) := by
  refine .flatMap fun y _ => .flatMap fun x _ => ?_
  split
  · exact bytesOnly_rawWrite
  · exact .nil

/-- The writes of the re-pointing, for a region inside the viewport's rows. -/
theorem mem_repointRows {s : State} {r : Rect} {w : Write} (h0 : 0 ≤ r.y1) :
    w ∈ repointRows s r ↔ ∃ y : Nat, r.y1 ≤ y ∧ y ≤ r.y2 ∧ ∃ k < s.timings.scanCount, ∃ p,
      (s.rowMap.get s.drawBank)[y]? = some p
        ∧ w = .repoint s.drawBank (rowDescIndex s.timings (geometry s) y k) p := by
  simp only [repointRows, List.mem_flatMap, mem_intRange]
  constructor
  · rintro ⟨y, ⟨hlo, hhi⟩, hw⟩
    split at hw
    · rename_i p hp
      obtain ⟨k, hk, rfl⟩ := List.mem_map.1 hw
      exact ⟨y.toNat, by omega, by omega, k, List.mem_range.1 hk, p, hp, rfl⟩
    · cases hw
  · rintro ⟨y, hlo, hhi, k, hk, p, hp, rfl⟩
    refine ⟨y, ⟨hlo, hhi⟩, ?_⟩
    rw [Int.toNat_natCast, hp]
    exact List.mem_map.2 ⟨k, List.mem_range.2 hk, rfl⟩

/-- There are visible lines, and they are lines of the frame. -/
theorem timingsWF_lines {p : Params} {t : Timings} (h : timingsWF p t = true) :
    0 < t.vVisible ∧ t.vVisible ≤ vTotal t := by
  simp only [timingsWF, Bool.and_eq_true, Bool.or_eq_true, decide_eq_true_eq] at h
  unfold vTotal
  omega

theorem chainOK.rowsVisible {s : State} (hc : chainOK s) (hconf : s.configured = true) :
    rowsVisible s.timings (geometry s) := by
  obtain ⟨-, -, -, -, hrow, hfit, -⟩ := hc hconf
  exact ⟨hrow, hfit⟩

theorem viewportOK.drawBank_inUse {s : State} (h : viewportOK s) : s.drawBank = .zero ∨ s.doubleBuffered = true := by
  obtain ⟨-, -, -, -, -, -, -, -, -, hb, -⟩ := h
  cases hdb : s.doubleBuffered
  · exact .inl (hb hdb)
  · exact .inr rfl

/-- VScroll after the rotation of its row map and before its writes. -/
def rotated (dy : Int) (u : State) : State :=
  { u with rowMap := u.rowMap.set u.drawBank
            (rotatedMap u.paint.scrollRegion dy (u.rowMap.get u.drawBank)) }

/-- The writes of VScroll: the columns outside the region, then the descriptors. -/
def scrollWrites (dy : Int) (u : State) : List Write :=
  keepColumns u (rotated dy u) u.paint.scrollRegion ++ repointRows (rotated dy u) u.paint.scrollRegion

theorem vScrollBy_eq (dy : Int) (s : State) :
    vScrollBy dy s = runWrites (scrollWrites dy (hideSprites s)) (rotated dy (hideSprites s)) := rfl

theorem rotated_rowMap_get (dy : Int) (u : State) (b : Bank) :
    (rotated dy u).rowMap.get b = if b = u.drawBank
      then rotatedMap u.paint.scrollRegion dy (u.rowMap.get u.drawBank) else u.rowMap.get b :=
  PerBank.get_set ..

/-- A region that is not empty lies in the viewport (R235). -/
theorem viewportOK.region {u : State} (h : viewportOK u) (hw : 0 < regionWidth u.paint.scrollRegion)
    (hh : 0 < regionHeight u.paint.scrollRegion) :
    0 ≤ u.paint.scrollRegion.y1 ∧ u.paint.scrollRegion.y2 < (u.rowMap.get u.drawBank).length := by
  have hlen := h.drawBank_length
  obtain ⟨-, -, -, -, -, -, -, -, -, -, hreg⟩ := h
  unfold regionOK at hreg
  unfold regionWidth at hw
  unfold regionHeight at hh
  omega

theorem viewportOK.rotated {u : State} (h : viewportOK u) (hw : 0 < regionWidth u.paint.scrollRegion)
    (hh : 0 < regionHeight u.paint.scrollRegion) (dy : Int) : viewportOK (rotated dy u) := by
  obtain ⟨h0, h1⟩ := h.region hw hh
  exact h.setRowMap (rotatedMap_perm _ dy _ h0 h1 hh)

/-- Which descriptors VScroll re-points, and to which rows. -/
theorem repoint_mem_scrollWrites {dy : Int} {u : State} {b : Bank} {j p : Nat}
    (h0 : 0 ≤ u.paint.scrollRegion.y1) :
    .repoint b j p ∈ scrollWrites dy u ↔ b = u.drawBank ∧ ∃ y : Nat, u.paint.scrollRegion.y1 ≤ y
      ∧ y ≤ u.paint.scrollRegion.y2 ∧ ∃ k < u.timings.scanCount,
        (rotatedMap u.paint.scrollRegion dy (u.rowMap.get u.drawBank))[y]? = some p
          ∧ j = rowDescIndex u.timings (geometry u) y k := by
  have hrot : (rotated dy u).rowMap.get (rotated dy u).drawBank
      = rotatedMap u.paint.scrollRegion dy (u.rowMap.get u.drawBank) :=
    (rotated_rowMap_get dy u _).trans (if_pos rfl)
  rw [scrollWrites, List.mem_append, mem_repointRows h0, hrot]
  constructor
  · rintro (hk | ⟨y, hlo, hhi, k, hk, q, hq, he⟩)
    · obtain ⟨_, _, _, he⟩ := bytesOnly_keepColumns _ _ _ _ hk
      cases he
    · cases he
      exact ⟨rfl, y, hlo, hhi, k, hk, hq, rfl⟩
  · rintro ⟨rfl, y, hlo, hhi, k, hk, hp, rfl⟩
    exact .inr ⟨y, hlo, hhi, k, hk, p, hp, rfl⟩

/-- Each of VScroll's writes leaves every descriptor playable. -/
theorem writeFits_of_mem_scrollWrites {u : State} (hv : viewportOK u) (hc : chainOK u)
    (hconf : u.configured = true) (hw : 0 < regionWidth u.paint.scrollRegion)
    (hh : 0 < regionHeight u.paint.scrollRegion) (dy : Int) :
    ∀ w ∈ scrollWrites dy u, writeFits (rotated dy u) w := by
  intro w hmem
  obtain ⟨h0, h1⟩ := hv.region hw hh
  cases w with
  | byte => trivial
  | repoint b j p =>
    obtain ⟨rfl, y, hlo, hhi, k, hk, hp, rfl⟩ := (repoint_mem_scrollWrites h0).1 hmem
    have hrot := (rotated_rowMap_get dy u u.drawBank).trans (if_pos rfl)
    have hlen := hv.drawBank_length
    have hy : y < (geometry u).vpHeight.toNat := by
      show y < u.vpHeight.toNat
      omega
    obtain ⟨hwf, -⟩ := hc hconf
    have hrow := (framePlan_row_iff (hc.rowsVisible hconf) (timingsWF_lines hwf).2 _ y).2 ⟨hy, k, hk, rfl⟩
    obtain ⟨sg, hsg, hbuf⟩ := Option.map_eq_some_iff.1 hrow
    have hdesc := chain_getElem? u.timings (geometry u) u.drawBank (u.rowMap.get u.drawBank)
      (rowDescIndex u.timings (geometry u) y k)
    rw [← hc.desc_get hconf hv.drawBank_inUse, hsg] at hdesc
    exact ⟨(hv.rotated hw hh dy).bank_lt u.drawBank y p (hrot ▸ hp), _, hdesc,
      _, by simp only [segmentDesc, Segment.onRow, hbuf]; rfl⟩

/-- After VScroll's writes the chains are those of the rotated row map (R309). -/
theorem desc_scrollWrites {u : State} (hv : viewportOK u) (hc : chainOK u) (hconf : u.configured = true)
    (hw : 0 < regionWidth u.paint.scrollRegion) (hh : 0 < regionHeight u.paint.scrollRegion) (dy : Int)
    {b : Bank} (hb : b = .zero ∨ u.doubleBuffered = true) :
    (writtenDesc (scrollWrites dy u) u.desc).get b
      = chain u.timings (geometry u) b ((rotated dy u).rowMap.get b) := by
  obtain ⟨h0, h1⟩ := hv.region hw hh
  have hlen := hv.drawBank_length
  have hlen' : (rotatedMap u.paint.scrollRegion dy (u.rowMap.get u.drawBank)).length
      = (u.rowMap.get u.drawBank).length := by simp [rotatedMap]
  obtain ⟨hwf, -⟩ := hc hconf
  rw [rotated_rowMap_get]
  split
  · rename_i hbank
    subst hbank
    refine writtenDesc_eq_chain (hc.rowsVisible hconf) (timingsWF_lines hwf).2 (hc.desc_get hconf hb) ?_ ?_
    · intro j p hmem
      obtain ⟨-, y, hlo, hhi, k, hk, hp, rfl⟩ := (repoint_mem_scrollWrites h0).1 hmem
      refine ⟨y, ?_, k, hk, rfl, by rw [List.getD_eq_getElem?_getD, hp]; rfl⟩
      show y < u.vpHeight.toNat
      omega
    · intro y hy hne k hk
      have hy : y < (u.rowMap.get u.drawBank).length := hlen ▸ hy
      have hin := not_imp_comm.1 (rotatedMap_getD_outside u.paint.scrollRegion dy _ hy) hne
      refine (repoint_mem_scrollWrites h0).2 ⟨rfl, y, hin.1, hin.2, k, hk, ?_, rfl⟩
      rw [List.getElem?_eq_getElem (hlen'.symm ▸ hy), List.getD_eq_getElem _ _ (hlen'.symm ▸ hy)]
  · rename_i hbank
    rw [← hc.desc_get hconf hb]
    refine List.ext_getElem? fun j => writtenDesc_of_forall_ne _ _ _ _ fun p hmem => ?_
    exact hbank ((repoint_mem_scrollWrites h0).1 hmem).1

/-- The chains are coherent again when VScroll is done. -/
theorem chainOK.scroll {u : State} (hc : chainOK u) (hv : viewportOK u)
    (hw : 0 < regionWidth u.paint.scrollRegion) (hh : 0 < regionHeight u.paint.scrollRegion) (dy : Int) :
    chainOK (runWrites (scrollWrites dy u) (rotated dy u)) := by
  intro hconf
  rw [runWrites_configured] at hconf
  have hdesc := fun b => desc_scrollWrites (b := b) hv hc hconf hw hh dy
  obtain ⟨hwf, hcol, hcol4, hright, hrow, hfit, hb0, hb1, -, hone⟩ := hc hconf
  have hone' : (writtenDesc (scrollWrites dy u) u.desc).one = if u.doubleBuffered = true
      then chain u.timings (geometry u) .one (rotated dy u).rowMap.one else [] := by
    split
    · rename_i hdb
      exact hdesc .one (.inr hdb)
    · rename_i hdb
      rw [if_neg hdb] at hone
      refine Eq.trans (List.ext_getElem? fun j => ?_) hone
      obtain ⟨h0, -⟩ := hv.region hw hh
      refine writtenDesc_of_forall_ne _ _ .one j fun p hmem => ?_
      obtain ⟨hbank, -⟩ := (repoint_mem_scrollWrites h0).1 hmem
      rw [hv.drawBank_inUse.resolve_right hdb] at hbank
      cases hbank
  simp only [geometry, runWrites_params, runWrites_timings, runWrites_vpCol, runWrites_vpRow, runWrites_vpWidth,
    runWrites_vpHeight, runWrites_blank0, runWrites_blank1, runWrites_desc, runWrites_rowMap,
    runWrites_doubleBuffered]
  exact ⟨hwf, hcol, hcol4, hright, hrow, hfit, hb0, hb1, hdesc .zero (.inl rfl), hone'⟩

theorem keepsScan_scroll (dy : Int) (u : State) (hw : 0 < regionWidth u.paint.scrollRegion)
    (hh : 0 < regionHeight u.paint.scrollRegion) :
    keepsScan u (runWrites (scrollWrites dy u) (rotated dy u)) := by
  intro h
  have hplays : u.engineRunning = true →
      plays (runWrites (scrollWrites dy u) (rotated dy u))
        ∧ (runWrites (scrollWrites dy u) (rotated dy u)).faults = u.faults := by
    intro hrun
    have hp : plays (rotated dy u) := h.plays hrun
    obtain ⟨hconf, hv, hc, -⟩ := h
    exact hp.runWrites (writeFits_of_mem_scrollWrites hv hc (hconf hrun) hw hh dy)
  obtain ⟨-, -, hmono, -, hstill⟩ := runWrites_moved (scrollWrites dy u) (rotated dy u)
  obtain ⟨hconf, hv, hc, hsent, -⟩ := h
  refine ⟨⟨fun hrun => ?_, (hv.rotated hw hh dy).runWrites _, hc.scroll hv hw hh dy, ?_, fun hrun => ?_⟩,
    fun hrun => ?_, fun hf => ?_⟩
  · rw [runWrites_configured]
    exact hconf (hmono hrun)
  · rw [runWrites_sentinel, visBank, runWrites_doubleBuffered, runWrites_drawBank]
    exact hsent
  · obtain ⟨⟨-, -, hplace⟩, -⟩ := hplays (hmono hrun)
    exact hplace
  · obtain ⟨⟨hrun', -⟩, -⟩ := hplays hrun
    exact hrun'
  · cases hrun : u.engineRunning with
    | true => rwa [(hplays hrun).2]
    | false =>
      obtain ⟨-, -, hfaults, -⟩ := hstill hrun
      rwa [hfaults]

theorem keepsScan_vScrollBy (dy : Int) (s : State) (hw : 0 < regionWidth s.paint.scrollRegion)
    (hh : 0 < regionHeight s.paint.scrollRegion) : keepsScan s (vScrollBy dy s) := by
  rw [vScrollBy_eq]
  exact (showParts_keepsScan.hideSprites s).trans
    (keepsScan_scroll dy (hideSprites s) (by simpa using hw) (by simpa using hh))

/-! ### Records -/

/-- The sentinel follows the visible bank (R136, R211). -/
theorem keepsScan_flipBanks (s : State) (hdb : s.doubleBuffered = true) : keepsScan s (flipBanks s) := by
  refine .of_core (fun ⟨hconf, hv, hc, hsent, hplace⟩ => ⟨hconf, ?_, hc, ?_, hplace⟩) rfl rfl
  · obtain ⟨h1, h2, h3, h4, h5, h6, h7, h8, h9, -, h11⟩ := hv
    exact ⟨h1, h2, h3, h4, h5, h6, h7, h8, h9, fun h => by simp [flipBanks, hdb] at h, h11⟩
  · have hvis : visBank (flipBanks s) = s.drawBank := by
      simp only [visBank, flipBanks, hdb, if_true]
      cases s.drawBank <;> rfl
    rw [hvis]
    simp [flipBanks, hsent, Desc.linkTo]

theorem recordParts_keepsScan : RecordParts keepsScan where
  refl := .refl
  trans := .trans
  paint s p hp := .of_core (fun ⟨hconf, hv, hc, he⟩ => ⟨hconf, hp hv, hc, he⟩) rfl rfl
  dangling s a n := keepsScan_fault s (.danglingReference a n) nofun
  draw ws s h := showParts_keepsScan.draw ws h s
  vScroll dy s hw hh := keepsScan_vScrollBy dy s hw hh
  refresh s := (showParts_keepsScan.hideSprites s).trans (showParts_keepsScan.showSprites _)
  swap s hdb := ((showParts_keepsScan.showSprites s).trans (showParts_keepsScan.gap _)).trans
    (keepsScan_flipBanks _ (by simpa using hdb))
  reserved s b := keepsScan_fault s (.reservedPrimitive b) nofun
  start _ _ := .of_core id rfl rfl
  cost := showParts_keepsScan.costTicks

/-! ### Configuration (R131, R140, R141) -/

/-- Rebuilt from well-formed timings and a viewport inside the visible area, scan-out is coherent. -/
theorem scanCore_rebuildScan {s : State} {t : Timings} {g : Geometry} (hconf : s.configured = true)
    (hwf : timingsWF s.params t = true)
    (hv : viewportOK { s with vpWidth := g.vpWidth, vpHeight := g.vpHeight })
    (hcol : 0 ≤ g.vpCol ∧ g.vpCol % 4 = 0 ∧ g.vpCol + g.vpWidth ≤ t.hVisible)
    (hrow : 0 ≤ g.vpRow ∧ g.vpRow + g.vpHeight ≤ t.vVisible) : scanCore (rebuildScan t g s) :=
  ⟨fun _ => hconf, hv, fun _ => ⟨hwf, hcol.1, hcol.2.1, hcol.2.2, hrow.1, hrow.2, rfl, rfl, rfl, rfl⟩, rfl,
    fun _ => .inl rfl⟩

/-- A viewport no wider than the visible area is centred inside it (R127). -/
theorem viewportCol_bounds {t : Timings} {w : Int} (h4 : t.hVisible % 4 = 0) (hw4 : w % 4 = 0)
    (hw : w ≤ t.hVisible) :
    0 ≤ viewportCol t w ∧ viewportCol t w % 4 = 0 ∧ viewportCol t w + w ≤ t.hVisible := by
  unfold viewportCol roundDown4
  omega

theorem viewportRow_bounds {t : Timings} {h : Int} (hh : h ≤ t.vVisible) :
    0 ≤ viewportRow t h ∧ viewportRow t h + h ≤ t.vVisible := by
  unfold viewportRow
  omega

theorem viewportWidth_bounds {t : Timings} (hpos : 0 < t.hVisible) (rw : Int) :
    0 ≤ viewportWidth t rw ∧ viewportWidth t rw % 4 = 0 ∧ viewportWidth t rw ≤ t.hVisible := by
  unfold viewportWidth roundDown4 clamp
  omega

theorem requestedHeight_bounds {t : Timings} (hpos : 0 < t.vVisible) (rw rh : Int) :
    0 ≤ requestedHeight t rw rh ∧ requestedHeight t rw rh ≤ t.vVisible
      ∧ (viewportWidth t rw = 0 → requestedHeight t rw rh = 0) := by
  unfold requestedHeight clamp
  split
  · omega
  · rename_i h; exact ⟨by omega, by omega, fun hz => absurd hz h⟩

/-- Fresh rows for each bank, each once (R170). -/
theorem freshRowMap_perm (dbl : Bool) (ah : Nat) :
    (freshRowMap dbl ah).zero ++ (freshRowMap dbl ah).one = List.range (if dbl then 2 * ah else ah) := by
  cases dbl
  · simp [freshRowMap]
  · simp [freshRowMap, two_mul, List.range_add]

theorem keepsScan_applyResolution {s : State} {t : Timings} {rw rh : Int} {ah : Nat} (dbl : Bool) (split : List Nat)
    (hwf : timingsWF s.params t = true) (hah : ah ≤ (requestedHeight t rw rh).toNat) :
    keepsScan s (applyResolution t rw dbl ah split s) := by
  obtain ⟨hpos, h4, -⟩ := timingsWF_arith hwf
  obtain ⟨hvpos, -⟩ := timingsWF_lines hwf
  obtain ⟨hw0, hw4, hwle⟩ := viewportWidth_bounds hpos rw
  obtain ⟨hh0, hhle, hzero⟩ := requestedHeight_bounds hvpos rw rh
  have hrows := freshRowMap_perm dbl ah
  refine fun _ => ⟨scanCore_rebuildScan rfl hwf ?_ (viewportCol_bounds h4 hw4 hwle)
    (viewportRow_bounds (by omega)), fun _ => rfl, id⟩
  refine ⟨hw0, hw4, Int.natCast_nonneg ah, fun hz => ?_, fun r hr => ?_, by simp [freshRowMap, newGeometry], ?_, ?_, ?_,
    fun _ => rfl, ?_⟩
  · have := hzero hz
    show (ah : Int) = 0
    omega
  · obtain ⟨-, rfl⟩ := List.mem_replicate.1 hr
    exact List.length_replicate
  · cases dbl <;> simp [freshRowMap, newGeometry]
  · dsimp only
    rw [hrows]
    exact List.nodup_range
  · dsimp only
    rw [hrows, List.length_replicate]
    exact fun p => List.mem_range.1
  · unfold regionOK Paint.reset
    dsimp only [newGeometry]
    omega

theorem HostEffect.keepsScan {s t : State} {i : Instr} (h : HostEffect s i t) : keepsScan s t := by
  cases h with
  | recorded f hf => exact keepsScan_fault s f hf
  | malformed t => exact (keepsScan_fault s (.malformedTimings t) nofun).trans (.of_core id rfl rfl)
  | configured t ah split hwf hah =>
    exact keepsScan.trans (t := { s with draws := s.draws + 1 }) (.of_core id rfl rfl)
      (keepsScan_applyResolution _ _ hwf hah)
  | moved hc hwf =>
    rintro ⟨-, hv, hchain, -⟩
    obtain ⟨-, hcol, hcol4, hright, hrow, hfit, -⟩ := hchain hc
    exact ⟨scanCore_rebuildScan hc hwf hv ⟨hcol, hcol4, hright⟩ ⟨hrow, hfit⟩, fun _ => rfl, id⟩
  | shrunk hc hwf hw hh =>
    rintro ⟨-, hv, -⟩
    obtain ⟨-, h4, -⟩ := timingsWF_arith hwf
    have ⟨_, hw4, _⟩ := hv
    exact ⟨scanCore_rebuildScan hc hwf hv (viewportCol_bounds h4 hw4 hw) (viewportRow_bounds hh), fun _ => rfl, id⟩
  | installed => exact .of_core (fun hs => hs.withRows (hideSprites_rows_map_length s)) rfl rfl
  | deadHeader a =>
    have hrows : Machine.keepsScan s { s with rows := (hideSprites s).rows, spritesHidden := true
                                              sprites := (hideSprites s).sprites } :=
      .of_core (fun hs => hs.withRows (hideSprites_rows_map_length s)) rfl rfl
    exact hrows.trans (keepsScan_fault _ (.danglingReference a 8) nofun)
  | _ => exact .of_core id rfl rfl

theorem stepParts_keepsScan : StepParts keepsScan where
  toRecordParts := recordParts_keepsScan
  tick := keepsScan_engineTick
  shown := showParts_keepsScan.showSprites
  bookkeeping h := by
    rw [h.eq]
    exact .of_core id rfl rfl
  host h := h.keepsScan
  refused _ := .of_core id rfl rfl

theorem scanOK_iff (s : State) : scanOK s ↔ controlOK s ∧ scanCore s := by
  constructor
  · rintro ⟨hctl, hv, hc, he⟩
    have ⟨_, hrun, _⟩ := hctl
    exact ⟨hctl, hrun, hv, hc, he⟩
  · rintro ⟨hctl, -, hv, hc, he⟩
    exact ⟨hctl, hv, hc, he⟩

/-- Settles O58: the control values by `controlOK.step`, the rest of scan-out part by part, and the Engine by what
it needs. -/
theorem stepKeepsScanOut : Obligations.StepKeepsScanOut := by
  refine ⟨fun s t h ht => ?_, fun s h hrun => ?_⟩
  · obtain ⟨hctl, hcore⟩ := (scanOK_iff s).1 h
    obtain ⟨hcore', hrun, hfaults⟩ := stepParts_keepsScan.step ht hcore
    exact ⟨(scanOK_iff t).2 ⟨hctl.step ht, hcore'⟩, hrun, hfaults⟩
  · obtain ⟨hplays, htick, hfaults, hout⟩ := (((scanOK_iff s).1 h).2.plays hrun).engineTick
    exact ⟨htick, hfaults, hplays.1, hout⟩

end Sys2Proof.Machine
end

section
/-! PROOFS. Clear (R261), SetSprites (R331) and the host-memory operations (R182). -/

namespace Sys2Proof.Machine

/-! ### Clear -/

theorem mem_viewportPixels {s : State} {ax ay : Int} :
    (⟨ax, ay⟩ : Point) ∈ viewportPixels s ↔ inVP s ax ay = true := by
  rw [viewportPixels, mem_cornerPixels]
  simp only [inVP, Bool.and_eq_true, decide_eq_true_eq]
  omega

/-- The fill of Clear, before it resets the paint state. -/
theorem draw_clearWrites_redraws {s : State} (hv : viewportOK s) :
    redraws s (draw clearWrites s) s.paint
      fun h ax ay => if inVP h ax ay then some (vpByte h s.paint.brushColor) else none := by
  refine draw_redraws _ _ hv (fun w hw => ?_) fun ax ay v hin hn w hw => ?_
  · obtain ⟨⟨ax, ay⟩, hp, hw⟩ := List.mem_flatMap.1 hw
    rw [hideSprites_paint] at hw
    exact ⟨ax, ay, _, if_pos (mem_viewportPixels.1 hp), hw⟩
  · rw [if_pos (by simpa using hin)] at hn
    cases hn
    refine List.mem_flatMap.2 ⟨⟨ax, ay⟩, mem_viewportPixels.2 (by simpa using hin), ?_⟩
    rw [hideSprites_paint]
    exact hw

/-- Settles O18: the fill by the law of `draw`, then the reset of the paint state. -/
theorem clearFills : Obligations.ClearFills := by
  intro s hv
  have hfill := draw_clearWrites_redraws hv
  cases hreset : s.params.clearResetsPaintState with
  | true =>
    refine ⟨{ draw clearWrites s with paint := Paint.reset s.vpWidth s.vpHeight }, ?_, hfill.setPaint _⟩
    simp [exec, execClear, hreset]
  | false =>
    refine ⟨draw clearWrites s, ?_, hfill⟩
    simp [exec, execClear, hreset]

/-! ### SetSprites -/

theorem rangeLive_hideSpritesAtOnce (s : State) (a n : Nat) :
    rangeLive (hideSpritesAtOnce s) a n = rangeLive s a n := by
  rw [hideSpritesAtOnce_eq]
  rfl

/-- Settles O31: by whether the list has room and whether a header is dead. -/
theorem setSpritesInstalls : Obligations.SetSpritesInstalls := by
  intro slots s
  refine ⟨fun hn hlive => ?_, fun hn pre post a hlist hpre ha => ?_, fun hn => ?_⟩
  · have hdead : deadHeader (hideSpritesAtOnce s) slots = none := by
      refine List.find?_eq_none.2 fun a ha => ?_
      obtain ⟨i, hi, ha⟩ := List.mem_flatMap.1 ha
      rw [rangeLive_hideSpritesAtOnce, hlive i hi a ha]
      decide
    simp only [exec, execSetSprites, if_pos ((atMost_iff slots _).2 hn), hdead]
    rw [hideSpritesAtOnce_eq]
    rfl
  · have hdead : deadHeader (hideSpritesAtOnce s) slots = some a := by
      refine List.find?_eq_some_iff_append.2 ⟨?_, pre, post, hlist, fun b hb => ?_⟩
      · rw [rangeLive_hideSpritesAtOnce, ha]; rfl
      · rw [rangeLive_hideSpritesAtOnce, hpre b hb]; rfl
    simp only [exec, execSetSprites, if_pos ((atMost_iff slots _).2 hn), hdead]
    rw [hideSpritesAtOnce_eq]
    rfl
  · have hfull : ¬atMost slots s.params.maxSprites = true := by rw [atMost_iff]; omega
    simp only [exec, execSetSprites, if_neg hfull]
    rfl

/-! ### Host memory -/

theorem rangeLive_iff (s : State) (a n : Nat) :
    rangeLive s a n = true ↔ ∀ k < n, Ranges.contains s.live (a + k) = true := by
  simp [rangeLive]

theorem Ranges.contains_alloc (l : Ranges) (a n b : Nat) :
    Ranges.contains (if n = 0 then l else Ranges.insert l a (a + n)) b = true
      ↔ Ranges.contains l b = true ∨ (a ≤ b ∧ b < a + n) := by
  split
  · have : ¬(a ≤ b ∧ b < a + n) := by omega
    simp [this]
  · rw [Ranges.contains_insert l a (a + n) b (by omega)]
    simp [or_comm]

theorem Ranges.contains_free (l : Ranges) (a n b : Nat) :
    Ranges.contains (if n = 0 then l else Ranges.remove l a (a + n)) b = true
      ↔ Ranges.contains l b = true ∧ ¬(a ≤ b ∧ b < a + n) := by
  split
  · have : ¬(a ≤ b ∧ b < a + n) := by omega
    simp [this]
  · simp only [Ranges.contains_remove, Bool.and_eq_true, Bool.not_eq_true', Bool.and_eq_false_iff,
      decide_eq_false_iff_not, not_and_or]

/-- Settles O54: each operation by the law of its store. -/
theorem hostMemoryOperations : Obligations.HostMemoryOperations := by
  intro a n bytes s
  refine ⟨⟨_, rfl, fun hs => Ranges.alloc_wf _ a n hs.2, Ranges.contains_alloc _ a n⟩,
    ⟨_, rfl, fun hs => Ranges.free_wf _ a n hs.2, Ranges.contains_free _ a n⟩,
    fun hlive => ?_, fun ⟨k, hk, hdead⟩ => ?_⟩
  · refine ⟨Memory.writeBytes s.hostmem a bytes, ?_, fun hs => Memory.writeBytes_wf bytes _ a hs.1,
      fun k v hv => ?_, fun b hb => ?_⟩
    · simp only [exec, execHostWrite, if_pos ((rangeLive_iff s a _).2 hlive)]
    · obtain ⟨hk, -⟩ := List.getElem?_eq_some_iff.1 hv
      rw [Memory.read_writeBytes, if_pos (by omega), Nat.add_sub_cancel_left, hv]
    · rw [Memory.read_writeBytes, if_neg hb]
  · have hno : ¬rangeLive s a bytes.length = true := by
      rw [rangeLive_iff]
      intro h
      rw [h k hk] at hdead
      cases hdead
    simp only [exec, execHostWrite, if_neg hno]
    rfl

end Sys2Proof.Machine
end

section
/-! PROOFS. Which instructions write what (R22 to R29, R40 to R43, R45, R60, R182, R375): each group of fields by the
effects of primitives and of host operations. -/

namespace Sys2Proof.Machine

/-! ### Primitives -/

/-- All that a primitive can do, from `s` to the state it leaves. -/
inductive PrimEffect (s : State) : Instr → State → Prop
  /-- the paint state alone, or nothing -/
  | painted {i : Instr} (p : Paint) : PrimEffect s i { s with paint := p }
  /-- R61 -/
  | dangling {i : Instr} (a n : Nat) : PrimEffect s i { s with faults := s.faults ++ [.danglingReference a n] }
  /-- R207, R250 -/
  | drawn {i : Instr} (ws : State → List Write) (p : Paint) (hi : isDrawing i = true) (hws : ∀ h, bytesOnly (ws h)) :
      PrimEffect s i { draw ws s with paint := p }
  /-- R308 -/
  | scrolled {dy : Int} : PrimEffect s (.vScroll dy) (vScrollBy dy s)
  /-- R337 -/
  | refreshed : PrimEffect s .refreshSprites (showSprites (hideSprites s))
  /-- R211 -/
  | swapped : PrimEffect s .swapBuffers (flipBanks (gap (showSprites s)))

/-- Drawing with no change of the paint state. -/
theorem PrimEffect.draws {s : State} {i : Instr} {ws : State → List Write} (hi : isDrawing i = true)
    (hws : ∀ h, bytesOnly (ws h)) : PrimEffect s i (draw ws s) := by
  have h := PrimEffect.drawn (s := s) ws (draw ws s).paint hi hws
  exact h

/-- Each arm of a primitive is one of its effects. -/
theorem exec_primEffect {i : Instr} {s t : State} (hi : isPrimitive i = true) (h : exec i s = .next t) :
    PrimEffect s i t := by
  cases i with
  | setPenColor | setBrushColor | moveTo | setGlyphOptions | setPaintOptions | setScrollingRegion | setOrigin
    | setClippingRect => cases h; exact .painted _
  | setPixel | setPixelAt => cases h; exact .draws rfl fun _ => bytesOnly_paintPix
  | fillRect | drawRect | fillEllipse | drawEllipse => cases h; exact .draws rfl fun _ => bytesOnly_paintAll
  | lineTo p =>
    cases h
    exact .drawn (fun u => paintAll u (linePixels u.paint.penPos p) (fg u)) _ rfl fun _ => bytesOnly_paintAll
  | clear =>
    simp only [exec, execClear] at h
    split at h <;> cases h
    · exact .drawn clearWrites _ rfl fun _ => bytesOnly_clearWrites
    · exact .draws rfl fun _ => bytesOnly_clearWrites
  | invertRect => cases h; exact .draws rfl fun _ => .flatMap fun _ _ => bytesOnly_invertPix
  | swapFGBG => cases h; exact .draws rfl fun _ => .flatMap fun _ _ => bytesOnly_swapPix
  | copyRect => cases h; exact .draws rfl fun _ => .flatMap fun _ _ => bytesOnly_copyPix
  | vScroll dy =>
    simp only [exec, execVScroll] at h
    split at h <;> cases h
    · exact .painted s.paint
    · exact .scrolled
  | hScroll dx =>
    simp only [exec, execHScroll] at h
    split at h <;> cases h
    · exact .painted s.paint
    · exact .draws rfl fun _ => bytesOnly_hScrollWrites
  | drawGlyph =>
    simp only [exec, execDrawGlyph] at h
    split at h <;> cases h
    · exact .draws rfl fun _ => bytesOnly_paintCell
    · exact .dangling _ _
  | drawPath | fillPath =>
    simp only [exec, execDrawPath, execFillPath] at h
    split at h <;> cases h
    · exact .draws rfl fun _ => bytesOnly_paintAll
    · exact .dangling _ _
  | renderGlyphsBuffer =>
    simp only [exec, execRenderGlyphsBuffer] at h
    split_ifs at h <;> cases h
    · exact .draws rfl fun _ => bytesOnly_paintCell
    · exact .dangling _ _
    · exact .dangling _ _
    · exact .painted s.paint
    · exact .dangling _ _
  | drawBitmap =>
    simp only [exec, execDrawBitmap] at h
    split_ifs at h <;> cases h
    · exact .draws rfl fun _ => bytesOnly_bitmapWrites
    · exact .dangling _ _
    · exact .dangling _ _
  | refreshSprites => cases h; exact .refreshed
  | swapBuffers =>
    simp only [exec, execSwapBuffers] at h
    split at h <;> cases h
    · exact .swapped
    · exact .painted s.paint
  | _ => cases hi

theorem exec_primOnly {i : Instr} {s t : State} (hi : isPrimitive i = true) (h : exec i s = .next t) :
    primOnly s t := by
  obtain ⟨u, hu, hframe⟩ := exec_primitive i s hi
  rw [h] at hu
  cases hu
  exact hframe

section
variable {s t : State} {i : Instr}

theorem PrimEffect.rows (h : PrimEffect s i t) (hi : writesRows i = false) :
    t.rows = s.rows ∧ t.spritesHidden = s.spritesHidden := by
  cases h with
  | drawn _ _ hdraw => simp [writesRows, hdraw] at hi
  | scrolled | refreshed | swapped => cases hi
  | _ => exact ⟨rfl, rfl⟩

theorem PrimEffect.sprites (h : PrimEffect s i t) (hi : writesSprites i = false) : t.sprites = s.sprites := by
  cases h with
  | drawn _ _ hdraw => simp [writesSprites, writesRows, hdraw] at hi
  | scrolled | refreshed | swapped => cases hi
  | _ => rfl

theorem draw_desc {ws : State → List Write} (hws : ∀ h, bytesOnly (ws h)) (s : State) :
    (draw ws s).desc = s.desc := by
  have hbytes := hws (hideSprites s)
  unfold draw
  split
  · rfl
  · rename_i e
    rw [runWrites_desc, writtenDesc_bytes _ _ (e ▸ hbytes), hideSprites_desc]

theorem PrimEffect.rowMap (h : PrimEffect s i t) (hi : isVScroll i = false) :
    t.rowMap = s.rowMap ∧ t.desc = s.desc := by
  cases h with
  | drawn _ _ _ hws => exact ⟨draw_rowMap _ s, draw_desc hws s⟩
  | scrolled => cases hi
  | refreshed => simp
  | swapped => simp [flipBanks]
  | _ => exact ⟨rfl, rfl⟩

theorem PrimEffect.banks (h : PrimEffect s i t) (hi : isSwapBuffers i = false) :
    t.drawBank = s.drawBank ∧ t.sentinel = s.sentinel := by
  cases h with
  | drawn => simp
  | scrolled => simp [vScrollBy]
  | refreshed => simp
  | swapped => cases hi
  | _ => exact ⟨rfl, rfl⟩

/-- Nothing that a record does adds or drops a row. -/
theorem showParts_rowsLength : ShowParts fun s t => t.rows.length = s.rows.length where
  refl _ := rfl
  trans h k := k.trans h
  tick s := by simp
  count _ _ _ _ := rfl
  byte s p off v := setRowByte_length s.rows p off v
  hide _ := rfl
  slot _ _ _ _ _ := rfl
  shown _ := rfl
  dangling _ _ _ := rfl

theorem recordParts_rowsLength : RecordParts fun s t => t.rows.length = s.rows.length :=
  showParts_rowsLength.recordParts (fun _ _ => rfl) (fun _ _ => rfl) (fun _ _ => rfl) (fun _ _ => rfl)
    (fun _ _ => rfl) (fun _ _ => rfl)

/-! ### Host operations -/

theorem HostEffect.timings (h : HostEffect s i t) (hi : writesTimings i = false) :
    t.timings = s.timings ∧ t.blank0 = s.blank0 ∧ t.blank1 = s.blank1 ∧ t.vpCol = s.vpCol
      ∧ t.vpRow = s.vpRow := by
  cases h with
  | configured | moved | shrunk => cases hi
  | _ => exact ⟨rfl, rfl, rfl, rfl, rfl⟩

theorem HostEffect.sizes (h : HostEffect s i t) (hi : isSetResolution i = false) :
    t.vpWidth = s.vpWidth ∧ t.vpHeight = s.vpHeight ∧ t.pools = s.pools ∧ t.rows.length = s.rows.length
      ∧ t.doubleBuffered = s.doubleBuffered ∧ t.configured = s.configured := by
  cases h with
  | configured => cases hi
  | installed => exact ⟨rfl, rfl, rfl, showParts_rowsLength.hideSprites s, rfl, rfl⟩
  | deadHeader => exact ⟨rfl, rfl, rfl, showParts_rowsLength.hideSprites s, rfl, rfl⟩
  | _ => exact ⟨rfl, rfl, rfl, rfl, rfl, rfl⟩

theorem HostEffect.rows (h : HostEffect s i t) (hi : writesRows i = false) :
    t.rows = s.rows ∧ t.spritesHidden = s.spritesHidden := by
  cases h with
  | configured | installed | deadHeader => cases hi
  | _ => exact ⟨rfl, rfl⟩

theorem HostEffect.sprites (h : HostEffect s i t) (hi : writesSprites i = false) : t.sprites = s.sprites := by
  cases h with
  | configured | installed | deadHeader => cases hi
  | slot _ hw => rw [hw] at hi; cases hi
  | _ => rfl

theorem HostEffect.rowMap (h : HostEffect s i t) (hi : isSetResolution i = false) :
    t.rowMap = s.rowMap ∧ (writesTimings i = false → t.desc = s.desc) := by
  cases h with
  | configured => cases hi
  | moved | shrunk => exact ⟨rfl, nofun⟩
  | _ => exact ⟨rfl, fun _ => rfl⟩

theorem HostEffect.banks (h : HostEffect s i t) (hi : isSetResolution i = false) :
    t.drawBank = s.drawBank ∧ (writesTimings i = false → t.sentinel = s.sentinel) := by
  cases h with
  | configured => cases hi
  | moved | shrunk => exact ⟨rfl, nofun⟩
  | _ => exact ⟨rfl, fun _ => rfl⟩

theorem HostEffect.engine (h : HostEffect s i t) (hi : writesTimings i = false) :
    t.cur = s.cur ∧ t.lat = s.lat ∧ t.pos = s.pos ∧ t.tick = s.tick ∧ t.out = s.out
      ∧ t.engineRunning = s.engineRunning ∧ t.vsIntPending = s.vsIntPending ∧ t.costLeft = s.costLeft := by
  cases h with
  | configured | moved | shrunk => cases hi
  | _ => exact ⟨rfl, rfl, rfl, rfl, rfl, rfl, rfl, rfl⟩

theorem HostEffect.hostmem (h : HostEffect s i t) (hi : isHostWrite i = false) : t.hostmem = s.hostmem := by
  cases h with
  | written => cases hi
  | _ => rfl

theorem HostEffect.live (h : HostEffect s i t) (hi : writesLive i = false) : t.live = s.live := by
  cases h with
  | ranges _ hw => rw [hw] at hi; cases hi
  | _ => rfl

theorem HostEffect.paint (h : HostEffect s i t) (hi : isSetResolution i = false) : t.paint = s.paint := by
  cases h with
  | configured => cases hi
  | _ => rfl

theorem HostEffect.queue (h : HostEffect s i t) (hi : isAddPrimitive i = false) :
    t.queue = s.queue ∧ t.blocked = s.blocked ∧ t.immediate = s.immediate := by
  cases h with
  | queued | waits | immediate => cases hi
  | _ => exact ⟨rfl, rfl, rfl⟩

theorem HostEffect.executor (h : HostEffect s i t) (hi : beginsDrain i = false) :
    t.inExecutor = s.inExecutor ∧ t.drainKind = s.drainKind ∧ t.drainStart = s.drainStart
      ∧ t.drainFirst = s.drainFirst := by
  cases h with
  | immediate | pumps => cases hi
  | _ => exact ⟨rfl, rfl, rfl, rfl⟩

theorem HostEffect.suspension (h : HostEffect s i t) (hi : writesSuspension i = false) :
    t.suspendCount = s.suspendCount := by
  cases h with
  | suspended | resumed | pumps => cases hi
  | _ => rfl

theorem HostEffect.backgroundExec (h : HostEffect s i t) (hi : isEnableBackground i = false) :
    t.backgroundExec = s.backgroundExec := by
  cases h with
  | mode => cases hi
  | _ => rfl

theorem HostEffect.ret (h : HostEffect s i t) (hi : returnsValue i = false) : t.ret = s.ret := by
  cases h with
  | returned _ hr => rw [hr] at hi; cases hi
  | malformed | configured => cases hi
  | _ => rfl

theorem HostEffect.schedule (h : HostEffect s i t) :
    t.program = s.program ∧ t.ticksDue = s.ticksDue ∧ t.params = s.params := by
  cases h <;> exact ⟨rfl, rfl, rfl⟩

/-! ### Every instruction -/

theorem movesEngine_of_isPrimitive (h : isPrimitive i = true) : movesEngine i = true := by
  rw [movesEngine, h]
  rfl

theorem writesTimings_of_not_movesEngine (h : movesEngine i = false) : writesTimings i = false := by
  rw [movesEngine, Bool.or_eq_false_iff] at h
  exact h.2

end

/-- Settles O60: a primitive by `primOnly` and its effect, a host operation group by group. -/
theorem onlyTheirWritersWrite : Obligations.OnlyTheirWritersWrite := by
  intro i s t h
  cases hi : isPrimitive i with
  | true =>
    have heff := exec_primEffect hi h
    have hrows := recordParts_rowsLength.exec i hi s t h
    have hframe := exec_primOnly hi h
    have hmoves := movesEngine_of_isPrimitive hi
    refine ⟨fun _ => ?_, fun _ => ?_, heff.rows, heff.sprites, fun hv _ => ?_, fun hw _ => ?_,
      fun hm => absurd (hmoves.symm.trans hm) nofun, fun _ => ?_, fun _ => ?_, nofun, fun _ => ?_, fun _ => ?_,
      fun _ => ?_, fun _ => ?_, fun _ => ?_, ?_⟩
    case refine_3 => exact ⟨(heff.rowMap hv).1, fun _ => (heff.rowMap hv).2⟩
    case refine_4 => exact ⟨(heff.banks hw).1, fun _ => (heff.banks hw).2⟩
    case refine_2 => refine ⟨?_, ?_, ?_, hrows, ?_, ?_⟩ <;> rw [hframe.eq]
    all_goals rw [hframe.eq]
    all_goals and_intros <;> rfl
  | false =>
    have heff := exec_hostEffect hi h
    exact ⟨heff.timings, heff.sizes, heff.rows, heff.sprites, fun _ => heff.rowMap, fun _ => heff.banks,
      fun hm => heff.engine (writesTimings_of_not_movesEngine hm), heff.hostmem, heff.live, fun _ => heff.paint,
      heff.queue, heff.executor, heff.suspension, heff.backgroundExec, heff.ret, heff.schedule⟩

end Sys2Proof.Machine
end

section
/-! PROOFS. The drains that the Producer begins (R201, R204): ProcessPrimitives and an immediate AddPrimitive take the
queue's records in order, a step each, and end (R69, R70). -/

namespace Sys2Proof.Machine

/-! ### One turn of a drain that is not the interrupt's -/

/-- Only the interrupt's drain leaves a SwapBuffers in the queue (R206), or stops at its budget (R210). -/
theorem drainStep_take {s : State} {P : Record} {ps : List Record} (hk : s.drainKind ≠ .isr)
    (hq : s.queue = P :: ps) :
    ∃ u, runRecord exec P { s with queue := ps } = .next u ∧ primOnly { s with queue := ps } u
      ∧ drainStep exec s = .next { u with drainFirst := false } := by
  obtain ⟨u, hu, hframe⟩ := runRecord_next P { s with queue := ps }
  have hkind : u.drainKind ≠ .isr := by rw [hframe.eq]; exact hk
  refine ⟨u, hu, hframe, ?_⟩
  have hstay : mustRequeue s P = false := by simp [mustRequeue, hk]
  have hafter : afterPrimitive u = { u with drainFirst := false } := if_neg fun h => hkind h.1
  simp [drainStep, hq, hstay, hu, hafter]

theorem step_take {s : State} {P : Record} {ps : List Record} (he : engineTurn s = false) (hx : s.inExecutor = true)
    (hk : s.drainKind ≠ .isr) (hq : s.queue = P :: ps) :
    ∃ u, runRecord exec P { s with queue := ps } = .next u ∧ primOnly { s with queue := ps } u
      ∧ step s = .next (reschedule { u with drainFirst := false }) := by
  obtain ⟨u, hu, hframe, hturn⟩ := drainStep_take hk hq
  exact ⟨u, hu, hframe, by rw [step_of_drain he hx, hturn]; rfl⟩

theorem step_drained {s : State} (he : engineTurn s = false) (hx : s.inExecutor = true) (hq : s.queue = []) :
    step s = .next (reschedule (endDrain s)) := by
  simp [step_of_drain he hx, drainStep, hq]

theorem showAtEnd_eq (s : State) :
    showAtEnd s = if s.doubleBuffered = false ∧ s.spritesHidden = true then showSprites s else s := by
  simp [showAtEnd]

/-- A pump's end takes its suspension back (R204). -/
theorem endDrain_of_pump {s : State} (hk : s.drainKind = .pump) :
    endDrain s = { showAtEnd s with inExecutor := false, suspendCount := s.suspendCount - 1 } := by
  have hcount := endDrain_suspendCount s
  rw [if_pos hk] at hcount
  rw [← hcount]
  rfl

theorem endDrain_of_not_pump {s : State} (hk : s.drainKind ≠ .pump) :
    endDrain s = { showAtEnd s with inExecutor := false } := by
  have hkind : (showAtEnd s).drainKind ≠ .pump := by rw [(showAtEnd_drawingOnly s).eq]; exact hk
  simp [endDrain, hkind]

/-! ### Runs -/

/-- Some number of steps leads from `s` to `t`. -/
def reaches (s t : State) : Prop := ∃ n, stepMany n s = .next t

theorem reaches.trans {s t u : State} (h : reaches s t) (k : reaches t u) : reaches s u := by
  obtain ⟨m, hm⟩ := h
  obtain ⟨n, hn⟩ := k
  exact ⟨m + n, (stepMany_add hm).trans hn⟩

theorem reaches.of_step {s t : State} (h : step s = .next t) : reaches s t := ⟨1, by simp [stepMany, h]⟩

/-- What a drain keeps while it runs, beside what its records are executed on. -/
def drainFrame (s t : State) : Prop :=
  t.inExecutor = s.inExecutor ∧ t.drainKind = s.drainKind ∧ t.suspendCount = s.suspendCount
    ∧ t.backgroundExec = s.backgroundExec ∧ t.doubleBuffered = s.doubleBuffered ∧ t.program = s.program
    ∧ t.blocked = s.blocked ∧ t.immediate = s.immediate

theorem drainFrame.refl (s : State) : drainFrame s s := ⟨rfl, rfl, rfl, rfl, rfl, rfl, rfl, rfl⟩

theorem drainFrame.trans {s t u : State} (h : drainFrame s t) (k : drainFrame t u) : drainFrame s u := by
  obtain ⟨h1, h2, h3, h4, h5, h6, h7, h8⟩ := h
  obtain ⟨k1, k2, k3, k4, k5, k6, k7, k8⟩ := k
  exact ⟨k1.trans h1, k2.trans h2, k3.trans h3, k4.trans h4, k5.trans h5, k6.trans h6, k7.trans h7, k8.trans h8⟩

theorem primOnly.drainFrame {s t : State} (h : primOnly s t) : drainFrame s t := by
  rw [h.eq]
  exact .refl s

/-- The ticks that are due come first, and change nothing that a drain depends on. -/
theorem reaches_catchUp (s : State) : ∃ t, reaches s t ∧ engineTurn t = false ∧ drainFrame s t ∧ t.queue = s.queue := by
  obtain ⟨n, t, hn, he, hframe⟩ := stepMany_catchUp s
  exact ⟨t, ⟨n, hn⟩, he, by rw [hframe.eq]; exact ⟨.refl s, rfl⟩⟩

/-- A drain that is not the interrupt's comes to an empty queue, each record taken by a step of its own. -/
theorem reaches_drained {s : State} (hx : s.inExecutor = true) (hk : s.drainKind ≠ .isr) :
    ∃ t, reaches s t ∧ engineTurn t = false ∧ drainFrame s t ∧ t.queue = [] := by
  generalize hq : s.queue = q
  induction q generalizing s with
  | nil =>
    obtain ⟨t, hst, he, hframe, hqt⟩ := reaches_catchUp s
    exact ⟨t, hst, he, hframe, hqt.trans hq⟩
  | cons P ps ih =>
    obtain ⟨a, hsa, he, hframe, hqa⟩ := reaches_catchUp s
    have ⟨ax, ak, _⟩ := hframe
    obtain ⟨u, -, hprim, hstep⟩ := step_take he (ax.trans hx) (ak ▸ hk) (hqa.trans hq)
    have hau : drainFrame a (reschedule { u with drainFirst := false }) := hprim.drainFrame
    have hsu := hframe.trans hau
    have ⟨ux, uk, _⟩ := hsu
    have hqu : (reschedule { u with drainFirst := false }).queue = ps := (congrArg State.queue hprim.eq :)
    obtain ⟨t, hut, het, hframe', hqt⟩ := ih (ux.trans hx) (uk ▸ hk) hqu
    exact ⟨t, (hsa.trans (.of_step hstep)).trans hut, het, hsu.trans hframe', hqt⟩

/-! ### ProcessPrimitives -/

/-- Settles O41: its turns by `step_take` and `step_drained`, its end by `reaches_drained`. -/
theorem pumpRunsQueueInOrder : Obligations.PumpRunsQueueInOrder := by
  refine ⟨fun s => rfl, fun s he hx hk => ⟨fun P ps hq => ?take, fun hq => ?drained⟩, fun s hx hk => ?ends⟩
  case take =>
    obtain ⟨u, hu, hprim, hstep⟩ := step_take he hx (by rw [hk]; decide) hq
    obtain ⟨ux, uk, -⟩ := hprim.drainFrame
    exact ⟨u, _, hu, hstep, rfl, (congrArg State.queue hprim.eq :), ux.trans hx, uk.trans hk⟩
  case drained =>
    refine ⟨_, step_drained he hx hq, ?_⟩
    rw [endDrain_of_pump hk, showAtEnd_eq]
    rfl
  case ends =>
    obtain ⟨t, ⟨n, hn⟩, he, ⟨tx, tk, ts, tb, td, tp, tl, ti⟩, hq⟩ := reaches_drained hx (by rw [hk]; decide)
    obtain ⟨m, hm⟩ := reaches.trans ⟨n, hn⟩ (.of_step (step_drained he (tx.trans hx) hq))
    have hcount : (endDrain t).suspendCount = s.suspendCount - 1 := by
      rw [endDrain_suspendCount, if_pos (tk.trans hk), ts]
    exact ⟨m, _, hm, by simpa using hq, rfl, hcount, by simpa using tb, by simpa using tp, by simpa using tl,
      by simpa using ti, fun hdb => endDrain_spritesHidden t (td.trans hdb)⟩

/-! ### AddPrimitive in immediate mode -/

/-- In immediate mode the interrupt cannot be taken (R205, R209). -/
theorem isrEnterable_of_immediateMode {s : State} (h : s.backgroundExec = false) : isrEnterable s = false :=
  isrEnterable_of_disabled (by simp [vsIntEnabled, h])

/-- After its drain an immediate AddPrimitive executes its own record, in a step of its own. -/
theorem step_immediate {s : State} {P : Record} (he : engineTurn s = false) (hx : s.inExecutor = false)
    (hbg : s.backgroundExec = false) (him : s.immediate = some P) :
    ∃ u, runRecord exec P (enterDrain .immediate { s with immediate := none }) = .next u
      ∧ primOnly (enterDrain .immediate { s with immediate := none }) u
      ∧ step s = .next (reschedule (endImmediate u)) := by
  obtain ⟨u, hu, hprim⟩ := runRecord_next P (enterDrain .immediate { s with immediate := none })
  refine ⟨u, hu, hprim, ?_⟩
  simp [step_of_producer he hx (isrEnterable_of_immediateMode hbg), producerStep, him, immediateStep, hu]

/-- Executing a record that spells an instruction is its meaning and the rest of its ticks (R207, R404). -/
theorem runRecord_of_decode {P : Record} {s u : State} {i : Instr} (hi : decodePrim P = .ok i)
    (h : runRecord exec P s = .next u) : ∃ v, exec i (beginExec P s) = .next v ∧ u = costTicks v := by
  unfold runRecord at h
  rw [hi] at h
  exact mapNext_eq h

/-- Settles O39: the turns of its drain as those of a pump, its own record by `step_immediate`. -/
theorem addPrimitiveImmediateExecutes : Obligations.AddPrimitiveImmediateExecutes := by
  refine ⟨fun P s hbg => ?begins, fun s he hx hk => ⟨fun Q qs hq => ?take, fun hq => ?drained⟩,
    fun P s he hx hbg him => ?own, fun s hx hk hbg him => ?ends⟩
  case begins =>
    simp only [exec, execAddPrimitive, hbg]
    rfl
  case take =>
    obtain ⟨u, hu, -, hstep⟩ := step_take he hx (by rw [hk]; decide) hq
    exact ⟨u, _, hu, hstep, rfl⟩
  case drained =>
    refine ⟨_, step_drained he hx hq, ?_⟩
    rw [endDrain_of_not_pump (by rw [hk]; decide), showAtEnd_eq]
    rfl
  case own =>
    obtain ⟨u, hu, -, hstep⟩ := step_immediate he hx hbg him
    exact ⟨u, _, hu, hstep, rfl, fun i hi => runRecord_of_decode hi hu⟩
  case ends =>
    obtain ⟨P, hP⟩ := Option.isSome_iff_exists.1 him
    have hpump : ¬s.drainKind = .pump := by rw [hk]; decide
    obtain ⟨t, hst, het, ⟨tx, tk, ts, tb, -, tp, tl, ti⟩, hq⟩ := reaches_drained hx (by rw [hk]; decide)
    obtain ⟨a, hta, hea, ⟨ax, -, as, ab, -, ap, al, ai⟩, haq⟩ := reaches_catchUp (reschedule (endDrain t))
    have hcount : a.suspendCount = s.suspendCount := by
      refine as.trans ((endDrain_suspendCount t).trans ?_)
      rw [tk, if_neg hpump, ts]
    have hbga : a.backgroundExec = false := ab.trans (by simpa using tb.trans hbg)
    have hima : a.immediate = some P := ai.trans (by simpa using ti.trans hP)
    obtain ⟨u, -, hprim, hstep⟩ := step_immediate hea ax hbga hima
    obtain ⟨-, -, us, ub, -, up, ul, ui⟩ := hprim.drainFrame
    have hqu : u.queue = a.queue := (congrArg State.queue hprim.eq :)
    have hend := step_drained het (tx.trans hx) hq
    obtain ⟨n, hn⟩ := ((hst.trans (.of_step hend)).trans hta).trans (.of_step hstep)
    exact ⟨n, _, hn, hqu.trans (haq.trans (by simpa using hq)), rfl, ui, us.trans hcount, ub.trans hbga,
      up.trans (ap.trans (by simpa using tp)), ul.trans (al.trans (by simpa using tl))⟩

end Sys2Proof.Machine
end

section
/-! PROOFS. What one pixel clock does (R138, R363, R370): inside a descriptor, at its end, at the sentinel, and where
the Engine halts. -/

namespace Sys2Proof.Machine

/-! ### The Engine's place -/

theorem leaveSentinel_of_ne {s : State} (h : s.cur ≠ .sentinel) : leaveSentinel s = s := if_neg h

/-- From the sentinel the Engine moves to the descriptor that it names (R136). -/
theorem leaveSentinel_entry {s : State} {b : Bank} {i : Nat} (h : s.cur = .sentinel)
    (hn : s.sentinel.next = .entry b i) :
    leaveSentinel s = { s with cur := .entry b i, lat := deref s b i, pos := 0 } := by
  rw [leaveSentinel, if_pos h, hn]
  rfl

theorem deref_of_getElem? {s : State} {b : Bank} {i : Nat} {d : Desc} (h : (s.desc.get b)[i]? = some d) :
    deref s b i = d := by
  rw [deref, h, Option.getD_some]

/-- Following a link changes the Engine's place alone, and at the sentinel the latched descriptor stays. -/
theorem moveOnto_eq (r : DescRef) (s : State) :
    moveOnto r s = { s with
      cur := r, pos := 0
      lat := match r with
        | .sentinel => s.lat
        | .entry b i => deref s b i } := by
  cases r <;> rfl

/-! ### Emitting a byte -/

/-- R370: the event is latched where the interrupt is enabled or the parameter says so. -/
theorem vsyncEvent_eq (s : State) :
    vsyncEvent s = { s with
      vsIntPending := s.vsIntPending || (vsIntEnabled s || s.params.vsyncLatchWhileSuspended) } := by
  unfold vsyncEvent
  split
  · rename_i h
    rw [h, Bool.or_true]
  · rename_i h
    rw [Bool.eq_false_of_not_eq_true h, Bool.or_false]

theorem emitByte_inside {v : Byte} {s : State} (h : s.pos + 1 ≠ s.lat.length) :
    emitByte v s = { s with out := s.out ++ [(s.tick, v)], tick := s.tick + 1, pos := s.pos + 1 } := if_neg h

/-- At a descriptor's end its event is raised and its link followed (R138). -/
theorem emitByte_end {v : Byte} {s : State} (h : s.pos + 1 = s.lat.length) :
    emitByte v s = { s with
      out := s.out ++ [(s.tick, v)], tick := s.tick + 1, pos := 0, cur := s.lat.next
      vsIntPending := s.vsIntPending
        || (s.lat.eof && (vsIntEnabled s || s.params.vsyncLatchWhileSuspended))
      lat := match s.lat.next with
        | .sentinel => s.lat
        | .entry b i => deref s b i } := by
  unfold emitByte
  dsimp only
  rw [if_pos h]
  cases he : s.lat.eof
  · simp only [Bool.false_eq_true, if_false, moveOnto_eq, Bool.false_and, Bool.or_false]
    rfl
  · simp only [if_true, vsyncEvent_eq, moveOnto_eq, Bool.true_and]
    rfl

/-! ### One pixel clock -/

theorem engineTick_of_halted {s : State} (h : s.engineRunning = false) : engineTick s = s :=
  if_neg (by rw [h]; decide)

/-- Inside a descriptor that it can play the Engine emits the byte at its position (R138). -/
theorem engineTick_of_byte {s : State} {v : Byte} (hrun : s.engineRunning = true) (hcur : s.cur ≠ .sentinel)
    (hlen : s.lat.length ≠ 0) (howner : s.lat.owner = .dma) (hv : engineByte s = some v) :
    engineTick s = emitByte v s := by
  have hguard : s.cur ≠ .sentinel ∧ s.lat.length ≠ 0 ∧ s.lat.owner = .dma := ⟨hcur, hlen, howner⟩
  simp only [engineTick, hrun, if_true, leaveSentinel_of_ne hcur, if_pos hguard, hv]

/-- Where one of the conditions of a byte fails the Engine halts (R138, R363). -/
theorem engineTick_of_unplayable {s : State} (hrun : s.engineRunning = true) (hcur : s.cur ≠ .sentinel)
    (hbad : s.lat.owner = .cpu ∨ s.lat.length = 0 ∨ engineByte s = none) : engineTick s = haltEngine s := by
  rcases engineTick_cases s with ⟨hoff, -⟩ | ⟨-, e | ⟨v, -, hlen, howner, hv, -⟩⟩
  · rw [hrun] at hoff; cases hoff
  · rwa [leaveSentinel_of_ne hcur] at e
  · rw [leaveSentinel_of_ne hcur] at hlen howner hv
    rcases hbad with h | h | h
    · rw [h] at howner; cases howner
    · exact absurd h hlen
    · rw [h] at hv; cases hv

theorem engineByte_of_buffer {s : State} {bytes : List Byte} (h : bufferOf s s.lat.buf = some bytes) :
    engineByte s = bytes[s.lat.offset + (s.pos ^^^ 2)]? := by
  rw [engineByte, h]

theorem engineByte_of_no_buffer {s : State} (h : bufferOf s s.lat.buf = none) : engineByte s = none := by
  rw [engineByte, h]

/-- What a clock does is settled by where the Engine stands off the sentinel. -/
theorem engineTick_congr {s t : State} (hs : s.engineRunning = true) (ht : t.engineRunning = true)
    (h : leaveSentinel s = leaveSentinel t) : engineTick s = engineTick t := by
  simp only [engineTick, hs, ht, if_true, h]

/-- The sentinel takes no clock (R88, R138): the tick is that of the descriptor it leads to. -/
theorem engineTick_from_sentinel {s : State} {b : Bank} {i : Nat} {d : Desc} (hrun : s.engineRunning = true)
    (hcur : s.cur = .sentinel) (hn : s.sentinel.next = .entry b i) (hd : (s.desc.get b)[i]? = some d) :
    engineTick s = engineTick { s with cur := .entry b i, lat := d, pos := 0 } := by
  refine engineTick_congr hrun hrun ?_
  rw [leaveSentinel_entry hcur hn, deref_of_getElem? hd]
  exact (leaveSentinel_of_ne (s := { s with cur := .entry b i, lat := d, pos := 0 }) nofun).symm

/-- A configured machine with a halted Engine is stuck (R365). -/
theorem isStuck_of_halted {s : State} (hc : s.configured = true) (h : s.engineRunning = false) : isStuck s :=
  .inr ⟨hc, h⟩

theorem not_endOfRun_of_isStuck {s : State} (h : isStuck s) : ¬endOfRun s := fun ⟨_, hnot, _⟩ => hnot h

/-- Settles O55: a halted Engine, then the running one by its place and by what it finds there. -/
theorem engineEmitsOneByte : Obligations.EngineEmitsOneByte := by
  refine ⟨fun s hoff => ⟨engineTick_of_halted hoff, fun hc => ?stuck⟩, fun s hrun =>
    ⟨fun hcur hlen howner bytes v hbuf hv => ?emits, fun hcur hbad => ?halts, fun b i d hcur hn hd => ?sentinel⟩⟩
  case stuck =>
    have hstuck := isStuck_of_halted hc hoff
    exact ⟨if_pos hstuck, not_endOfRun_of_isStuck hstuck⟩
  case emits =>
    have htick := engineTick_of_byte hrun hcur hlen.ne' howner ((engineByte_of_buffer hbuf).trans hv)
    exact ⟨fun hpos => htick.trans (emitByte_inside hpos), fun hpos => htick.trans (emitByte_end hpos)⟩
  case halts =>
    exact engineTick_of_unplayable hrun hcur (hbad.imp_right (.imp_right engineByte_of_no_buffer))
  case sentinel => exact engineTick_from_sentinel hrun hcur hn hd

end Sys2Proof.Machine
end

section
/-! PROOFS. The bytes of blank lines (R81, R125, R133), and where a pixel byte carries its signals (R80). -/

namespace Sys2Proof.Machine

/-! ### Blank lines (R133) -/

theorem vsOff_eq (t : Timings) : vsOff t = decide (t.vSyncPol = .neg) := by
  unfold vsOff vsOn
  cases t.vSyncPol <;> rfl

theorem hsOff_eq (t : Timings) : hsOff t = decide (t.hSyncPol = .neg) := by
  unfold hsOff hsOn
  cases t.hSyncPol <;> rfl

theorem vsOn_eq (t : Timings) : vsOn t = decide (t.vSyncPol = .pos) := by
  unfold vsOn
  cases t.vSyncPol <;> rfl

theorem hsOn_eq (t : Timings) : hsOn t = decide (t.hSyncPol = .pos) := by
  unfold hsOn
  cases t.hSyncPol <;> rfl

/-- The levels of one blank pixel: the horizontal sync is on inside its pulse, and there is no colour. -/
theorem blankPixel_eq (p : Params) (t : Timings) (v : Bool) (k : Nat) :
    blankPixel p t v k = pixbyte p
      (if v then decide (t.vSyncPol = .pos) else decide (t.vSyncPol = .neg))
      (if syncStart t ≤ k ∧ (k : Int) < syncStart t + t.hSyncPulse then decide (t.hSyncPol = .pos)
        else decide (t.hSyncPol = .neg)) 0 := by
  simp only [blankPixel, vsOn_eq, vsOff_eq, hsOn_eq, hsOff_eq, Bool.and_eq_true, decide_eq_true_eq]

/-- Logical pixel `k` stands at byte `k xor 2` (R62): a line is whole groups of four bytes. -/
theorem blankLine_getElem? {p : Params} {t : Timings} (v : Bool) (h : timingsWF p t = true) {k : Nat}
    (hk : (k : Int) < hTotal t) : (blankLine p t v)[k ^^^ 2]? = some (blankPixel p t v k) := by
  obtain ⟨-, -, -, hgroups, -⟩ := timingsWF_arith h
  have hplace : k ^^^ 2 < (hTotal t).toNat := xor_two_lt (by omega) (by omega)
  have hswap : k ^^^ 2 ^^^ 2 = k := by rw [Nat.xor_assoc, Nat.xor_self, Nat.xor_zero]
  rw [blankLine, List.getElem?_map, List.getElem?_range hplace, Option.map_some, hswap]

/-! ### Pixel bytes of depth two (R80) -/

theorem pixbyte_depthTwo {p : Params} (h : p.channelDepth = .two) (vs hs : Bool) (c : Colour) :
    pixbyte p vs hs c = BitVec.ofBool vs ++ (BitVec.ofBool hs ++ c) := by
  simp only [pixbyte, h]

theorem levels_append_bits (vs hs : Bool) (c : Colour) :
    (BitVec.ofBool vs ++ (BitVec.ofBool hs ++ c)).getLsbD 7 = vs
      ∧ (BitVec.ofBool vs ++ (BitVec.ofBool hs ++ c)).getLsbD 6 = hs
      ∧ (BitVec.ofBool vs ++ (BitVec.ofBool hs ++ c)).extractLsb' 0 6 = c := by
  refine ⟨?vs, ?hs, BitVec.eq_of_getLsbD_eq fun i hi => ?colour⟩
  case vs =>
    rw [BitVec.getLsbD_append, if_neg (by decide)]
    cases vs <;> rfl
  case hs =>
    rw [BitVec.getLsbD_append, if_pos (by decide), BitVec.getLsbD_append, if_neg (by decide)]
    cases hs <;> rfl
  case colour => simp only [BitVec.getLsbD_extractLsb', BitVec.getLsbD_append, hi, decide_true, Bool.true_and,
    Nat.zero_add, show i < 1 + 6 by omega, if_true]

/-! ### Pixel bytes of depth one (log entry 19) -/

/-- A signal stands at its own bit and nowhere else. -/
theorem signalBit_getLsbD (level : Bool) (i k : Fin 8) :
    (signalBit level i).getLsbD k = (level && decide (i = k)) := by
  revert level i k
  decide

/-- No colour leaves every channel bit clear, whatever the free value of log entry 19. -/
theorem channelBit_zero : channelBit 0#2 = false := rfl

theorem signalBit_false (i : Fin 8) : signalBit false i = 0 := by
  simp [signalBit]

theorem pixbyte_depthOne_blank {p : Params} {m : ChannelBits} (h : p.channelDepth = .one)
    (hm : p.channelBitMap1 = some m) (vs hs : Bool) :
    pixbyte p vs hs 0 = signalBit vs m.vSync ||| signalBit hs m.hSync := by
  simp [pixbyte, h, hm, channelBit_zero, signalBit_false]

/-- Settles O51: the blank pixel at its swizzled place, and the bits of a pixel byte at either depth. -/
theorem blankLinesCarrySync : Obligations.BlankLinesCarrySync := by
  refine ⟨fun p t v hwf => ⟨?length, fun k hk => ?pixel⟩, fun p vs hs c hdepth => ?two,
    fun p m vs hs hdepth hm hnodup => ?one, fun s c hdepth => ?viewport⟩
  case length =>
    obtain ⟨-, -, hpos, -⟩ := timingsWF_arith hwf
    rw [blankLine_length, Int.toNat_of_nonneg hpos.le]
  case pixel => exact (blankLine_getElem? v hwf hk).trans (congrArg some (blankPixel_eq p t v k))
  case two =>
    rw [pixbyte_depthTwo hdepth]
    exact levels_append_bits vs hs c
  case one =>
    rw [pixbyte_depthOne_blank hdepth hm]
    simp only [List.nodup_cons, List.mem_cons, List.not_mem_nil, not_or] at hnodup
    simp only [BitVec.getLsbD_or, signalBit_getLsbD]
    grind
  case viewport =>
    rw [vpByte, pixbyte_depthTwo hdepth, vsOff_eq, hsOff_eq]
    exact levels_append_bits _ _ c

end Sys2Proof.Machine
end

section
/-! PROOFS. The Producer's step (R69, R96, R391), and why none of its steps starts an interrupt's drain (R71, R202,
R205). -/

namespace Sys2Proof.Machine

/-! ### The next host operation -/

section
variable {s : State} {op : List Byte} {rest : List (List Byte)}

theorem producerStep_decoded {i : Instr} (him : s.immediate = none) (hbl : s.blocked = none)
    (hp : s.program = op :: rest) (hi : decodeHostOp op = .ok i) :
    producerStep exec s = exec i { s with program := rest } := by
  simp only [producerStep, him, hbl, hp, hi]

theorem producerStep_undecoded {e : DecodeError} (him : s.immediate = none) (hbl : s.blocked = none)
    (hp : s.program = op :: rest) (he : decodeHostOp op = .error e) :
    producerStep exec s = .next (refuse { s with program := rest }) := by
  simp only [producerStep, him, hbl, hp, he]

end

theorem decodeHostOp_reserved {c : Byte} (bs : List Byte) (h : c.toNat < 0x80 ∨ 0x8F < c.toNat) :
    decodeHostOp (c :: bs) = .error (.reservedCode c) := if_neg (by omega)

/-- Settles O6: the Producer has the turn, and takes the head of its program. -/
theorem stepRunsDecodedHostOp : Obligations.StepRunsDecodedHostOp := by
  refine ⟨fun s op rest he hx hi hbl him hp => ⟨fun i hop => ?_, fun e hop => ?_⟩, fun c bs h =>
    decodeHostOp_reserved bs h⟩
  · rw [step_of_producer he hx hi, producerStep_decoded him hbl hp hop]
  · rw [step_of_producer he hx hi, producerStep_undecoded him hbl hp hop]
    rfl

/-! ### No drain of the interrupt -/

/-- Between `s` and `t` no drain of the interrupt was started. -/
def startsNoIsr (s t : State) : Prop := s.inExecutor = false → t.inExecutor = true → t.drainKind ≠ .isr

theorem startsNoIsr_of_inExecutor {s t : State} (h : t.inExecutor = s.inExecutor) : startsNoIsr s t := by
  intro hx ht
  rw [h, hx] at ht
  cases ht

/-- The two drains that a host operation can begin are its own (R201, R204). -/
theorem HostEffect.startsNoIsr {s t : State} {i : Instr} (h : HostEffect s i t) : startsNoIsr s t := by
  cases h with
  | immediate | pumps => exact fun _ _ => nofun
  | _ => exact startsNoIsr_of_inExecutor rfl

/-- Only the entry of R209 starts a drain of the interrupt, and that is no step of the Producer. -/
theorem producerStep_startsNoIsr {s u : State} (h : producerStep exec s = .next u) : startsNoIsr s u := by
  rcases producer_cases h with ⟨P, -, hP⟩ | ⟨-, P, -, -, hP⟩ | ⟨-, -, -, rfl⟩ | ⟨-, -, -, rfl⟩
    | ⟨-, -, op, rest, -, ⟨i, hi, hex⟩ | rfl⟩
  · obtain ⟨v, -, rfl⟩ := mapNext_eq hP
    exact fun _ => nofun
  · exact (exec_hostEffect rfl hP).startsNoIsr
  · exact startsNoIsr_of_inExecutor (engineTick_inExecutor s)
  · exact startsNoIsr_of_inExecutor (engineTick_inExecutor s)
  · exact (exec_hostEffect (decodeHostOp_not_isPrimitive hi) hex).startsNoIsr
  · exact startsNoIsr_of_inExecutor rfl

/-- R71, R205: then the interrupt is not enabled. -/
theorem vsIntEnabled_of_suspended {s : State} (h : 0 < s.suspendCount ∨ s.backgroundExec = false) :
    vsIntEnabled s = false := by
  rcases h with h | h
  · simp [vsIntEnabled, h.ne']
  · simp [vsIntEnabled, h]

/-- Settles O45: the interrupt cannot be entered, and no other agent starts its drain. -/
theorem noInterruptWhileSuspended : Obligations.NoInterruptWhileSuspended := by
  intro s t hx hoff hstep
  rcases step_cases hstep with ⟨-, rfl⟩ | ⟨-, hdrain, -⟩ | ⟨-, -, hentry, -⟩ | ⟨-, -, -, u, hu, rfl⟩
  · exact startsNoIsr_of_inExecutor (engineTick_inExecutor s) hx
  · rw [hx] at hdrain; cases hdrain
  · rw [isrEnterable_of_disabled (vsIntEnabled_of_suspended hoff)] at hentry; cases hentry
  · have hnone := producerStep_startsNoIsr hu
    exact hnone hx

end Sys2Proof.Machine
end

section
/-! PROOFS. The banks and the queue in a drain of the interrupt (R70, R206, R212). -/

namespace Sys2Proof.Machine

/-- Only tag 0x17 spells SwapBuffers (R85). -/
theorem isSwap_of_decodePrim {P : Record} (h : decodePrim P = .ok .swapBuffers) : isSwap P = true := by
  unfold decodePrim at h
  split at h <;> cases h
  rename_i htag
  rw [isSwap, htag]
  rfl

/-- No record but a SwapBuffers changes the banks (R211). -/
theorem runRecord_banks {P : Record} {s t : State} (hP : isSwap P = false) (h : runRecord exec P s = .next t) :
    t.drawBank = s.drawBank ∧ t.sentinel = s.sentinel := by
  unfold runRecord at h
  split at h
  · rename_i i hi
    obtain ⟨u, hu, rfl⟩ := mapNext_eq h
    have hswap : isSwapBuffers i = false := by
      cases i with
      | swapBuffers => rw [isSwap_of_decodePrim hi] at hP; cases hP
      | _ => rfl
    simpa using (exec_primEffect (decodePrim_isPrimitive hi) hu).banks hswap
  · cases h
    simp

theorem runRecord_queue {P : Record} {s t : State} (h : runRecord exec P s = .next t) : t.queue = s.queue := by
  obtain ⟨u, hu, hframe⟩ := runRecord_next P s
  rw [h] at hu
  cases hu
  exact (congrArg State.queue hframe.eq :)

/-- The end of a turn keeps the queue and the banks, whether or not the drain ends with it (R210). -/
theorem afterPrimitive_frame (s : State) :
    (afterPrimitive s).queue = s.queue ∧ (afterPrimitive s).drawBank = s.drawBank
      ∧ (afterPrimitive s).sentinel = s.sentinel := by
  unfold afterPrimitive
  dsimp only
  split
  · exact ⟨endDrain_queue _, endDrain_drawBank _, endDrain_sentinel _⟩
  · exact ⟨rfl, rfl, rfl⟩

/-- In a drain of the interrupt a record that is taken after the first is no SwapBuffers (R206). -/
theorem isSwap_of_taken {s : State} {P : Record} (hk : s.drainKind = .isr) (hfirst : s.drainFirst = false)
    (h : mustRequeue s P = false) : isSwap P = false := by
  simpa [mustRequeue, hk, hfirst] using h

/-- Settles O44: an Engine tick and the end of the drain change neither queue nor banks, and a record that is taken
is the head of the queue. -/
theorem swapOnlyFirstInDrain : Obligations.SwapOnlyFirstInDrain := by
  intro s t hx hk hstep
  rcases step_cases hstep with ⟨-, rfl⟩ | ⟨-, -, u, hu, rfl⟩ | ⟨-, hno, -⟩ | ⟨-, hno, -⟩
  · exact ⟨.inl (engineTick_queue s), fun _ => ⟨engineTick_drawBank s, engineTick_sentinel s⟩⟩
  · rcases drainStep_cases hu with ⟨-, rfl⟩ | ⟨P, ps, v, hq, htake, hrun, rfl⟩
    · exact ⟨.inl (endDrain_queue s), fun _ => ⟨endDrain_drawBank s, endDrain_sentinel s⟩⟩
    · obtain ⟨aq, ab, as⟩ := afterPrimitive_frame v
      refine ⟨.inr ?_, fun hfirst => ?_⟩
      · rw [hq]
        exact aq.trans (runRecord_queue hrun)
      · obtain ⟨vb, vs⟩ := runRecord_banks (isSwap_of_taken hk hfirst htake) hrun
        exact ⟨ab.trans vb, as.trans vs⟩
  · rw [hx] at hno; cases hno
  · rw [hx] at hno; cases hno

end Sys2Proof.Machine
end

section
/-! PROOFS. Primitives that refer to host memory that is not allocated (R61, R266, R303, R305, R366). -/

namespace Sys2Proof.Machine

section
variable {s : State} {col row gbuf : Nat}

/-- R305: inside the map, its header allocated, the cell word is the next range. -/
theorem exec_renderGlyphsBuffer_deadCell (h : rangeLive s gbuf 16 = true)
    (hin : col < (glyphBuffer s gbuf).columns ∧ row < (glyphBuffer s gbuf).rows)
    (hcell : rangeLive s (cellAddr (glyphBuffer s gbuf) col row) 4 = false) :
    exec (.renderGlyphsBuffer col row gbuf) s =
      .next (raise (.danglingReference (cellAddr (glyphBuffer s gbuf) col row) 4) s) := by
  simp [exec, execRenderGlyphsBuffer, h, hin, hcell]

/-- R305: with its cell word allocated too, the glyph's bitmap is the last range. -/
theorem exec_renderGlyphsBuffer_deadGlyph (h : rangeLive s gbuf 16 = true)
    (hin : col < (glyphBuffer s gbuf).columns ∧ row < (glyphBuffer s gbuf).rows)
    (hcell : rangeLive s (cellAddr (glyphBuffer s gbuf) col row) 4 = true) :
    let g := glyphBuffer s gbuf
    let data := glyphAddr g ((memU32 s (cellAddr g col row)).extractLsb' 0 8).toNat
    let n := g.glyphsHeight * glyphStride g.glyphsWidth
    rangeLive s data n = false →
      exec (.renderGlyphsBuffer col row gbuf) s = .next (raise (.danglingReference data n) s) := by
  intro g data n hglyph
  simp only [exec, execRenderGlyphsBuffer, h, hin, hcell, if_true, and_self]
  exact if_neg (by rw [hglyph]; decide)

end

/-- Settles O27: each arm asks for its ranges in read order. -/
theorem unallocatedReferencesAreRecorded : Obligations.UnallocatedReferencesAreRecorded := by
  intro s p a n gw gh col row
  refine ⟨fun h => ?header, fun h hd => ?pixels, fun h => ⟨?drawPath, ?fillPath⟩, fun h => ?glyph,
    fun h => ?buffer, fun h => ?cells⟩
  case header => simp [exec, execDrawBitmap, h]
  case pixels => simp [exec, execDrawBitmap, h, hd]
  case drawPath => simp [exec, execDrawPath, h]
  case fillPath => simp [exec, execFillPath, h]
  case glyph => simp [exec, execDrawGlyph, glyphStride, h]
  case buffer => simp [exec, execRenderGlyphsBuffer, h]
  case cells =>
    intro g cell stride data hcol hrow
    exact ⟨exec_renderGlyphsBuffer_deadCell h ⟨hcol, hrow⟩, exec_renderGlyphsBuffer_deadGlyph h ⟨hcol, hrow⟩⟩

end Sys2Proof.Machine
end

section
/-! PROOFS. Records and host operations after encoding (R83 to R85, R95), and what decoding looks at (R83, R96). -/

namespace Sys2Proof

/-! ### Fields of a record -/

/-- The `n` bits of a record from byte `k` on (R83). -/
def bitsAt (n : Nat) (P : Record) (k : Nat) : BitVec n := P.extractLsb' (8 * k) n

section
variable (P : Record) (k : Nat)

theorem recByte_eq : recByte P k = bitsAt 8 P k := rfl
theorem colAt_eq : colAt P k = bitsAt 6 P k := rfl
theorem s16At_eq : s16At P k = (bitsAt 16 P k).toInt := rfl
theorem u8At_eq : u8At P k = (bitsAt 8 P k).toNat := rfl
theorem u16At_eq : u16At P k = (bitsAt 16 P k).toNat := rfl
theorem u32At_eq : u32At P k = (bitsAt 32 P k).toNat := rfl

end

@[simp] theorem bitsAt_or (n : Nat) (P Q : Record) (k : Nat) :
    bitsAt n (P ||| Q) k = bitsAt n P k ||| bitsAt n Q k := BitVec.extractLsb'_or

@[simp] theorem bitsAt_place_same {w : Nat} (k : Nat) (v : BitVec w) (h : 8 * k + w ≤ 128) :
    bitsAt w (place k v) k = v := place_same k v h

@[simp] theorem bitsAt_place_apart {w : Nat} (n k j : Nat) (v : BitVec w)
    (h : 8 * j + n ≤ 8 * k ∨ 8 * k + w ≤ 8 * j) : bitsAt n (place k v) j = 0#n :=
  h.elim (place_below k _ n v) (place_above k _ n v)

/-- A byte that holds a narrower field has zeros above it. -/
theorem bitsAt_place_byte {w : Nat} (k : Nat) (v : BitVec w) (hk : k < 16) :
    bitsAt 8 (place k v) k = v.setWidth 8 := by
  apply BitVec.eq_of_getLsbD_eq
  intro i hi
  have hin : 8 * k + i < 128 := by omega
  simp [bitsAt, place, hi, hin]

/-- The ranges of R84 are those that the fields hold. -/
theorem bmod_of_fitsS16 {v : Int} (h : fitsS16 v = true) : v.bmod 65536 = v := by
  simp only [fitsS16, Bool.and_eq_true, decide_eq_true_eq] at h
  exact Int.bmod_eq_of_le (by omega) (by omega)

theorem mod_of_fitsU8 {n : Nat} (h : fitsU8 n = true) : n % 256 = n :=
  Nat.mod_eq_of_lt (of_decide_eq_true h)

theorem mod_of_fitsU16 {n : Nat} (h : fitsU16 n = true) : n % 65536 = n :=
  Nat.mod_eq_of_lt (of_decide_eq_true h)

theorem mod_of_fitsU32 {n : Nat} (h : fitsU32 n = true) : n % 4294967296 = n :=
  Nat.mod_eq_of_lt (of_decide_eq_true h)

/-! ### Primitives -/

theorem decodePrim_encodePrim {i : Instr} {P : Record} (hwf : i.wellFormed = true) (h : encodePrim i = some P) :
    decodePrim P = .ok i := by
  cases i with
  | clear | refreshSprites | swapBuffers => cases h; rfl
  | setPenColor c | setBrushColor c =>
    cases h
    simp [decodePrim, recByte_eq, colAt_eq]
  | setGlyphOptions o =>
    cases h
    have hbits : (o.setWidth 8).extractLsb' 0 7 = o := BitVec.eq_of_getLsbD_eq fun i hi => by
      simp [hi, Nat.lt_succ_of_lt hi]
    simp [decodePrim, recByte_eq, bitsAt_place_byte, hbits]
  | setPaintOptions swap inv =>
    cases h
    have hbits : ∀ a b : Bool, (BitVec.ofBool a ++ BitVec.ofBool b)[0] = b
        ∧ (BitVec.ofBool a ++ BitVec.ofBool b)[1] = a := by
      decide
    simp [decodePrim, recByte_eq, bitsAt_place_byte, hbits]
  | setPixel p | setPixelAt p | moveTo p | lineTo p | setOrigin p =>
    cases h
    simp only [Instr.wellFormed, Point.fits, Bool.and_eq_true] at hwf
    simp [decodePrim, recByte_eq, colAt_eq, pointAt, s16At_eq, placePoint, placeS16, bmod_of_fitsS16, hwf]
  | fillRect r | drawRect r | invertRect r | setScrollingRegion r | swapFGBG r | setClippingRect r
  | vScroll d | hScroll d | copyRect r d =>
    cases h
    simp only [Instr.wellFormed, Point.fits, Rect.fits, Bool.and_eq_true] at hwf
    simp [decodePrim, recByte_eq, rectAt, pointAt, s16At_eq, placePoint, placeRect, placeS16, bmod_of_fitsS16, hwf]
  | fillEllipse | drawEllipse | renderGlyphsBuffer | drawPath | fillPath =>
    cases h
    simp only [Instr.wellFormed, Bool.and_eq_true] at hwf
    simp [decodePrim, recByte_eq, u16At_eq, u32At_eq, mod_of_fitsU16, mod_of_fitsU32, hwf]
  | drawGlyph | drawBitmap =>
    cases h
    simp only [Instr.wellFormed, Point.fits, Bool.and_eq_true] at hwf
    simp [decodePrim, recByte_eq, pointAt, s16At_eq, u8At_eq, u32At_eq, placePoint, placeS16,
      bmod_of_fitsS16, mod_of_fitsU8, mod_of_fitsU32, hwf]
  | _ => cases h

/-- A record spells no command exactly where its tag is reserved (R85, R96). -/
theorem decodePrim_reserved_iff (P : Record) :
    decodePrim P = .error (.reservedTag (recByte P 0)) ↔ 0x1C ≤ (recByte P 0).toNat := by
  unfold decodePrim
  split <;> simp_all
  omega

theorem tag_lt_of_decodePrim {P : Record} {i : Instr} (h : decodePrim P = .ok i) : (recByte P 0).toNat < 0x1C := by
  by_contra hge
  rw [(decodePrim_reserved_iff P).2 (by omega)] at h
  cases h

/-- The sixteen bytes of a record that spells a primitive decode to it. -/
theorem decode_recordBytes {P : Record} {i : Instr} (h : decodePrim P = .ok i) : decode (recordBytes P) = .ok i := by
  have htag := tag_lt_of_decodePrim h
  have hread := readRecord_recordBytes P []
  rw [List.append_nil] at hread
  obtain ⟨rest, hrest⟩ := Laws.recordBytes_cons P
  rw [hrest] at hread ⊢
  simp [decode, show (recByte P 0).toNat < 128 by omega, hread, h]

/-! ### Host operations -/

theorem decodeHostOp_of_operands {c : Byte} {bs : List Byte} {i : Instr} (hc : 0x80 ≤ c.toNat ∧ c.toNat ≤ 0x8F)
    (h : readHostOperands c.toNat bs = some i) : decodeHostOp (c :: bs) = .ok i := by
  rw [decodeHostOp, if_pos hc, h]

/-- A host operation's bytes decode to it, whatever bytes stand after them (R95). -/
theorem decodeHostOp_encode {i : Instr} (h : encodePrim i = none) (bs : List Byte) :
    decodeHostOp (encode i ++ bs) = .ok i := by
  cases i with
  | setSprites l =>
    have hread := readList_putList readSpriteInit putSpriteInit readSpriteInit_putSpriteInit l bs
    exact decodeHostOp_of_operands (by decide) (by simp [readHostOperands, hread])
  | decodeModeline | setResolution | addPrimitive | suspend | resume | processPrimitives
    | enableBackgroundExecution | moveScreen | shrinkScreen | readPixel | spriteWrite | spriteAddFrame | hostAlloc
    | hostFree | hostWrite =>
    exact decodeHostOp_of_operands (by decide) (by simp [readHostOperands, List.append_assoc])
  | _ => cases h

/-- The code of a host operation is no tag of a record. -/
theorem decode_of_decodeHostOp {bs : List Byte} {i : Instr} (h : decodeHostOp bs = .ok i) : decode bs = .ok i := by
  cases bs with
  | nil => cases h
  | cons c bs =>
    have hcode : ¬c.toNat < 0x80 := by
      intro hlt
      rw [decodeHostOp, if_neg (by omega)] at h
      cases h
    rw [decode, if_neg hcode, h]

/-- Settles O2: a primitive by the fields of its record, a host operation by its readers. -/
theorem decodeEncodeRoundTrip : Obligations.DecodeEncodeRoundTrip := by
  intro i hwf
  cases hi : encodePrim i with
  | some P =>
    have hbytes : encode i = recordBytes P := by
      unfold encode
      rw [hi]
    rw [hbytes]
    exact decode_recordBytes (decodePrim_encodePrim hwf hi)
  | none =>
    have h := decodeHostOp_encode hi []
    rw [List.append_nil] at h
    exact decode_of_decodeHostOp h

/-! ### What decoding ignores -/

/-- The bits of a record are those of its bytes. -/
theorem getLsbD_eq_recByte (P : Record) (i : Nat) : P.getLsbD i = (recByte P (i / 8)).getLsbD (i % 8) := by
  have hmod : i % 8 < 8 := Nat.mod_lt _ (by omega)
  simp [recByte, hmod, Nat.div_add_mod]

/-- A field of the payload looks at no byte before byte 4. -/
theorem bitsAt_congr {P Q : Record} (h : ∀ k < 16, k = 0 ∨ 4 ≤ k → recByte P k = recByte Q k) (n : Nat) {k : Nat}
    (hk : 4 ≤ k) : bitsAt n P k = bitsAt n Q k := by
  apply BitVec.eq_of_getLsbD_eq
  intro i hi
  simp only [bitsAt, BitVec.getLsbD_extractLsb', hi, decide_true, Bool.true_and]
  by_cases hin : 8 * k + i < 128
  · rw [getLsbD_eq_recByte P, getLsbD_eq_recByte Q, h _ (by omega) (by omega)]
  · rw [BitVec.getLsbD_of_ge _ _ (by omega), BitVec.getLsbD_of_ge _ _ (by omega)]

/-- Bytes 1 to 3 are no part of what a record spells (R83). -/
theorem decodePrim_congr {P Q : Record} (h : ∀ k < 16, k = 0 ∨ 4 ≤ k → recByte P k = recByte Q k) :
    decodePrim P = decodePrim Q := by
  have htag : recByte P 0 = recByte Q 0 := h 0 (by omega) (.inl rfl)
  have hbyte : recByte P 4 = recByte Q 4 := h 4 (by omega) (.inr le_rfl)
  unfold decodePrim
  simp [htag, hbyte, colAt_eq, u8At_eq, u16At_eq, u32At_eq, s16At_eq, pointAt, rectAt, bitsAt_congr h]

/-- Settles O1: each word by evaluation. -/
theorem handWrittenWordsDecode : Obligations.HandWrittenWordsDecode := by
  refine ⟨?_, ?_, ?_, ?_, ?_, ?_, ?_, ?_⟩ <;> rfl

end Sys2Proof
end

section
/-! PROOFS. Executing records (R96, R207, R404), and the turns of the interrupt's drain (R206, R208, R210). -/

namespace Sys2Proof.Machine

/-! ### Reserved records, and what decoding ignores -/

/-- The cost of a record is that of its primitive (R404), whatever the queue and the faults recorded. -/
theorem recordCost_of_decode {P : Record} {i : Instr} (h : decodePrim P = .ok i) (s : State) :
    recordCost P s = Config.execCost i (execGeometry i s) := by
  rw [recordCost, h]

theorem recordCost_of_reserved {P : Record} (h : 0x1C ≤ (recByte P 0).toNat) (s : State) :
    recordCost P s = Config.reservedCost (recByte P 0) := by
  rw [recordCost, (decodePrim_reserved_iff P).2 h]

theorem mapNext_mapNext (f g : State → State) (o : Host.Outcome State Fault Refusal) :
    mapNext f (mapNext g o) = mapNext (f ∘ g) o := by
  cases o <;> rfl

theorem runRecord_decoded {P : Record} {i : Instr} (h : decodePrim P = .ok i) (s : State) :
    runRecord exec P s = mapNext costTicks (exec i (beginExec P s)) := by
  rw [runRecord, h]

/-- What a record does depends on its tag and on what it decodes to alone (R83, R96, R404). -/
theorem runRecord_congr {P Q : Record} (htag : recByte P 0 = recByte Q 0) (h : decodePrim P = decodePrim Q)
    (s : State) : runRecord exec P s = runRecord exec Q s := by
  simp only [runRecord, beginExec, recordCost, h, htag]

/-- Settles O3: the tag map, the fields of the payload, and `runRecord` by what it looks at. -/
theorem tagAloneSelects : Obligations.TagAloneSelects :=
  ⟨decodePrim_reserved_iff, fun _ _ => decodePrim_congr, fun _ _ s htag h => runRecord_congr htag h s⟩

/-- `s` with a reserved record recorded (R96, R361). -/
def withReserved (P : Record) (s : State) : State :=
  { s with faults := s.faults ++ [.reservedPrimitive (recByte P 0)] }

/-- A reserved record is recorded, and then its ticks come (R96, R404). -/
theorem runRecord_reserved {P : Record} (h : 0x1C ≤ (recByte P 0).toNat) (s : State) :
    runRecord exec P s = .next (costTicks (beginExec P (withReserved P s))) := by
  rw [runRecord, (decodePrim_reserved_iff P).2 h]
  rfl

/-- Settles O4: nothing but the ticks of its cost follows the record. -/
theorem reservedRecordExecutes : Obligations.ReservedRecordExecutes := by
  intro P s h
  refine ⟨_, runRecord_reserved h s, ?_, ?_⟩
  · have hticks := costTicks_ticksOnly (beginExec P (withReserved P s))
    unfold ticksOnly at *
    rw [hticks]
    rfl
  · exact costTicks_moved (beginExec P (withReserved P s))

/-! ### Steps of a drain -/

theorem step_of_taken {s : State} {P : Record} {ps : List Record} (he : engineTurn s = false)
    (hx : s.inExecutor = true) (hq : s.queue = P :: ps) (hm : mustRequeue s P = false) :
    step s = mapNext reschedule (mapNext afterPrimitive (runRecord exec P { s with queue := ps })) := by
  rw [step_of_drain he hx, drainStep, hq]
  simp [hm]

/-- Settles O5: the drain has the turn, and takes the head of its queue. -/
theorem stepRunsDecodedRecord : Obligations.StepRunsDecodedRecord := by
  intro s P ps he hx hq hm
  rw [step_of_taken he hx hq hm]
  refine ⟨fun i hi => ?_, fun h => ?_⟩
  · rw [runRecord_decoded hi, mapNext_mapNext, mapNext_mapNext]
    rfl
  · rw [runRecord_reserved h]
    rfl

end Sys2Proof.Machine
end

section
/-! PROOFS. What the execution of a record costs (R404), and one turn of the interrupt's drain (R206, R208, R210). -/

namespace Sys2Proof.Machine

/-! ### The Engine's clock -/

/-- A pixel clock counts, but where the Engine halts or stands still (R138, R363). -/
theorem engineTick_clock (s : State) :
    (engineTick s).tick ≤ s.tick + 1 ∧ ((engineTick s).engineRunning = true → (engineTick s).tick = s.tick + 1) := by
  rcases engineTick_cases s with ⟨hrun, e⟩ | ⟨-, e | ⟨b, -, -, -, -, e⟩⟩ <;> rw [e]
  · exact ⟨by omega, fun h => by rw [hrun] at h; cases h⟩
  · have htick : (haltEngine (leaveSentinel s)).tick = s.tick := leaveSentinel_tick s
    exact ⟨by omega, fun h => by cases h⟩
  · simp

theorem engineTicks_running {n : Nat} {s : State} (h : (engineTicks n s).engineRunning = true) :
    s.engineRunning = true := by
  obtain ⟨-, -, hrun, -⟩ := engineTicks_moved n s
  exact hrun h

theorem engineTicks_clock (n : Nat) (s : State) :
    (engineTicks n s).tick ≤ s.tick + n
      ∧ ((engineTicks n s).engineRunning = true → (engineTicks n s).tick = s.tick + n) := by
  induction n generalizing s with
  | zero => exact ⟨le_rfl, fun _ => rfl⟩
  | succ n ih =>
    obtain ⟨hle, heq⟩ := engineTick_clock s
    obtain ⟨ihle, iheq⟩ := ih (engineTick s)
    rw [engineTicks]
    refine ⟨by omega, fun hrun => ?_⟩
    rw [iheq hrun, heq (engineTicks_running hrun)]
    omega

/-! ### Spending the cost of an `Exec` -/

/-- From `s` to `t` within an `Exec`: as many ticks as its cost is less, or fewer where the Engine halts (R404). -/
def spends (s t : State) : Prop :=
  ∀ k, s.costLeft = some k → ∃ j, t.costLeft = some j ∧ t.tick + j ≤ s.tick + k
    ∧ (t.engineRunning = true → s.engineRunning = true ∧ t.tick + j = s.tick + k)

theorem spends.refl (s : State) : spends s s := fun k hk => ⟨k, hk, le_rfl, fun h => ⟨h, rfl⟩⟩

theorem spends.trans {s t u : State} (h : spends s t) (k : spends t u) : spends s u := by
  intro a ha
  obtain ⟨b, hb, hle, heq⟩ := h a ha
  obtain ⟨c, hc, hle', heq'⟩ := k b hb
  refine ⟨c, hc, hle'.trans hle, fun hrun => ?_⟩
  obtain ⟨hrun', e'⟩ := heq' hrun
  obtain ⟨hrun'', e⟩ := heq hrun'
  exact ⟨hrun'', e'.trans e⟩

theorem gap_spends (s : State) : spends s (gap s) := by
  intro k hk
  cases hrun : s.engineRunning with
  | false =>
    have hgap : gap s = { s with draws := s.draws + 1 } := by simp [gap, hrun]
    rw [hgap]
    exact ⟨k, hk, le_rfl, fun h => absurd (hrun ▸ h) (by decide)⟩
  | true =>
    have hgap : gap s = engineTicks (min (Config.gapTicks s.draws) k)
        { s with draws := s.draws + 1, costLeft := some (k - min (Config.gapTicks s.draws) k) } := by
      simp [gap, hrun, hk, ticksWithin]
    have hmin : min (Config.gapTicks s.draws) k ≤ k := Nat.min_le_right ..
    rw [hgap]
    generalize min (Config.gapTicks s.draws) k = n at hmin
    obtain ⟨hle, heq⟩ := engineTicks_clock n { s with draws := s.draws + 1, costLeft := some (k - n) }
    dsimp only at hle heq
    exact ⟨k - n, by simp, by omega, fun h => ⟨rfl, by rw [heq h]; omega⟩⟩

theorem applyWrite_spends (w : Write) (s : State) : spends s (applyWrite w s) := by
  cases w <;> exact .refl s

theorem runWrites_spends (ws : List Write) (s : State) : spends s (runWrites ws s) := by
  induction ws generalizing s with
  | nil => exact .refl s
  | cons w ws ih => exact ((gap_spends s).trans (applyWrite_spends w _)).trans (ih _)

theorem hideSprites_spends (s : State) : spends s (hideSprites s) := by
  unfold hideSprites
  split
  · exact .refl s
  · exact runWrites_spends (hideWrites s) s

theorem showSprite_spends (i : Nat) (s : State) : spends s (showSprite i s) := by
  rcases showSprite_cases i s with h | ⟨a, n, h⟩ | ⟨sp, f, d, -, -, -, -, -, -, h⟩ <;> rw [h]
  · exact .refl s
  · exact .refl s
  · unfold drawSprite
    refine spends.trans ?_ (runWrites_spends _ _)
    exact .refl s

theorem showFrom_spends (n i : Nat) (s : State) : spends s (showFrom n i s) := by
  induction n generalizing i s with
  | zero => exact .refl s
  | succ n ih => exact (showSprite_spends i s).trans (ih _ _)

theorem showSprites_spends (s : State) : spends s (showSprites s) := by
  unfold showSprites
  split
  · exact .refl s
  · exact showFrom_spends s.sprites.length 0 s

theorem primParts_spends : PrimParts spends where
  refl := .refl
  trans := .trans
  paint s _ _ := .refl s
  dangling s _ _ := .refl s
  draw ws s _ := by
    unfold draw
    split
    · exact .refl s
    · exact (hideSprites_spends s).trans (runWrites_spends _ _)
  vScroll dy s _ _ := (hideSprites_spends s).trans (runWrites_spends _ (rotated dy (hideSprites s)))
  refresh s := (hideSprites_spends s).trans (showSprites_spends _)
  swap s _ := (showSprites_spends s).trans (gap_spends _)

/-- The last ticks of an `Exec` are what is left of its cost. -/
theorem costTicks_clock {s : State} {k : Nat} (h : s.costLeft = some k) :
    (costTicks s).tick ≤ s.tick + k
      ∧ ((costTicks s).engineRunning = true → s.engineRunning = true ∧ (costTicks s).tick = s.tick + k) := by
  cases hrun : s.engineRunning with
  | false =>
    have hcost : costTicks s = { s with costLeft := none } := by simp [costTicks, hrun]
    rw [hcost]
    exact ⟨Nat.le_add_right .., fun h => absurd (hrun ▸ h) (by decide)⟩
  | true =>
    have hcost : costTicks s = engineTicks k { s with costLeft := none } := by simp [costTicks, hrun, h]
    rw [hcost]
    obtain ⟨hle, heq⟩ := engineTicks_clock k { s with costLeft := none }
    exact ⟨hle, fun h => ⟨rfl, heq h⟩⟩

/-- A record takes the ticks of its cost, and fewer only where the Engine halts (R363, R404). -/
theorem runRecord_clock {P : Record} {s u : State} (h : runRecord exec P s = .next u) :
    u.tick ≤ s.tick + recordCost P s ∧ (u.engineRunning = true → u.tick = s.tick + recordCost P s) := by
  have hspent : ∃ v, spends (beginExec P s) v ∧ u = costTicks v := by
    unfold runRecord at h
    split at h
    · rename_i i hi
      obtain ⟨v, hv, rfl⟩ := mapNext_eq h
      exact ⟨v, primParts_spends.exec i (decodePrim_isPrimitive hi) _ v hv, rfl⟩
    · cases h
      exact ⟨raise _ (beginExec P s), .refl (beginExec P s), rfl⟩
  obtain ⟨v, hv, rfl⟩ := hspent
  obtain ⟨j, hj, hle, heq⟩ := hv (recordCost P s) rfl
  obtain ⟨cle, ceq⟩ := costTicks_clock hj
  refine ⟨cle.trans hle, fun hrun => ?_⟩
  obtain ⟨hrun', e⟩ := ceq hrun
  obtain ⟨-, e'⟩ := heq hrun'
  exact e.trans e'

/-! ### One turn of the interrupt's drain -/

theorem isSwap_iff (P : Record) : isSwap P = true ↔ recByte P 0 = 0x17 := by
  rw [isSwap, beq_iff_eq]
  exact (BitVec.toNat_inj (y := 0x17#8))

theorem mustRequeue_iff {s : State} (hk : s.drainKind = .isr) (P : Record) :
    mustRequeue s P = true ↔ recByte P 0 = 0x17 ∧ s.drainFirst = false := by
  simp [mustRequeue, hk, isSwap_iff]

/-- The turn that ends a drain: the queue is empty, or a SwapBuffers has to wait (R206, R210). -/
theorem step_ended {s : State} (he : engineTurn s = false) (hx : s.inExecutor = true)
    (h : s.queue = [] ∨ ∃ P ps, s.queue = P :: ps ∧ mustRequeue s P = true) :
    step s = .next (reschedule (endDrain s)) := by
  rcases h with hq | ⟨P, ps, hq, hm⟩
  · exact step_drained he hx hq
  · simp [step_of_drain he hx, drainStep, hq, hm]

/-- With two banks the end of a drain shows nothing (R210). -/
theorem endDrain_rows_of_doubleBuffered {s : State} (h : s.doubleBuffered = true) : (endDrain s).rows = s.rows := by
  have hshow : showAtEnd s = s := by simp [showAtEnd, h]
  show (showAtEnd s).rows = s.rows
  rw [hshow]

/-- The drain of the interrupt goes on while the budget is not exceeded (R210). -/
theorem afterPrimitive_inExecutor {s : State} (hk : s.drainKind = .isr) (hx : s.inExecutor = true) :
    (afterPrimitive s).inExecutor = true ↔ overBudget s = false := by
  cases hb : overBudget s with
  | false =>
    have hgoes : afterPrimitive s = { s with drainFirst := false } :=
      if_neg fun h => absurd (hb.symm.trans h.2) (by decide)
    simp [hgoes, hx]
  | true =>
    have hends : afterPrimitive s = endDrain { s with drainFirst := false } := if_pos ⟨hk, hb⟩
    simp [hends]

theorem afterPrimitive_drainFirst (s : State) : (afterPrimitive s).drainFirst = false := by
  unfold afterPrimitive
  dsimp only
  split
  · exact endDrain_drainFirst _
  · rfl

/-- What a reserved record leaves but for its ticks (R96, R207). -/
theorem runRecord_reserved_frame {P : Record} {s u : State} (hP : 0x1C ≤ (recByte P 0).toNat)
    (h : runRecord exec P s = .next u) :
    ticksOnly { s with faults := s.faults ++ [.reservedPrimitive (recByte P 0)] } u
      ∧ engineMoved { s with faults := s.faults ++ [.reservedPrimitive (recByte P 0)] } u := by
  obtain ⟨t, ht, hframe⟩ := reservedRecordExecutes P s hP
  rw [h] at ht
  cases ht
  exact hframe

/-- Settles O43: the turn that ends the drain by `endDrain`, any other by the record's frame, its clock and the
budget. -/
theorem interruptDrainTurn : Obligations.InterruptDrainTurn := by
  intro s he hx hk
  refine ⟨fun hend => ?ended, fun P ps hq hswap => ?taken⟩
  case ended =>
    have hturn : s.queue = [] ∨ ∃ P ps, s.queue = P :: ps ∧ mustRequeue s P = true := by
      refine hend.imp_right ?_
      rintro ⟨P, ps, hq, hP⟩
      exact ⟨P, ps, hq, (mustRequeue_iff hk P).2 hP⟩
    refine ⟨_, step_ended he hx hturn, rfl, endDrain_queue s, endDrain_paint s, endDrain_drawBank s, ?_,
      endDrain_spritesHidden s, endDrain_rows_of_doubleBuffered⟩
    exact (endDrain_suspendCount s).trans (by simp [hk])
  case taken =>
    have hstay : mustRequeue s P = false := by
      rw [← Bool.not_eq_true, mustRequeue_iff hk]
      rintro ⟨hP, hfirst⟩
      rw [hswap hP] at hfirst
      cases hfirst
    obtain ⟨u, hu, hframe⟩ := runRecord_next P { s with queue := ps }
    obtain ⟨hle, heq⟩ := runRecord_clock hu
    refine ⟨u, reschedule (afterPrimitive u), hu, by rw [step_of_taken he hx hq hstay, hu]; rfl,
      (afterPrimitive_frame u).1.trans (runRecord_queue hu), afterPrimitive_drainFirst u, hle, heq,
      fun i hi => ⟨recordCost_of_decode hi s, runRecord_of_decode hi hu⟩,
      fun hP => ⟨recordCost_of_reserved hP s, runRecord_reserved_frame hP hu⟩, ?_⟩
    have hux : u.inExecutor = true := by rw [hframe.eq]; exact hx
    have huk : u.drainKind = .isr := by rw [hframe.eq]; exact hk
    have hbudget : overBudget u = false ↔ (u.tick : Int) - s.drainStart ≤ retraceBudget s.timings s.vpRow := by
      rw [overBudget, decide_eq_false_iff_not, not_lt, hframe.eq]
    exact (afterPrimitive_inExecutor huk hux).trans hbudget

end Sys2Proof.Machine
end

section
/-! PROOFS. Bitmaps (R82, R265), paths (R267, R268) and the cells of a glyph buffer (R305). -/

namespace Sys2Proof.Machine

/-! ### Bitmaps -/

/-- A bitmap writes its opaque pixels, where they are visible (R82, R265). -/
theorem mem_bitmapWrites {s : State} {p : Point} {w h data : Nat} {wr : Write} :
    wr ∈ bitmapWrites s p w h data ↔ ∃ k < w, ∃ j < h, ∃ c, bitmapColour (memByte s (data + j * w + k)) = some c
      ∧ inClip s (absPoint s ⟨p.x + k, p.y + j⟩).x (absPoint s ⟨p.x + k, p.y + j⟩).y = true
      ∧ wr ∈ putPix s (absPoint s ⟨p.x + k, p.y + j⟩).x (absPoint s ⟨p.x + k, p.y + j⟩).y c := by
  unfold bitmapWrites
  rw [List.mem_flatMap]
  constructor
  · rintro ⟨⟨k, j⟩, ho, hwr⟩
    obtain ⟨hk, hj⟩ := mem_rectOffsets.1 ho
    dsimp only at hwr
    split at hwr
    · rename_i c hc
      split at hwr
      · rename_i hin
        exact ⟨k, hk, j, hj, c, hc, hin, hwr⟩
      · cases hwr
    · cases hwr
  · rintro ⟨k, hk, j, hj, c, hc, hin, hwr⟩
    refine ⟨(k, j), mem_rectOffsets.2 ⟨hk, hj⟩, ?_⟩
    dsimp only
    rw [hc]
    dsimp only
    rwa [if_pos hin]

theorem bitmapColour_eq_some {b : Byte} {c : Colour} :
    bitmapColour b = some c ↔ b.extractLsb' 6 2 ≠ 0 ∧ b.extractLsb' 0 6 = c := by
  rw [bitmapColour_eq]
  split <;> simp_all

/-- The law of drawing a bitmap (R265). -/
theorem draw_bitmapWrites_redraws (p : Point) (w h data : Nat) {s : State} (hv : viewportOK s) :
    redraws s (draw (fun u => bitmapWrites u p w h data) s) s.paint fun u ax ay =>
      let x := ax - s.paint.origin.x - p.x
      let y := ay - s.paint.origin.y - p.y
      let b := memByte s (data + y.toNat * w + x.toNat)
      if inClip u ax ay && decide (0 ≤ x ∧ x < w ∧ 0 ≤ y ∧ y < h) && decide (b.extractLsb' 6 2 ≠ 0) then
        some (vpByte u (b.extractLsb' 0 6))
      else none := by
  refine draw_redraws _ _ hv (fun wr hwr => ?sound) (fun ax ay v hin hn wr hwr => ?complete)
  case sound =>
    obtain ⟨k, hk, j, hj, c, hc, hclip, hwr⟩ := mem_bitmapWrites.1 hwr
    rw [memByte_hideSprites, bitmapColour_eq_some] at hc
    obtain ⟨halpha, rfl⟩ := hc
    refine ⟨_, _, _, ?_, hwr⟩
    simp only [absPoint, hideSprites_paint] at hclip ⊢
    simpa [hclip, hk, hj] using halpha
  case complete =>
    simp only [Option.ite_none_right_eq_some, Option.some.injEq, Bool.and_eq_true, decide_eq_true_eq] at hn
    obtain ⟨⟨⟨hclip, hx0, hx1, hy0, hy1⟩, halpha⟩, rfl⟩ := hn
    obtain ⟨k, hk⟩ := Int.eq_ofNat_of_zero_le hx0
    obtain ⟨j, hj⟩ := Int.eq_ofNat_of_zero_le hy0
    have hplace : absPoint (hideSprites s) ⟨p.x + k, p.y + j⟩ = ⟨ax, ay⟩ := by
      simp only [absPoint, hideSprites_paint, Point.mk.injEq]
      omega
    rw [hk, hj, Int.toNat_natCast, Int.toNat_natCast] at halpha hwr
    refine mem_bitmapWrites.2 ⟨k, by omega, j, by omega, _,
      bitmapColour_eq_some.2 ⟨by rwa [memByte_hideSprites], rfl⟩, ?_, ?_⟩ <;> rw [hplace]
    · exact hclip
    · rw [memByte_hideSprites]
      exact hwr

theorem exec_drawBitmap_live {p : Point} {bmp : Nat} {s : State} (hhead : rangeLive s bmp 8 = true)
    (hpix : rangeLive s (memU32 s (bmp + 4)).toNat ((memU16 s bmp).toNat * (memU16 s (bmp + 2)).toNat) = true) :
    exec (.drawBitmap p bmp) s = .next (draw (fun u => bitmapWrites u p (memU16 s bmp).toNat
      (memU16 s (bmp + 2)).toNat (memU32 s (bmp + 4)).toNat) s) := by
  simp only [exec, execDrawBitmap, hhead, hpix, if_true]

/-- Settles O21: both ranges are allocated, so the bitmap is drawn. -/
theorem drawBitmapIsAlphaThresholded : Obligations.DrawBitmapIsAlphaThresholded := fun p _ _ hv hhead hpix =>
  ⟨_, exec_drawBitmap_live hhead hpix, draw_bitmapWrites_redraws p _ _ _ hv⟩

/-! ### Paths -/

/-- The outline of a path of `n` points in host memory (R91, R267). -/
theorem mem_pathOutline_pathPoints (s : State) (pts n : Nat) (q : Point) :
    q ∈ pathOutline (pathPoints s pts n) ↔
      ∃ k < n, q ∈ linePixels (pathPoint s pts k) (pathPoint s pts ((k + 1) % n)) := by
  have hget : ∀ k < n, (pathPoints s pts n)[k]? = some (pathPoint s pts k) := fun k hk => by simp [pathPoints, hk]
  have hlen : (pathPoints s pts n).length = n := by simp [pathPoints]
  simp only [pathOutline, List.mem_dedup, List.mem_flatMap, mem_closedEdges, hlen]
  constructor
  · rintro ⟨e, ⟨k, hk, h1, h2⟩, hq⟩
    rw [hget k hk, Option.some.injEq] at h1
    rw [hget _ (Nat.mod_lt _ (by omega)), Option.some.injEq] at h2
    exact ⟨k, hk, by rw [h1, h2]; exact hq⟩
  · rintro ⟨k, hk, hq⟩
    exact ⟨(_, _), ⟨k, hk, hget k hk, hget _ (Nat.mod_lt _ (by omega))⟩, hq⟩

/-- The point is on the outline of the path of `n` points at `pts` (R267). -/
def onOutline (s : State) (pts n : Nat) (x y : Int) : Bool :=
  (List.range n).any fun k => decide (⟨x, y⟩ ∈ linePixels (pathPoint s pts k) (pathPoint s pts ((k + 1) % n)))

/-- The point is inside the path of `n` points at `pts` (R268). -/
def inPath (s : State) (pts n : Nat) (x y : Int) : Bool := decide (⟨x, y⟩ ∈ pathInterior (pathPoints s pts n))

theorem draw_pathOutline_redraws (pts n : Nat) {s : State} (hv : viewportOK s) :
    redraws s (draw (fun h => paintAll h (pathOutline (pathPoints h pts n)) (fg h)) s) s.paint
      fun h => paintedSet h (onOutline s pts n) (fg h) :=
  draw_paintAll_redraws (fun h => pathOutline (pathPoints h pts n)) fg (fun _ => onOutline s pts n) hv fun x y => by
    simp [onOutline, mem_pathOutline_pathPoints]

theorem draw_pathInterior_redraws (pts n : Nat) {s : State} (hv : viewportOK s) :
    redraws s (draw (fun h => paintAll h (pathInterior (pathPoints h pts n)) (bg h)) s) s.paint
      fun h => paintedSet h (inPath s pts n) (bg h) :=
  draw_paintAll_redraws (fun h => pathInterior (pathPoints h pts n)) bg (fun _ => inPath s pts n) hv fun x y => by
    simp [inPath]

section
variable {pts n : Nat} {s : State} (hlive : rangeLive s pts (4 * n) = true)
include hlive

theorem exec_drawPath_live : exec (.drawPath pts n) s =
    .next (draw (fun h => paintAll h (pathOutline (pathPoints h pts n)) (fg h)) s) := by
  simp only [exec, execDrawPath, hlive, if_true]

theorem exec_fillPath_live : exec (.fillPath pts n) s =
    .next (draw (fun h => paintAll h (pathInterior (pathPoints h pts n)) (bg h)) s) := by
  simp only [exec, execFillPath, hlive, if_true]

end

/-- Settles O22: the points are allocated, so the set of points is painted. -/
theorem pathsPaint : Obligations.PathsPaint := fun pts n _ hv hlive =>
  ⟨⟨_, exec_drawPath_live hlive, draw_pathOutline_redraws pts n hv⟩,
    ⟨_, exec_fillPath_live hlive, draw_pathInterior_redraws pts n hv⟩⟩

/-! ### Cells of a glyph buffer -/

/-- The law of painting a glyph's cell with its top-left at `p` (R302, R303, R305). -/
theorem draw_glyphCell_redraws (p : Point) (data gw gh : Nat) (o : GlyphOpts) (f k : Colour) {s : State}
    (hv : viewportOK s) (hgw : 0 < gw) :
    redraws s (draw (fun h => paintCell h p (glyphCell h data gw gh o f k)) s) s.paint fun h ax ay =>
      let u := ax - s.paint.origin.x - p.x
      let j := ay - s.paint.origin.y - p.y
      let m : Nat := if o.doubleWidth then 2 else 1
      let w : Int := gw + (if o.italic then ((gh : Int) - 1) / 4 else 0)
      if inClip h ax ay && decide (0 ≤ u ∧ u < m * w ∧ 0 ≤ j ∧ j < gh) then
        (cellColour s data gw gh o f k (u.toNat / m) j.toNat).bind (paintedByte h ax ay)
      else none := by
  simp only [paintCell_eq]
  refine draw_points_redraws _ _ hv fun ax ay v hin => ?_
  have hshift : ∀ c, (⟨ax - s.paint.origin.x, ay - s.paint.origin.y⟩, c) ∈
      ((glyphCell (hideSprites s) data gw gh o f k).map fun q => ((⟨p.x + q.1.x, p.y + q.1.y⟩ : Point), q.2)) ↔
      (⟨ax - s.paint.origin.x - p.x, ay - s.paint.origin.y - p.y⟩, c) ∈ glyphCell s data gw gh o f k := by
    intro c
    rw [glyphCell_hideSprites, List.mem_map]
    constructor
    · rintro ⟨⟨⟨x, y⟩, c'⟩, hm, e⟩
      simp only [Prod.mk.injEq, Point.mk.injEq] at e
      obtain ⟨⟨ex, ey⟩, rfl⟩ := e
      rw [← ex, ← ey, add_sub_cancel_left, add_sub_cancel_left]
      exact hm
    · exact fun hm => ⟨_, hm, by simp⟩
  simp only [hshift, mem_glyphCell, inClip_hideSprites]
  generalize ax - s.paint.origin.x - p.x = u
  generalize ay - s.paint.origin.y - p.y = j
  generalize (if o.doubleWidth = true then 2 else 1) = n
  have hwidth : 0 ≤ j → j < gh → (glyphWidth o gw gh : Int) = gw + (if o.italic then ((gh : Int) - 1) / 4 else 0) :=
    fun h0 h1 => glyphWidth_cast o gw gh hgw (by omega)
  simp only [Option.ite_none_right_eq_some, Option.bind_eq_some_iff, Bool.and_eq_true, decide_eq_true_eq]
  constructor
  · rintro ⟨⟨hclip, hu0, hu1, hj0, hj1⟩, c, hc, hb⟩
    rw [← hwidth hj0 hj1] at hu1
    exact ⟨hclip, c, ⟨hu0, hu1, hj0, hj1, hc⟩, hb⟩
  · rintro ⟨hclip, c, ⟨hu0, hu1, hj0, hj1, hc⟩, hb⟩
    rw [hwidth hj0 hj1] at hu1
    exact ⟨⟨hclip, hu0, hu1, hj0, hj1⟩, c, hc, hb⟩

section
variable {col row gbuf : Nat} {s : State} (hhead : rangeLive s gbuf 16 = true)
include hhead

theorem exec_renderGlyphsBuffer_outside
    (h : (glyphBuffer s gbuf).columns ≤ col ∨ (glyphBuffer s gbuf).rows ≤ row) :
    exec (.renderGlyphsBuffer col row gbuf) s = .next s := by
  have hmap : ¬(col < (glyphBuffer s gbuf).columns ∧ row < (glyphBuffer s gbuf).rows) := by omega
  simp only [exec, execRenderGlyphsBuffer, hhead, hmap, if_true, if_false]

theorem exec_renderGlyphsBuffer_live
    (hin : col < (glyphBuffer s gbuf).columns ∧ row < (glyphBuffer s gbuf).rows)
    (hcell : rangeLive s (cellAddr (glyphBuffer s gbuf) col row) 4 = true) :
    let g := glyphBuffer s gbuf
    let m := memU32 s (cellAddr g col row)
    let data := glyphAddr g (m.extractLsb' 0 8).toNat
    rangeLive s data (g.glyphsHeight * glyphStride g.glyphsWidth) = true →
      exec (.renderGlyphsBuffer col row gbuf) s = .next (draw (fun h => paintCell h
        ⟨col * g.glyphsWidth, row * g.glyphsHeight⟩ (bufferCell h g m data)) s) := by
  intro g m data hglyph
  simp only [exec, execRenderGlyphsBuffer, hhead, hin, hcell, if_true, and_self]
  exact if_pos hglyph

end

/-- Settles O25: nothing is drawn outside the map, and inside it by the law of painting a cell. -/
theorem renderGlyphsBufferPaintsCell : Obligations.RenderGlyphsBufferPaintsCell := by
  intro col row gbuf s hv hhead g m data
  exact ⟨exec_renderGlyphsBuffer_outside hhead, fun hcol hrow hgw hcell hglyph =>
    ⟨_, exec_renderGlyphsBuffer_live hhead ⟨hcol, hrow⟩ hcell hglyph, draw_glyphCell_redraws _ _ _ _ _ _ _ hv hgw⟩⟩

end Sys2Proof.Machine
end

section
/-! PROOFS. Scrolling there and back (R307, R308, R310, R311). -/

namespace Sys2Proof.Machine

/-! ### Rotating there and back -/

theorem rotateFrom_back {lo n d v : Int} (hv : lo ≤ v ∧ v < lo + n) :
    rotateFrom lo n d (rotateFrom lo n (-d) v) = v := by
  have hcancel : ((v - lo - -d) % n - d) % n = v - lo := by
    rw [Int.emod_sub_emod, show v - lo - -d - d = v - lo by ring, Int.emod_eq_of_lt (by omega) (by omega)]
  unfold rotateFrom
  rw [add_sub_cancel_left, hcancel, add_sub_cancel]

theorem neg_emod_eq_zero (d n : Int) : -d % n = 0 ↔ d % n = 0 := by
  rw [← Int.dvd_iff_emod_eq_zero, ← Int.dvd_iff_emod_eq_zero, dvd_neg]

/-- The pixel lies in the region. -/
abbrev inRegion (r : Rect) (x y : Int) : Prop := r.x1 ≤ x ∧ x ≤ r.x2 ∧ r.y1 ≤ y ∧ y ≤ r.y2

/-! ### Drawing with the sprites hidden -/

theorem draw_of_hidden {s : State} (h : s.spritesHidden = true) (ws : State → List Write) :
    draw ws s = runWrites (ws s) s := by
  unfold draw
  rw [hideSprites_of_hidden h]
  split
  · rename_i hnil
    rw [hnil]
    rfl
  · rename_i hcons
    rw [hcons]

/-- What is drawn where nothing has to be hidden first. -/
theorem redraws.rawPixel_of_hidden {s t : State} {pt : Paint} {new : State → Int → Int → Option Byte}
    (h : redraws s t pt new) (hh : s.spritesHidden = true) {ax ay : Int} (hin : inVP s ax ay = true) :
    rawPixel t t.drawBank ax ay = (new s ax ay).or (rawPixel s s.drawBank ax ay) := by
  unfold redraws at h
  rw [hideSprites_of_hidden hh] at h
  obtain ⟨hnone, hsome⟩ := h
  by_cases hnew : ∃ ax ay, inVP s ax ay = true ∧ new s ax ay ≠ none
  · exact (hsome hnew).1 ax ay hin
  · push Not at hnew
    rw [hnone hnew, hnew ax ay hin]
    rfl

/-- A byte of depth two gives its colour back (R80). -/
theorem vpByte_colour {s : State} (h : s.params.channelDepth = .two) (c : Colour) :
    (vpByte s c).extractLsb' 0 6 = c := by
  rw [vpByte, pixbyte_depthTwo h]
  exact (levels_append_bits _ _ c).2.2

/-! ### HScroll (R310) -/

/-- HScroll has nothing to do (R307, R310). -/
abbrev hScrollStays (r : Rect) (dx : Int) : Prop :=
  regionWidth r ≤ 0 ∨ regionHeight r ≤ 0 ∨ dx % regionWidth r = 0

theorem exec_hScroll_eq (dx : Int) (s : State) : exec (.hScroll dx) s =
    .next (if hScrollStays s.paint.scrollRegion dx then s else draw (hScrollWrites dx) s) := by
  unfold exec execHScroll
  dsimp only
  split <;> rfl

theorem draw_hScrollWrites_redraws (dx : Int) {s : State} (hv : viewportOK s) :
    redraws s (draw (hScrollWrites dx) s) s.paint fun h ax ay =>
      let r := s.paint.scrollRegion
      if inRegion r ax ay then (getPix h (rotateFrom r.x1 (regionWidth r) dx ax) ay).map (vpByte h) else none := by
  refine draw_redraws _ _ hv (fun w hw => ?sound) (fun ax ay v hin hn w hw => ?complete)
  case sound =>
    obtain ⟨⟨x, y⟩, hp, hw⟩ := List.mem_flatMap.1 hw
    rw [mem_cornerPixels, hideSprites_paint] at hp
    dsimp only at hw
    split at hw
    · rename_i c hc
      rw [hideSprites_paint] at hc
      exact ⟨x, y, _, by simp [hp, hc], hw⟩
    · cases hw
  case complete =>
    simp only [Option.ite_none_right_eq_some, Option.map_eq_some_iff] at hn
    obtain ⟨hreg, c, hc, rfl⟩ := hn
    refine List.mem_flatMap.2 ⟨⟨ax, ay⟩, mem_cornerPixels.2 (by simpa using hreg), ?_⟩
    simp only [hideSprites_paint, hc]
    exact hw

/-- A region of the invariant's kind, if not empty, lies in the viewport (R235). -/
theorem viewportOK.inVP_of_inRegion {s : State} (hv : viewportOK s) {x y : Int}
    (h : inRegion s.paint.scrollRegion x y) : inVP s x y = true := by
  obtain ⟨-, -, -, -, -, -, -, -, -, -, hreg⟩ := hv
  unfold regionOK at hreg
  simp only [inVP, Bool.and_eq_true, decide_eq_true_eq]
  omega

theorem inRegion_rotateColumn {r : Rect} {d x y : Int} (h : inRegion r x y) :
    inRegion r (rotateFrom r.x1 (regionWidth r) d x) y := by
  have hb := rotateFrom_bounds r.x1 d x (n := regionWidth r) (by unfold regionWidth; omega)
  unfold regionWidth at *
  exact ⟨hb.1, by omega, h.2.2⟩

theorem inRegion_rotateRow {r : Rect} {d x y : Int} (h : inRegion r x y) :
    inRegion r x (rotateFrom r.y1 (regionHeight r) d y) := by
  have hb := rotateFrom_bounds r.y1 d y (n := regionHeight r) (by unfold regionHeight; omega)
  unfold regionHeight at *
  exact ⟨h.1, h.2.1, hb.1, by omega⟩

/-- The colours after HScroll, the sprites hidden before (R310). -/
theorem getPix_hScroll {s : State} (hv : viewportOK s) (hh : s.spritesHidden = true)
    (hd : s.params.channelDepth = .two) (dx : Int) {x y : Int} (hin : inVP s x y = true) :
    getPix (draw (hScrollWrites dx) s) x y =
      if inRegion s.paint.scrollRegion x y then
        getPix s (rotateFrom s.paint.scrollRegion.x1 (regionWidth s.paint.scrollRegion) dx x) y
      else getPix s x y := by
  rw [getPix, (draw_hScrollWrites_redraws dx hv).rawPixel_of_hidden hh hin]
  dsimp only
  split
  · rename_i hreg
    obtain ⟨c, hc⟩ := hv.getPix (hv.inVP_of_inRegion (inRegion_rotateColumn (d := dx) hreg))
    rw [hc]
    simp [vpByte_colour hd]
  · rfl

/-- HScroll keeps what its way back rests on. -/
theorem hScroll_back {s : State} (hv : viewportOK s) (hh : s.spritesHidden = true)
    (hd : s.params.channelDepth = .two) (n : Int) {x y : Int} (hin : inVP s x y = true) :
    getPix (draw (hScrollWrites (-n)) (draw (hScrollWrites n) s)) x y = getPix s x y := by
  have hvt : viewportOK (draw (hScrollWrites n) s) := by rw [draw_of_hidden hh]; exact hv.runWrites _
  have hht : (draw (hScrollWrites n) s).spritesHidden = true := by rw [draw_of_hidden hh]; simpa
  have hsize : ∀ a b, inVP (draw (hScrollWrites n) s) a b = inVP s a b := inVP_congr (by simp) (by simp)
  rw [getPix_hScroll hvt hht (by simpa using hd) (-n) (by rwa [hsize]), draw_paint]
  split
  · rename_i hreg
    have hback := inRegion_rotateColumn (d := -n) hreg
    rw [getPix_hScroll hv hh hd n (hv.inVP_of_inRegion hback), if_pos hback,
      rotateFrom_back (by unfold regionWidth; omega)]
  · rename_i hreg
    rw [getPix_hScroll hv hh hd n hin, if_neg hreg]

/-! ### VScroll (R308) -/

/-- VScroll has nothing to do (R307, R308). -/
abbrev vScrollStays (r : Rect) (dy : Int) : Prop :=
  regionWidth r ≤ 0 ∨ regionHeight r ≤ 0 ∨ dy % regionHeight r = 0

theorem exec_vScroll_eq (dy : Int) (s : State) : exec (.vScroll dy) s =
    .next (if vScrollStays s.paint.scrollRegion dy then s else vScrollBy dy s) := by
  unfold exec execVScroll
  dsimp only
  split <;> rfl

/-- The content of a row after the rotation of a row map. -/
theorem rotatedMap_getElem? {r : Rect} {m : List Nat} (h2 : r.y2 < m.length) (hh : 0 < regionHeight r) (d : Int)
    (y : Nat) : (rotatedMap r d m)[y]? = m[rotatedRow r d y]? := by
  have hb := rotateFrom_bounds r.y1 d y hh
  have hheight : r.y1 + regionHeight r = r.y2 + 1 := by unfold regionHeight; omega
  have hsame : rotatedRow r d y < m.length ↔ y < m.length := by
    unfold rotatedRow
    split <;> omega
  rw [rotatedMap_eq r d m h2 hh, List.map_map, List.getElem?_map]
  by_cases hy : y < m.length
  · rw [List.getElem?_range hy, List.getElem?_eq_getElem (hsame.2 hy)]
    simp [List.getElem?_eq_getElem (hsame.2 hy)]
  · rw [List.getElem?_eq_none (by simpa using hy), List.getElem?_eq_none (by omega)]
    rfl

theorem rotatedRow_back {r : Rect} (h0 : 0 ≤ r.y1) (hh : 0 < regionHeight r) (d : Int) (y : Nat) :
    rotatedRow r d (rotatedRow r (-d) y) = y := by
  have hb := rotateFrom_bounds r.y1 (-d) y hh
  have hheight : r.y1 + regionHeight r = r.y2 + 1 := by unfold regionHeight; omega
  by_cases hy : r.y1 ≤ (y : Int) ∧ (y : Int) ≤ r.y2
  · have hrow : rotatedRow r (-d) y = (rotateFrom r.y1 (regionHeight r) (-d) y).toNat := if_pos hy
    have hcast : ((rotateFrom r.y1 (regionHeight r) (-d) y).toNat : Int) = rotateFrom r.y1 (regionHeight r) (-d) y :=
      Int.toNat_of_nonneg (by omega)
    rw [hrow, rotatedRow, hcast, if_pos (by omega), rotateFrom_back (by omega), Int.toNat_natCast]
  · rw [rotatedRow, rotatedRow, if_neg hy, if_neg hy]

theorem rotatedMap_back {r : Rect} {m : List Nat} (h0 : 0 ≤ r.y1) (h2 : r.y2 < m.length) (hh : 0 < regionHeight r)
    (d : Int) : rotatedMap r (-d) (rotatedMap r d m) = m := by
  have hlen : (rotatedMap r d m).length = m.length := by simp [rotatedMap]
  refine List.ext_getElem? fun y => ?_
  rw [rotatedMap_getElem? (by omega) hh, rotatedMap_getElem? h2 hh, rotatedRow_back h0 hh]

theorem PerBank.set_set {α : Type} (p : PerBank α) (b : Bank) (v w : α) : (p.set b v).set b w = p.set b w := by
  cases b <;> rfl

theorem PerBank.set_get {α : Type} (p : PerBank α) (b : Bank) : p.set b (p.get b) = p := by
  cases b <;> rfl

/-- VScroll writes back the columns outside its region (R308). -/
theorem mem_keepColumns {old s : State} {r : Rect} {w : Write} :
    w ∈ keepColumns old s r ↔ ∃ x y v, (r.y1 ≤ y ∧ y ≤ r.y2) ∧ (0 ≤ x ∧ x < s.vpWidth) ∧ (x < r.x1 ∨ r.x2 < x)
      ∧ rawPixel old old.drawBank x y = some v ∧ w ∈ rawWrite s x y v := by
  simp only [keepColumns, outsideColumns, List.mem_flatMap, List.mem_filter, mem_intRange, Bool.or_eq_true,
    decide_eq_true_eq]
  constructor
  · rintro ⟨y, hy, x, ⟨⟨h0, h1⟩, hout⟩, hw⟩
    split at hw
    · rename_i v hv
      exact ⟨x, y, v, hy, ⟨h0, by omega⟩, hout, hv, hw⟩
    · cases hw
  · rintro ⟨x, y, v, hy, ⟨h0, h1⟩, hout, hv, hw⟩
    exact ⟨y, hy, x, ⟨⟨h0, by omega⟩, hout⟩, by rw [hv]; exact hw⟩

/-- Writes of descriptors alone leave the rows. -/
theorem writtenRows_repoints (ws : List Write) (rows : List (List Byte)) (h : ∀ w ∈ ws, ∃ b i p, w = .repoint b i p) :
    writtenRows ws rows = rows := by
  induction ws with
  | nil => rfl
  | cons w ws ih =>
    obtain ⟨b, i, p, rfl⟩ := h w List.mem_cons_self
    exact ih fun w hw => h w (List.mem_cons_of_mem _ hw)

theorem rawPixel_outside {s : State} {x y : Int} (h : inVP s x y = false) (b : Bank) : rawPixel s b x y = none := by
  simp [rawPixel, physAddr, h]

/-- The byte of a pixel by the physical row that the row map names (R172). -/
theorem rawPixel_of_row {s : State} {b : Bank} {x : Int} {j p : Nat} (hx : 0 ≤ x ∧ x < s.vpWidth)
    (hj : (j : Int) < s.vpHeight) (hp : (s.rowMap.get b)[j]? = some p) :
    rawPixel s b x j = rowByte s.rows p (x.toNat ^^^ 2) := by
  have hin : inVP s x j = true := by
    simp only [inVP, Bool.and_eq_true, decide_eq_true_eq]
    omega
  simp [rawPixel, physAddr, hin, hp]

section
variable {s : State} (hv : viewportOK s) (hh : s.spritesHidden = true) (dy : Int)
  (hwidth : 0 < regionWidth s.paint.scrollRegion) (hheight : 0 < regionHeight s.paint.scrollRegion)
include hv hh hwidth hheight

theorem vScrollBy_rows : (vScrollBy dy s).rows =
    writtenRows (keepColumns s (rotated dy s) s.paint.scrollRegion) s.rows := by
  obtain ⟨h0, -⟩ := hv.region hwidth hheight
  rw [vScrollBy_eq, hideSprites_of_hidden hh, runWrites_rows, scrollWrites, writtenRows_append]
  refine writtenRows_repoints _ _ fun w hw => ?_
  obtain ⟨y, -, -, k, -, p, -, rfl⟩ := (mem_repointRows h0).1 hw
  exact ⟨_, _, _, rfl⟩

omit hwidth hheight hv in
theorem physAddr_vScrollBy (x y : Int) :
    physAddr (vScrollBy dy s) s.drawBank x y = physAddr (rotated dy s) s.drawBank x y := by
  rw [vScrollBy_eq, hideSprites_of_hidden hh]
  exact physAddr_congr (by simp) (by simp) (by simp) _ _ _

omit hh in
/-- What VScroll writes back at the address of a pixel. -/
theorem byte_mem_keepColumns {x y : Int} {p off : Nat} (ha : physAddr (rotated dy s) s.drawBank x y = some (p, off))
    (v : Byte) : .byte p off v ∈ keepColumns s (rotated dy s) s.paint.scrollRegion ↔
      (s.paint.scrollRegion.y1 ≤ y ∧ y ≤ s.paint.scrollRegion.y2)
        ∧ (x < s.paint.scrollRegion.x1 ∨ s.paint.scrollRegion.x2 < x) ∧ rawPixel s s.drawBank x y = some v := by
  constructor
  · intro h
    obtain ⟨x', y', v', hrows, -, hcols, hold, hw⟩ := mem_keepColumns.1 h
    obtain ⟨_, _, ha', e⟩ := rawWrite_bytes hw
    cases e
    obtain ⟨rfl, rfl⟩ := (hv.rotated hwidth hheight dy).physAddr_inj ha ha'
    exact ⟨hrows, hcols, hold⟩
  · rintro ⟨hrows, hcols, hold⟩
    have hin := physAddr_inVP ha
    simp only [inVP, Bool.and_eq_true, decide_eq_true_eq] at hin
    refine mem_keepColumns.2 ⟨x, y, v, hrows, hin.1.1, hcols, hold, ?_⟩
    have ha' : physAddr (rotated dy s) (rotated dy s).drawBank x y = some (p, off) := ha
    simp [rawWrite, ha']

omit hh in
/-- The byte that the rotation of the row map alone brings to a pixel. -/
theorem rowByte_rotated {x y : Int} {p off : Nat} (ha : physAddr (rotated dy s) s.drawBank x y = some (p, off)) :
    rowByte s.rows p off = rawPixel s s.drawBank x (rotatedRow s.paint.scrollRegion dy y.toNat) := by
  obtain ⟨-, h1⟩ := hv.region hwidth hheight
  have hin := physAddr_inVP ha
  obtain ⟨p', off', ha', hoff, hrow, -⟩ := (hv.rotated hwidth hheight dy).physAddr hin
  cases ha.symm.trans ha'
  have hrot := (rotated_rowMap_get dy s s.drawBank).trans (if_pos rfl)
  rw [show (rotated dy s).drawBank = s.drawBank from rfl, hrot, rotatedMap_getElem? h1 hheight] at hrow
  have hlen := hv.drawBank_length
  have hbound := (List.getElem?_eq_some_iff.1 hrow).1
  simp only [inVP, Bool.and_eq_true, decide_eq_true_eq] at hin
  rw [hoff]
  exact (rawPixel_of_row (s := s) (b := s.drawBank) hin.1.1 (by omega) hrow).symm

/-- The bytes after VScroll, the sprites hidden before (R308). -/
theorem rawPixel_vScroll (x y : Int) : rawPixel (vScrollBy dy s) s.drawBank x y =
    if inRegion s.paint.scrollRegion x y then
      rawPixel s s.drawBank x (rotateFrom s.paint.scrollRegion.y1 (regionHeight s.paint.scrollRegion) dy y)
    else rawPixel s s.drawBank x y := by
  cases hin : inVP s x y with
  | false =>
    have hout : ¬inRegion s.paint.scrollRegion x y := fun h => by
      rw [hv.inVP_of_inRegion h] at hin
      cases hin
    have hnone : physAddr (rotated dy s) s.drawBank x y = none := if_neg fun h => by
      rw [show inVP (rotated dy s) x y = inVP s x y from rfl, hin] at h
      cases h
    rw [if_neg hout, rawPixel_outside hin, rawPixel, physAddr_vScrollBy hh, hnone]
  | true =>
    obtain ⟨p, off, ha, -, -, he⟩ := (hv.rotated hwidth hheight dy).physAddr (ax := x) (ay := y) hin
    have hmem := byte_mem_keepColumns hv dy hwidth hheight ha
    rw [rawPixel_of_physAddr ((physAddr_vScrollBy hh dy x y).trans ha), vScrollBy_rows hv hh dy hwidth hheight]
    obtain ⟨p', off', ha', -, -, he'⟩ := hv.physAddr hin
    simp only [inVP, Bool.and_eq_true, decide_eq_true_eq] at hin
    by_cases hkeep : (s.paint.scrollRegion.y1 ≤ y ∧ y ≤ s.paint.scrollRegion.y2)
        ∧ (x < s.paint.scrollRegion.x1 ∨ s.paint.scrollRegion.x2 < x)
    · obtain ⟨v, hb⟩ := Option.isSome_iff_exists.1 he'
      have hold : rawPixel s s.drawBank x y = some v := (rawPixel_of_physAddr ha').trans hb
      rw [if_neg (by omega), hold]
      exact rowByte_written_of_mem _ _ _ _ v he ((hmem v).2 ⟨hkeep.1, hkeep.2, hold⟩) fun u hu =>
        Option.some.inj (((hmem u).1 hu).2.2.symm.trans hold)
    · have hfree : ∀ u, .byte p off u ∉ keepColumns s (rotated dy s) s.paint.scrollRegion := fun u hu =>
        hkeep ⟨((hmem u).1 hu).1, ((hmem u).1 hu).2.1⟩
      obtain ⟨h0, -⟩ := hv.region hwidth hheight
      have hb := rotateFrom_bounds s.paint.scrollRegion.y1 dy y hheight
      have hold := rowByte_rotated hv dy hwidth hheight ha
      rw [rotatedRow, Int.toNat_of_nonneg hin.1.2] at hold
      refine (rowByte_written_of_forall_ne _ _ _ _ hfree).trans (hold.trans ?_)
      split
      · rw [if_pos (by omega), Int.toNat_of_nonneg (by omega)]
      · rw [if_neg (by omega), Int.toNat_of_nonneg hin.1.2]

/-- VScroll and its way back. -/
theorem vScroll_back : let u := vScrollBy (-dy) (vScrollBy dy s)
    u.rowMap = s.rowMap ∧ ∀ x y, rawPixel u s.drawBank x y = rawPixel s s.drawBank x y := by
  obtain ⟨h0, h1⟩ := hv.region hwidth hheight
  have ht : vScrollBy dy s = runWrites (scrollWrites dy s) (rotated dy s) := by
    rw [vScrollBy_eq, hideSprites_of_hidden hh]
  have htmap : (vScrollBy dy s).rowMap = s.rowMap.set s.drawBank
      (rotatedMap s.paint.scrollRegion dy (s.rowMap.get s.drawBank)) := by
    rw [ht, runWrites_rowMap]
    rfl
  have htbank : (vScrollBy dy s).drawBank = s.drawBank := by rw [ht, runWrites_drawBank]; rfl
  have htpaint : (vScrollBy dy s).paint = s.paint := by rw [ht, runWrites_paint]; rfl
  have hth : (vScrollBy dy s).spritesHidden = true := by rw [ht, runWrites_spritesHidden]; exact hh
  have htv : viewportOK (vScrollBy dy s) := by
    rw [ht]
    exact (hv.rotated hwidth hheight dy).runWrites _
  intro u
  have hu : u = runWrites (scrollWrites (-dy) (vScrollBy dy s)) (rotated (-dy) (vScrollBy dy s)) := by
    rw [← hideSprites_of_hidden hth]
    exact vScrollBy_eq _ _
  refine ⟨?_, fun x y => ?_⟩
  · rw [hu, runWrites_rowMap, rotated]
    dsimp only
    rw [htpaint, htbank, htmap, PerBank.get_set, if_pos rfl, rotatedMap_back h0 h1 hheight, PerBank.set_set,
      PerBank.set_get]
  · have hback := rawPixel_vScroll htv hth (-dy) (by rwa [htpaint]) (by rwa [htpaint]) x y
    rw [htpaint, htbank] at hback
    rw [hback]
    split
    · rename_i hreg
      rw [rawPixel_vScroll hv hh dy hwidth hheight, if_pos (inRegion_rotateRow hreg),
        rotateFrom_back (by unfold regionHeight; omega)]
    · rename_i hreg
      rw [rawPixel_vScroll hv hh dy hwidth hheight, if_neg hreg]

end

/-- Settles O30: where there is nothing to do there is nothing to do on the way back, and otherwise each pixel comes
from where it went. -/
theorem scrollingBackRestores : Obligations.ScrollingBackRestores := by
  intro n s t u hv hh
  refine ⟨fun hd ht hu x y hin => ?hScroll, fun ht hu => ?vScroll⟩
  case hScroll =>
    rw [exec_hScroll_eq] at ht hu
    by_cases hstay : hScrollStays s.paint.scrollRegion n
    · rw [if_pos hstay] at ht
      cases ht
      rw [if_pos (by simpa [hScrollStays, neg_emod_eq_zero] using hstay)] at hu
      cases hu
      rfl
    · rw [if_neg hstay] at ht
      cases ht
      rw [draw_paint, if_neg (by simpa [hScrollStays, neg_emod_eq_zero] using hstay)] at hu
      cases hu
      exact hScroll_back hv hh hd n hin
  case vScroll =>
    rw [exec_vScroll_eq] at ht hu
    by_cases hstay : vScrollStays s.paint.scrollRegion n
    · rw [if_pos hstay] at ht
      cases ht
      rw [if_pos (by simpa [vScrollStays, neg_emod_eq_zero] using hstay)] at hu
      cases hu
      exact ⟨rfl, fun _ _ => rfl⟩
    · rw [if_neg hstay] at ht
      cases ht
      have hpaint : (vScrollBy n s).paint = s.paint := by rw [vScrollBy_eq, runWrites_paint]; simp [rotated]
      rw [hpaint, if_neg (by simpa [vScrollStays, neg_emod_eq_zero] using hstay)] at hu
      cases hu
      exact vScroll_back hv hh n (by omega) (by omega)

end Sys2Proof.Machine
end

section
/-! PROOFS. The modeline grammar (R92) and the mapping of its words to timings (R120, R121). -/

namespace Sys2Proof.Machine

/-! ### Spaces and words -/

theorem isWs_iff (c : Byte) : isWs c = true ↔ c = 0x20#8 ∨ c = 0x09#8 := by
  simp [isWs]

/-- Characters of `ws`, perhaps none. -/
theorem isSpace_or_nil_iff (w : List Byte) : w = [] ∨ isSpace w ↔ ∀ c ∈ w, isWs c = true := by
  simp only [isSpace, ← isWs_iff]
  constructor
  · rintro (rfl | ⟨-, h⟩)
    · exact fun _ h => nomatch h
    · exact h
  · exact fun h => or_iff_not_imp_left.2 fun hne => ⟨hne, h⟩

/-- A run of characters that are not `ws`. -/
def isWord (w : List Byte) : Prop := w ≠ [] ∧ ∀ c ∈ w, isWs c = false

theorem skipWs_append {w : List Byte} (hw : ∀ c ∈ w, isWs c = true) {q : Byte} (hq : isWs q = false)
    (rest : List Byte) : skipWs (w ++ q :: rest) = q :: rest := by
  induction w with
  | nil => simp [skipWs, hq]
  | cons b w ih => simp [skipWs, hw b List.mem_cons_self, ih fun c hc => hw c (List.mem_cons_of_mem _ hc)]

theorem exists_append_skipWs (bs : List Byte) : ∃ w, bs = w ++ skipWs bs ∧ ∀ c ∈ w, isWs c = true := by
  induction bs with
  | nil => exact ⟨[], rfl, by simp⟩
  | cons b bs ih =>
    obtain ⟨w, hw, hall⟩ := ih
    rw [skipWs]
    split
    · rename_i hb
      exact ⟨b :: w, by rw [List.cons_append, ← hw], by simpa [hb] using hall⟩
    · exact ⟨[], rfl, by simp⟩

/-- The label is what stands before the next quote, if it holds what R92 lets it hold. -/
theorem scanLabel_eq_some_iff (bs label after : List Byte) :
    scanLabel bs = some (label, after) ↔ bs = label ++ 0x22#8 :: after ∧ ∀ c ∈ label, isLabelChar c = true := by
  induction bs generalizing label with
  | nil => simp [scanLabel]
  | cons b bs ih =>
    rw [scanLabel]
    split
    · rename_i hb
      subst hb
      constructor
      · rintro h
        cases h
        exact ⟨rfl, by simp⟩
      · rintro ⟨h, hall⟩
        cases label with
        | nil => cases h; rfl
        | cons c label =>
          cases h
          exact absurd (hall _ List.mem_cons_self) (by decide)
    · rename_i hb
      split
      · rename_i hlabel
        simp only [Option.map_eq_some_iff, Prod.mk.injEq, Prod.exists]
        constructor
        · rintro ⟨l, a, hl, rfl, rfl⟩
          obtain ⟨rfl, hall⟩ := (ih l).1 hl
          exact ⟨rfl, by simpa [hlabel] using hall⟩
        · rintro ⟨h, hall⟩
          cases label with
          | nil =>
            cases h
            exact absurd rfl hb
          | cons c label =>
            cases h
            exact ⟨label, after, (ih label).2 ⟨rfl, fun c hc => hall c (List.mem_cons_of_mem _ hc)⟩, rfl, rfl⟩
      · rename_i hlabel
        refine ⟨fun h => (nomatch h), ?_⟩
        rintro ⟨h, hall⟩
        cases label with
        | nil =>
          cases h
          exact absurd rfl hb
        | cons c label =>
          cases h
          exact absurd (hall _ List.mem_cons_self) hlabel

/-! ### Tokens -/

theorem tokens_append_space {w : List Byte} (hw : ∀ c ∈ w, isWs c = true) (bs : List Byte) :
    tokens (w ++ bs) = tokens bs := by
  induction w with
  | nil => rfl
  | cons b w ih => simp [tokens, hw b List.mem_cons_self, ih fun c hc => hw c (List.mem_cons_of_mem _ hc)]

/-- Nothing, or something that starts with a character of `ws`. -/
def endsWord (bs : List Byte) : Prop := ∀ c ∈ bs.head?, isWs c = true

theorem tokens_append_word {w : List Byte} (hw : isWord w) {bs : List Byte} (hbs : endsWord bs) :
    tokens (w ++ bs) = w :: tokens bs := by
  obtain ⟨hne, hall⟩ := hw
  induction w with
  | nil => exact absurd rfl hne
  | cons b w ih =>
    have hb : isWs b = false := hall b List.mem_cons_self
    cases w with
    | nil =>
      cases bs with
      | nil => simp [tokens, hb]
      | cons c bs =>
        have hc : isWs c = true := hbs c rfl
        simp [tokens, hb, hc]
    | cons c w =>
      have hc : isWs c = false := hall c (by simp)
      have hrest := ih (by simp) fun d hd => hall d (List.mem_cons_of_mem _ hd)
      rw [List.cons_append] at hrest
      rw [List.cons_append, List.cons_append, tokens]
      simp [hb, hc, hrest]

/-- Words, each with the space before it. -/
def spacedWords (words : List (List Byte × List Byte)) : Prop := ∀ w ∈ words, isSpace w.1 ∧ isWord w.2

theorem endsWord_words {words : List (List Byte × List Byte)} (h : ∀ w ∈ words, isSpace w.1) {after : List Byte}
    (hafter : ∀ c ∈ after, isWs c = true) : endsWord (words.flatMap (fun w => w.1 ++ w.2) ++ after) := by
  intro c hc
  cases words with
  | nil => exact hafter c (List.mem_of_mem_head? hc)
  | cons w words =>
    obtain ⟨hne, hall⟩ := h w List.mem_cons_self
    obtain ⟨d, space, hw⟩ := List.exists_cons_of_ne_nil hne
    rw [hw] at hall
    simp only [List.flatMap_cons, hw, List.cons_append, List.head?_cons, Option.mem_some_iff] at hc
    rw [← hc, isWs_iff]
    exact hall d List.mem_cons_self

theorem tokens_words {words : List (List Byte × List Byte)} (h : spacedWords words) {after : List Byte}
    (hafter : ∀ c ∈ after, isWs c = true) :
    tokens (words.flatMap (fun w => w.1 ++ w.2) ++ after) = words.map Prod.snd := by
  induction words with
  | nil => simpa [tokens] using tokens_append_space hafter []
  | cons w words ih =>
    obtain ⟨hspace, hword⟩ := h w List.mem_cons_self
    have hrest : spacedWords words := fun v hv => h v (List.mem_cons_of_mem _ hv)
    rw [List.flatMap_cons, List.append_assoc, List.append_assoc,
      tokens_append_space ((isSpace_or_nil_iff _).1 (.inr hspace)),
      tokens_append_word hword (endsWord_words (fun v hv => (hrest v hv).1) hafter), ih hrest, List.map_cons]

/-- Every text is a first word without space before it, words with spaces, and spaces. -/
theorem exists_words (bs : List Byte) :
    ∃ (first : List Byte) (words : List (List Byte × List Byte)) (after : List Byte),
      bs = first ++ (words.flatMap (fun w => w.1 ++ w.2) ++ after) ∧ (∀ c ∈ first, isWs c = false)
      ∧ spacedWords words ∧ ∀ c ∈ after, isWs c = true := by
  induction bs with
  | nil => exact ⟨[], [], [], rfl, by simp, by simp [spacedWords], by simp⟩
  | cons b bs ih =>
    obtain ⟨first, words, after, rfl, hfirst, hwords, hafter⟩ := ih
    cases hb : isWs b with
    | false => exact ⟨b :: first, words, after, rfl, by simpa [hb] using hfirst, hwords, hafter⟩
    | true =>
      have hspace : isSpace [b] := by simpa [isSpace, isWs_iff] using hb
      cases first with
      | cons c first =>
        refine ⟨[], ([b], c :: first) :: words, after, by simp, by simp, ?_, hafter⟩
        exact List.forall_mem_cons.2 ⟨⟨hspace, by simp, hfirst⟩, hwords⟩
      | nil =>
        cases words with
        | nil => exact ⟨[], [], b :: after, rfl, by simp, hwords, by simpa [hb] using hafter⟩
        | cons w words =>
          obtain ⟨⟨⟨-, hw1⟩, hw2⟩, hrest⟩ := List.forall_mem_cons.1 hwords
          refine ⟨[], (b :: w.1, w.2) :: words, after, by simp, by simp, ?_, hafter⟩
          refine List.forall_mem_cons.2 ⟨⟨⟨by simp, ?_⟩, hw2⟩, hrest⟩
          exact List.forall_mem_cons.2 ⟨(isWs_iff b).1 hb, hw1⟩

/-! ### The text of a modeline -/

theorem isLabelChar_iff (c : Byte) : isLabelChar c = true ↔ 0x20 ≤ c.toNat ∧ c.toNat ≤ 0x7E ∧ c ≠ 0x22#8 := by
  simp [isLabelChar, and_assoc]

/-- A text made of its parts is parsed into them (R92). -/
theorem parseModeline_modelineText {before label after : List Byte} {words : List (List Byte × List Byte)}
    (h : modelineParts before label words after) (hne : words ≠ []) (hwords : ∀ w ∈ words, isWord w.2) :
    parseModeline (modelineText before label words after) = readTokens label (words.map Prod.snd) := by
  obtain ⟨hbefore, hafter, hlabel, hspaces⟩ := h
  rw [isSpace_or_nil_iff] at hbefore hafter
  have hscan : ∀ rest, scanLabel (label ++ 0x22#8 :: rest) = some (label, rest) := fun rest =>
    (scanLabel_eq_some_iff _ _ _).2 ⟨rfl, fun c hc => (isLabelChar_iff c).2 (hlabel c hc)⟩
  have htokens := tokens_words (fun w hw => ⟨hspaces w hw, hwords w hw⟩) hafter
  have hends := endsWord_words hspaces hafter
  unfold parseModeline modelineText
  rw [skipWs_append hbefore (by decide)]
  simp only [hscan]
  cases hrest : words.flatMap (fun w => w.1 ++ w.2) ++ after with
  | nil =>
    obtain ⟨w, words, rfl⟩ := List.exists_cons_of_ne_nil hne
    obtain ⟨hword, -⟩ := hwords w List.mem_cons_self
    simp [hword] at hrest
  | cons c rest =>
    rw [hrest] at htokens hends
    simp [htokens, hends c rfl]

/-- A text that is parsed has those parts (R92). -/
theorem exists_parts_of_parseModeline {text : List Byte} {t : Timings} (h : parseModeline text = some t) :
    ∃ before label words after, text = modelineText before label words after
      ∧ modelineParts before label words after ∧ readTokens label (words.map Prod.snd) = some t := by
  obtain ⟨before, htext, hbefore⟩ := exists_append_skipWs text
  unfold parseModeline at h
  split at h
  · cases h
  · rename_i q rest hq
    split at h
    · rename_i hquote
      split at h
      · cases h
      · rename_i label bs hscan
        obtain ⟨hrest, hlabel⟩ := (scanLabel_eq_some_iff _ _ _).1 hscan
        split at h
        · cases h
        · rename_i c cs
          split at h
          · rename_i hc
            obtain ⟨first, words, after, hcs, hfirst, hwords, hafter⟩ := exists_words (c :: cs)
            have hnil : first = [] := by
              cases first with
              | nil => rfl
              | cons d first =>
                cases hcs
                exact absurd (hfirst c List.mem_cons_self) (by simp [hc])
            subst hnil
            rw [List.nil_append] at hcs
            rw [hcs, tokens_words hwords hafter] at h
            refine ⟨before, label, words, after, ?_, ⟨(isSpace_or_nil_iff _).2 hbefore, (isSpace_or_nil_iff _).2 hafter,
              fun c hc => (isLabelChar_iff c).1 (hlabel c hc), fun w hw => (hwords w hw).1⟩, h⟩
            rw [htext, hq, hquote, hrest, hcs, modelineText]
            rfl
          · cases h
    · cases h

/-! ### Numbers -/

theorem isDigit_iff (c : Byte) : isDigit c = true ↔ 0x30 ≤ c.toNat ∧ c.toNat ≤ 0x39 := by
  simp [isDigit]

theorem isUint_iff (w : List Byte) : isUint w ↔ w ≠ [] ∧ ∀ c ∈ w, isDigit c = true := by
  simp [isUint, isDigit_iff]

theorem digitsValue_eq (acc : Nat) (w : List Byte) :
    digitsValue acc w = w.foldl (fun n c => 10 * n + (c.toNat - 0x30)) acc := by
  induction w generalizing acc with
  | nil => rfl
  | cons b w ih => exact ih _

theorem digitsValue_cons (acc : Nat) (b : Byte) (w : List Byte) :
    digitsValue acc (b :: w) = digitsValue (10 * acc + (b.toNat - 0x30)) w := by
  rw [digitsValue_eq, digitsValue_eq, List.foldl_cons]

theorem readUint_eq_some_iff (w : List Byte) (v : Int) : readUint w = some v ↔ isUint w ∧ v = uintValue w := by
  rw [readUint, isUint_iff, digitsValue_eq]
  simp only [Option.ite_none_right_eq_some, Option.some.injEq, Bool.and_eq_true, Bool.not_eq_true',
    List.isEmpty_eq_false_iff, List.all_eq_true]
  exact and_congr_right fun _ => eq_comm

theorem isUint_of_readUint {w : List Byte} {v : Int} (h : readUint w = some v) : isUint w :=
  ((readUint_eq_some_iff w v).1 h).1

/-- `clock` of R92 from its digits before and after the point. -/
def clockText (whole frac : List Byte) : List Byte := whole ++ if frac = [] then [] else 0x2E#8 :: frac

theorem isClock_iff (w : List Byte) :
    isClock w ↔ ∃ whole frac, isUint whole ∧ (frac = [] ∨ isUint frac) ∧ w = clockText whole frac := by
  constructor
  · rintro (h | ⟨a, f, ha, hf, rfl⟩)
    · exact ⟨w, [], h, .inl rfl, by simp [clockText]⟩
    · exact ⟨a, f, ha, .inr hf, by simp [clockText, hf.1]⟩
  · rintro ⟨whole, frac, hwhole, hfrac, rfl⟩
    rcases hfrac with rfl | hfrac
    · exact .inl (by simpa [clockText] using hwhole)
    · exact .inr ⟨whole, frac, hwhole, hfrac, by simp [clockText, hfrac.1]⟩

theorem readClock_clockText {whole frac : List Byte} (hwhole : isUint whole) (hfrac : frac = [] ∨ isUint frac) :
    readClock (clockText whole frac) = some (decimalOf whole frac) := by
  obtain ⟨hne, hall⟩ := (isUint_iff _).1 hwhole
  have hpoint : isDigit 0x2E#8 = false := by decide
  rcases hfrac with rfl | hfrac
  · simp [readClock, clockText, List.takeWhile_eq_self_iff.2 hall, List.dropWhile_eq_nil_iff.2 hall, hne]
  · obtain ⟨hfne, hfall⟩ := (isUint_iff _).1 hfrac
    have htake : (whole ++ 0x2E#8 :: frac).takeWhile isDigit = whole := by
      simp [List.takeWhile_append_of_pos hall, hpoint]
    have hdrop : (whole ++ 0x2E#8 :: frac).dropWhile isDigit = 0x2E#8 :: frac := by
      simp [List.dropWhile_append_of_pos hall, hpoint]
    simp only [readClock, clockText, hfne, if_false, htake, hdrop]
    simp [hne, hfne, List.isEmpty_iff]
    exact hfall

theorem isClock_of_readClock {w : List Byte} {d : Decimal} (h : readClock w = some d) : isClock w := by
  have hsplit : w = w.takeWhile isDigit ++ w.dropWhile isDigit := List.takeWhile_append_dropWhile.symm
  have hdigits : ∀ c ∈ w.takeWhile isDigit, isDigit c = true := fun c hc => List.mem_takeWhile_imp hc
  unfold readClock at h
  dsimp only at h
  split at h
  · cases h
  · rename_i hne
    have hwhole : isUint (w.takeWhile isDigit) := (isUint_iff _).2 ⟨by simpa [List.isEmpty_iff] using hne, hdigits⟩
    split at h
    · rename_i hnil
      rw [hnil, List.append_nil] at hsplit
      rw [hsplit]
      exact .inl hwhole
    · rename_i c frac hcons
      split at h
      · rename_i hfrac
        simp only [Bool.and_eq_true, decide_eq_true_eq, Bool.not_eq_true',
          List.isEmpty_eq_false_iff, List.all_eq_true] at hfrac
        obtain ⟨⟨rfl, hfne⟩, hfall⟩ := hfrac
        exact .inr ⟨_, frac, hwhole, (isUint_iff _).2 ⟨hfne, hfall⟩, by rw [hcons] at hsplit; exact hsplit⟩
      · cases h

/-- Zeros at the end shift the value. -/
theorem digitsValue_zeros (acc : Nat) {z : List Byte} (hz : ∀ c ∈ z, c = 0x30#8) :
    digitsValue acc z = acc * 10 ^ z.length := by
  induction z generalizing acc with
  | nil => simp [digitsValue_eq]
  | cons b z ih =>
    have hb : b = 0x30#8 := hz b List.mem_cons_self
    have hzero : 10 * acc + ((0x30#8 : Byte).toNat - 0x30) = acc * 10 := by
      rw [show (0x30#8 : Byte).toNat = 0x30 from rfl]
      omega
    rw [digitsValue_cons, ih _ fun c hc => hz c (List.mem_cons_of_mem _ hc), hb, hzero, List.length_cons, pow_succ',
      mul_assoc]

theorem digitsValue_append (acc : Nat) (v w : List Byte) :
    digitsValue acc (v ++ w) = digitsValue (digitsValue acc v) w := by
  simp [digitsValue_eq]

theorem exists_trailingZeros (w : List Byte) : ∃ z, w = dropTrailingZeros w ++ z ∧ ∀ c ∈ z, c = 0x30#8 := by
  refine ⟨(w.reverse.takeWhile (· == 0x30)).reverse, ?_, fun c hc => ?_⟩
  · rw [dropTrailingZeros, ← List.reverse_append, List.takeWhile_append_dropWhile, List.reverse_reverse]
  · simpa using List.mem_takeWhile_imp (List.mem_reverse.1 hc)

/-- The decimal has the value of the digits, whatever zeros end its fraction (log entry 28). -/
theorem decimalOf_value (whole frac : List Byte) : let d := decimalOf whole frac
    d.scale ≤ frac.length ∧ d.digits * 10 ^ (frac.length - d.scale) = uintValue (whole ++ frac) := by
  obtain ⟨z, hz, hzero⟩ := exists_trailingZeros frac
  have hlen : frac.length = (dropTrailingZeros frac).length + z.length := by
    conv_lhs => rw [hz, List.length_append]
  intro d
  refine ⟨?_, ?_⟩
  · show (dropTrailingZeros frac).length ≤ frac.length
    omega
  · show digitsValue 0 (whole ++ dropTrailingZeros frac) * 10 ^ (frac.length - (dropTrailingZeros frac).length) = _
    rw [hlen, Nat.add_sub_cancel_left, ← digitsValue_zeros _ hzero, ← digitsValue_append, List.append_assoc, ← hz,
      digitsValue_eq]
    rfl

/-! ### Keywords -/

theorem readHPol_eq_some_iff (w : List Byte) (p : SyncPol) :
    readHPol w = some p ↔ w = if p = .pos then kwPlusH else kwMinusH := by
  have hne : kwMinusH ≠ kwPlusH := by decide
  unfold readHPol
  cases p <;> grind

theorem readVPol_eq_some_iff (w : List Byte) (p : SyncPol) :
    readVPol w = some p ↔ w = if p = .pos then kwPlusV else kwMinusV := by
  have hne : kwMinusV ≠ kwPlusV := by decide
  unfold readVPol
  cases p <;> grind

theorem readBlock_blockWord (b : HBlock) : readBlock (blockWord b) = some b := by
  cases b <;> decide

theorem eq_blockWord_of_readBlock {w : List Byte} {b : HBlock} (h : readBlock w = some b) : w = blockWord b := by
  unfold readBlock at h
  split at h
  · cases h; assumption
  · split at h
    · cases h; assumption
    · split at h
      · cases h; assumption
      · split at h <;> cases h
        assumption

/-- The words of the options, in the order of R92. -/
def optionWords (double : Bool) (block : Option HBlock) : List (List Byte) :=
  (if double then [kwDoubleScan] else []) ++ (block.map blockWord).toList

theorem readOptions_optionWords (double : Bool) (block : Option HBlock) :
    readOptions (optionWords double block) = some (if double then 2 else 1, block.getD .frontPorch) := by
  have hne : ∀ b, blockWord b ≠ kwDoubleScan := by
    intro b
    cases b <;> decide
  cases double <;> cases block <;> simp [optionWords, readOptions, readBlock_blockWord, hne]

theorem exists_optionWords_of_readOptions {l : List (List Byte)} {o : Nat × HBlock} (h : readOptions l = some o) :
    ∃ double block, l = optionWords double block := by
  unfold readOptions at h
  split at h
  · exact ⟨false, none, rfl⟩
  · split at h
    · rename_i hw
      exact ⟨true, none, by rw [hw]; rfl⟩
    · obtain ⟨b, hb, -⟩ := Option.map_eq_some_iff.1 h
      exact ⟨false, some b, by rw [eq_blockWord_of_readBlock hb]; rfl⟩
  · split at h
    · rename_i hw
      obtain ⟨b, hb, -⟩ := Option.map_eq_some_iff.1 h
      exact ⟨true, some b, by rw [hw, eq_blockWord_of_readBlock hb]; rfl⟩
    · cases h
  · cases h

theorem optionWords_iff (l : List (List Byte)) : (∃ double block, l = optionWords double block) ↔
    ∃ double block, l = double ++ block ∧ (double = [] ∨ double = [kwDoubleScan])
      ∧ (block = [] ∨ ∃ b, block = [blockWord b]) := by
  constructor
  · rintro ⟨double, block, rfl⟩
    exact ⟨_, _, rfl, by cases double <;> simp, by cases block <;> simp⟩
  · rintro ⟨_, _, rfl, rfl | rfl, rfl | ⟨b, rfl⟩⟩
    · exact ⟨false, none, rfl⟩
    · exact ⟨false, some b, rfl⟩
    · exact ⟨true, none, rfl⟩
    · exact ⟨true, some b, rfl⟩

/-! ### The words of a modeline -/

/-- The words after the label spell their timings (R92, R121). -/
theorem readTokens_words (label : List Byte) {whole frac hd hss hse ht vd vss vse vt : List Byte} (hp vp : SyncPol)
    (double : Bool) (block : Option HBlock) (hwhole : isUint whole) (hfrac : frac = [] ∨ isUint frac)
    (hnumbers : ∀ u ∈ [hd, hss, hse, ht, vd, vss, vse, vt], isUint u) :
    readTokens label (clockText whole frac :: hd :: hss :: hse :: ht :: vd :: vss :: vse :: vt
        :: (if hp = .pos then kwPlusH else kwMinusH) :: (if vp = .pos then kwPlusV else kwMinusV)
        :: optionWords double block) =
      some (timingsOf label (decimalOf whole frac) (uintValue hd) (uintValue hss) (uintValue hse) (uintValue ht)
        (uintValue vd) (uintValue vss) (uintValue vse) (uintValue vt) hp vp (if double then 2 else 1)
        (block.getD .frontPorch)) := by
  have hnumber : ∀ u ∈ [hd, hss, hse, ht, vd, vss, vse, vt], readUint u = some (uintValue u : Int) := fun u hu =>
    (readUint_eq_some_iff u _).2 ⟨hnumbers u hu, rfl⟩
  simp only [List.forall_mem_cons] at hnumber
  simp [readTokens, readClock_clockText hwhole hfrac, hnumber, (readHPol_eq_some_iff _ hp).2 rfl,
    (readVPol_eq_some_iff _ vp).2 rfl, readOptions_optionWords]

/-- Words that are read are those of R92. -/
theorem modelineWords_of_readTokens {label : List Byte} {ws : List (List Byte)} {t : Timings}
    (h : readTokens label ws = some t) : modelineWords ws := by
  unfold readTokens at h
  split at h
  · rename_i clock hd hss hse ht vd vss vse vt hp vp opts
    obtain ⟨_, hclock, h⟩ := Option.bind_eq_some_iff.1 h
    obtain ⟨_, h1, h⟩ := Option.bind_eq_some_iff.1 h
    obtain ⟨_, h2, h⟩ := Option.bind_eq_some_iff.1 h
    obtain ⟨_, h3, h⟩ := Option.bind_eq_some_iff.1 h
    obtain ⟨_, h4, h⟩ := Option.bind_eq_some_iff.1 h
    obtain ⟨_, h5, h⟩ := Option.bind_eq_some_iff.1 h
    obtain ⟨_, h6, h⟩ := Option.bind_eq_some_iff.1 h
    obtain ⟨_, h7, h⟩ := Option.bind_eq_some_iff.1 h
    obtain ⟨_, h8, h⟩ := Option.bind_eq_some_iff.1 h
    obtain ⟨p, hhp, h⟩ := Option.bind_eq_some_iff.1 h
    obtain ⟨q, hvp, h⟩ := Option.bind_eq_some_iff.1 h
    obtain ⟨_, ho, -⟩ := Option.bind_eq_some_iff.1 h
    obtain ⟨double, block, rfl, hdouble, hblock⟩ :=
      (optionWords_iff opts).1 (exists_optionWords_of_readOptions ho)
    refine ⟨clock, [hd, hss, hse, ht, vd, vss, vse, vt], hp, vp, double, block, rfl, isClock_of_readClock hclock, rfl,
      ?_, ?_, ?_, hdouble, hblock⟩
    · simp only [List.forall_mem_cons, List.not_mem_nil, false_imp_iff, implies_true, and_true]
      exact ⟨isUint_of_readUint h1, isUint_of_readUint h2, isUint_of_readUint h3, isUint_of_readUint h4,
        isUint_of_readUint h5, isUint_of_readUint h6, isUint_of_readUint h7, isUint_of_readUint h8⟩
    · rw [(readHPol_eq_some_iff _ _).1 hhp]
      cases p <;> simp
    · rw [(readVPol_eq_some_iff _ _).1 hvp]
      cases q <;> simp
  · cases h

/-- Words of R92 are read. -/
theorem readTokens_of_modelineWords (label : List Byte) {ws : List (List Byte)} (h : modelineWords ws) :
    ∃ t, readTokens label ws = some t := by
  obtain ⟨clock, numbers, hpol, vpol, double, block, rfl, hclock, hlen, hnumbers, hhp, hvp, hdouble, hblock⟩ := h
  obtain ⟨whole, frac, hwhole, hfrac, rfl⟩ := (isClock_iff clock).1 hclock
  obtain ⟨dbl, blk, hopts⟩ := (optionWords_iff _).2 ⟨double, block, rfl, hdouble, hblock⟩
  obtain ⟨p, rfl⟩ : ∃ p : SyncPol, hpol = if p = .pos then kwPlusH else kwMinusH :=
    hhp.elim (fun e => ⟨.pos, by simpa using e⟩) fun e => ⟨.neg, by simpa using e⟩
  obtain ⟨q, rfl⟩ : ∃ q : SyncPol, vpol = if q = .pos then kwPlusV else kwMinusV :=
    hvp.elim (fun e => ⟨.pos, by simpa using e⟩) fun e => ⟨.neg, by simpa using e⟩
  rw [hopts]
  match numbers, hlen, hnumbers with
  | [hd, hss, hse, ht, vd, vss, vse, vt], _, hnumbers =>
    exact ⟨_, readTokens_words label p q dbl blk hwhole hfrac hnumbers⟩

theorem isWs_of_isDigit {c : Byte} (h : isDigit c = true) : isWs c = false := by
  rw [isDigit_iff] at h
  rw [← Bool.not_eq_true, isWs_iff]
  rintro (rfl | rfl) <;> exact absurd h (by decide)

theorem isWord_of_isUint {w : List Byte} (h : isUint w) : isWord w := by
  obtain ⟨hne, hall⟩ := (isUint_iff w).1 h
  exact ⟨hne, fun c hc => isWs_of_isDigit (hall c hc)⟩

theorem isWord_of_isClock {w : List Byte} (h : isClock w) : isWord w := by
  rcases h with h | ⟨a, f, ha, hf, rfl⟩
  · exact isWord_of_isUint h
  · refine ⟨by simp, fun c hc => ?_⟩
    rcases List.mem_append.1 hc with hc | hc
    · exact (isWord_of_isUint ha).2 c hc
    · rcases List.mem_cons.1 hc with rfl | hc
      · decide
      · exact (isWord_of_isUint hf).2 c hc

/-- A word, by looking at its characters. -/
theorem isWord_of_all {w : List Byte} (h : (!w.isEmpty && w.all fun c => !isWs c) = true) : isWord w := by
  simpa [isWord, List.isEmpty_iff] using h

theorem isWord_blockWord (b : HBlock) : isWord (blockWord b) := by
  cases b <;> exact isWord_of_all (by decide)

/-- The words of R92 hold no space. -/
theorem modelineWords.isWord {ws : List (List Byte)} (h : modelineWords ws) : ∀ w ∈ ws, isWord w := by
  obtain ⟨clock, numbers, hpol, vpol, double, block, rfl, hclock, -, hnumbers, hhp, hvp, hdouble, hblock⟩ := h
  simp only [List.forall_mem_cons, List.forall_mem_append]
  refine ⟨isWord_of_isClock hclock, fun u hu => isWord_of_isUint (hnumbers u hu), ?_, ?_, ?_, ?_⟩
  · rcases hhp with rfl | rfl <;> exact isWord_of_all (by decide)
  · rcases hvp with rfl | rfl <;> exact isWord_of_all (by decide)
  · rcases hdouble with rfl | rfl
    · simp
    · simpa using isWord_of_all (w := kwDoubleScan) (by decide)
  · rcases hblock with rfl | ⟨b, rfl⟩
    · simp
    · simpa using isWord_blockWord b

/-- A text of words of R92 is parsed by its words. -/
theorem parseModeline_of_modelineWords {before label after : List Byte} {words : List (List Byte × List Byte)}
    (h : modelineParts before label words after) (hwords : modelineWords (words.map Prod.snd)) :
    parseModeline (modelineText before label words after) = readTokens label (words.map Prod.snd) := by
  refine parseModeline_modelineText h ?_ fun w hw => hwords.isWord _ (List.mem_map_of_mem hw)
  rintro rfl
  obtain ⟨_, _, _, _, _, _, hnil, -⟩ := hwords
  cases hnil

theorem parseModeline_isSome_iff (text : List Byte) : (∃ t, parseModeline text = some t) ↔ modelineGrammar text := by
  constructor
  · rintro ⟨t, ht⟩
    obtain ⟨before, label, words, after, htext, hparts, hread⟩ := exists_parts_of_parseModeline ht
    exact ⟨before, label, words, after, htext, hparts, modelineWords_of_readTokens hread⟩
  · rintro ⟨before, label, words, after, rfl, hparts, hwords⟩
    rw [parseModeline_of_modelineWords hparts hwords]
    exact readTokens_of_modelineWords label hwords

/-- The totals of the timings are those of the text (R121, R123). -/
theorem timingsOf_totals (label : List Byte) (clock : Decimal) (hd hss hse ht vd vss vse vt : Int) (hp vp : SyncPol)
    (scan : Nat) (blk : HBlock) : let t := timingsOf label clock hd hss hse ht vd vss vse vt hp vp scan blk
    hTotal t = ht ∧ vTotal t = vt := by
  simp only [timingsOf, hTotal, vTotal]
  omega

/-- Settles O46: the texts that are parsed are those of the grammar, and a text's words spell its timings. -/
theorem decodeModelineMapsTokens : Obligations.DecodeModelineMapsTokens := by
  refine ⟨fun _ _ => rfl, parseModeline_isSome_iff, fun text s hno => ?none, ?words⟩
  case none =>
    have hnone : parseModeline text = none := by
      rw [Option.eq_none_iff_forall_ne_some]
      exact fun t ht => hno ((parseModeline_isSome_iff text).1 ⟨t, ht⟩)
    rw [← hnone]
    rfl
  case words =>
    intro before label after whole frac hd hss hse ht vd vss vse vt words hp vp double block hparts hwhole hfrac
      hnumbers hwords
    have hread := readTokens_words label hp vp double block hwhole hfrac hnumbers
    rw [List.append_assoc] at hwords
    have hparse := parseModeline_of_modelineWords hparts (hwords ▸ modelineWords_of_readTokens hread)
    rw [hwords] at hparse
    obtain ⟨hscale, hdigits⟩ := decimalOf_value whole frac
    obtain ⟨hh, hv⟩ := timingsOf_totals label (decimalOf whole frac) (uintValue hd) (uintValue hss) (uintValue hse)
      (uintValue ht) (uintValue vd) (uintValue vss) (uintValue vse) (uintValue vt) hp vp (if double then 2 else 1)
      (block.getD .frontPorch)
    exact ⟨_, hparse.trans hread, rfl, hscale, hdigits, hh, hv⟩

end Sys2Proof.Machine
end

section
/-! PROOFS. The configuration operations (R131, R140, R141, R170, R366): when each is turned away, and what an accepted
one leaves. -/

namespace Sys2Proof.Machine

/-! ### SetResolution (R131) -/

section
variable {text : List Byte} {rw rh : Int} {dbl : Bool} {s : State} {t : Timings}

theorem exec_setResolution_unparsed (hp : parseModeline text = none) :
    exec (.setResolution text rw rh dbl) s = .next { s with ret := .success false } := by
  simp only [exec, execSetResolution, hp]

theorem exec_setResolution_malformed (hp : parseModeline text = some t) (hwf : timingsWF s.params t = false) :
    exec (.setResolution text rw rh dbl) s =
      .next { s with ret := .success false, faults := s.faults ++ [.malformedTimings t] } := by
  simp [exec, execSetResolution, hp, hwf, raise]

theorem exec_setResolution_accepted (hp : parseModeline text = some t) (hwf : timingsWF s.params t = true) :
    exec (.setResolution text rw rh dbl) s =
      .next (applyResolution t rw dbl (achievedHeight (requestedHeight t rw rh) s.draws)
        (Config.poolSplit s.draws) { s with draws := s.draws + 1 }) := by
  simp only [exec, execSetResolution, hp, hwf, if_true]

/-- The blocks hold all the rows, wherever they are cut (R170). -/
theorem cutBlocks_sum (split : List Nat) (n : Nat) : (cutBlocks split n).sum = n := by
  induction split generalizing n with
  | nil => cases n <;> simp [cutBlocks]
  | cons k split ih =>
    cases n with
    | zero => rfl
    | succ n =>
      unfold cutBlocks
      split
      · simp
      · rw [List.sum_cons, ih]
        omega

/-- The empty viewport before configuration (R390). -/
theorem viewportOK_reset : viewportOK State.reset := by
  unfold viewportOK regionOK
  decide

/-- Every field that scan-out rests on is set anew, so what stood before has no part in its coherence. -/
theorem scanCore_applyResolution {ah : Nat} (dbl : Bool) (split : List Nat) (hwf : timingsWF s.params t = true)
    (hah : ah ≤ (requestedHeight t rw rh).toNat) : scanCore (applyResolution t rw dbl ah split s) := by
  have hreset : scanCore { State.reset with params := s.params } := ⟨nofun, viewportOK_reset, nofun, rfl, nofun⟩
  obtain ⟨hcore, -⟩ :=
    keepsScan_applyResolution (s := { State.reset with params := s.params }) dbl split hwf hah hreset
  exact hcore

end

/-- Settles O47: the fields are those of `applyResolution`, and they are coherent by `scanCore_applyResolution`. -/
theorem setResolutionReconfigures : Obligations.SetResolutionReconfigures := by
  intro text rw rh dbl s t hp hwf
  obtain ⟨hvpos, -⟩ := timingsWF_lines hwf
  obtain ⟨hh0, -⟩ := requestedHeight_bounds hvpos rw rh
  have hah : achievedHeight (requestedHeight t rw rh) s.draws ≤ (requestedHeight t rw rh).toNat := Nat.min_le_left _ _
  obtain ⟨-, hview, hchain, hengine⟩ :=
    scanCore_applyResolution (s := { s with draws := s.draws + 1 }) dbl (Config.poolSplit s.draws) hwf hah
  refine ⟨_, _, exec_setResolution_accepted hp hwf, rfl, rfl, rfl, rfl, rfl, ?height, rfl, rfl, ?black, ?pools, ?rows,
    rfl, rfl, rfl, rfl, rfl, rfl, rfl, rfl, rfl, rfl, hview, hchain, hengine, rfl⟩
  case height =>
    change _ ≤ requestedHeight t rw rh
    omega
  case black =>
    intro r hr v hv
    obtain ⟨-, rfl⟩ := List.mem_replicate.1 hr
    exact List.eq_of_mem_replicate hv
  case pools => exact (cutBlocks_sum _ _).trans List.length_replicate.symm
  case rows => exact List.length_replicate

/-! ### MoveScreen (R140) and ShrinkScreen (R141) -/

theorem mayReconfigure_iff (s : State) :
    mayReconfigure s = true ↔ 0 < s.suspendCount ∨ s.backgroundExec = false := by
  simp [mayReconfigure]

theorem mayReconfigure_eq_false {s : State} (hs : s.suspendCount = 0) (hb : s.backgroundExec = true) :
    mayReconfigure s = false := by
  simp [mayReconfigure, hs, hb]

section
variable {x y : Int} {s : State}

theorem exec_moveScreen_unconfigured (hc : s.configured = false) : exec (.moveScreen x y) s = .next (refuse s) := by
  simp [exec, execMoveScreen, hc]

theorem exec_moveScreen_unsuspended (hc : s.configured = true) (hm : mayReconfigure s = false) :
    exec (.moveScreen x y) s = .next (raise (.unsuspendedReconfigure (.moveScreen x y)) s) := by
  simp [exec, execMoveScreen, hc, hm]

theorem exec_moveScreen_malformed (hc : s.configured = true) (hm : mayReconfigure s = true)
    (hwf : timingsWF s.params (movedTimings x y s.timings) = false) :
    exec (.moveScreen x y) s = .next (raise (.malformedTimings (movedTimings x y s.timings)) s) := by
  simp [exec, execMoveScreen, hc, hm, hwf]

theorem exec_moveScreen_accepted (hc : s.configured = true) (hm : mayReconfigure s = true)
    (hwf : timingsWF s.params (movedTimings x y s.timings) = true) :
    exec (.moveScreen x y) s = .next (rebuildScan (movedTimings x y s.timings) (geometry s) s) := by
  simp [exec, execMoveScreen, hc, hm, hwf]

theorem exec_shrinkScreen_unconfigured (hc : s.configured = false) :
    exec (.shrinkScreen x y) s = .next (refuse s) := by
  simp [exec, execShrinkScreen, hc]

theorem exec_shrinkScreen_unsuspended (hc : s.configured = true) (hm : mayReconfigure s = false) :
    exec (.shrinkScreen x y) s = .next (raise (.unsuspendedReconfigure (.shrinkScreen x y)) s) := by
  simp [exec, execShrinkScreen, hc, hm]

theorem exec_shrinkScreen_malformed (hc : s.configured = true) (hm : mayReconfigure s = true)
    (hwf : timingsWF s.params (shrunkTimings x y s.timings) = false) :
    exec (.shrinkScreen x y) s = .next (raise (.malformedTimings (shrunkTimings x y s.timings)) s) := by
  simp [exec, execShrinkScreen, hc, hm, hwf]

theorem exec_shrinkScreen_belowViewport (hc : s.configured = true) (hm : mayReconfigure s = true)
    (hwf : timingsWF s.params (shrunkTimings x y s.timings) = true)
    (hlow : s.timings.hVisible - 2 * x < s.vpWidth ∨ s.timings.vVisible - 2 * y < s.vpHeight) :
    exec (.shrinkScreen x y) s = .next (raise (.shrinkBelowViewport x y) s) := by
  have hguard : s.vpWidth > (shrunkTimings x y s.timings).hVisible
      ∨ s.vpHeight > (shrunkTimings x y s.timings).vVisible := hlow
  simp [exec, execShrinkScreen, hc, hm, hwf, hguard]

theorem exec_shrinkScreen_accepted (hc : s.configured = true) (hm : mayReconfigure s = true)
    (hwf : timingsWF s.params (shrunkTimings x y s.timings) = true)
    (hw : s.vpWidth ≤ (shrunkTimings x y s.timings).hVisible)
    (hh : s.vpHeight ≤ (shrunkTimings x y s.timings).vVisible) :
    exec (.shrinkScreen x y) s =
      .next (rebuildScan (shrunkTimings x y s.timings) (recentred (shrunkTimings x y s.timings) s) s) := by
  simp [exec, execShrinkScreen, hc, hm, hwf, hw.not_gt, hh.not_gt]

end

theorem movedTimings_totals (x y : Int) (t : Timings) :
    hTotal (movedTimings x y t) = hTotal t ∧ vTotal (movedTimings x y t) = vTotal t := by
  simp only [movedTimings, hTotal, vTotal]
  omega

theorem shrunkTimings_totals (x y : Int) (t : Timings) :
    hTotal (shrunkTimings x y t) = hTotal t ∧ vTotal (shrunkTimings x y t) = vTotal t := by
  simp only [shrunkTimings, hTotal, vTotal]
  omega

/-- Settles O48: the next state is scan-out rebuilt with the viewport where it was. -/
theorem moveScreenRedistributesPorches : Obligations.MoveScreenRedistributesPorches := fun dx dy s hc hm hwf =>
  ⟨exec_moveScreen_accepted hc ((mayReconfigure_iff s).2 hm) hwf, movedTimings_totals dx dy s.timings⟩

/-- Settles O49: the next state is scan-out rebuilt with the viewport centred again. -/
theorem shrinkScreenRecentres : Obligations.ShrinkScreenRecentres := fun sx sy s hc hm hwf hw hh =>
  ⟨exec_shrinkScreen_accepted hc ((mayReconfigure_iff s).2 hm) hwf hw hh, shrunkTimings_totals sx sy s.timings⟩

/-- Settles O50: one equation of each operation for each way it is turned away. -/
theorem configurationTurnedAway : Obligations.ConfigurationTurnedAway := by
  intro text x y dbl s
  refine ⟨exec_setResolution_unparsed, fun t => exec_setResolution_malformed,
    fun hc => ⟨exec_moveScreen_unconfigured hc, exec_shrinkScreen_unconfigured hc⟩, fun hc hs hb => ?unsuspended,
    fun hc hm => ?allowed⟩
  case unsuspended =>
    have hm := mayReconfigure_eq_false hs hb
    exact ⟨exec_moveScreen_unsuspended hc hm, exec_shrinkScreen_unsuspended hc hm⟩
  case allowed =>
    have hm := (mayReconfigure_iff s).2 hm
    exact ⟨exec_moveScreen_malformed hc hm, exec_shrinkScreen_malformed hc hm,
      exec_shrinkScreen_belowViewport hc hm⟩

end Sys2Proof.Machine
end

section
/-! PROOFS. The chain of a bank plays one frame (R124, R125, R130, R134, R135, R137, R309): its segments fill the places
of every line from the first to the last, and each plays what its place asks for. -/

namespace Sys2Proof.Machine

/-! ### Segments that fill an interval -/

/-- The segments fill the places from `x` to `y` without a gap, and each meets `ok` at the place where it starts. -/
def fills (ok : Nat → Segment → Prop) : Nat → List Segment → Nat → Prop
  | x, [], y => x = y
  | x, sg :: rest, y => ok x sg ∧ fills ok (x + sg.length) rest y

section
variable {ok ok' : Nat → Segment → Prop} {x y z : Nat} {a b : List Segment}

theorem fills.append (ha : fills ok x a y) (hb : fills ok y b z) : fills ok x (a ++ b) z := by
  induction a generalizing x with
  | nil => cases ha; exact hb
  | cons sg a ih =>
    obtain ⟨hsg, ha⟩ := ha
    exact ⟨hsg, ih ha⟩

theorem fills.shift (k : Nat) (h : ∀ p sg, ok p sg → ok' (p + k) sg) (ha : fills ok x a y) :
    fills ok' (x + k) a (y + k) := by
  induction a generalizing x with
  | nil => exact congrArg (· + k) ha
  | cons sg a ih =>
    obtain ⟨hsg, ha⟩ := ha
    refine ⟨h x sg hsg, ?_⟩
    rw [Nat.add_right_comm]
    exact ih ha

theorem fills.sum_length (ha : fills ok x a y) : x + (a.map Segment.length).sum = y := by
  induction a generalizing x with
  | nil => exact ha
  | cons sg a ih =>
    obtain ⟨-, ha⟩ := ha
    rw [List.map_cons, List.sum_cons, ← Nat.add_assoc, ih ha]

/-- A segment starts where those before it end. -/
theorem fills.getElem? (ha : fills ok x a y) {i : Nat} {sg : Segment} (hi : a[i]? = some sg) :
    ok (x + ((a.take i).map Segment.length).sum) sg := by
  induction a generalizing x i with
  | nil => cases hi
  | cons c a ih =>
    obtain ⟨hc, ha⟩ := ha
    cases i with
    | zero => cases hi; exact hc
    | succ i =>
      rw [List.take_succ_cons, List.map_cons, List.sum_cons, ← Nat.add_assoc]
      exact ih ha hi

/-- Lists that fill one interval of width `w` each, one after the other. -/
theorem fills_flatMap_range {f : Nat → List Segment} {n w : Nat}
    (h : ∀ l < n, fills ok (x + l * w) (f l) (x + (l + 1) * w)) :
    fills ok x ((List.range n).flatMap f) (x + n * w) := by
  induction n with
  | zero =>
    show x = x + 0 * w
    rw [Nat.zero_mul, Nat.add_zero]
  | succ n ih =>
    rw [List.range_succ, List.flatMap_append, List.flatMap_singleton]
    exact (ih fun l hl => h l (Nat.lt_succ_of_lt hl)).append (h n (Nat.lt_succ_self n))

end

/-! ### What stands at a place of a line (R124, R125, R134) -/

/-- The viewport is whole groups of four pixels inside the visible area, and has no rows of width 0 (R127). -/
def viewportInside (t : Timings) (g : Geometry) : Prop :=
  0 ≤ g.vpWidth ∧ g.vpWidth % 4 = 0 ∧ 0 ≤ g.vpHeight ∧ (g.vpWidth = 0 → g.vpHeight = 0)
    ∧ 0 ≤ g.vpCol ∧ g.vpCol % 4 = 0 ∧ g.vpCol + g.vpWidth ≤ t.hVisible
    ∧ 0 ≤ g.vpRow ∧ g.vpRow + g.vpHeight ≤ t.vVisible

theorem viewportInside.rowsVisible {t : Timings} {g : Geometry} (h : viewportInside t g) : rowsVisible t g := by
  obtain ⟨-, -, -, -, -, -, -, hrow, hfit⟩ := h
  exact ⟨hrow, hfit⟩

/-- Logical line `l` shows a row of the viewport. -/
def showsRow (g : Geometry) (l : Nat) : Prop := g.vpRow.toNat ≤ l ∧ l < g.vpRow.toNat + g.vpHeight.toNat

/-- The buffer that plays from place `x` of line `l` on. -/
def playedBuf (t : Timings) (g : Geometry) (m : List Nat) (l x : Int) : Buf :=
  if t.vVisible + t.vFrontPorch ≤ l ∧ l < t.vVisible + t.vFrontPorch + t.vSyncPulse then .blank true
  else if g.vpRow ≤ l ∧ l < g.vpRow + g.vpHeight ∧ x = preLen t g then .row (m.getD (l - g.vpRow).toNat 0)
  else .blank false

/-- The vertical intervals, of which the first two are not empty, and the line after which a frame ends (R126, R135). -/
theorem timingsWF_vertical {p : Params} {t : Timings} (h : timingsWF p t = true) :
    0 < t.vVisible ∧ 0 ≤ t.vFrontPorch ∧ 0 < t.vSyncPulse ∧ 0 ≤ eofLine t ∧ eofLine t < vTotal t := by
  simp only [timingsWF, Bool.and_eq_true, Bool.or_eq_true, decide_eq_true_eq] at h
  unfold eofLine vTotal
  omega

theorem region_eq_sync_iff {p : Params} {t : Timings} (h : timingsWF p t = true) (l : Int) :
    region t l = .sync ↔
      t.vVisible + t.vFrontPorch ≤ l ∧ l < t.vVisible + t.vFrontPorch + t.vSyncPulse := by
  obtain ⟨-, hporch, -⟩ := timingsWF_vertical h
  unfold region
  split_ifs <;> simp <;> omega

section
variable {p : Params} {t : Timings} {g : Geometry} {l : Nat}

theorem playedBuf_other (hwf : timingsWF p t = true) (hg : viewportInside t g) (m : List Nat) (hl : ¬showsRow g l)
    (x : Int) : playedBuf t g m l x = .blank (region t l == .sync) := by
  obtain ⟨-, -, hh, -, -, -, -, hrow, -⟩ := hg
  unfold showsRow at hl
  unfold playedBuf
  rw [if_neg (c := g.vpRow ≤ l ∧ _) (by omega)]
  by_cases hs : region t l = .sync
  · rw [if_pos ((region_eq_sync_iff hwf l).1 hs), hs]
    rfl
  · rw [if_neg (mt (region_eq_sync_iff hwf l).2 hs), beq_false_of_ne hs]

theorem playedBuf_row (hwf : timingsWF p t = true) (hg : viewportInside t g) (m : List Nat) (hl : showsRow g l)
    {x : Int} (hx : x = preLen t g) : playedBuf t g m l x = .row (m.getD (l - g.vpRow.toNat) 0) := by
  obtain ⟨-, hporch, -⟩ := timingsWF_vertical hwf
  obtain ⟨-, -, hh, -, -, -, -, hrow, hfit⟩ := hg
  unfold showsRow at hl
  unfold playedBuf
  rw [if_neg (by omega), if_pos (by omega), show ((l : Int) - g.vpRow).toNat = l - g.vpRow.toNat by omega]

theorem playedBuf_beside (hwf : timingsWF p t = true) (hg : viewportInside t g) (m : List Nat) (hl : showsRow g l)
    {x : Int} (hx : x ≠ preLen t g) : playedBuf t g m l x = .blank false := by
  obtain ⟨-, hporch, -⟩ := timingsWF_vertical hwf
  obtain ⟨-, -, hh, -, -, -, -, hrow, hfit⟩ := hg
  unfold showsRow at hl
  unfold playedBuf
  rw [if_neg (by omega), if_neg (by omega)]

end

/-! ### The segments of a line (R134) -/

/-- A segment of line `l` that starts at place `x`: whole groups of four places inside the line, playing the buffer
that belongs there, a blank from `x` on and a row from its start. -/
structure LinePiece (t : Timings) (g : Geometry) (m : List Nat) (l x : Nat) (sg : Segment) : Prop where
  pos : 0 < sg.length
  length_groups : sg.length % 4 = 0
  start_groups : x % 4 = 0
  inside : x + sg.length ≤ (hTotal t).toNat
  buf : sg.buf = playedBuf t g m l x
  source : (∃ v, sg.buf = .blank v ∧ sg.offset = x)
    ∨ ∃ q, sg.buf = .row q ∧ sg.offset = 0 ∧ (sg.length : Int) = g.vpWidth

theorem showsRow.width_pos {t : Timings} {g : Geometry} {l : Nat} (hl : showsRow g l) (hg : viewportInside t g) :
    0 < g.vpWidth := by
  obtain ⟨hw, -, -, hzero, -⟩ := hg
  unfold showsRow at hl
  omega

section
variable {p : Params} {t : Timings} {g : Geometry} {l : Nat}

/-- The places of a viewport line: before the row, the row, and after it. -/
theorem preLen_bounds (hwf : timingsWF p t = true) (hg : viewportInside t g) :
    0 ≤ preLen t g ∧ preLen t g % 4 = 0 ∧ 0 ≤ g.vpWidth ∧ g.vpWidth % 4 = 0
      ∧ preLen t g + g.vpWidth + postLen t g = hTotal t ∧ 0 ≤ postLen t g ∧ postLen t g % 4 = 0 := by
  obtain ⟨-, -, -, ht4, hvis, hvis4, hvisEnd, -⟩ := timingsWF_arith hwf
  obtain ⟨hw, hw4, -, -, hcol, hcol4, hright, -⟩ := hg
  unfold postLen preLen
  omega

/-- A blank segment, or none where there is no place for it, plays its line's blank buffer from its own place on. -/
theorem fills_blank {m : List Nat} {x n : Int} {v : Bool} (hx : 0 ≤ x ∧ x % 4 = 0) (hn : 0 ≤ n ∧ n % 4 = 0)
    (hend : x + n ≤ hTotal t) (hbuf : 0 < n → playedBuf t g m l x = .blank v) :
    fills (fun x sg => LinePiece t g m l x sg ∧ sg.eof = false) x.toNat
      (if 0 < n then [⟨.blank v, x.toNat, n.toNat, false⟩] else []) (x + n).toNat := by
  split
  · rename_i hpos
    have hplace : ((x.toNat : Nat) : Int) = x := Int.toNat_of_nonneg hx.1
    exact ⟨⟨⟨show 0 < n.toNat by omega, show n.toNat % 4 = 0 by omega, by omega,
      show x.toNat + n.toNat ≤ _ by omega, by rw [hplace, hbuf hpos], .inl ⟨v, rfl, rfl⟩⟩, rfl⟩,
      show x.toNat + n.toNat = _ by omega⟩
  · show x.toNat = _
    omega

/-- The row of a viewport line stands at the viewport's column. -/
theorem fills_row (hwf : timingsWF p t = true) (hg : viewportInside t g) (m : List Nat) (hl : showsRow g l) :
    fills (fun x sg => LinePiece t g m l x sg ∧ sg.eof = false) (preLen t g).toNat
      [⟨.row (m.getD (l - g.vpRow.toNat) 0), 0, g.vpWidth.toNat, false⟩] (preLen t g + g.vpWidth).toNat := by
  obtain ⟨hpre, hpre4, hw, hw4, hsum, hpost, -⟩ := preLen_bounds hwf hg
  have hpos := hl.width_pos hg
  exact ⟨⟨⟨show 0 < g.vpWidth.toNat by omega, show g.vpWidth.toNat % 4 = 0 by omega, by omega,
    show (preLen t g).toNat + g.vpWidth.toNat ≤ _ by omega, (playedBuf_row hwf hg m hl (by omega)).symm,
    .inr ⟨_, rfl, rfl, Int.toNat_of_nonneg hw⟩⟩, rfl⟩, show (preLen t g).toNat + g.vpWidth.toNat = _ by omega⟩

/-- The segments of a viewport line: the blank before the row, the row, and the blank after it. -/
theorem fills_viewportSegments (hwf : timingsWF p t = true) (hg : viewportInside t g) (m : List Nat)
    (hl : showsRow g l) :
    fills (fun x sg => LinePiece t g m l x sg ∧ sg.eof = false) 0
      (viewportSegments t g (m.getD (l - g.vpRow.toNat) 0)) (hTotal t).toNat := by
  obtain ⟨hpre, hpre4, hw, hw4, hsum, hpost, hpost4⟩ := preLen_bounds hwf hg
  have hpos := hl.width_pos hg
  have hbefore := fills_blank (m := m) (x := 0) ⟨le_rfl, rfl⟩ ⟨hpre, hpre4⟩ (by omega)
    fun _ => playedBuf_beside hwf hg m hl (by omega)
  have hafter := fills_blank (m := m) (x := preLen t g + g.vpWidth) ⟨by omega, by omega⟩ ⟨hpost, hpost4⟩ hsum.le
    fun _ => playedBuf_beside hwf hg m hl (by omega)
  rw [Int.zero_add] at hbefore
  rw [hsum] at hafter
  unfold viewportSegments
  rw [List.append_cons]
  exact (hbefore.append (fills_row hwf hg m hl)).append hafter

/-- Every line is filled from its first place to its last. -/
theorem fills_lineSegments (hwf : timingsWF p t = true) (hg : viewportInside t g) (m : List Nat) (l : Nat) :
    fills (fun x sg => LinePiece t g m l x sg ∧ sg.eof = false) 0 (lineSegments t g m l) (hTotal t).toNat := by
  obtain ⟨-, -, ht, ht4, -⟩ := timingsWF_arith hwf
  have hline := viewportLine_eq hg.rowsVisible l
  unfold lineSegments
  by_cases hl : showsRow g l
  · rw [hline.trans (if_pos hl)]
    exact fills_viewportSegments hwf hg m hl
  · rw [hline.trans (if_neg hl)]
    have hblank := fills_blank (m := m) (x := 0) ⟨le_rfl, rfl⟩ ⟨ht.le, ht4⟩ (Int.zero_add _).le
      fun _ => playedBuf_other hwf hg m hl 0
    rwa [if_pos ht, Int.zero_add] at hblank

end

/-! ### The mark of a line's last segment (R135) -/

theorem LinePiece.withEof {t : Timings} {g : Geometry} {m : List Nat} {l x : Nat} {sg : Segment}
    (h : LinePiece t g m l x sg) (e : Bool) : LinePiece t g m l x { sg with eof := e } := by
  obtain ⟨hpos, hlen, hstart, hinside, hbuf, hsource⟩ := h
  exact ⟨hpos, hlen, hstart, hinside, hbuf, hsource⟩

/-- The mark stands on the segment that ends the line, and changes nothing else. -/
theorem fills_markLast {t : Timings} {g : Geometry} {m : List Nat} {l x y : Nat} {segs : List Segment}
    (h : fills (fun x sg => LinePiece t g m l x sg ∧ sg.eof = false) x segs y) :
    fills (fun x sg => LinePiece t g m l x sg ∧ (sg.eof = true ↔ x + sg.length = y)) x (markLast segs) y := by
  induction segs generalizing x with
  | nil => exact h
  | cons a segs ih =>
    obtain ⟨⟨hpiece, he⟩, hrest⟩ := h
    cases segs with
    | nil => exact ⟨⟨hpiece.withEof true, fun _ => hrest, fun _ => rfl⟩, hrest⟩
    | cons c segs =>
      refine ⟨⟨hpiece, ?_⟩, ih hrest⟩
      have hsum := hrest.sum_length
      obtain ⟨⟨hc, -⟩, -⟩ := hrest
      have hpos := hc.pos
      rw [List.map_cons, List.sum_cons] at hsum
      simp only [he, Bool.false_eq_true, false_iff]
      omega

/-- The segment ends the last repetition of the line before the first Sync line. -/
def endsFrame (t : Timings) (l r x : Nat) (sg : Segment) : Prop :=
  (l : Int) = eofLine t ∧ r + 1 = t.scanCount ∧ x + sg.length = (hTotal t).toNat

theorem fills_scanSegments {p : Params} {t : Timings} {g : Geometry} (hwf : timingsWF p t = true)
    (hg : viewportInside t g) (m : List Nat) (l r : Nat) :
    fills (fun x sg => LinePiece t g m l x sg ∧ (sg.eof = true ↔ endsFrame t l r x sg)) 0
      (scanSegments t g m l r) (hTotal t).toNat := by
  have hline := fills_lineSegments hwf hg m l
  unfold scanSegments endsFrame
  split
  · rename_i hlast
    obtain ⟨hl, hr⟩ := hlast
    simpa only [hl, hr, true_and] using fills_markLast hline
  · rename_i hlast
    refine hline.shift 0 fun x sg ⟨hpiece, he⟩ => ⟨hpiece, ?_⟩
    rw [he]
    exact ⟨nofun, fun ⟨hl, hr, _⟩ => absurd ⟨hl, hr⟩ hlast⟩

/-! ### The segments of a frame (R135) -/

/-- The segment that starts at place `k` of a frame is one of a repetition of a line. -/
def framePiece (t : Timings) (g : Geometry) (m : List Nat) (k : Nat) (sg : Segment) : Prop :=
  ∃ l r x, r < t.scanCount ∧ k = (l * t.scanCount + r) * (hTotal t).toNat + x
    ∧ LinePiece t g m l x sg ∧ (sg.eof = true ↔ endsFrame t l r x sg)

theorem fills_frameSegments {p : Params} {t : Timings} {g : Geometry} (hwf : timingsWF p t = true)
    (hg : viewportInside t g) (m : List Nat) :
    fills (framePiece t g m) 0 (frameSegments t g m)
      ((vTotal t).toNat * (t.scanCount * (hTotal t).toNat)) := by
  rw [← Nat.zero_add ((vTotal t).toNat * _)]
  refine fills_flatMap_range fun l _ => ?_
  rw [Nat.succ_mul, ← Nat.add_assoc]
  refine fills_flatMap_range fun r hr => ?_
  have h := (fills_scanSegments hwf hg m l r).shift (ok' := framePiece t g m)
    ((l * t.scanCount + r) * (hTotal t).toNat) fun x sg h => ⟨l, r, x, hr, Nat.add_comm _ _, h⟩
  convert h using 1 <;> ring

/-- The descriptors of a frame, line by line (R137). -/
theorem length_lines {t : Timings} {g : Geometry} (h : rowsVisible t g) (k : Nat) :
    ((List.range (g.vpRow.toNat + g.vpHeight.toNat + k)).flatMap fun l =>
        (List.range t.scanCount).flatMap fun _ => lineBufs t g l).length
      = t.scanCount * (g.vpRow.toNat + g.vpHeight.toNat + k + g.vpHeight.toNat * (segmentsPerRow t g - 1)) := by
  induction k with
  | zero => rw [Nat.add_zero, length_linesBefore h le_rfl, Nat.add_sub_cancel_left]
  | succ k ih =>
    rw [← Nat.add_assoc, List.range_succ, List.flatMap_append, List.flatMap_singleton, List.length_append, ih,
      length_flatMap_range_const fun _ => rfl, lineBufs_other h (by omega), ← Nat.mul_add, Nat.add_right_comm]
    rfl

theorem frameSegments_length {t : Timings} {g : Geometry} (h : rowsVisible t g) (hh : 0 ≤ g.vpHeight)
    (hv : t.vVisible ≤ vTotal t) (m : List Nat) : (frameSegments t g m).length = descCount t g := by
  have hplan : (frameSegments t g m).length = ((framePlan t g).map Segment.buf).length := by
    rw [frameSegments_onRow, List.length_map, List.length_map]
  obtain ⟨hrow, hfit⟩ := id h
  obtain ⟨k, hk⟩ := Nat.exists_eq_add_of_le (show g.vpRow.toNat + g.vpHeight.toNat ≤ (vTotal t).toNat by omega)
  rw [hplan, framePlan_map_buf, descCount, hk]
  exact length_lines h k

/-! ### One end of frame (R135) -/

theorem countP_eof_lineSegments (t : Timings) (g : Geometry) (m : List Nat) (l : Nat) :
    (lineSegments t g m l).countP Segment.eof = 0 := by
  unfold lineSegments
  split
  · unfold viewportSegments
    split <;> split <;> rfl
  · rfl

theorem countP_eof_markLast {l : List Segment} (hne : l ≠ []) (h : l.countP Segment.eof = 0) :
    (markLast l).countP Segment.eof = 1 := by
  induction l with
  | nil => exact absurd rfl hne
  | cons a l ih =>
    rw [List.countP_cons] at h
    cases l with
    | nil => rfl
    | cons c l =>
      rw [markLast, List.countP_cons, ih (List.cons_ne_nil _ _) (by omega)]
      omega

theorem countP_eof_scanSegments (t : Timings) (g : Geometry) (m : List Nat) (l r : Nat) :
    (scanSegments t g m l r).countP Segment.eof
      = if (l : Int) = eofLine t ∧ r + 1 = t.scanCount then 1 else 0 := by
  have hline := countP_eof_lineSegments t g m l
  unfold scanSegments
  split
  · exact countP_eof_markLast (lineSegments_ne_nil t g m l) hline
  · exact hline

/-- A sum over `0, …, n - 1` with one term that is not zero. -/
theorem sum_map_range_single {f : Nat → Nat} {n k : Nat} (hk : k < n) (h : ∀ i, i ≠ k → f i = 0) :
    ((List.range n).map f).sum = f k := by
  rw [List.sum_map_eq_nsmul_single k f fun i hi _ => h i hi,
    List.count_eq_one_of_mem List.nodup_range (List.mem_range.2 hk), one_nsmul]

theorem countP_eof_frameSegments {p : Params} {t : Timings} (hwf : timingsWF p t = true) (g : Geometry) (m : List Nat) :
    (frameSegments t g m).countP Segment.eof = 1 := by
  obtain ⟨-, -, -, hlast, hlastLt⟩ := timingsWF_vertical hwf
  obtain ⟨-, -, -, -, -, -, -, -, hscan⟩ := timingsWF_arith hwf
  simp only [frameSegments, List.countP_flatMap, Function.comp_def, countP_eof_scanSegments]
  rw [sum_map_range_single (k := (eofLine t).toNat) (by omega),
    sum_map_range_single (k := t.scanCount - 1) (by omega), if_pos (by omega)]
  · exact fun r hr => if_neg (by omega)
  · exact fun l hl => List.sum_eq_zero fun v hv => by
      obtain ⟨r, -, rfl⟩ := List.mem_map.1 hv
      exact if_neg (by omega)

/-! ### The descriptors of a frame -/

section
variable {t : Timings} {g : Geometry} {b : Bank} {m : List Nat}

theorem linkSegments_map_length (i : Nat) (l : List Segment) :
    (linkSegments b i l).map Desc.length = l.map Segment.length := by
  induction l generalizing i with
  | nil => rfl
  | cons sg l ih => exact congrArg (sg.length :: ·) (ih (i + 1))

theorem linkSegments_countP_eof (i : Nat) (l : List Segment) :
    (linkSegments b i l).countP Desc.eof = l.countP Segment.eof := by
  induction l generalizing i with
  | nil => rfl
  | cons sg l ih => rw [linkSegments, List.countP_cons, List.countP_cons, ih]

theorem chain_getElem?_frame {i : Nat} {d : Desc} (h : (chain t g b m)[i]? = some d) :
    ∃ sg, (frameSegments t g m)[i]? = some sg ∧ d = segmentDesc b (chain t g b m).length i sg := by
  rw [chain, linkSegments_getElem?, Option.map_eq_some_iff] at h
  obtain ⟨sg, hsg, rfl⟩ := h
  exact ⟨sg, hsg, by rw [chain, linkSegments_length, Nat.zero_add, Nat.zero_add]⟩

theorem alignedSize_of_groups {n : Nat} (h : n % 4 = 0) : alignedSize n = n := by
  unfold alignedSize
  omega

/-- The place of a descriptor is the sum of the lengths before it. -/
theorem chain_getElem?_place {p : Params} (hwf : timingsWF p t = true) (hg : viewportInside t g) {i : Nat} {d : Desc}
    (h : (chain t g b m)[i]? = some d) :
    ∃ sg, d = segmentDesc b (chain t g b m).length i sg
      ∧ framePiece t g m (((chain t g b m).take i).map Desc.length).sum sg := by
  obtain ⟨sg, hsg, hd⟩ := chain_getElem?_frame h
  refine ⟨sg, hd, ?_⟩
  have hpiece := (fills_frameSegments hwf hg m).getElem? hsg
  rwa [Nat.zero_add, List.map_take, ← linkSegments_map_length (b := b) 0, ← List.map_take] at hpiece

/-- A descriptor that plays a row plays all of it, from its start (R134). -/
theorem chain_row_desc {p : Params} (hwf : timingsWF p t = true) (hg : viewportInside t g) {i q : Nat} {d : Desc}
    (h : (chain t g b m)[i]? = some d) (hbuf : d.buf = .row q) : d.offset = 0 ∧ (d.length : Int) = g.vpWidth := by
  obtain ⟨sg, rfl, l, r, x, -, -, hpiece, -⟩ := chain_getElem?_place hwf hg h
  rcases hpiece.source with ⟨v, hv, -⟩ | ⟨_, -, hoff, hlen⟩
  · cases hv.symm.trans hbuf
  · exact ⟨hoff, hlen⟩

/-- The row of each viewport line stands where R309 looks for it. -/
theorem chain_getElem?_rowDescIndex {p : Params} (hwf : timingsWF p t = true) (hg : viewportInside t g) {y r : Nat}
    (hy : y < g.vpHeight.toNat) (hr : r < t.scanCount) :
    ∃ d, (chain t g b m)[rowDescIndex t g y r]? = some d ∧ d.buf = .row (m.getD y 0) := by
  have hrow := (framePlan_row_iff hg.rowsVisible (timingsWF_lines hwf).2 _ y).2 ⟨hy, r, hr, rfl⟩
  obtain ⟨⟨buf, off, len, e⟩, hsg, rfl⟩ := Option.map_eq_some_iff.1 hrow
  exact ⟨_, by rw [chain_getElem?, hsg]; rfl, rfl⟩

theorem LinePiece.offset {l x : Nat} {sg : Segment} (h : LinePiece t g m l x sg) :
    sg.offset % 4 = 0 ∧ sg.offset ≤ x := by
  have hx := h.start_groups
  rcases h.source with ⟨_, -, hoff⟩ | ⟨_, -, hoff, -⟩ <;> omega

end

/-! ### From a place of the frame to a place of a line -/

theorem place_div {n h l r x : Nat} (hr : r < n) (hx : x < h) :
    ((l * n + r) * h + x) / h / n = l ∧ ((l * n + r) * h + x) / h % n = r ∧ ((l * n + r) * h + x) % h = x := by
  have hline : ((l * n + r) * h + x) / h = l * n + r := by
    rw [Nat.mul_comm, Nat.mul_add_div (by omega), Nat.div_eq_of_lt hx, Nat.add_zero]
  refine ⟨?_, by rw [hline, Nat.mul_add_mod_of_lt hr], Nat.mul_add_mod_of_lt hx⟩
  rw [hline, Nat.mul_comm, Nat.mul_add_div (by omega), Nat.div_eq_of_lt hr, Nat.add_zero]

/-- What a segment plays, and where the frame ends, by its place in the frame (R124, R134, R135). -/
theorem framePiece.played {p : Params} {t : Timings} {g : Geometry} {m : List Nat} {k : Nat} {sg : Segment}
    (hwf : timingsWF p t = true) (h : framePiece t g m k sg) :
    sg.buf = playedBuf t g m (k / hTotal t / t.scanCount) (k % hTotal t)
      ∧ (∀ v, sg.buf = .blank v → (sg.offset : Int) = k % hTotal t)
      ∧ (sg.eof = true ↔ k / hTotal t / t.scanCount = eofLine t ∧ k / hTotal t % t.scanCount + 1 = t.scanCount
          ∧ k % hTotal t + sg.length = hTotal t) := by
  obtain ⟨-, -, ht, -⟩ := timingsWF_arith hwf
  obtain ⟨l, r, x, hr, rfl, hpiece, he⟩ := h
  have hpos := hpiece.pos
  have hinside := hpiece.inside
  have hH : hTotal t = ((hTotal t).toNat : Int) := (Int.toNat_of_nonneg ht.le).symm
  obtain ⟨hdiv, hrep, hx⟩ := place_div (l := l) hr (show x < (hTotal t).toNat by omega)
  generalize (l * t.scanCount + r) * (hTotal t).toNat + x = k at *
  have hdiv' : (k : Int) / hTotal t / t.scanCount = l := by rw [hH]; exact_mod_cast hdiv
  have hrep' : (k : Int) / hTotal t % t.scanCount = r := by rw [hH]; exact_mod_cast hrep
  have hx' : (k : Int) % hTotal t = x := by rw [hH]; exact_mod_cast hx
  rw [hdiv', hrep', hx']
  refine ⟨hpiece.buf, fun v hv => ?_, he.trans ?_⟩
  · rcases hpiece.source with ⟨_, -, hoff⟩ | ⟨_, hrow, -⟩
    · rw [hoff]
    · cases hrow.symm.trans hv
  · unfold endsFrame
    omega

/-- Settles O52: the segments fill the frame by `fills_frameSegments`, and each descriptor is a segment's. -/
theorem chainPlaysOneFrame : Obligations.ChainPlaysOneFrame := by
  intro p t g b m hwf hw hw4 hh hzero hcol hcol4 hright hrow hfit hm
  have hg : viewportInside t g := ⟨hw, hw4, hh, hzero, hcol, hcol4, hright, hrow, hfit⟩
  refine ⟨?count, ?descs, ?bytes, ?mark, ?rows, ?played⟩
  case count =>
    rw [chain, linkSegments_length]
    exact frameSegments_length hg.rowsVisible hh (timingsWF_lines hwf).2 m
  case descs =>
    intro i d hd
    obtain ⟨sg, rfl, l, r, x, -, -, hpiece, -⟩ := chain_getElem?_place hwf hg hd
    obtain ⟨hoff, hle⟩ := hpiece.offset
    have hinside := hpiece.inside
    obtain ⟨-, -, ht, -⟩ := timingsWF_arith hwf
    refine ⟨rfl, hpiece.pos, hpiece.length_groups, hoff, alignedSize_of_groups hpiece.length_groups, ?_, rfl⟩
    dsimp only [segmentDesc]
    omega
  case bytes =>
    obtain ⟨-, -, ht, -, -, -, -, hv, -⟩ := timingsWF_arith hwf
    have hsum := (fills_frameSegments hwf hg m).sum_length
    rw [Nat.zero_add, ← linkSegments_map_length (b := b) 0] at hsum
    rw [chain, hsum]
    push_cast
    rw [Int.toNat_of_nonneg ht.le, Int.toNat_of_nonneg hv.le]
    ring
  case mark =>
    rw [← List.countP_eq_length_filter, chain, linkSegments_countP_eof]
    exact countP_eof_frameSegments hwf g m
  case rows =>
    intro y r hy hr
    have hy' : y < g.vpHeight.toNat := by omega
    obtain ⟨d, hd, hbuf⟩ := chain_getElem?_rowDescIndex (b := b) (m := m) hwf hg hy' hr
    exact ⟨d, hd, hbuf, chain_row_desc hwf hg hd hbuf⟩
  case played =>
    intro i d hd
    obtain ⟨sg, rfl, hplace⟩ := chain_getElem?_place hwf hg hd
    exact hplace.played hwf

end Sys2Proof.Machine
end

section
/-! PROOFS. Single pixels: SetPixel and SetPixelAt (R252, R253), and ReadPixel (R180). -/

namespace Sys2Proof.Machine

/-! ### Painting one point -/

/-- The law of PaintPix at one point (R178): the law of painting a set, for the set that holds it alone. -/
theorem draw_paintPix_redraws (p : Point) (c : State → Colour) {s : State} (hv : viewportOK s) :
    redraws s (draw (fun h => paintPix h p (c h)) s) s.paint
      fun h => paintedSet h (fun x y => decide (x = p.x ∧ y = p.y)) (c h) := by
  have hset := draw_paintAll_redraws (fun _ => [p]) c (fun _ x y => decide (x = p.x ∧ y = p.y)) hv
    fun x y => by cases p; simp
  simpa only [paintAll_singleton] using hset

/-- Settles O12: both paint their one point, the one with `fg()` and the other with its own colour. -/
theorem pixelsPaintOnePoint : Obligations.PixelsPaintOnePoint := fun p c _ hv =>
  ⟨⟨_, rfl, draw_paintPix_redraws p fg hv⟩, ⟨_, rfl, draw_paintPix_redraws p (fun _ => c) hv⟩⟩

/-! ### Reading a pixel -/

/-- The byte of a pixel, by the row map and the rows alone (R172). -/
theorem rawPixel_eq (s : State) (b : Bank) (x y : Int) :
    rawPixel s b x y =
      if 0 ≤ x ∧ x < s.vpWidth ∧ 0 ≤ y ∧ y < s.vpHeight then
        ((s.rowMap.get b)[y.toNat]?).bind fun p => (s.rows[p]?).bind fun r => r[x.toNat ^^^ 2]?
      else none := by
  have hin : inVP s x y = true ↔ 0 ≤ x ∧ x < s.vpWidth ∧ 0 ≤ y ∧ y < s.vpHeight := by
    simp only [inVP, Bool.and_eq_true, decide_eq_true_eq, and_assoc]
  split
  next h =>
    cases hp : (s.rowMap.get b)[y.toNat]? with
    | none => simp [rawPixel, physAddr, hin.2 h, hp]
    | some p =>
      have ha : physAddr s b x y = some (p, x.toNat ^^^ 2) := by simp [physAddr, hin.2 h, hp]
      rw [rawPixel_of_physAddr ha, Option.bind_some, rowByte]
      cases s.rows[p]? <;> rfl
  next h => exact rawPixel_outside (Bool.eq_false_iff.2 (mt hin.1 h)) b

theorem exec_readPixel (x y : Int) (s : State) : exec (.readPixel x y) s =
    .next { s with ret := .pixel (if s.configured = true then rawPixel s s.drawBank x y else none) } := rfl

/-- A viewport pixel to which a drawing primitive gives a byte holds that byte afterwards. -/
theorem redraws.rawPixel_of_new {s t : State} {pt : Paint} {new : State → Int → Int → Option Byte}
    (h : redraws s t pt new) {ax ay : Int} {v : Byte} (hin : inVP s ax ay = true)
    (hnew : new (hideSprites s) ax ay = some v) : rawPixel t t.drawBank ax ay = some v := by
  obtain ⟨-, hsome⟩ := h
  obtain ⟨hpixels, -⟩ := hsome ⟨ax, ay, hin, by simp [hnew]⟩
  rw [hpixels ax ay hin, hnew, Option.some_or]

/-- A visible point of the set gets the painted colour's byte, the NOT option not set (R177, R178). -/
theorem paintedSet_visible {h : State} {inSet : Int → Int → Bool} {ax ay : Int} (c : Colour)
    (hclip : inClip h ax ay = true) (hset : inSet (ax - h.paint.origin.x) (ay - h.paint.origin.y) = true)
    (hnot : h.paint.invertNot = false) : paintedSet h inSet c ax ay = some (vpByte h c) := by
  simp [paintedSet, paintedByte, hclip, hset, hnot]

/-- Settles O53: the byte by `rawPixel_eq`, and the way back by the law of PaintPix. -/
theorem readPixelReadsBack : Obligations.ReadPixelReadsBack := by
  refine ⟨fun x y s => ?_, fun p c s t hv hconf hnot hclip ht => ?_⟩
  · dsimp only
    rw [exec_readPixel, rawPixel_eq, ← ite_and]
  · cases ht
    have hpainted := paintedSet_visible (h := hideSprites s) (inSet := fun x y => decide (x = p.x ∧ y = p.y)) c
      (by rwa [inClip_hideSprites]) (by simp) (by rwa [hideSprites_paint])
    rw [exec_readPixel, if_pos (by rwa [draw_configured]),
      (draw_paintPix_redraws p (fun _ => c) hv).rawPixel_of_new (inClip_inVP hclip) hpainted,
      vpByte_hideSprites, vpByte]

end Sys2Proof.Machine
end

section
/-! PROOFS. SwapBuffers (R211), the control of execution (R202, R203, R205), and the entry into the vertical-sync
interrupt (R209, R371, R373). -/

namespace Sys2Proof.Machine

/-! ### SwapBuffers (R211) -/

theorem exec_swapBuffers_single {s : State} (hdb : s.doubleBuffered = false) : exec .swapBuffers s = .next s := by
  simp [exec, execSwapBuffers, hdb]

theorem exec_swapBuffers_double {s : State} (hdb : s.doubleBuffered = true) :
    exec .swapBuffers s = .next (flipBanks (gap (showSprites s))) := by
  simp [exec, execSwapBuffers, hdb]

@[simp] theorem Bank.other_other (b : Bank) : b.other.other = b := by cases b <;> rfl

/-- The bank that was drawn on is the visible one after the exchange. -/
theorem visBank_flipBanks {s : State} (hdb : s.doubleBuffered = true) : visBank (flipBanks s) = s.drawBank := by
  simp [visBank, hdb]

theorem flipBanks_moved (s : State) : engineMoved s (flipBanks s) := .refl s

/-- Exchanging the banks changes the banks and the sentinel and nothing else. -/
theorem drawingOnly.flipBanks {s t : State} (h : drawingOnly s t) :
    drawingOnly { s with drawBank := (flipBanks t).drawBank, sentinel := (flipBanks t).sentinel } (flipBanks t) := by
  unfold Machine.drawingOnly at *
  unfold Machine.flipBanks
  rw [h]

theorem ticksOnly.flipBanks {s t : State} (h : ticksOnly s t) :
    ticksOnly { s with drawBank := (flipBanks t).drawBank, sentinel := (flipBanks t).sentinel } (flipBanks t) := by
  unfold ticksOnly at *
  unfold Machine.flipBanks
  rw [h]

/-- Settles O37: SwapBuffers shows the sprites, lets the Engine tick, and exchanges the banks; of these only the first
writes row bytes and sprites. -/
theorem swapBuffersFlips : Obligations.SwapBuffersFlips := by
  refine fun s _ => ⟨exec_swapBuffers_single, fun hdb => ⟨_, exec_swapBuffers_double hdb, ?_⟩⟩
  have hvis : visBank (flipBanks (gap (showSprites s))) = s.drawBank := by
    rw [visBank_flipBanks (by simpa using hdb), gap_drawBank, showSprites_drawBank]
  have hrows : (flipBanks (gap (showSprites s))).rows = (showSprites s).rows := gap_rows _
  have hsprites : (flipBanks (gap (showSprites s))).sprites = (showSprites s).sprites := gap_sprites _
  have hticks := gap_ticksOnly (showSprites s)
  refine ⟨by simp, hvis, ?sentinel, ?shown, hrows, hsprites, ?moved, hticks.flipBanks, ?frame, ?fields, ?only⟩
  case sentinel => rw [hvis]; simp
  case shown => simp [showSprites_spritesHidden]
  case moved => exact (gap_moved _).trans (flipBanks_moved _)
  case frame => rw [hrows]; exact showSprites_rowByte s
  case fields => rw [hsprites]; exact showSprites_same s
  case only => exact ((showSprites_drawingOnly s).trans hticks.drawingOnly).flipBanks

/-! ### Suspend, Resume and EnableBackgroundExecution (R202, R203, R205) -/

theorem exec_suspend (s : State) : exec .suspend s = .next { s with suspendCount := s.suspendCount + 1 } := rfl

theorem exec_resume_suspended {s : State} {n : Nat} (h : s.suspendCount = n + 1) :
    exec .resume s = .next { s with suspendCount := n } := by
  simp [exec, execResume, h]

theorem exec_resume_unbalanced {s : State} (h : s.suspendCount = 0) :
    exec .resume s = .next (raise .unbalancedResume s) := by
  simp [exec, execResume, h]

theorem exec_enableBackgroundExecution (on : Bool) (s : State) :
    exec (.enableBackgroundExecution on) s = .next { s with backgroundExec := on } := rfl

/-- Settles O40: each operation by its equation, Resume by whether a suspension is left to take back. -/
theorem executionControl : Obligations.ExecutionControl := fun s on =>
  ⟨exec_suspend s, fun _ => exec_resume_suspended, exec_resume_unbalanced, exec_enableBackgroundExecution on s⟩

/-! ### The entry into the interrupt (R209, R371) -/

theorem isrEnterable_iff (s : State) : isrEnterable s = true ↔
    s.vsIntPending = true ∧ s.configured = true ∧ s.engineRunning = true ∧ s.suspendCount = 0
      ∧ s.backgroundExec = true ∧ s.inExecutor = false := by
  simp [isrEnterable, vsIntEnabled, and_assoc]

/-- Settles O42: the interrupt can be entered, and only the Engine's turn comes before that. -/
theorem interruptEntry : Obligations.InterruptEntry := by
  intro s hpending hconf hrun hsuspend hbg hx
  have henter : isrEnterable s = true := (isrEnterable_iff s).2 ⟨hpending, hconf, hrun, hsuspend, hbg, hx⟩
  exact ⟨step_of_engineTurn, fun he => ⟨reschedule (isrEntry s), step_of_entry he henter, rfl⟩⟩

end Sys2Proof.Machine
end

section
/-! PROOFS. The paint-state primitives (R230 to R237). -/

namespace Sys2Proof.Machine

/-! ### The fields of a record by its bytes (R84) -/

/-- A colour field is the low six bits of its byte. -/
theorem colAt_eq_recByte (P : Record) (k : Nat) : colAt P k = (recByte P k).extractLsb' 0 6 := by
  apply BitVec.eq_of_getLsbD_eq
  intro i hi
  have hbyte : i < 8 := by omega
  simp [colAt, recByte, hi, hbyte]

/-- Two bytes, the low one first, are the sixteen bits from the low one on. -/
theorem le16_eq_bitsAt (P : Record) (k : Nat) : le16 P k = bitsAt 16 P k := by
  apply BitVec.eq_of_getLsbD_eq
  intro i hi
  simp only [le16, recByte, bitsAt, BitVec.getLsbD_append, BitVec.getLsbD_extractLsb', hi, decide_true, Bool.true_and]
  by_cases hlow : i < 8
  · simp [hlow]
  · have hplace : 8 * (k + 1) + (i - 8) = 8 * k + i := by omega
    simp [hlow, hplace, show i - 8 < 8 by omega]

theorem s16At_eq_le16 (P : Record) (k : Nat) : s16At P k = (le16 P k).toInt := by
  rw [s16At_eq, le16_eq_bitsAt]

theorem pointAt_eq_lePoint (P : Record) (k : Nat) : pointAt P k = lePoint P k := by
  simp only [pointAt, lePoint, s16At_eq_le16]

theorem rectAt_eq_leRect (P : Record) (k : Nat) : rectAt P k = leRect P k := by
  simp only [rectAt, leRect, s16At_eq_le16]

/-! ### The tags of the paint-state primitives (R85) -/

section
variable {P : Record}

theorem decodePrim_setPenColor (htag : recByte P 0 = 0x00) : decodePrim P = .ok (.setPenColor (colAt P 4)) := by
  simp [decodePrim, htag]

theorem decodePrim_setBrushColor (htag : recByte P 0 = 0x01) :
    decodePrim P = .ok (.setBrushColor (colAt P 4)) := by
  simp [decodePrim, htag]

theorem decodePrim_moveTo (htag : recByte P 0 = 0x04) : decodePrim P = .ok (.moveTo (lePoint P 4)) := by
  simp [decodePrim, htag, pointAt_eq_lePoint]

theorem decodePrim_setGlyphOptions (htag : recByte P 0 = 0x0F) :
    decodePrim P = .ok (.setGlyphOptions ((recByte P 4).extractLsb' 0 7)) := by
  simp [decodePrim, htag]

theorem decodePrim_setPaintOptions (htag : recByte P 0 = 0x10) :
    decodePrim P = .ok (.setPaintOptions ((recByte P 4).getLsbD 0) ((recByte P 4).getLsbD 1)) := by
  simp [decodePrim, htag]

theorem decodePrim_setOrigin (htag : recByte P 0 = 0x1A) : decodePrim P = .ok (.setOrigin (lePoint P 4)) := by
  simp [decodePrim, htag, pointAt_eq_lePoint]

theorem decodePrim_setClippingRect (htag : recByte P 0 = 0x1B) :
    decodePrim P = .ok (.setClippingRect (leRect P 4)) := by
  simp [decodePrim, htag, rectAt_eq_leRect]

end

/-! ### Colours (R230, R231) -/

/-- Settles O8: the colour field of the record is bits 5:0 of the payload byte. -/
theorem setColours : Obligations.SetColours := fun P _ =>
  ⟨fun htag => ⟨colAt P 4, decodePrim_setPenColor htag, colAt_eq_recByte P 4, rfl⟩,
   fun htag => ⟨colAt P 4, decodePrim_setBrushColor htag, colAt_eq_recByte P 4, rfl⟩⟩

/-! ### Points and the clipping rectangle (R232, R236, R237) -/

/-- Visible is what lies in the viewport and in the clipping rectangle, its corners in any order (R174). -/
theorem inClip_iff {s : State} {ax ay : Int} :
    inClip s ax ay = true ↔ inVP s ax ay = true ∧ inRect s.paint.clipRect ax ay = true := by
  simp only [inClip, inRect, Bool.and_eq_true, and_assoc]

theorem inClip_eq_false_of_disjoint {s : State}
    (h : ∀ ax ay, inVP s ax ay = true → inRect s.paint.clipRect ax ay = false) (ax ay : Int) :
    inClip s ax ay = false := by
  rw [← Bool.not_eq_true]
  intro hclip
  obtain ⟨hvp, hrect⟩ := inClip_iff.1 hclip
  rw [h ax ay hvp] at hrect
  cases hrect

/-- Settles O9: the operand is read little-endian and stored; translating adds the stored origin, and visible is
only what lies in both rectangles. -/
theorem setPointsAndClip : Obligations.SetPointsAndClip := by
  intro P s
  refine ⟨fun htag => ⟨decodePrim_moveTo htag, rfl⟩,
    fun htag => ⟨decodePrim_setOrigin htag, _, rfl, rfl, fun p => rfl⟩,
    fun htag => ⟨decodePrim_setClippingRect htag, _, rfl, rfl, ?clip⟩⟩
  case clip => exact fun hmiss => inClip_eq_false_of_disjoint hmiss

/-! ### Options (R233, R234) -/

/-- Bit 7 of the options byte is no glyph option (R86). -/
theorem glyphOpts_low (b : Byte) : glyphOpts ((b.extractLsb' 0 7).setWidth 8) = glyphOpts b := by
  simp [glyphOpts]

theorem exec_setGlyphOptions (b : Byte) (s : State) : exec (.setGlyphOptions (b.extractLsb' 0 7)) s =
    .next { s with paint := { s.paint with glyphOpt := glyphOpts b } } := by
  rw [← glyphOpts_low b]
  rfl

/-- Settles O10: the byte decodes to its low seven bits, and no option is read from the eighth. -/
theorem setOptions : Obligations.SetOptions := fun P s =>
  ⟨fun htag => ⟨decodePrim_setGlyphOptions htag, exec_setGlyphOptions (recByte P 4) s⟩,
   fun htag => ⟨decodePrim_setPaintOptions htag, fun _ _ => rfl⟩⟩

/-! ### The scrolling region (R235) -/

theorem clamp_bounds (v : Int) {lo hi : Int} (h : lo ≤ hi) : lo ≤ clamp v lo hi ∧ clamp v lo hi ≤ hi :=
  ⟨le_max_left .., max_le h (min_le_left ..)⟩

theorem clamp_mono {v v' : Int} (h : v ≤ v') (lo hi : Int) : clamp v lo hi ≤ clamp v' lo hi :=
  max_le_max_left lo (min_le_min_left hi h)

theorem clampRegion_empty {w h : Int} (hempty : w = 0 ∨ h = 0) (r : Rect) : clampRegion w h r = ⟨0, 0, -1, -1⟩ :=
  if_pos hempty

theorem clampRegion_nonempty {w h : Int} (hw : 0 < w) (hh : 0 < h) (r : Rect) : clampRegion w h r =
    ⟨clamp (normRect r).x1 0 (w - 1), clamp (normRect r).y1 0 (h - 1),
     clamp (normRect r).x2 0 (w - 1), clamp (normRect r).y2 0 (h - 1)⟩ :=
  if_neg (by omega)

/-- The corners of a clamped pair keep their order and lie in the range. -/
theorem clamp_pair_inside {n : Int} (hn : 0 < n) (a b : Int) :
    0 ≤ clamp (min a b) 0 (n - 1) ∧ clamp (min a b) 0 (n - 1) ≤ clamp (max a b) 0 (n - 1)
      ∧ clamp (max a b) 0 (n - 1) < n := by
  have hn' : 0 ≤ n - 1 := by omega
  exact ⟨(clamp_bounds _ hn').1, clamp_mono min_le_max 0 (n - 1), Int.lt_of_le_sub_one (clamp_bounds _ hn').2⟩

/-- Settles O11: on a viewport with pixels every coordinate of the normalised rectangle is clamped to its axis. -/
theorem setScrollingRegionClamps : Obligations.SetScrollingRegionClamps := by
  intro r s _ _
  refine ⟨clampRegion s.vpWidth s.vpHeight r, rfl, fun hempty => clampRegion_empty hempty r, fun hw hh => ?_⟩
  obtain ⟨hx1, hx, hx2⟩ := clamp_pair_inside hw r.x1 r.x2
  obtain ⟨hy1, hy, hy2⟩ := clamp_pair_inside hh r.y1 r.y2
  rw [clampRegion_nonempty hw hh]
  exact ⟨rfl, rfl, rfl, rfl, hx1, hx, hx2, hy1, hy, hy2⟩

end Sys2Proof.Machine
end

section
/-! PROOFS. The shapes that paint a set of points: LineTo (R254), FillRect and DrawRect (R255 to R257), FillEllipse
and DrawEllipse (R258 to R260). -/

namespace Sys2Proof.Machine

/-- Settles O13: the law of painting the walk's points, then the move of `penPos`. -/
theorem lineToPaintsWalk : Obligations.LineToPaintsWalk := by
  intro p s hv
  have hwalk : redraws s (draw (fun h => paintAll h (linePixels h.paint.penPos p) (fg h)) s) s.paint
      fun h => paintedSet h (fun x y => decide (⟨x, y⟩ ∈ linePixels s.paint.penPos p)) (fg h) :=
    draw_paintAll_redraws _ fg (fun _ x y => decide (⟨x, y⟩ ∈ linePixels s.paint.penPos p)) hv fun x y => by simp
  refine ⟨_, rfl, ?_⟩
  rw [draw_paint]
  exact hwalk.setPaint _

theorem mem_outlinePixels {r : Rect} {x y : Int} : (⟨x, y⟩ : Point) ∈ outlinePixels r ↔
    (inRect r x y && (x == r.x1 || x == r.x2 || y == r.y1 || y == r.y2)) = true := by
  simp only [outlinePixels, List.mem_filter, mem_rectPixels, normRect, Bool.and_eq_true, Bool.or_eq_true, beq_iff_eq]
  refine and_congr_right fun hin => ?_
  simp only [inRect, Bool.and_eq_true, decide_eq_true_eq] at hin
  omega

/-- Settles O15: the law of painting the points of the rectangle and of its outline. -/
theorem rectanglesPaint : Obligations.RectanglesPaint := fun r _ hv =>
  ⟨⟨_, rfl, draw_paintAll_redraws (fun _ => rectPixels r) bg (fun _ => inRect r) hv fun _ _ => mem_rectPixels⟩,
    ⟨_, rfl, draw_paintAll_redraws (fun _ => outlinePixels r) fg
      (fun _ x y => inRect r x y && (x == r.x1 || x == r.x2 || y == r.y1 || y == r.y2)) hv
      fun _ _ => mem_outlinePixels⟩⟩

/-- Settles O16: the law of painting the fill and the outline about `penPos`, which hiding leaves alone. -/
theorem ellipsesPaint : Obligations.EllipsesPaint := fun w k s hv =>
  ⟨⟨_, rfl, draw_paintAll_redraws _ bg (fun _ x y => decide (⟨x, y⟩ ∈ ellipseFill s.paint.penPos w k)) hv
      fun x y => by simp⟩,
    ⟨_, rfl, draw_paintAll_redraws _ fg (fun _ x y => decide (⟨x, y⟩ ∈ ellipseOutline s.paint.penPos w k)) hv
      fun x y => by simp⟩⟩

end Sys2Proof.Machine
end

section
/-! PROOFS. What depends on the pixels that stand: InvertRect and SwapFGBG (R262, R263), and CopyRect (R264). -/

namespace Sys2Proof.Machine

/-! ### Recolouring a rectangle -/

/-- The law of recolouring a rectangle: `pix` writes to each of its visible pixels the byte of `new`, if any. -/
theorem draw_clippedPixels_redraws (r : Rect) (pix : State → Point → List Write)
    (new : State → Int → Int → Option Byte) {s : State} (hv : viewportOK s)
    (hpix : ∀ a : Point,
      pix (hideSprites s) a = (new (hideSprites s) a.x a.y).elim [] (rawWrite (hideSprites s) a.x a.y)) :
    redraws s (draw (fun h => (clippedPixels h r).flatMap (pix h)) s) s.paint fun h ax ay =>
      if inClip h ax ay && inRect r (ax - s.paint.origin.x) (ay - s.paint.origin.y) then new h ax ay else none := by
  refine draw_redraws _ _ hv (fun w hw => ?sound) (fun ax ay v _ hn w hw => ?complete)
  case sound =>
    obtain ⟨⟨ax, ay⟩, hp, hw⟩ := List.mem_flatMap.1 hw
    rw [mem_clipped, hideSprites_paint, ← Bool.and_eq_true] at hp
    rw [hpix] at hw
    cases hn : new (hideSprites s) ax ay with
    | none => simp [hn] at hw
    | some v => exact ⟨ax, ay, v, by rw [if_pos hp, hn], by simpa [hn] using hw⟩
  case complete =>
    obtain ⟨hp, hn⟩ := Option.ite_none_right_eq_some.1 hn
    refine List.mem_flatMap.2 ⟨⟨ax, ay⟩, ?_, by rw [hpix, hn]; exact hw⟩
    rwa [mem_clipped, hideSprites_paint, ← Bool.and_eq_true]

/-- InvertRect writes to a pixel its inverted colour (R262). -/
theorem invertPix_eq (h : State) (ax ay : Int) : invertPix h ax ay =
    ((getPix h ax ay).map fun c => vpByte h (c ^^^ 0b111111#6)).elim [] (rawWrite h ax ay) := by
  unfold invertPix
  cases getPix h ax ay <;> rfl

/-- The byte that SwapFGBG gives to a pixel of colour `c` under the paint state `pt` (R263). -/
def swappedByte (h : State) (pt : Paint) (c : Colour) : Option Byte :=
  if c = pt.penColor then some (vpByte h pt.brushColor)
  else if c = pt.brushColor then some (vpByte h pt.penColor)
  else none

theorem swapPix_eq (h : State) (a : Point) : swapPix h a =
    ((getPix h a.x a.y).bind (swappedByte h h.paint)).elim [] (rawWrite h a.x a.y) := by
  unfold swapPix swappedByte
  cases getPix h a.x a.y with
  | none => rfl
  | some c =>
    dsimp only [Option.bind_some]
    split
    · rfl
    · split <;> rfl

/-- Settles O19: both by the law of recolouring. -/
theorem recolourRectangles : Obligations.RecolourRectangles := fun r s hv =>
  ⟨⟨_, rfl, draw_clippedPixels_redraws r (fun h a => invertPix h a.x a.y)
      (fun h ax ay => (getPix h ax ay).map fun c => vpByte h (c ^^^ 0b111111#6)) hv fun _ => invertPix_eq ..⟩,
    ⟨_, rfl, draw_clippedPixels_redraws r swapPix (fun h ax ay => (getPix h ax ay).bind (swappedByte h s.paint)) hv
      fun _ => by rw [swapPix_eq, hideSprites_paint]⟩⟩

/-! ### CopyRect -/

/-- The absolute place that CopyRect gives to the logical source pixel `p` (R264). -/
def copyTarget (h : State) (r : Rect) (d p : Point) : Point :=
  absPoint h ⟨d.x + p.x - (normRect r).x1, d.y + p.y - (normRect r).y1⟩

theorem mem_copyPix {h : State} {r : Rect} {d p : Point} {w : Write} : w ∈ copyPix h r d p ↔
    ∃ c, getPix h (absPoint h p).x (absPoint h p).y = some c
      ∧ inClip h (copyTarget h r d p).x (copyTarget h r d p).y = true
      ∧ w ∈ putPix h (copyTarget h r d p).x (copyTarget h r d p).y c := by
  unfold copyPix
  dsimp only
  cases getPix h (absPoint h p).x (absPoint h p).y with
  | none => simp
  | some c => simp only [List.mem_ite_nil_right, Option.some.injEq, exists_eq_left', copyTarget]

/-- Each place is the target of one source pixel. -/
theorem copyTarget_eq_iff {h : State} {r : Rect} {d : Point} {x y ax ay : Int} :
    copyTarget h r d ⟨x, y⟩ = ⟨ax, ay⟩ ↔
      ax - h.paint.origin.x - d.x + min r.x1 r.x2 = x ∧ ay - h.paint.origin.y - d.y + min r.y1 r.y2 = y := by
  simp only [copyTarget, absPoint, normRect, Point.mk.injEq]
  omega

/-- Settles O20: all sources are read from the state with the sprites hidden, and each place has one source. -/
theorem copyRectIsOverlapSafe : Obligations.CopyRectIsOverlapSafe := by
  intro r d s hv
  refine ⟨_, rfl, draw_redraws _ _ hv (fun w hw => ?sound) (fun ax ay v _ hn w hw => ?complete)⟩
  case sound =>
    obtain ⟨⟨x, y⟩, hp, hw⟩ := List.mem_flatMap.1 hw
    obtain ⟨c, hc, hclip, hw⟩ := mem_copyPix.1 hw
    obtain ⟨ax, ay, hplace⟩ : ∃ ax ay, copyTarget (hideSprites s) r d ⟨x, y⟩ = ⟨ax, ay⟩ := ⟨_, _, rfl⟩
    obtain ⟨hx, hy⟩ := copyTarget_eq_iff.1 hplace
    rw [hplace] at hclip hw
    rw [hideSprites_paint] at hx hy
    refine ⟨ax, ay, vpByte (hideSprites s) c, ?_, hw⟩
    simp only [absPoint, hideSprites_paint] at hc
    simp only [hx, hy, hclip, mem_rectPixels.1 hp, hc, Bool.and_self, if_true, Option.map_some]
  case complete =>
    obtain ⟨hp, hn⟩ := Option.ite_none_right_eq_some.1 hn
    obtain ⟨c, hc, rfl⟩ := Option.map_eq_some_iff.1 hn
    obtain ⟨hclip, hin⟩ := Bool.and_eq_true_iff.1 hp
    refine List.mem_flatMap.2 ⟨_, mem_rectPixels.2 hin, mem_copyPix.2 ⟨c, ?_⟩⟩
    rw [copyTarget_eq_iff.2 (by rw [hideSprites_paint]; exact ⟨rfl, rfl⟩), absPoint, hideSprites_paint]
    exact ⟨hc, hclip, hw⟩

end Sys2Proof.Machine
end

section
/-! PROOFS. The walk of a line (R251). -/

namespace Sys2Proof.Machine

/-! ### Bresenham's error

With `X` and `Y` the lengths of the sides and `u` and `v` the columns and rows still to go, the walk's error term is
`X - Y - e` for `e = v * X - u * Y`, which measures how far the pixel lies off the line. -/

/-- The pixel lies inside the box of the line, and at most half a pixel off it. -/
structure NearLine (X Y u v : Int) : Prop where
  u_nonneg : 0 ≤ u
  u_le : u ≤ X
  v_nonneg : 0 ≤ v
  v_le : v ≤ Y
  low : -max X Y ≤ 2 * (v * X - u * Y)
  high : 2 * (v * X - u * Y) ≤ max X Y

theorem NearLine.start {X Y : Int} (hX : 0 ≤ X) (hY : 0 ≤ Y) : NearLine X Y X Y :=
  ⟨hX, le_rfl, hY, le_rfl, by rw [mul_comm X Y]; omega, by rw [mul_comm X Y]; omega⟩

/-- One move of the walk, in columns and rows still to go: along the longer side by one, along the other by one at
most. -/
structure LineMove (X Y : Int) (p q : Int × Int) : Prop where
  column : q.1 = p.1 - 1 ∨ (q.1 = p.1 ∧ X < Y)
  row : q.2 = p.2 - 1 ∨ (q.2 = p.2 ∧ Y < X)

/-- The walk moves along a side only where there is way to go along it. -/
theorem pos_of_stepTest {X Y u v : Int} (hX : 0 ≤ X) (hu : 0 ≤ u) (hv : 0 ≤ v) (hvY : v ≤ Y)
    (hend : ¬(u = 0 ∧ v = 0)) (htest : 2 * (v * X - u * Y) ≤ 2 * X - Y) : 0 < u := by
  by_contra hu0
  obtain rfl : u = 0 := by omega
  have hXv : X ≤ v * X := le_mul_of_one_le_left hX (by omega)
  omega

/-- The columns to go after a step: the error term decides whether the walk moves along its row. -/
def nextColumns (X Y u v : Int) : Int := if 2 * (v * X - u * Y) ≤ 2 * X - Y then u - 1 else u

/-- The rows to go after a step: the error term decides whether the walk moves along its column. -/
def nextRows (X Y u v : Int) : Int := if X - 2 * Y ≤ 2 * (v * X - u * Y) then v - 1 else v

theorem error_next (X Y u v : Int) : nextRows X Y u v * X - nextColumns X Y u v * Y =
    v * X - u * Y - (if X - 2 * Y ≤ 2 * (v * X - u * Y) then X else 0)
      + (if 2 * (v * X - u * Y) ≤ 2 * X - Y then Y else 0) := by
  unfold nextRows nextColumns
  split <;> split <;> ring

/-- The tests of the two sides are made on their own, and together they keep the walk within half a pixel. -/
theorem NearLine.next {X Y u v : Int} (h : NearLine X Y u v) (hend : ¬(u = 0 ∧ v = 0)) :
    NearLine X Y (nextColumns X Y u v) (nextRows X Y u v)
      ∧ LineMove X Y (u, v) (nextColumns X Y u v, nextRows X Y u v) := by
  obtain ⟨hu, huX, hv, hvY, hlow, hhigh⟩ := h
  have hcol : 2 * (v * X - u * Y) ≤ 2 * X - Y → 0 < u := pos_of_stepTest (by omega) hu hv hvY hend
  have hrow : X - 2 * Y ≤ 2 * (v * X - u * Y) → 0 < v := fun htest =>
    pos_of_stepTest (u := v) (v := u) (X := Y) (Y := X) (by omega) hv hu huX (by omega) (by omega)
  have herr := error_next X Y u v
  unfold nextColumns nextRows at *
  generalize v * X - u * Y = e at *
  exact
    ⟨{ u_nonneg := by split <;> omega
       u_le := by split <;> omega
       v_nonneg := by split <;> omega
       v_le := by split <;> omega
       low := by rw [herr]; split <;> split <;> omega
       high := by rw [herr]; split <;> split <;> omega },
     { column := by dsimp only; split <;> omega
       row := by dsimp only; split <;> omega }⟩

/-! ### The walk as a list of moves -/

/-- A walk from `u` columns and `v` rows to go, to the end of the line, as the list of what is to go at each pixel. -/
inductive LineRun (X Y : Int) : Int → Int → List (Int × Int) → Prop where
  | stop : LineRun X Y 0 0 [(0, 0)]
  | move {u v u' v' : Int} {l : List (Int × Int)} : LineMove X Y (u, v) (u', v') → 0 ≤ u' → 0 ≤ v' →
      LineRun X Y u' v' l → LineRun X Y u v ((u, v) :: l)

section
variable {X Y u v : Int} {l : List (Int × Int)}

theorem LineRun.head (h : LineRun X Y u v l) : l.head? = some (u, v) := by
  cases h <;> rfl

theorem LineRun.end_mem (h : LineRun X Y u v l) : (0, 0) ∈ l := by
  induction h with
  | stop => exact List.mem_singleton_self _
  | move _ _ _ _ ih => exact List.mem_cons_of_mem _ ih

/-- One pixel for each unit of the longer side. -/
theorem LineRun.length (h : LineRun X Y u v l) :
    (Y ≤ X → (l.length : Int) = u + 1) ∧ (X ≤ Y → (l.length : Int) = v + 1) := by
  induction h with
  | stop => simp
  | move hm _ _ _ ih =>
    obtain ⟨hcol, hrow⟩ := hm
    simp only [List.length_cons, Nat.cast_add, Nat.cast_one]
    omega

theorem LineRun.bounds (h : LineRun X Y u v l) : ∀ p ∈ l, 0 ≤ p.1 ∧ p.1 ≤ u ∧ 0 ≤ p.2 ∧ p.2 ≤ v := by
  induction h with
  | stop => simp
  | move hm hu hv _ ih =>
    obtain ⟨hcol, hrow⟩ := hm
    intro p hp
    rcases List.mem_cons.1 hp with rfl | hp
    · dsimp only at *; omega
    · have := ih p hp; dsimp only at *; omega

theorem LineRun.isChain (h : LineRun X Y u v l) : l.IsChain (LineMove X Y) := by
  induction h with
  | stop => exact .singleton _
  | move hm _ _ hrun ih =>
    exact List.isChain_cons.2 ⟨fun q hq => by rw [hrun.head] at hq; cases hq; exact hm, ih⟩

theorem LineRun.move_at (h : LineRun X Y u v l) {k : Nat} {p q : Int × Int} (hp : l[k]? = some p)
    (hq : l[k + 1]? = some q) : LineMove X Y p q := by
  obtain ⟨_, rfl⟩ := List.getElem?_eq_some_iff.1 hp
  obtain ⟨hk, rfl⟩ := List.getElem?_eq_some_iff.1 hq
  exact h.isChain.getElem k hk

end

/-- The pixel of a line to `b` with the columns and the rows of `q` to go, walked in the directions `sx` and `sy`. -/
def pixelToGo (b : Point) (sx sy : Int) (q : Int × Int) : Point := ⟨b.x - sx * q.1, b.y - sy * q.2⟩

theorem pixelToGo_eq_end {b : Point} {sx sy u v : Int} (hsx : sx ≠ 0) (hsy : sy ≠ 0) :
    (b.x - sx * u = b.x ∧ b.y - sy * v = b.y) ↔ (u = 0 ∧ v = 0) := by
  simp [hsx, hsy]

/-- The loop of R251 makes such a walk. -/
theorem lineWalk_run (b : Point) {X Y sx sy : Int} (hsx : sx ≠ 0) (hsy : sy ≠ 0) (n : Nat) (u v : Int)
    (h : NearLine X Y u v) (hn : u + v ≤ n) :
    ∃ l, LineRun X Y u v l ∧ lineWalk b.x b.y X (-Y) sx sy n (b.x - sx * u) (b.y - sy * v)
      (X - Y - (v * X - u * Y)) = l.map (pixelToGo b sx sy) := by
  induction n generalizing u v with
  | zero =>
    have := h.u_nonneg
    have := h.v_nonneg
    obtain ⟨rfl, rfl⟩ : u = 0 ∧ v = 0 := by omega
    exact ⟨_, .stop, rfl⟩
  | succ n ih =>
    have htest := pixelToGo_eq_end (b := b) (u := u) (v := v) hsx hsy
    rw [lineWalk]
    by_cases hend : u = 0 ∧ v = 0
    · rw [if_pos (htest.2 hend)]
      obtain ⟨rfl, rfl⟩ := hend
      exact ⟨_, .stop, rfl⟩
    · rw [if_neg (mt htest.1 hend)]
      obtain ⟨hnear, hmove⟩ := h.next hend
      have hless : nextColumns X Y u v + nextRows X Y u v ≤ n := by
        obtain ⟨hcol, hrow⟩ := hmove
        dsimp only at hcol hrow
        omega
      obtain ⟨l, hrun, hl⟩ := ih _ _ hnear hless
      refine ⟨_, .move hmove hnear.u_nonneg hnear.v_nonneg hrun, ?_⟩
      rw [List.map_cons, ← hl, error_next]
      have hcol : -Y ≤ 2 * (X - Y - (v * X - u * Y)) ↔ 2 * (v * X - u * Y) ≤ 2 * X - Y := by omega
      have hrow : 2 * (X - Y - (v * X - u * Y)) ≤ X ↔ X - 2 * Y ≤ 2 * (v * X - u * Y) := by omega
      simp only [hcol, hrow, nextColumns, nextRows]
      congr 2
      · split <;> ring
      · split <;> ring
      · split <;> split <;> ring

/-! ### The axes -/

/-- The direction of the walk along one axis (R251). -/
def lineDir (a b : Int) : Int := if a < b then 1 else -1

theorem lineDir_ne_zero (a b : Int) : lineDir a b ≠ 0 := by
  unfold lineDir; split <;> decide

theorem sub_lineDir_mul (a b : Int) : b - lineDir a b * |b - a| = a := by
  unfold lineDir; split <;> grind

theorem sub_lineDir_mul_between {a b u : Int} (h0 : 0 ≤ u) (hu : u ≤ |b - a|) :
    min a b ≤ b - lineDir a b * u ∧ b - lineDir a b * u ≤ max a b := by
  unfold lineDir; split <;> grind

/-- Where there is way to go, the walk's direction is the line's. -/
theorem lineDir_eq_sign {a b : Int} (h : 0 < |b - a|) : lineDir a b = Int.sign (b - a) := by
  have hne := abs_pos.1 h
  unfold lineDir
  split
  · exact (Int.sign_eq_one_of_pos (by omega)).symm
  · exact (Int.sign_eq_neg_one_of_neg (by omega)).symm

/-- A move along one axis by what is to go, read in coordinates: one towards the end, or none along the shorter side. -/
theorem move_coordinates {a b u u' other : Int} (hu' : 0 ≤ u') (hu : u ≤ |b - a|)
    (h : u' = u - 1 ∨ (u' = u ∧ |b - a| < other)) :
    b - lineDir a b * u' = b - lineDir a b * u + Int.sign (b - a)
      ∨ (b - lineDir a b * u' = b - lineDir a b * u ∧ |b - a| < other) := by
  rcases h with rfl | ⟨rfl, hlt⟩
  · rw [← lineDir_eq_sign (by omega)]
    exact .inl (by ring)
  · exact .inr ⟨rfl, hlt⟩

/-- A line is a walk over the whole of both its sides. -/
theorem linePixels_run (a b : Point) : ∃ l, LineRun |b.x - a.x| |b.y - a.y| |b.x - a.x| |b.y - a.y| l
    ∧ linePixels a b = l.map (pixelToGo b (lineDir a.x b.x) (lineDir a.y b.y)) := by
  obtain ⟨l, hrun, hl⟩ := lineWalk_run b (lineDir_ne_zero a.x b.x) (lineDir_ne_zero a.y b.y)
    (|b.x - a.x| + |b.y - a.y|).toNat _ _ (.start (abs_nonneg _) (abs_nonneg _)) (Int.self_le_toNat _)
  refine ⟨l, hrun, ?_⟩
  rw [← hl, sub_lineDir_mul, sub_lineDir_mul, linePixels]
  simp only [Int.natCast_natAbs, sub_neg_eq_add, lineDir, ← sub_eq_add_neg, mul_comm |b.y - a.y|, sub_self, sub_zero]

/-- Settles O14: each clause is one of the laws of a run, read along the two axes. -/
theorem lineWalkSpansEnds : Obligations.LineWalkSpansEnds := by
  intro a b
  obtain ⟨l, hrun, hl⟩ := linePixels_run a b
  rw [hl]
  refine ⟨List.mem_map.2 ⟨_, List.mem_of_mem_head? hrun.head, ?_⟩, List.mem_map.2 ⟨_, hrun.end_mem, ?_⟩, ?_, ?_, ?_⟩
  · simp only [pixelToGo, sub_lineDir_mul]
  · simp [pixelToGo]
  · have hx := Int.natCast_natAbs (b.x - a.x)
    have hy := Int.natCast_natAbs (b.y - a.y)
    have := hrun.length
    rw [List.length_map]
    omega
  · intro p hp
    obtain ⟨q, hq, rfl⟩ := List.mem_map.1 hp
    obtain ⟨hu0, hu, hv0, hv⟩ := hrun.bounds q hq
    obtain ⟨hx0, hx1⟩ := sub_lineDir_mul_between hu0 hu
    obtain ⟨hy0, hy1⟩ := sub_lineDir_mul_between hv0 hv
    exact ⟨hx0, hx1, hy0, hy1⟩
  · intro k p q hp hq
    rw [List.getElem?_map, Option.map_eq_some_iff] at hp hq
    obtain ⟨p, hp, rfl⟩ := hp
    obtain ⟨q, hq, rfl⟩ := hq
    obtain ⟨hcol, hrow⟩ := hrun.move_at hp hq
    obtain ⟨-, hpu, -, hpv⟩ := hrun.bounds p (List.mem_of_getElem? hp)
    obtain ⟨hqu, -, hqv, -⟩ := hrun.bounds q (List.mem_of_getElem? hq)
    exact ⟨move_coordinates hqu hpu hcol, move_coordinates hqv hpv hrow⟩

end Sys2Proof.Machine
end

section
/-! PROOFS. The shape of ellipses (R258, R259). -/

namespace Sys2Proof.Machine

/-! ### Symmetry about the centre -/

/-- With a point the set holds its mirror images about `c`. -/
def mirrored (c : Point) (ps : List Point) : Prop :=
  ∀ x y : Int, ⟨c.x + x, c.y + y⟩ ∈ ps → ⟨c.x - x, c.y + y⟩ ∈ ps ∧ ⟨c.x + x, c.y - y⟩ ∈ ps

theorem mem_plot4 {c p : Point} {x y : Int} :
    p ∈ plot4 c x y ↔ (p.x = c.x + x ∨ p.x = c.x - x) ∧ (p.y = c.y + y ∨ p.y = c.y - y) := by
  cases p
  simp only [plot4, List.mem_cons, List.not_mem_nil, or_false, Point.mk.injEq]
  tauto

theorem mirrored.nil {c : Point} : mirrored c [] := fun _ _ h => absurd h List.not_mem_nil

theorem mirrored.plot4_append {c : Point} {ps : List Point} (h : mirrored c ps) (x y : Int) :
    mirrored c (plot4 c x y ++ ps) := by
  intro u v hm
  simp only [List.mem_append, mem_plot4] at hm ⊢
  rcases hm with hm | hm
  · exact ⟨.inl (by omega), .inl (by omega)⟩
  · exact ⟨.inr (h u v hm).1, .inr (h u v hm).2⟩

theorem mirrored_ellipseRegion2 {c : Point} {a2 b2 : Int} {n : Nat} {x y d2 : Int} :
    mirrored c (ellipseRegion2 c a2 b2 n x y d2) := by
  induction n generalizing x y d2 with
  | zero => exact .nil
  | succ n ih =>
    rw [ellipseRegion2]
    split
    · refine .plot4_append ?_ x y
      split <;> exact ih
    · exact .nil

theorem mirrored_ellipseRegion1 {c : Point} {a2 b2 : Int} {n : Nat} {x y d1 : Int} :
    mirrored c (ellipseRegion1 c a2 b2 n x y d1) := by
  induction n generalizing x y d1 with
  | zero => exact mirrored_ellipseRegion2
  | succ n ih =>
    rw [ellipseRegion1]
    split
    · refine .plot4_append ?_ x y
      split <;> exact ih
    · exact mirrored_ellipseRegion2

theorem ellipseOutline_empty (c : Point) {w k : Nat} (h : w = 0 ∨ k = 0) : ellipseOutline c w k = [] := if_pos h

theorem mirrored_ellipseOutline (c : Point) (w k : Nat) : mirrored c (ellipseOutline c w k) := by
  unfold ellipseOutline
  split
  · exact .nil
  · intro x y h
    simp only [List.mem_dedup] at h ⊢
    exact mirrored_ellipseRegion1 x y h

/-! ### The least and the greatest of a list -/

theorem foldl_min_le_iff {x v : Int} {xs : List Int} : xs.foldl min x ≤ v ↔ ∃ a ∈ x :: xs, a ≤ v := by
  obtain ⟨hmem, hle⟩ := List.min?_eq_some_iff.1 (List.min?_cons' (x := x) (xs := xs))
  exact ⟨fun h => ⟨_, hmem, h⟩, fun ⟨a, ha, h⟩ => (hle a ha).trans h⟩

theorem le_foldl_max_iff {x v : Int} {xs : List Int} : v ≤ xs.foldl max x ↔ ∃ a ∈ x :: xs, v ≤ a := by
  obtain ⟨hmem, hle⟩ := List.max?_eq_some_iff.1 (List.max?_cons' (x := x) (xs := xs))
  exact ⟨fun h => ⟨_, hmem, h⟩, fun ⟨a, ha, h⟩ => h.trans (hle a ha)⟩

/-! ### The fill -/

theorem mem_rowXs {ps : List Point} {x y : Int} : x ∈ rowXs ps y ↔ ⟨x, y⟩ ∈ ps := by
  simp only [rowXs, List.mem_map, List.mem_filter, beq_iff_eq]
  constructor
  · rintro ⟨p, ⟨hp, rfl⟩, rfl⟩; exact hp
  · exact fun h => ⟨_, ⟨h, rfl⟩, rfl⟩

theorem mem_rowSpan {ps : List Point} {p : Point} {y : Int} :
    p ∈ rowSpan ps y ↔ p.y = y ∧ (∃ a ∈ rowXs ps y, a ≤ p.x) ∧ ∃ b ∈ rowXs ps y, p.x ≤ b := by
  obtain ⟨px, py⟩ := p
  unfold rowSpan
  split
  · rename_i h
    simp [h]
  · rename_i x xs h
    rw [h, ← foldl_min_le_iff, ← le_foldl_max_iff]
    simp only [List.mem_map, mem_intRange, Point.mk.injEq]
    constructor
    · rintro ⟨a, ha, rfl, rfl⟩; exact ⟨rfl, ha⟩
    · rintro ⟨rfl, hpx⟩; exact ⟨px, hpx, rfl, rfl⟩

/-- The fill joins the ends of the outline row by row (R258). -/
theorem mem_ellipseFill {c p : Point} {w k : Nat} : p ∈ ellipseFill c w k ↔
    ∃ q ∈ ellipseOutline c w k, ∃ r ∈ ellipseOutline c w k, q.y = p.y ∧ r.y = p.y ∧ q.x ≤ p.x ∧ p.x ≤ r.x := by
  simp only [ellipseFill, List.mem_flatMap, List.mem_dedup, List.mem_map, mem_rowSpan, mem_rowXs]
  constructor
  · rintro ⟨_, -, rfl, ⟨a, ha, hap⟩, b, hb, hpb⟩
    exact ⟨_, ha, _, hb, rfl, rfl, hap, hpb⟩
  · rintro ⟨q, hq, r, hr, hqy, hry, hqp, hpr⟩
    refine ⟨p.y, ⟨q, hq, hqy⟩, rfl, ⟨q.x, ?_, hqp⟩, r.x, ?_, hpr⟩
    · rwa [← hqy]
    · rwa [← hry]

/-! ### An ellipse of width one -/

/-- With no half width the second loop never leaves the column of the centre, since its decision variable stays
positive but on the last row. -/
theorem mem_ellipseRegion2_column {c p : Point} {b2 d2 : Int} (n : Nat) (h : 0 < d2 ∨ n ≤ 1) :
    p ∈ ellipseRegion2 c 0 b2 n 0 ((n : Int) - 1) d2 ↔ p.x = c.x ∧ c.y - n < p.y ∧ p.y < c.y + n := by
  induction n generalizing d2 with
  | zero => simp [ellipseRegion2]; omega
  | succ n ih =>
    rw [ellipseRegion2, if_pos (by omega), List.mem_append, mem_plot4]
    by_cases hd : 0 < d2
    · have hd' : d2 + 4 * 0 * (3 - 2 * (((n + 1 : Nat) : Int) - 1)) = d2 := by ring
      have hn : ((n + 1 : Nat) : Int) - 1 - 1 = n - 1 := by omega
      rw [if_pos hd, hd', hn, ih (.inl hd)]
      omega
    · obtain rfl : n = 0 := by omega
      rw [if_neg hd, ellipseRegion2]
      simp
      omega

theorem mem_ellipseOutline_column {c p : Point} {k : Nat} (hk : 0 < k) : p ∈ ellipseOutline c 1 k ↔
    p.x = c.x ∧ c.y - ((k / 2 : Nat) : Int) ≤ p.y ∧ p.y ≤ c.y + ((k / 2 : Nat) : Int) := by
  rw [ellipseOutline, if_neg (by omega)]
  generalize k / 2 = b
  have hpos : 0 < (b : Int) * b ∨ b + 1 ≤ 1 := by
    rcases Nat.eq_zero_or_pos b with h0 | h0
    · exact .inr (by omega)
    · exact .inl (by positivity)
  have hfuel : ((b : Int) + 1).toNat = b + 1 := by omega
  have hrow : ((b + 1 : Nat) : Int) - 1 = b := by omega
  have hcol := mem_ellipseRegion2_column (c := c) (p := p) (b2 := (b : Int) * b) (b + 1) hpos
  simp only [Nat.reduceDiv, Nat.cast_zero, zero_mul, mul_zero, Int.toNat_zero, ellipseRegion1, ellipseTail, zero_add,
    add_zero, sub_zero, mul_one, List.mem_dedup, hfuel]
  rw [hrow] at hcol
  rw [hcol]
  omega

/-- Settles O17: symmetry by both loops, the fill by its rows, and the column of a width of one. -/
theorem ellipseShape : Obligations.EllipseShape := by
  refine fun c w k => ⟨mirrored_ellipseOutline c w k, fun p => mem_ellipseFill, ellipseOutline_empty c, ?_⟩
  rintro rfl hk p
  rw [mem_ellipseFill]
  simp only [mem_ellipseOutline_column hk]
  constructor
  · rintro ⟨q, ⟨hq, hlo, hhi⟩, r, ⟨hr, -⟩, hqy, -, hqp, hpr⟩
    omega
  · rintro ⟨hx, hlo, hhi⟩
    exact ⟨p, ⟨hx, hlo, hhi⟩, p, ⟨hx, hlo, hhi⟩, rfl, rfl, le_rfl, le_rfl⟩

end Sys2Proof.Machine
end

section
/-! PROOFS. The inside of a path (R268). -/

namespace Sys2Proof.Machine

/-! ### Crossings -/

/-- The crossing's place on its row. -/
def Crossing.place (c : Crossing) : ℚ := c.num / c.den

/-- Comparing crossings by cross products is comparing their places. -/
theorem cross_le_iff {a b : Crossing} (ha : 0 < a.den) (hb : 0 < b.den) :
    a.num * b.den ≤ b.num * a.den ↔ a.place ≤ b.place := by
  unfold Crossing.place
  rw [div_le_div_iff₀ (by exact_mod_cast ha) (by exact_mod_cast hb)]
  norm_cast

/-- An edge crosses every row of its half-open range. -/
theorem exists_edgeCrossing {y : Int} {e : Point × Point} (h1 : min e.1.y e.2.y ≤ y) (h2 : y < max e.1.y e.2.y) :
    ∃ c, edgeCrossing y e = some c := by
  unfold edgeCrossing
  split
  · exact ⟨_, rfl⟩
  · split
    · exact ⟨_, rfl⟩
    · omega

/-- A crossing is the place where the edge, rising or falling, meets a row of its range. -/
theorem edgeCrossing_eq_some {y : Int} {e : Point × Point} {c : Crossing} (h : edgeCrossing y e = some c) :
    0 < c.den ∧ min e.1.y e.2.y ≤ y ∧ y < max e.1.y e.2.y
      ∧ c.num * (e.2.y - e.1.y) = (e.1.x * (e.2.y - e.1.y) + (y - e.1.y) * (e.2.x - e.1.x)) * c.den := by
  unfold edgeCrossing at h
  split at h
  · cases h
    exact ⟨by dsimp only; omega, by omega, by omega, rfl⟩
  · split at h
    · cases h
      exact ⟨by dsimp only; omega, by omega, by omega, by ring⟩
    · cases h

/-- The crossings of the edges of a closed path with a row (R268). -/
abbrev rowCrossings (ps : List Point) (y : Int) : List Crossing := (closedEdges ps).filterMap (edgeCrossing y)

theorem rowCrossings_den_pos {ps : List Point} {y : Int} {c : Crossing} (h : c ∈ rowCrossings ps y) : 0 < c.den := by
  obtain ⟨e, -, he⟩ := List.mem_filterMap.1 h
  exact (edgeCrossing_eq_some he).1

/-- A row with a crossing lies between the path's least and greatest row. -/
theorem row_of_mem_rowCrossings {ps : List Point} {y : Int} {c : Crossing} (h : c ∈ rowCrossings ps y) :
    (∃ p ∈ ps, p.y ≤ y) ∧ ∃ p ∈ ps, y ≤ p.y := by
  obtain ⟨e, he, hc⟩ := List.mem_filterMap.1 h
  obtain ⟨-, hlo, hhi, -⟩ := edgeCrossing_eq_some hc
  obtain ⟨k, -, h1, h2⟩ := (mem_closedEdges ps e).1 he
  have h1 := List.mem_of_getElem? h1
  have h2 := List.mem_of_getElem? h2
  rcases min_le_iff.1 hlo with hlo | hlo <;> rcases lt_max_iff.1 hhi with hhi | hhi
  · omega
  · exact ⟨⟨_, h1, hlo⟩, _, h2, hhi.le⟩
  · exact ⟨⟨_, h2, hlo⟩, _, h1, hhi.le⟩
  · omega

/-! ### Sorting -/

theorem insertCrossing_perm (c : Crossing) (cs : List Crossing) : (insertCrossing c cs).Perm (c :: cs) := by
  induction cs with
  | nil => exact .refl _
  | cons d ds ih =>
    rw [insertCrossing]
    split
    · exact .refl _
    · exact (ih.cons d).trans (.swap c d ds)

theorem sortCrossings_perm (cs : List Crossing) : (sortCrossings cs).Perm cs := by
  induction cs with
  | nil => exact .refl _
  | cons c cs ih => exact (insertCrossing_perm c _).trans (ih.cons c)

/-- The crossings stand in rising order. -/
abbrev risingCrossings (cs : List Crossing) : Prop := cs.Pairwise fun a b => a.place ≤ b.place

theorem risingCrossings.insert {c : Crossing} {cs : List Crossing} (h : risingCrossings cs)
    (hden : ∀ d ∈ c :: cs, 0 < d.den) : risingCrossings (insertCrossing c cs) := by
  induction cs with
  | nil => exact List.pairwise_singleton _ _
  | cons d ds ih =>
    have hle : crossingLE c d = true ↔ c.place ≤ d.place := by
      rw [crossingLE, decide_eq_true_eq, cross_le_iff (hden c (by simp)) (hden d (by simp))]
    obtain ⟨hd, hds⟩ := List.pairwise_cons.1 h
    rw [insertCrossing]
    split
    · rename_i hcd
      have hcd := hle.1 hcd
      refine List.pairwise_cons.2 ⟨fun e he => ?_, h⟩
      rcases List.mem_cons.1 he with rfl | he
      · exact hcd
      · exact hcd.trans (hd e he)
    · rename_i hcd
      have hdc := (lt_of_not_ge (mt hle.2 hcd)).le
      refine List.pairwise_cons.2 ⟨fun e he => ?_, ih hds fun e he => hden e (by simp at he ⊢; tauto)⟩
      rcases List.mem_cons.1 ((insertCrossing_perm c ds).mem_iff.1 he) with rfl | he
      · exact hdc
      · exact hd e he

theorem sortCrossings_rising {cs : List Crossing} (hden : ∀ c ∈ cs, 0 < c.den) :
    risingCrossings (sortCrossings cs) := by
  induction cs with
  | nil => exact .nil
  | cons c cs ih =>
    obtain ⟨hc, hcs⟩ := List.forall_mem_cons.1 hden
    refine (ih hcs).insert (List.forall_mem_cons.2 ⟨hc, fun d hd => hcs d ?_⟩)
    exact (sortCrossings_perm cs).mem_iff.1 hd

/-! ### The spans of a row -/

theorem mem_crossingSpan {a b : Crossing} (ha : 0 < a.den) (hb : 0 < b.den) {x : Int} :
    x ∈ crossingSpan a b ↔ a.num ≤ x * a.den ∧ x * b.den ≤ b.num := by
  rw [crossingSpan, mem_intRange, Int.le_ediv_iff_mul_le hb, neg_le, Int.le_ediv_iff_mul_le ha, neg_mul, neg_le_neg_iff]

/-- The crossings are taken two by two. -/
theorem mem_pairSpans {x : Int} : ∀ {cs : List Crossing}, x ∈ pairSpans cs ↔
    ∃ m a b, cs[2 * m]? = some a ∧ cs[2 * m + 1]? = some b ∧ x ∈ crossingSpan a b
  | [] => by simp [pairSpans]
  | [_] => by simp [pairSpans]
  | a :: b :: cs => by
    rw [pairSpans, List.mem_append, mem_pairSpans]
    constructor
    · rintro (h | ⟨m, h⟩)
      · exact ⟨0, a, b, rfl, rfl, h⟩
      · exact ⟨m + 1, h⟩
    · rintro ⟨m, a', b', ha, hb, h⟩
      cases m with
      | zero => cases ha; cases hb; exact .inl h
      | succ m => exact .inr ⟨m, a', b', ha, hb, h⟩

theorem mem_fillRow {ps : List Point} {x y y' : Int} :
    (⟨x, y⟩ : Point) ∈ fillRow ps y' ↔ y' = y ∧ x ∈ pairSpans (sortCrossings (rowCrossings ps y)) := by
  simp only [fillRow, List.mem_map, List.mem_dedup, Point.mk.injEq]
  constructor
  · rintro ⟨_, hx, rfl, rfl⟩; exact ⟨rfl, hx⟩
  · rintro ⟨rfl, hx⟩; exact ⟨x, hx, rfl, rfl⟩

/-- With three points at least, the pixels of a row are those of its spans: a row with a span lies between the
path's least and greatest row. -/
theorem mem_pathInterior {ps : List Point} {x y : Int} :
    (⟨x, y⟩ : Point) ∈ pathInterior ps ↔ 3 ≤ ps.length ∧ x ∈ pairSpans (sortCrossings (rowCrossings ps y)) := by
  unfold pathInterior
  split
  · rename_i hfew
    exact ⟨fun h => absurd h List.not_mem_nil, fun h => by omega⟩
  · rename_i hmany
    rw [and_iff_right (by omega)]
    split
    · rename_i hnil
      rw [List.map_eq_nil_iff] at hnil
      simp [hnil] at hmany
    · rename_i y₀ ys hys
      simp only [List.mem_flatMap, mem_fillRow, mem_intRange, foldl_min_le_iff, le_foldl_max_iff, ← hys, List.mem_map]
      constructor
      · rintro ⟨_, -, rfl, hx⟩; exact hx
      · intro hx
        obtain ⟨m, a, b, ha, -⟩ := mem_pairSpans.1 hx
        obtain ⟨⟨p, hp, hlo⟩, q, hq, hhi⟩ :=
          row_of_mem_rowCrossings ((sortCrossings_perm _).mem_iff.1 (List.mem_of_getElem? ha))
        exact ⟨y, ⟨⟨_, ⟨p, hp, rfl⟩, hlo⟩, _, ⟨q, hq, rfl⟩, hhi⟩, rfl, hx⟩

/-- Settles O23: the crossings by the law of an edge, their order by the sort, and the pixels by the spans. -/
theorem pathInteriorIsEvenOdd : Obligations.PathInteriorIsEvenOdd := by
  intro ps x y cs
  have hperm := sortCrossings_perm cs
  have hden : ∀ c ∈ sortCrossings cs, 0 < c.den := fun c hc => rowCrossings_den_pos (hperm.mem_iff.1 hc)
  refine ⟨hperm, ?_, fun e => exists_edgeCrossing, fun e c => edgeCrossing_eq_some, ?_⟩
  · refine (sortCrossings_rising fun c hc => rowCrossings_den_pos hc).imp_of_mem fun ha hb hab => ?_
    exact (cross_le_iff (hden _ ha) (hden _ hb)).2 hab
  · rw [mem_pathInterior, mem_pairSpans]
    refine and_congr_right fun _ => exists_congr fun m => exists_congr fun a => exists_congr fun b =>
      and_congr_right fun ha => and_congr_right fun hb => ?_
    exact mem_crossingSpan (hden _ (List.mem_of_getElem? ha)) (hden _ (List.mem_of_getElem? hb))

end Sys2Proof.Machine
end

section
/-! PROOFS. The colours of a glyph's cell (R300, R302) and DrawGlyph (R303). -/

namespace Sys2Proof.Machine

/-! ### The colour of a cell pixel -/

/-- The bit of R300 in a row of the glyph: zero outside its columns. -/
theorem glyphBit_iff {gh j : Nat} (hj : j < gh) (s : State) (data gw : Nat) (i : Int) :
    glyphBit s data gw gh i j = true ↔ 0 ≤ i ∧ i < gw
      ∧ (memByte s (data + j * ((gw + 7) / 8) + i.toNat / 8)).getLsbD (7 - i.toNat % 8) = true := by
  simp [glyphBit, glyphStride, hj, and_assoc]

/-- Bold, underline and blank (R302). -/
theorem glyphOn_iff (s : State) (data gw gh : Nat) (o : GlyphOpts) (i : Int) (j : Nat) :
    glyphOn s data gw gh o i j = true ↔ 0 ≤ i ∧ i < gw
      ∧ (glyphBit s data gw gh i j = true ∨ (o.bold = true ∧ glyphBit s data gw gh (i - 1) j = true)
        ∨ (o.underline = true ∧ j + 1 = gh)) ∧ o.blank = false := by
  have hlast : (j : Int) = gh - 1 ↔ j + 1 = gh := by omega
  simp [glyphOn, hlast, and_assoc, or_assoc]

theorem cellColour_of_on {s : State} {data gw gh u j : Nat} {o : GlyphOpts} (f k : Colour)
    (h : glyphOn s data gw gh o ((u : Int) - glyphShear o gh j) j = true) :
    cellColour s data gw gh o f k u j = some (if o.invert then k else f) := if_pos h

theorem cellColour_of_not_on {s : State} {data gw gh u j : Nat} {o : GlyphOpts} (f k : Colour)
    (h : ¬glyphOn s data gw gh o ((u : Int) - glyphShear o gh j) j = true) :
    cellColour s data gw gh o f k u j = if o.fillBackground then some (if o.invert then f else k) else none :=
  if_neg h

/-- Settles O26: a pixel shows the glyph where it is on at the sheared column. -/
theorem cellColourByOptions : Obligations.CellColourByOptions := by
  intro s data gw gh o f k u j hj i bit on
  have hon : on ↔ glyphOn s data gw gh o i j = true := by
    rw [glyphOn_iff, glyphBit_iff hj, glyphBit_iff hj]
  rw [hon]
  exact ⟨cellColour_of_on f k, cellColour_of_not_on f k⟩

/-! ### DrawGlyph -/

/-- Drawing looks at its writes from the state with the sprites hidden alone. -/
theorem draw_congr {s : State} {ws ws' : State → List Write} (h : ws (hideSprites s) = ws' (hideSprites s)) :
    draw ws s = draw ws' s := by
  unfold draw
  rw [h]

theorem draw_of_nil {s : State} {ws : State → List Write} (h : ws (hideSprites s) = []) : draw ws s = s := by
  unfold draw
  rw [h]

/-- With no pixel to write nothing happens (log entry 9). -/
theorem redraws_self {s : State} {new : State → Int → Int → Option Byte}
    (h : ∀ ax ay, new (hideSprites s) ax ay = none) : redraws s s s.paint new :=
  ⟨fun _ => rfl, fun ⟨ax, ay, _, hn⟩ => absurd (h ax ay) hn⟩

theorem exec_drawGlyph_live {p : Point} {gw gh data : Nat} {s : State}
    (hlive : rangeLive s data (gh * ((gw + 7) / 8)) = true) :
    exec (.drawGlyph p gw gh data) s = .next (draw (fun h => paintCell h p (drawnGlyph h gw gh data)) s) :=
  if_pos hlive

/-- A glyph without pixels (R303). -/
theorem draw_drawnGlyph_empty (p : Point) {gw gh : Nat} (data : Nat) (s : State) (h : gw = 0 ∨ gh = 0) :
    draw (fun h => paintCell h p (drawnGlyph h gw gh data)) s = s :=
  draw_of_nil (by simp [drawnGlyph, h, paintCell])

/-- A glyph with pixels is the cell in the paint state's options and colours, which hiding leaves alone (R303). -/
theorem draw_drawnGlyph (p : Point) {gw gh : Nat} (data : Nat) (s : State) (h : ¬(gw = 0 ∨ gh = 0)) :
    draw (fun h => paintCell h p (drawnGlyph h gw gh data)) s =
      draw (fun h => paintCell h p (glyphCell h data gw gh s.paint.glyphOpt (fg s) (bg s))) s :=
  draw_congr (by simp [drawnGlyph, h])

/-- Settles O24: a glyph without pixels draws nothing, any other by the law of painting a cell. -/
theorem drawGlyphPaintsCell : Obligations.DrawGlyphPaintsCell := by
  intro p gw gh data s hv hlive
  refine ⟨_, exec_drawGlyph_live hlive, ?_⟩
  by_cases hempty : gw = 0 ∨ gh = 0
  · rw [draw_drawnGlyph_empty p data s hempty]
    refine redraws_self fun ax ay => if_neg ?_
    rw [Bool.and_eq_true, decide_eq_true_eq]
    omega
  · have hgw : 0 < gw := by omega
    rw [draw_drawnGlyph p data s hempty]
    simpa only [hgw, true_and] using draw_glyphCell_redraws p data gw gh s.paint.glyphOpt (fg s) (bg s) hv hgw

end Sys2Proof.Machine
end

section
/-! PROOFS. What the scroll primitives write: HScroll's rows (R310), and VScroll's bytes, row map and descriptors
(R308, R309). -/

namespace Sys2Proof.Machine

/-! ### HScroll -/

theorem regionWidth_le_zero_iff (r : Rect) : regionWidth r ≤ 0 ↔ r.x2 < r.x1 := by
  unfold regionWidth
  omega

theorem regionHeight_le_zero_iff (r : Rect) : regionHeight r ≤ 0 ↔ r.y2 < r.y1 := by
  unfold regionHeight
  omega

/-- Settles O28: there is nothing to do, or the law of drawing the rotated rows. -/
theorem hScrollRotatesRows : Obligations.HScrollRotatesRows := by
  intro dx s hv r w
  have hstays : hScrollStays r dx ↔ r.x2 < r.x1 ∨ r.y2 < r.y1 ∨ dx % w = 0 :=
    or_congr (regionWidth_le_zero_iff r) (or_congr (regionHeight_le_zero_iff r) .rfl)
  rw [exec_hScroll_eq]
  refine ⟨fun hstay => by rw [if_pos (hstays.2 hstay)], fun hx hy hd => ⟨_, ?_, draw_hScrollWrites_redraws dx hv⟩⟩
  rw [if_neg (mt hstays.1 (by omega))]

/-! ### The places of the row descriptors (R309) -/

/-- The repetitions of the rows stand one after the other, each with the segments of its line. -/
theorem rowDescIndex_eq (t : Timings) (g : Geometry) (y r : Nat) : rowDescIndex t g y r =
    t.scanCount * g.vpRow.toNat + preCount t g + segmentsPerRow t g * (t.scanCount * y + r) := by
  obtain ⟨n, hn⟩ := Nat.exists_eq_add_of_lt (preCount_lt t g)
  unfold rowDescIndex
  rw [show segmentsPerRow t g - 1 = preCount t g + n by omega, show segmentsPerRow t g = preCount t g + n + 1 by omega]
  change _ + preCount t g = _
  ring

/-- Different rows have different descriptors. -/
theorem rowDescIndex_inj {t : Timings} {g : Geometry} {y z r q : Nat} (hr : r < t.scanCount) (hq : q < t.scanCount)
    (h : rowDescIndex t g y r = rowDescIndex t g z q) : y = z := by
  have hpos : 0 < segmentsPerRow t g := Nat.zero_lt_of_lt (preCount_lt t g)
  rw [rowDescIndex_eq, rowDescIndex_eq, Nat.add_left_cancel_iff, Nat.mul_right_inj hpos.ne'] at h
  have hdiv := congrArg (· / t.scanCount) h
  simpa [Nat.mul_add_div (Nat.zero_lt_of_lt hr), Nat.div_eq_of_lt hr, Nat.div_eq_of_lt hq] using hdiv

/-! ### VScroll -/

section
variable (dy : Int) (s : State)

/-- Hiding twice hides once, so VScroll is what it is with the sprites hidden before. -/
theorem vScrollBy_hideSprites : vScrollBy dy (hideSprites s) = vScrollBy dy s := by
  rw [vScrollBy_eq, vScrollBy_eq, hideSprites_of_hidden (hideSprites_spritesHidden s)]

theorem vScrollBy_rowMap : (vScrollBy dy s).rowMap =
    s.rowMap.set s.drawBank (rotatedMap s.paint.scrollRegion dy (s.rowMap.get s.drawBank)) := by
  simp [vScrollBy_eq, rotated]

/-- The row map of the drawing bank after VScroll (R308). -/
theorem vScrollBy_drawnRows : (vScrollBy dy s).rowMap.get s.drawBank =
    rotatedMap s.paint.scrollRegion dy (s.rowMap.get s.drawBank) := by
  rw [vScrollBy_rowMap, PerBank.get_set, if_pos rfl]

/-- VScroll leaves the other bank's row map (R308). -/
theorem vScrollBy_otherRows : (vScrollBy dy s).rowMap.get s.drawBank.other = s.rowMap.get s.drawBank.other := by
  rw [vScrollBy_rowMap, PerBank.get_set, if_neg (by cases s.drawBank <;> decide)]

theorem vScrollBy_desc : (vScrollBy dy s).desc = writtenDesc (scrollWrites dy (hideSprites s)) s.desc := by
  rw [vScrollBy_eq, runWrites_desc, rotated, hideSprites_desc]

theorem vScrollBy_sprites : (vScrollBy dy s).sprites = (hideSprites s).sprites := by
  rw [vScrollBy_eq, runWrites_sprites, rotated]

theorem vScrollBy_spritesHidden : (vScrollBy dy s).spritesHidden = true := by
  rw [vScrollBy_eq, runWrites_spritesHidden, rotated, hideSprites_spritesHidden]

/-- VScroll is drawing but for the row map and the descriptors. -/
theorem vScrollBy_drawingOnly :
    drawingOnly { s with rowMap := (vScrollBy dy s).rowMap, desc := (vScrollBy dy s).desc } (vScrollBy dy s) := by
  have hhide := hideSprites_drawingOnly s
  have hwrites := runWrites_only (scrollWrites dy (hideSprites s)) (rotated dy (hideSprites s))
  rw [← vScrollBy_eq] at hwrites
  unfold WritesOnly rotated at hwrites
  unfold drawingOnly at hhide ⊢
  rw [hwrites, hhide]

end

section
variable {s : State} (hv : viewportOK s) (dy : Int) (hwidth : 0 < regionWidth s.paint.scrollRegion)
  (hheight : 0 < regionHeight s.paint.scrollRegion)
include hv hwidth hheight

/-- The bytes after VScroll (R308). -/
theorem rawPixel_vScrollBy (x y : Int) : rawPixel (vScrollBy dy s) s.drawBank x y =
    if inRegion s.paint.scrollRegion x y then
      rawPixel (hideSprites s) s.drawBank x (rotateFrom s.paint.scrollRegion.y1 (regionHeight s.paint.scrollRegion) dy y)
    else rawPixel (hideSprites s) s.drawBank x y := by
  have h := rawPixel_vScroll hv.hideSprites (hideSprites_spritesHidden s) dy (by simpa) (by simpa) x y
  rwa [vScrollBy_hideSprites, hideSprites_drawBank, hideSprites_paint] at h

/-- The row map of the drawing bank after VScroll, row by row (R308). -/
theorem vScrollBy_row (y : Nat) : ((vScrollBy dy s).rowMap.get s.drawBank)[y]? =
    (s.rowMap.get s.drawBank)[rotatedRow s.paint.scrollRegion dy y]? := by
  obtain ⟨-, h1⟩ := hv.region hwidth hheight
  rw [vScrollBy_drawnRows, rotatedMap_getElem? h1 hheight]

/-- VScroll writes bytes in the columns outside its region alone (R308). -/
theorem rowByte_vScrollBy {p off : Nat}
    (h : ∀ x y, s.paint.scrollRegion.y1 ≤ y → y ≤ s.paint.scrollRegion.y2 →
      (x < s.paint.scrollRegion.x1 ∨ s.paint.scrollRegion.x2 < x) →
      physAddr (vScrollBy dy s) s.drawBank x y ≠ some (p, off)) :
    rowByte (vScrollBy dy s).rows p off = rowByte (hideSprites s).rows p off := by
  have hh := hideSprites_spritesHidden s
  rw [← vScrollBy_hideSprites, vScrollBy_rows hv.hideSprites hh dy (by simpa) (by simpa)]
  refine rowByte_written_of_forall_ne _ _ _ _ fun v hw => ?_
  obtain ⟨x, y, v', ⟨hlo, hhi⟩, -, hout, -, hw⟩ := mem_keepColumns.1 hw
  obtain ⟨_, _, ha, hbyte⟩ := rawWrite_bytes hw
  cases hbyte
  have ha := (physAddr_vScrollBy hh dy x y).trans ha
  rw [vScrollBy_hideSprites, hideSprites_drawBank] at ha
  rw [hideSprites_paint] at hlo hhi hout
  exact h x y hlo hhi hout ha

omit hv hwidth hheight in
/-- Which descriptors VScroll re-points, and to which rows (R309). -/
theorem repoint_mem_vScroll {b : Bank} {j p : Nat} (h0 : 0 ≤ s.paint.scrollRegion.y1) :
    .repoint b j p ∈ scrollWrites dy (hideSprites s) ↔ b = s.drawBank ∧ ∃ y : Nat, s.paint.scrollRegion.y1 ≤ y
      ∧ y ≤ s.paint.scrollRegion.y2 ∧ ∃ k < s.timings.scanCount,
        ((vScrollBy dy s).rowMap.get s.drawBank)[y]? = some p ∧ j = rowDescIndex s.timings (geometry s) y k := by
  have hgeometry : geometry (hideSprites s) = geometry s := by simp [geometry]
  rw [repoint_mem_scrollWrites (by simpa), hideSprites_drawBank, hideSprites_paint, hideSprites_timings,
    hideSprites_rowMap, hgeometry, vScrollBy_drawnRows]

/-- The descriptors of a row of the region get the row that the rotated map gives it (R309). -/
theorem desc_vScrollBy_of_row {y k : Nat} (hlo : s.paint.scrollRegion.y1 ≤ y) (hhi : y ≤ s.paint.scrollRegion.y2)
    (hk : k < s.timings.scanCount) {d : Desc}
    (hd : (s.desc.get s.drawBank)[rowDescIndex s.timings (geometry s) y k]? = some d) :
    ((vScrollBy dy s).desc.get s.drawBank)[rowDescIndex s.timings (geometry s) y k]? =
      (((vScrollBy dy s).rowMap.get s.drawBank)[y]?).map fun p => { d with buf := .row p } := by
  obtain ⟨h0, h1⟩ := hv.region hwidth hheight
  have hy : y < ((vScrollBy dy s).rowMap.get s.drawBank).length := by
    rw [vScrollBy_drawnRows, rotatedMap, List.length_map, List.length_range]
    omega
  have hp := List.getElem?_eq_getElem hy
  have hunique : ∀ q, .repoint s.drawBank (rowDescIndex s.timings (geometry s) y k) q ∈
      scrollWrites dy (hideSprites s) → q = ((vScrollBy dy s).rowMap.get s.drawBank)[y] := by
    intro q hq
    obtain ⟨-, z, -, -, r, hr, hz, hplace⟩ := (repoint_mem_vScroll dy h0).1 hq
    rw [← rowDescIndex_inj hk hr hplace, hp] at hz
    exact (Option.some.inj hz).symm
  rw [vScrollBy_desc, writtenDesc_of_mem _ _ _ _ _
    ((repoint_mem_vScroll dy h0).2 ⟨rfl, y, hlo, hhi, k, hk, hp, rfl⟩) hunique, hd, hp]
  rfl

/-- VScroll re-points no other descriptor (R309). -/
theorem desc_vScrollBy_of_other {b : Bank} {i : Nat}
    (h : b = s.drawBank → ∀ y k : Nat, s.paint.scrollRegion.y1 ≤ (y : Int) → (y : Int) ≤ s.paint.scrollRegion.y2 →
      k < s.timings.scanCount → i ≠ rowDescIndex s.timings (geometry s) y k) :
    ((vScrollBy dy s).desc.get b)[i]? = (s.desc.get b)[i]? := by
  obtain ⟨h0, -⟩ := hv.region hwidth hheight
  rw [vScrollBy_desc]
  refine writtenDesc_of_forall_ne _ _ _ _ fun p hmem => ?_
  obtain ⟨hb, y, hlo, hhi, k, hk, -, hplace⟩ := (repoint_mem_vScroll dy h0).1 hmem
  exact h hb y k hlo hhi hk hplace

end

/-- Settles O29: there is nothing to do, or each part by what VScroll does to bytes, row map and descriptors. -/
theorem vScrollRotatesRows : Obligations.VScrollRotatesRows := by
  intro dy s hv r n h
  have hstays : vScrollStays r dy ↔ r.x2 < r.x1 ∨ r.y2 < r.y1 ∨ dy % n = 0 :=
    or_congr (regionWidth_le_zero_iff r) (or_congr (regionHeight_le_zero_iff r) .rfl)
  rw [exec_vScroll_eq]
  refine ⟨fun hstay => by rw [if_pos (hstays.2 hstay)], fun hx hy hd => ?_⟩
  have hmoves : ¬vScrollStays r dy := mt hstays.1 (by omega)
  have hwidth : 0 < regionWidth r := by omega
  have hheight : 0 < regionHeight r := by omega
  refine ⟨vScrollBy dy s, by rw [if_neg hmoves], fun x y _ => rawPixel_vScrollBy hv dy hwidth hheight x y,
    fun y => ?_, vScrollBy_otherRows dy s, fun p off => rowByte_vScrollBy hv dy hwidth hheight,
    fun y k hlo hhi hk d => desc_vScrollBy_of_row hv dy hwidth hheight hlo hhi hk,
    fun b i => desc_vScrollBy_of_other hv dy hwidth hheight, vScrollBy_sprites dy s, vScrollBy_spritesHidden dy s,
    vScrollBy_moved dy s, vScrollBy_drawingOnly dy s⟩
  rw [vScrollBy_row hv dy hwidth hheight]
  exact apply_ite (fun j => (s.rowMap.get s.drawBank)[j]?) _ _ _

end Sys2Proof.Machine
end

section
/-! PROOFS. Hiding and showing the sprites (R334 to R337): the byte that each writes to a pixel, what a slot keeps, and
why hiding undoes showing (R339). -/

namespace Sys2Proof.Machine

/-! ### What drawing leaves alone -/

theorem drawingOnly.physAddr {s t : State} (h : drawingOnly s t) (ax ay : Int) :
    physAddr t t.drawBank ax ay = physAddr s s.drawBank ax ay := by
  rw [h.eq]
  rfl

theorem drawingOnly.rangeLive {s t : State} (h : drawingOnly s t) (a n : Nat) : rangeLive t a n = rangeLive s a n := by
  rw [h.eq]
  rfl

theorem drawingOnly.memU32 {s t : State} (h : drawingOnly s t) (a : Nat) : memU32 t a = memU32 s a := by
  rw [h.eq]
  rfl

/-- A recorded fault stays recorded. -/
theorem drawFaults.mem {s t : State} {f : FaultRecord} (h : drawFaults s t) (hf : f ∈ s.faults) : f ∈ t.faults := by
  obtain ⟨fs, hfs, -⟩ := h
  rw [hfs]
  exact List.mem_append_left _ hf

theorem viewportOK.length_of_mem_rows {s : State} (h : viewportOK s) :
    ∀ r ∈ s.rows, r.length = s.vpWidth.toNat := by
  obtain ⟨-, -, -, -, hrows, -⟩ := h
  exact hrows

/-! ### Writes by pixel -/

theorem byte_mem_rawWrite {s : State} {ax ay : Int} {p off : Nat} {u v : Byte} :
    .byte p off v ∈ rawWrite s ax ay u ↔ physAddr s s.drawBank ax ay = some (p, off) ∧ v = u := by
  unfold rawWrite
  split
  · rename_i q o ha
    rw [ha, List.mem_singleton, Write.byte.injEq, Option.some.injEq, Prod.mk.injEq, and_assoc]
    exact ⟨fun ⟨hp, ho, hv⟩ => ⟨hp.symm, ho.symm, hv⟩, fun ⟨hp, ho, hv⟩ => ⟨hp.symm, ho.symm, hv⟩⟩
  · rename_i ha
    rw [ha]
    simp

/-- The row bytes that `ws` writes are the bytes that `new` gives to viewport pixels of the drawing bank. -/
def writesPixels (s : State) (ws : List Write) (new : Int → Int → Option Byte) : Prop :=
  ∀ p off v, .byte p off v ∈ ws ↔ ∃ ax ay, physAddr s s.drawBank ax ay = some (p, off) ∧ new ax ay = some v

/-- A pixel's byte after the writes: the new one where there is one, since no two pixels share an address (R181). -/
theorem writesPixels.rowByte_pixel {s : State} {ws : List Write} {new : Int → Int → Option Byte}
    (h : writesPixels s ws new) (hv : viewportOK s) {rows : List (List Byte)} {ax ay : Int} {p off : Nat}
    (ha : physAddr s s.drawBank ax ay = some (p, off)) (hex : (rowByte rows p off).isSome = true) :
    rowByte (writtenRows ws rows) p off = (new ax ay).or (rowByte rows p off) := by
  have hvalue : ∀ v, .byte p off v ∈ ws → new ax ay = some v := fun v hm => by
    obtain ⟨bx, cy, hb, hnew⟩ := (h p off v).1 hm
    obtain ⟨rfl, rfl⟩ := hv.physAddr_inj ha hb
    exact hnew
  cases hnew : new ax ay with
  | none =>
    rw [Option.none_or]
    refine rowByte_written_of_forall_ne _ _ _ _ fun v hm => ?_
    rw [hvalue v hm] at hnew
    cases hnew
  | some v =>
    rw [Option.some_or]
    refine rowByte_written_of_mem _ _ _ _ v hex ((h p off v).2 ⟨ax, ay, ha, hnew⟩) fun u hu => ?_
    rw [hvalue u hu] at hnew
    exact Option.some.inj hnew

/-- A byte that is no new pixel's stays. -/
theorem writesPixels.rowByte_other {s : State} {ws : List Write} {new : Int → Int → Option Byte}
    (h : writesPixels s ws new) {rows : List (List Byte)} {p off : Nat}
    (hno : ∀ ax ay, (new ax ay).isSome = true → physAddr s s.drawBank ax ay ≠ some (p, off)) :
    rowByte (writtenRows ws rows) p off = rowByte rows p off := by
  refine rowByte_written_of_forall_ne _ _ _ _ fun v hm => ?_
  obtain ⟨ax, ay, ha, hnew⟩ := (h p off v).1 hm
  exact hno ax ay (by simp [hnew]) ha

/-- Rows of the same lengths are told apart by a byte. -/
theorem rows_eq_of_rowByte {rows rows' : List (List Byte)} (hlen : rows.map List.length = rows'.map List.length)
    (h : ∀ p off, rowByte rows p off = rowByte rows' p off) : rows = rows' := by
  have hcount : rows.length = rows'.length := by simpa using congrArg List.length hlen
  refine List.ext_getElem hcount fun p hp hp' => List.ext_getElem? fun off => ?_
  simpa only [rowByte, List.getElem?_eq_getElem hp, List.getElem?_eq_getElem hp'] using h p off

/-! ### Saved backgrounds -/

/-- The pixels of a sprite's saved background, by their place in it. -/
theorem savedAt_iff {sp : Sprite} {r : SavedRect} (h : sp.savedRect = some r) {ax ay : Int} :
    savedAt sp ax ay = true ↔ ∃ o ∈ rectOffsets r.w r.h, ax = r.x + o.1 ∧ ay = r.y + o.2 := by
  simp only [savedAt, h, Bool.and_eq_true, decide_eq_true_eq, mem_rectOffsets]
  constructor
  · rintro ⟨⟨⟨hx0, hx1⟩, hy0⟩, hy1⟩
    refine ⟨((ax - r.x).toNat, (ay - r.y).toNat), ?_, ?_, ?_⟩ <;> dsimp only <;> omega
  · rintro ⟨⟨k, j⟩, ⟨hk, hj⟩, rfl, rfl⟩
    dsimp only at *
    omega

theorem savedByte_eq {sp : Sprite} {r : SavedRect} (h : sp.savedRect = some r) (k j : Nat) :
    savedByte sp (r.x + k) (r.y + j) = sp.savedBg.getD (j * r.w + k) 0 := by
  have hx : ((r.x : Int) + k).toNat - r.x = k := by omega
  have hy : ((r.y : Int) + j).toNat - r.y = j := by omega
  simp only [savedByte, h, hx, hy]

/-- The byte that hiding a sprite gives back to a pixel (R335). -/
def savedPixel (sp : Sprite) (ax ay : Int) : Option Byte :=
  if savedAt sp ax ay = true then some (savedByte sp ax ay) else none

theorem savedPixel_isSome {sp : Sprite} {ax ay : Int} :
    (savedPixel sp ax ay).isSome = true ↔ savedAt sp ax ay = true := by
  simp [savedPixel]

theorem restoreWrites_pixels (s : State) (sp : Sprite) : writesPixels s (restoreWrites s sp) (savedPixel sp) := by
  intro p off v
  simp only [savedPixel, Option.ite_none_right_eq_some, Option.some.injEq]
  cases hr : sp.savedRect with
  | none => simp [restoreWrites, savedAt, hr]
  | some r =>
    simp only [restoreWrites, hr, List.mem_flatMap, byte_mem_rawWrite, savedAt_iff hr]
    constructor
    · rintro ⟨o, ho, ha, rfl⟩
      exact ⟨_, _, ha, ⟨o, ho, rfl, rfl⟩, savedByte_eq hr _ _⟩
    · rintro ⟨_, _, ha, ⟨o, ho, rfl, rfl⟩, rfl⟩
      exact ⟨o, ho, ha, savedByte_eq hr _ _⟩

theorem restoreWrites_unsaved {s : State} {sp : Sprite} (h : sp.savedRect = none) : restoreWrites s sp = [] := by
  simp [restoreWrites, h]

/-! ### Hiding (R335) -/

/-- The rows with the backgrounds of `sps` restored, the last slot's first. -/
def restoredRows (s : State) (sps : List Sprite) (rows : List (List Byte)) : List (List Byte) :=
  sps.foldr (fun sp => writtenRows (restoreWrites s sp)) rows

/-- The rows that hiding the sprites leaves, were they shown. -/
def hiddenRows (s : State) : List (List Byte) := restoredRows s s.sprites s.rows

theorem writtenRows_reverse_flatMap {α : Type} (f : α → List Write) (l : List α) (rows : List (List Byte)) :
    writtenRows (l.reverse.flatMap f) rows = l.foldr (fun a => writtenRows (f a)) rows := by
  induction l with
  | nil => rfl
  | cons a l ih => rw [List.reverse_cons, List.flatMap_append, writtenRows_append, ih, List.flatMap_singleton,
      List.foldr_cons]

theorem hideSprites_rows_single {s : State} (hh : s.spritesHidden = false) (hdb : s.doubleBuffered = false) :
    (hideSprites s).rows = hiddenRows s := by
  simp only [hideSprites_rows, hh, hideWrites, hdb, Bool.false_eq_true, if_false]
  exact writtenRows_reverse_flatMap _ _ _

theorem hideSprites_rows_double {s : State} (hdb : s.doubleBuffered = true) : (hideSprites s).rows = s.rows := by
  rw [hideSprites_rows, hideWrites, if_pos hdb]
  exact ite_self _

theorem hideSprites_sprites (s : State) : (hideSprites s).sprites =
    if s.spritesHidden = true ∨ s.doubleBuffered = true then s.sprites
    else s.sprites.map fun sp => { sp with savedRect := none } := by
  cases hh : s.spritesHidden with
  | true => rw [hideSprites_of_hidden hh, if_pos (.inl rfl)]
  | false => simp [hideSprites_of_shown hh, markHidden]

theorem rowByte_isSome_restoredRows (s : State) (sps : List Sprite) (rows : List (List Byte)) (p off : Nat) :
    (rowByte (restoredRows s sps rows) p off).isSome = (rowByte rows p off).isSome := by
  induction sps with
  | nil => rfl
  | cons sp sps ih => exact (rowByte_isSome_written _ _ _ _).trans ih

/-- A pixel gets the byte of the lowest slot that has saved it, which is restored last. -/
theorem rowByte_restoredRows {s : State} (hv : viewportOK s) (sps : List Sprite) {rows : List (List Byte)}
    {ax ay : Int} {p off : Nat} (ha : physAddr s s.drawBank ax ay = some (p, off))
    (hex : (rowByte rows p off).isSome = true) :
    rowByte (restoredRows s sps rows) p off =
      match sps.find? fun sp => savedAt sp ax ay with
      | some sp => some (savedByte sp ax ay)
      | none => rowByte rows p off := by
  induction sps with
  | nil => rfl
  | cons sp sps ih =>
    have hkeep := (rowByte_isSome_restoredRows s sps rows p off).trans hex
    refine ((restoreWrites_pixels s sp).rowByte_pixel hv ha hkeep).trans ?_
    cases hsaved : savedAt sp ax ay with
    | true => simp [savedPixel, hsaved]
    | false => simpa [savedPixel, hsaved] using ih

/-- A byte under no saved background stays. -/
theorem rowByte_restoredRows_other {s : State} (sps : List Sprite) {rows : List (List Byte)} {p off : Nat}
    (h : ∀ ax ay, (∃ sp ∈ sps, savedAt sp ax ay = true) → physAddr s s.drawBank ax ay ≠ some (p, off)) :
    rowByte (restoredRows s sps rows) p off = rowByte rows p off := by
  induction sps with
  | nil => rfl
  | cons sp sps ih =>
    have hhead := (restoreWrites_pixels s sp).rowByte_other (rows := restoredRows s sps rows) (p := p) (off := off)
      fun ax ay hs => h ax ay ⟨sp, List.mem_cons_self, savedPixel_isSome.1 hs⟩
    exact hhead.trans (ih fun ax ay ⟨sq, hm, hs⟩ => h ax ay ⟨sq, List.mem_cons_of_mem _ hm, hs⟩)

theorem restoredRows_unsaved {s : State} {sps : List Sprite} (h : ∀ sp ∈ sps, sp.savedRect = none)
    (rows : List (List Byte)) : restoredRows s sps rows = rows := by
  induction sps with
  | nil => rfl
  | cons sp sps ih =>
    rw [restoredRows, List.foldr_cons, restoreWrites_unsaved (h sp List.mem_cons_self)]
    exact ih fun sq hm => h sq (List.mem_cons_of_mem _ hm)

/-- Hiding leaves every byte that is under no saved background, however many banks there are. -/
theorem hideSprites_rowByte (s : State) (p off : Nat)
    (h : ∀ ax ay, (∃ sp ∈ s.sprites, savedAt sp ax ay = true) → physAddr s s.drawBank ax ay ≠ some (p, off)) :
    rowByte (hideSprites s).rows p off = rowByte s.rows p off := by
  cases hh : s.spritesHidden with
  | true => rw [hideSprites_of_hidden hh]
  | false =>
    cases hdb : s.doubleBuffered with
    | true => rw [hideSprites_rows_double hdb]
    | false => rw [hideSprites_rows_single hh hdb, hiddenRows, rowByte_restoredRows_other _ h]

/-- Settles O33: the restored rows, pixel by pixel and byte by byte. -/
theorem hideSpritesRestores : Obligations.HideSpritesRestores := by
  refine fun s hv => ⟨fun hh hdb => ⟨fun ax ay hin => ?pixels, hideSprites_rowByte s, ?sprites⟩,
    fun hdb => ⟨hideSprites_rows_double hdb, ?double⟩, hideSprites_of_hidden, hideSprites_spritesHidden s,
    hideSprites_moved s, hideSprites_drawingOnly s⟩
  case pixels =>
    obtain ⟨p, off, ha, -, -, hex⟩ := hv.physAddr hin
    rw [rawPixel_of_physAddr ha, rawPixel_of_physAddr ((physAddr_hideSprites s _ ax ay).trans ha),
      hideSprites_rows_single hh hdb]
    exact rowByte_restoredRows hv s.sprites ha hex
  case sprites => simp [hideSprites_sprites, hh, hdb]
  case double => simp [hideSprites_sprites, hdb]

/-! ### RefreshSprites (R337) -/

theorem exec_refreshSprites (s : State) : exec .refreshSprites s = .next (showSprites (hideSprites s)) := rfl

theorem hideSprites_same (s : State) : List.Forall₂ sameProducerFields s.sprites (hideSprites s).sprites := by
  rw [hideSprites_sprites]
  split
  · exact forall₂_same_refl _
  · exact List.forall₂_map_right_iff.2 (forall₂_same_refl s.sprites)

/-- Where a sprite may be shown does not depend on what is saved of its background. -/
theorem mayShowAt_hideSprites {s : State} {ax ay : Int} (h : ∃ sp ∈ (hideSprites s).sprites, mayShowAt sp ax ay) :
    ∃ sp ∈ s.sprites, mayShowAt sp ax ay := by
  rw [hideSprites_sprites] at h
  split at h
  · exact h
  · obtain ⟨_, hm, hshow⟩ := h
    obtain ⟨sp, hsp, rfl⟩ := List.mem_map.1 hm
    exact ⟨sp, hsp, hshow⟩

/-- Settles O34: each clause holds of hiding and of showing, and so of one after the other. -/
theorem refreshSpritesFrame : Obligations.RefreshSpritesFrame := by
  refine fun s _ => ⟨_, exec_refreshSprites s, showSprites_spritesHidden _,
    (hideSprites_drawingOnly s).trans (showSprites_drawingOnly _), rfl, rfl, fun p off h => ?frame,
    forall₂_same_trans (hideSprites_same s) (showSprites_same _),
    (hideSprites_moved s).drawFaults.trans (showSprites_drawFaults _)⟩
  case frame =>
    have hshow := showSprites_rowByte (hideSprites s) p off fun ax ay hm => by
      obtain ⟨sp, hm, hmay⟩ := mayShowAt_hideSprites hm
      rw [physAddr_hideSprites, hideSprites_drawBank]
      exact h ax ay ⟨sp, hm, .inr hmay⟩
    exact hshow.trans (hideSprites_rowByte s p off fun ax ay ⟨sp, hm, hs⟩ => h ax ay ⟨sp, hm, .inl hs⟩)

/-! ### Showing one sprite (R334, R336) -/

/-- The pixel lies in the frame shown at `(x, y)`. -/
abbrev underFrame (f : Frame) (x y ax ay : Int) : Prop := x ≤ ax ∧ ax < x + f.w ∧ y ≤ ay ∧ ay < y + f.h

/-- The byte that showing frame `f` at `(x, y)`, its pixels at `d`, gives to a pixel (R336). -/
def spriteByte (s : State) (d : Nat) (f : Frame) (x y ax ay : Int) : Option Byte :=
  if underFrame f x y ax ay then
    (bitmapColour (memByte s (d + ((ay - y) * f.w + (ax - x)).toNat))).map (vpByte s)
  else none

theorem spriteWrites_pixels (s : State) (d : Nat) (f : Frame) (x y : Int) :
    writesPixels s (spriteWrites s d f x y (spriteRect s x y f)) (spriteByte s d f x y) := by
  intro p off v
  simp only [spriteByte, Option.ite_none_right_eq_some, Option.map_eq_some_iff]
  constructor
  · intro hw
    obtain ⟨ax, ay, c, hx0, hx1, hy0, hy1, hw, hc⟩ := spriteWrites_pixel hw
    obtain ⟨ha, rfl⟩ := byte_mem_rawWrite.1 hw
    exact ⟨ax, ay, ha, ⟨hx0, hx1, hy0, hy1⟩, c, hc, rfl⟩
  · rintro ⟨ax, ay, ha, ⟨hx0, hx1, hy0, hy1⟩, c, hc, rfl⟩
    obtain ⟨o, ho, rfl, rfl⟩ := mem_spriteRect ⟨hx0, hx1⟩ ⟨hy0, hy1⟩ (physAddr_inVP ha)
    refine List.mem_flatMap.2 ⟨o, ho, ?_⟩
    simp only [hc]
    exact byte_mem_rawWrite.2 ⟨ha, rfl⟩

/-- The offsets of a rectangle stand row by row. -/
theorem rectOffsets_getElem? {w h k j : Nat} (hk : k < w) (hj : j < h) :
    (rectOffsets w h)[j * w + k]? = some (k, j) := by
  have hrow := getElem?_flatMap_range (f := fun j => (List.range w).map fun k => (k, j)) (o := k) hj (by simpa)
  rw [length_flatMap_range_const (k := w) fun _ => by simp] at hrow
  simpa [rectOffsets, hk] using hrow

/-- The background of a rectangle is saved row by row (R336). -/
theorem savedBytes_getD (s : State) {r : SavedRect} {o : Nat × Nat} (ho : o ∈ rectOffsets r.w r.h)
    (rest : List Byte) : (savedBytes s r ++ rest).getD (o.2 * r.w + o.1) 0 =
      (rawPixel s s.drawBank (r.x + o.1) (r.y + o.2)).getD 0 := by
  obtain ⟨hk, hj⟩ := mem_rectOffsets.1 ho
  have hget : (savedBytes s r)[o.2 * r.w + o.1]? = some ((rawPixel s s.drawBank (r.x + o.1) (r.y + o.2)).getD 0) := by
    rw [savedBytes, List.getElem?_map, rectOffsets_getElem? hk hj]
    rfl
  rw [List.getD_eq_getElem?_getD, List.getElem?_append_left (List.getElem?_eq_some_iff.1 hget).1, hget]
  rfl

theorem shownSlot_static {s : State} {sp : Sprite} (h : sp.isStatic = true) (r : SavedRect) :
    shownSlot s sp r = { sp with allowDraw := false } := by
  simp [shownSlot, h]

theorem shownSlot_double {s : State} {sp : Sprite} (h : sp.isStatic = false) (hdb : s.doubleBuffered = true)
    (r : SavedRect) : shownSlot s sp r = sp := by
  simp [shownSlot, h, hdb]

theorem shownSlot_single {s : State} {sp : Sprite} (h : sp.isStatic = false) (hdb : s.doubleBuffered = false)
    (r : SavedRect) : shownSlot s sp r =
      { sp with savedBg := savedBytes s r ++ sp.savedBg.drop (r.w * r.h), savedRect := some r } := by
  simp [shownSlot, h, hdb]

section
variable {s : State} {sp : Sprite} {f : Frame} {x y ax ay : Int} (hstatic : sp.isStatic = false)
  (hdb : s.doubleBuffered = false) (hin : inVP s ax ay = true)
include hstatic hdb hin

/-- What is saved of a shown sprite's background is its frame, as far as it is in the viewport (R336). -/
theorem savedAt_shownSlot : savedAt (shownSlot s sp (spriteRect s x y f)) ax ay = true ↔ underFrame f x y ax ay := by
  rw [shownSlot_single hstatic hdb, savedAt_iff rfl]
  constructor
  · rintro ⟨o, ho, rfl, rfl⟩
    obtain ⟨hx0, hx1, -, -, hy0, hy1, -⟩ := spriteRect_offset ho
    exact ⟨hx0, hx1, hy0, hy1⟩
  · rintro ⟨hx0, hx1, hy0, hy1⟩
    exact mem_spriteRect ⟨hx0, hx1⟩ ⟨hy0, hy1⟩ hin

/-- The saved bytes are those that stood there (R336). -/
theorem savedByte_shownSlot (hv : viewportOK s) (h : underFrame f x y ax ay) :
    some (savedByte (shownSlot s sp (spriteRect s x y f)) ax ay) = rawPixel s s.drawBank ax ay := by
  obtain ⟨p, off, ha, -, -, hex⟩ := hv.physAddr hin
  obtain ⟨v, hbyte⟩ := Option.isSome_iff_exists.1 hex
  obtain ⟨hx0, hx1, hy0, hy1⟩ := h
  obtain ⟨o, ho, rfl, rfl⟩ := mem_spriteRect ⟨hx0, hx1⟩ ⟨hy0, hy1⟩ hin
  rw [shownSlot_single hstatic hdb, savedByte_eq rfl, savedBytes_getD s ho, rawPixel_of_physAddr ha, hbyte]
  rfl

end

/-! ### Showing slot by slot -/

/-- Where a sprite's pixels are allocated, showing its slot draws it. -/
theorem showSprite_drawn {i : Nat} {s : State} {sp : Sprite} {f : Frame} (hsp : s.sprites[i]? = some sp)
    (hd : drawable sp = true) (hf : sp.frames[sp.curFrame]? = some f) (hhead : rangeLive s (f.addr + 4) 4 = true)
    (hdata : rangeLive s (memU32 s (f.addr + 4)).toNat (f.w * f.h) = true) :
    showSprite i s = drawSprite i sp f (memU32 s (f.addr + 4)).toNat s := by
  simp only [showSprite, hsp, hd, hf, hhead, hdata, if_true]

/-- Where they, or the four bytes that name them, are not, it records the reference (R336, R361). -/
theorem showSprite_dangling {i : Nat} {s : State} {sp : Sprite} {f : Frame} {a n : Nat}
    (hsp : s.sprites[i]? = some sp) (hd : drawable sp = true) (hf : sp.frames[sp.curFrame]? = some f)
    (hdead : rangeLive s (f.addr + 4) 4 = false ∧ a = f.addr + 4 ∧ n = 4
      ∨ rangeLive s (f.addr + 4) 4 = true ∧ a = (memU32 s (f.addr + 4)).toNat ∧ n = f.w * f.h
        ∧ rangeLive s a n = false) :
    showSprite i s = raise (.danglingReference a n) s := by
  rcases hdead with ⟨hhead, rfl, rfl⟩ | ⟨hhead, rfl, rfl, hdata⟩
  · simp [showSprite, hsp, hd, hf, hhead]
  · simp [showSprite, hsp, hd, hf, hhead, hdata]

/-- Showing slots leaves the slots before them. -/
theorem showFrom_sprites_lt (n : Nat) {i j : Nat} (s : State) (h : j < i) :
    (showFrom n i s).sprites[j]? = s.sprites[j]? := by
  induction n generalizing i s with
  | zero => rfl
  | succ n ih => exact (ih (showSprite i s) (by omega)).trans (showSprite_sprites_ne i j s (by omega))

/-- Showing slots leaves the slots after them. -/
theorem showFrom_sprites_ge (n : Nat) {i j : Nat} (s : State) (h : i + n ≤ j) :
    (showFrom n i s).sprites[j]? = s.sprites[j]? := by
  induction n generalizing i s with
  | zero => rfl
  | succ n ih => exact (ih (showSprite i s) (by omega)).trans (showSprite_sprites_ne i j s (by omega))

theorem showFrom_add (m n i : Nat) (s : State) : showFrom (m + n) i s = showFrom n (i + m) (showFrom m i s) := by
  induction m generalizing i s with
  | zero => rw [Nat.zero_add]; rfl
  | succ m ih =>
    rw [Nat.succ_add, showFrom, ih, Nat.add_assoc, Nat.add_comm 1 m]
    rfl

theorem showSprites_of_hidden {s : State} (h : s.spritesHidden = true) :
    showSprites s = { showFrom s.sprites.length 0 s with spritesHidden := false } := by
  simp [showSprites, h]

theorem exec_refreshSprites_of_hidden {s : State} (h : s.spritesHidden = true) :
    exec .refreshSprites s = .next { showFrom s.sprites.length 0 s with spritesHidden := false } := by
  rw [exec_refreshSprites, hideSprites_of_hidden h, showSprites_of_hidden h]

theorem drawSprite_rows (i : Nat) (sp : Sprite) (f : Frame) (d : Nat) (s : State) :
    (drawSprite i sp f d s).rows =
      let x := positionRead sp.x sp.xOld (Config.staleRead s.draws)
      let y := positionRead sp.y sp.yOld (Config.staleRead (s.draws + 1))
      writtenRows (spriteWrites s d f x y (spriteRect s x y f)) s.rows :=
  runWrites_rows _ _

/-- The pixels after a sprite is drawn: the frame's opaque ones get their colour, the others stay (R336). -/
theorem rawPixel_drawSprite {i : Nat} {sp : Sprite} {f : Frame} {d : Nat} {s : State} (hv : viewportOK s)
    {ax ay : Int} (hin : inVP s ax ay = true) :
    let t := drawSprite i sp f d s
    rawPixel t t.drawBank ax ay =
      (spriteByte s d f (positionRead sp.x sp.xOld (Config.staleRead s.draws))
        (positionRead sp.y sp.yOld (Config.staleRead (s.draws + 1))) ax ay).or (rawPixel s s.drawBank ax ay) := by
  intro t
  obtain ⟨p, off, ha, -, -, hex⟩ := hv.physAddr hin
  rw [rawPixel_of_physAddr (((drawSprite_drawingOnly i sp f d s).physAddr ax ay).trans ha), rawPixel_of_physAddr ha,
    drawSprite_rows]
  exact (spriteWrites_pixels s d f _ _).rowByte_pixel hv ha hex

theorem spriteByte_or (s : State) (d : Nat) (f : Frame) (x y ax ay : Int) (old : Option Byte) :
    (spriteByte s d f x y ax ay).or old =
      let b := memByte s (d + ((ay - y) * f.w + (ax - x)).toNat)
      if 0 ≤ ax - x ∧ ax - x < f.w ∧ 0 ≤ ay - y ∧ ay - y < f.h ∧ b.extractLsb' 6 2 ≠ 0 then
        some (vpByte s (b.extractLsb' 0 6))
      else old := by
  dsimp only
  rw [spriteByte, bitmapColour_eq]
  by_cases hu : underFrame f x y ax ay
  · have hplace : 0 ≤ ax - x ∧ ax - x < f.w ∧ 0 ≤ ay - y ∧ ay - y < f.h := by omega
    rw [if_pos hu]
    simp only [hplace, true_and]
    split <;> rfl
  · rw [if_neg hu, if_neg fun hplace => hu (by omega)]
    rfl

/-- One sprite, the sprites hidden: what is drawn and what its slot keeps (R334, R336, R337). -/
theorem refreshSprites_one {s : State} {sp : Sprite} {f : Frame} (hh : s.spritesHidden = true)
    (hsps : s.sprites = [sp]) (hd : drawable sp = true) (hf : sp.frames[sp.curFrame]? = some f)
    (hhead : rangeLive s (f.addr + 4) 4 = true)
    (hdata : rangeLive s (memU32 s (f.addr + 4)).toNat (f.w * f.h) = true) :
    exec .refreshSprites s =
      .next { drawSprite 0 sp f (memU32 s (f.addr + 4)).toNat s with spritesHidden := false } := by
  have hsp : s.sprites[0]? = some sp := by rw [hsps]; rfl
  rw [exec_refreshSprites_of_hidden hh, ← showSprite_drawn hsp hd hf hhead hdata, hsps]
  rfl

/-- Settles O35: a sprite that can be drawn by the law of its writes, and one that cannot by showing the slots before
it, its own, and those after it in turn. -/
theorem oneSpriteIsShown : Obligations.OneSpriteIsShown := by
  constructor
  case left =>
    intro s sp f hv hh hsps hd hf hx hy hhead hdata
    have hdraw := drawSprite_drawingOnly 0 sp f (memU32 s (f.addr + 4)).toNat s
    refine ⟨_, shownSlot s sp (spriteRect s sp.x.toInt sp.y.toInt f), refreshSprites_one hh hsps hd hf hhead hdata,
      rfl, ?sprites, fun ax ay hin => ?pixels, fun hstatic => shownSlot_static hstatic _,
      fun hstatic hdb => shownSlot_double hstatic hdb _, fun hstatic hdb => ⟨?slot, fun ax ay hin => ?saved⟩,
      drawSprite_moved .., ?frame⟩
    case sprites => simp [drawSprite_sprites, hsps, hx, hy, positionRead]
    case pixels =>
      have hpixel := rawPixel_drawSprite (i := 0) (sp := sp) (f := f) (d := (memU32 s (f.addr + 4)).toNat) hv hin
      rw [hx, hy] at hpixel
      exact hpixel.trans (spriteByte_or ..)
    case slot => rw [shownSlot_single hstatic hdb]
    case saved =>
      have hunder := savedAt_shownSlot (f := f) (x := sp.x.toInt) (y := sp.y.toInt) hstatic hdb hin
      exact ⟨hunder.trans (by omega), fun hs => savedByte_shownSlot hstatic hdb hin hv (hunder.1 hs)⟩
    case frame => exact hdraw.trans rfl
  case right =>
    intro s before after sp f a n hh hsps hd hf hdead earlier skipped
    have hearlier : drawingOnly s earlier := showFrom_drawingOnly before.length 0 s
    have hsp : earlier.sprites[before.length]? = some sp := by
      rw [showFrom_sprites_ge before.length s (by omega), hsps]
      simp
    have hskip : showSprite before.length earlier = skipped :=
      showSprite_dangling hsp hd hf (by simpa only [hearlier.rangeLive, hearlier.memU32] using hdead)
    have hshow : showFrom s.sprites.length 0 s = showFrom after.length (before.length + 1) skipped := by
      rw [hsps, List.length_append, List.length_cons, showFrom_add, Nat.zero_add, ← hskip]
      rfl
    rw [exec_refreshSprites_of_hidden hh, hshow]
    have hfault := (showFrom_drawFaults after.length (before.length + 1) skipped).mem (f := .danglingReference a n)
      (by simp [skipped])
    exact ⟨hskip, _, rfl, rfl, (showFrom_sprites_lt _ skipped (Nat.lt_succ_self _)).trans hsp, hfault⟩

/-! ### Hiding undoes showing (R339) -/

/-- A viewport keeps its rows' lengths whatever is shown. -/
theorem showParts_viewportOK : ShowParts fun s t => viewportOK s → viewportOK t where
  refl _ := id
  trans h k := k ∘ h
  tick s h := h.congr (by simp) (by simp) (by simp) (by simp) (by simp) (by simp) (by simp)
    (by simpa using h.length_of_mem_rows)
  count _ _ _ _ := id
  byte s p off v h := h.congr rfl rfl rfl rfl rfl rfl (setRowByte_length ..)
    (setRowByte_rowLength _ _ _ _ _ h.length_of_mem_rows)
  hide _ := id
  slot _ _ _ _ _ := id
  shown _ := id
  dangling _ _ _ := id

theorem restoredRows_congr {s t : State} (h : drawingOnly s t) (sps : List Sprite) (rows : List (List Byte)) :
    restoredRows t sps rows = restoredRows s sps rows := by
  have hwrites : restoreWrites t = restoreWrites s := by
    funext sp
    unfold restoreWrites rawWrite
    simp only [h.physAddr]
  unfold restoredRows
  rw [hwrites]

/-- Restoring a sprite's background undoes its own writes: each is under the frame, and there the old byte is saved. -/
theorem restore_undoes_spriteWrites {s : State} (hv : viewportOK s) {sp : Sprite} (hstatic : sp.isStatic = false)
    (hdb : s.doubleBuffered = false) (d : Nat) (f : Frame) (x y : Int) :
    let r := spriteRect s x y f
    writtenRows (restoreWrites s (shownSlot s sp r)) (writtenRows (spriteWrites s d f x y r) s.rows) = s.rows := by
  intro r
  have hrestore := restoreWrites_pixels s (shownSlot s sp r)
  have hdraw := spriteWrites_pixels s d f x y
  refine rows_eq_of_rowByte (by simp only [writtenRows_map_length]) fun p off => ?_
  by_cases hpixel : ∃ ax ay, physAddr s s.drawBank ax ay = some (p, off)
  · obtain ⟨ax, ay, ha⟩ := hpixel
    have hin := physAddr_inVP ha
    obtain ⟨_, _, ha', -, -, hex⟩ := hv.physAddr hin
    cases ha.symm.trans ha'
    rw [hrestore.rowByte_pixel hv ha ((rowByte_isSome_written ..).trans hex), hdraw.rowByte_pixel hv ha hex]
    have hsaved := savedAt_shownSlot (sp := sp) (f := f) (x := x) (y := y) hstatic hdb hin
    by_cases hunder : underFrame f x y ax ay
    · rw [savedPixel, if_pos (hsaved.2 hunder), savedByte_shownSlot hstatic hdb hin hv hunder,
        rawPixel_of_physAddr ha, Option.or_of_isSome hex]
    · rw [savedPixel, if_neg (mt hsaved.1 hunder), spriteByte, if_neg hunder]
      rfl
  · push Not at hpixel
    rw [hrestore.rowByte_other fun ax ay _ => hpixel ax ay, hdraw.rowByte_other fun ax ay _ => hpixel ax ay]

/-- The slots from `i` on are to be shown with their backgrounds saved, and none is saved yet. -/
def unshownFrom (i : Nat) (s : State) : Prop :=
  ∀ j sp, i ≤ j → s.sprites[j]? = some sp → sp.savedRect = none ∧ sp.isStatic = false

/-- Of the slots up to `i`, with nothing saved after it, slot `i` is restored first. -/
theorem restoredRows_set {s : State} {sps : List Sprite} {i : Nat} (hi : i < sps.length)
    (h : ∀ j sp, i < j → sps[j]? = some sp → sp.savedRect = none) (sp : Sprite) (rows : List (List Byte)) :
    restoredRows s (sps.set i sp) rows = restoredRows s (sps.take i) (writtenRows (restoreWrites s sp) rows) := by
  have hafter : ∀ sq ∈ sps.drop (i + 1), sq.savedRect = none := fun sq hm => by
    obtain ⟨k, hk⟩ := List.mem_iff_getElem?.1 hm
    rw [List.getElem?_drop] at hk
    exact h (i + 1 + k) sq (by omega) hk
  rw [List.set_eq_take_append_cons_drop, if_pos hi, restoredRows, List.foldr_append, List.foldr_cons]
  exact congrArg (fun r => restoredRows s (sps.take i) (writtenRows (restoreWrites s sp) r))
    (restoredRows_unsaved hafter rows)

/-- Showing one slot changes nothing of what hiding leaves. -/
theorem hiddenRows_showSprite {i : Nat} {s : State} (hv : viewportOK s) (hdb : s.doubleBuffered = false)
    (h : unshownFrom i s) : hiddenRows (showSprite i s) = hiddenRows s := by
  unfold hiddenRows
  rw [restoredRows_congr (showSprite_drawingOnly i s)]
  rcases showSprite_cases i s with e | ⟨a, n, e⟩ | ⟨sp, f, d, hsp, -, -, -, -, -, e⟩
  · rw [e]
  · rw [e, raise_sprites, raise_rows]
  · obtain ⟨hnone, hstatic⟩ := h i sp le_rfl hsp
    obtain ⟨hi, hget⟩ := List.getElem?_eq_some_iff.1 hsp
    have hset := restoredRows_set (s := s) hi fun j sq hj hsq => (h j sq hj.le hsq).1
    have hold : restoredRows s s.sprites s.rows = restoredRows s (s.sprites.take i) s.rows := by
      have hself := hset sp s.rows
      rwa [← hget, List.set_getElem_self, hget, restoreWrites_unsaved hnone] at hself
    rw [e, drawSprite_sprites, drawSprite_rows, hset, restore_undoes_spriteWrites hv hstatic hdb, hold]

theorem hiddenRows_showFrom {n i : Nat} {s : State} (hv : viewportOK s) (hdb : s.doubleBuffered = false)
    (h : unshownFrom i s) : hiddenRows (showFrom n i s) = hiddenRows s := by
  induction n generalizing i s with
  | zero => rfl
  | succ n ih =>
    have hdb' : (showSprite i s).doubleBuffered = false :=
      (congrArg State.doubleBuffered (showSprite_drawingOnly i s).eq :).trans hdb
    have hnext : unshownFrom (i + 1) (showSprite i s) := fun j sp hj hsp => by
      rw [showSprite_sprites_ne i j s (by omega)] at hsp
      exact h j sp (by omega) hsp
    exact (ih (showParts_viewportOK.showSprite i s hv) hdb' hnext).trans (hiddenRows_showSprite hv hdb h)

/-- Settles O36: showing changes nothing of what hiding leaves, and with nothing saved that is the rows as they
stand. -/
theorem showThenHideRestores : Obligations.ShowThenHideRestores := by
  intro s hv hdb hh hnone hstatic
  have hunshown : unshownFrom 0 s := fun j sp _ hsp =>
    have hm := List.mem_of_getElem? hsp
    ⟨hnone sp hm, hstatic sp hm⟩
  calc (hideSprites (showSprites s)).rows
      = hiddenRows (showSprites s) :=
        hideSprites_rows_single (showSprites_spritesHidden s) (by simpa using hdb)
    _ = hiddenRows (showFrom s.sprites.length 0 s) := by
        rw [showSprites_of_hidden hh]
        exact restoredRows_congr (by rfl) _ _
    _ = hiddenRows s := hiddenRows_showFrom hv hdb hunshown
    _ = s.rows := restoredRows_unsaved hnone s.rows

end Sys2Proof.Machine
end

section
/-! PROOFS. SpriteWrite and SpriteAddFrame (R332, R333). -/

namespace Sys2Proof.Machine

theorem exec_spriteWrite {s : State} {n : Nat} {sp : Sprite} (h : s.sprites[n]? = some sp) (u : SpriteUpdate) :
    exec (.spriteWrite n u) s = .next { s with sprites := s.sprites.set n (updateSlot u sp) } := by
  simp only [exec, execSpriteWrite, h]

theorem exec_spriteAddFrame {s : State} {n a : Nat} {sp : Sprite} (h : s.sprites[n]? = some sp) :
    exec (.spriteAddFrame n a) s =
      if rangeLive s a 8 = true then .next { s with sprites := s.sprites.set n (addFrame (frameAt s a) sp) }
      else .next (raise (.danglingReference a 8) s) := by
  simp only [exec, execSpriteAddFrame, h]

/-- A slot that does not exist is refused (R364). -/
theorem exec_sprite_refused {s : State} {n : Nat} (h : s.sprites.length ≤ n) (u : SpriteUpdate) (a : Nat) :
    exec (.spriteWrite n u) s = .next (refuse s) ∧ exec (.spriteAddFrame n a) s = .next (refuse s) := by
  simp only [exec, execSpriteWrite, execSpriteAddFrame, List.getElem?_eq_none h, and_self]

/-- The saved background is never cut, and holds the largest frame (R333). -/
theorem addFrame_savedBg_length (f : Frame) (sp : Sprite) :
    (addFrame f sp).savedBg.length = max sp.savedBg.length (savedSize (sp.frames ++ [f])) := by
  simp only [addFrame, List.length_append, List.length_replicate]
  omega

/-- Settles O32: each operation by its equation, with `updateSlot` giving the field that is written. -/
theorem spriteFieldsWritten : Obligations.SpriteFieldsWritten := by
  refine fun n s => ⟨fun sp hsp v m b => ?fields, fun sp a hsp hlive => ?frame, fun sp a hsp hdead => ?dangling,
    fun hn u a => exec_sprite_refused hn u a⟩
  case fields =>
    exact ⟨exec_spriteWrite hsp (.x v), exec_spriteWrite hsp (.y v), exec_spriteWrite hsp (.curFrame m),
      exec_spriteWrite hsp (.visible b), exec_spriteWrite hsp (.isStatic b), exec_spriteWrite hsp (.allowDraw b)⟩
  case frame =>
    exact ⟨_, (exec_spriteAddFrame hsp).trans (if_pos hlive), addFrame_savedBg_length (frameAt s a) sp⟩
  case dangling => rw [exec_spriteAddFrame hsp, hdead]; rfl

end Sys2Proof.Machine
end

section
/-! PROOFS. No instruction and no step stops the machine (R360, R362), and the state after construction (R390). -/

namespace Sys2Proof.Machine

/-! ### Outcomes that are next states -/

/-- The outcome is a next state: no fault that stops the machine, and no refusal of a meaning. -/
def answersNext (o : Host.Outcome State Fault Refusal) : Prop := ∃ t, o = .next t

theorem answersNext.next (t : State) : answersNext (.next t) := ⟨t, rfl⟩

theorem answersNext.ite {p : Prop} [Decidable p] {a b : Host.Outcome State Fault Refusal} (ha : answersNext a)
    (hb : answersNext b) : answersNext (if p then a else b) := by
  split
  · exact ha
  · exact hb

theorem answersNext.mapNext {o : Host.Outcome State Fault Refusal} (h : answersNext o) (f : State → State) :
    answersNext (mapNext f o) := by
  obtain ⟨t, rfl⟩ := h
  exact .next (f t)

theorem runRecord_answersNext (P : Record) (s : State) : answersNext (runRecord exec P s) :=
  (runRecord_next P s).imp fun _ => And.left

/-! ### Instructions -/

/-- Where a host operation is turned away, a record or a refusal stands in its next state (R364, R366). -/
theorem exec_hostOp_answersNext {i : Instr} (hi : isPrimitive i = false) (s : State) : answersNext (exec i s) := by
  cases i with
  | decodeModeline | suspend | processPrimitives | enableBackgroundExecution | readPixel | hostAlloc | hostFree =>
    exact .next _
  | resume | hostWrite => exact .ite (.next _) (.next _)
  | addPrimitive => exact .ite (.ite (.next _) (.next _)) (.next _)
  | moveScreen => exact .ite (.next _) (.ite (.next _) (.ite (.next _) (.next _)))
  | shrinkScreen => exact .ite (.next _) (.ite (.next _) (.ite (.next _) (.ite (.next _) (.next _))))
  | setResolution text =>
    cases hp : parseModeline text with
    | none => exact ⟨_, exec_setResolution_unparsed hp⟩
    | some t =>
      simp only [exec, execSetResolution, hp]
      exact .ite (.next _) (.next _)
  | setSprites slots =>
    refine .ite ?_ (.next _)
    cases deadHeader (hideSpritesAtOnce s) slots with
    | none | some => exact .next _
  | spriteWrite slot upd =>
    cases hslot : s.sprites[slot]? with
    | none => exact ⟨_, (exec_sprite_refused (List.getElem?_eq_none_iff.1 hslot) upd 0).1⟩
    | some sp => exact ⟨_, exec_spriteWrite hslot upd⟩
  | spriteAddFrame slot bmp =>
    cases hslot : s.sprites[slot]? with
    | none => exact ⟨_, (exec_sprite_refused (List.getElem?_eq_none_iff.1 hslot) (.x 0) bmp).2⟩
    | some sp =>
      rw [exec_spriteAddFrame hslot]
      exact .ite (.next _) (.next _)
  | _ => cases hi

theorem exec_answersNext (i : Instr) (s : State) : answersNext (exec i s) := by
  cases hi : isPrimitive i with
  | true => exact (exec_primitive i s hi).imp fun _ => And.left
  | false => exact exec_hostOp_answersNext hi s

/-! ### Steps -/

theorem drainStep_answersNext (s : State) : answersNext (drainStep exec s) := by
  unfold drainStep
  split
  · exact .next _
  · exact .ite (.next _) ((runRecord_answersNext _ _).mapNext afterPrimitive)

theorem producerStep_answersNext (s : State) : answersNext (producerStep exec s) := by
  unfold producerStep
  split
  · exact (runRecord_answersNext _ _).mapNext endImmediate
  · split
    · exact .ite (exec_answersNext _ _) (.next _)
    · split
      · exact .next _
      · split
        · exact exec_answersNext _ _
        · exact .next _

theorem agentStep_answersNext (s : State) : answersNext (agentStep exec s) :=
  .ite (drainStep_answersNext s) (.ite (.next _) (producerStep_answersNext s))

theorem step_answersNext (s : State) : answersNext (step s) :=
  .ite (.next _) ((agentStep_answersNext s).mapNext reschedule)

/-- Settles O7: primitives and host operations by their arms, and a step by the agent that moves. -/
theorem everyStepAnswersNext : Obligations.EveryStepAnswersNext :=
  ⟨exec_answersNext, step_answersNext⟩

/-! ### The state after construction (R390) -/

theorem storesOK_reset : storesOK State.reset := ⟨reset_memory_wf, rfl⟩

theorem boundsOK_reset : boundsOK State.reset := ⟨Nat.zero_le _, Nat.zero_le _⟩

theorem controlOK_reset : controlOK State.reset := ⟨fun _ => rfl, nofun, nofun, nofun, nofun, rfl⟩

/-- Nothing is configured and no Engine runs, so only the viewport and the sentinel's link are left (log entry 17). -/
theorem scanOK_reset : scanOK State.reset := ⟨controlOK_reset, viewportOK_reset, nofun, rfl, nofun⟩

/-- Settles O56: the values are those `State.reset` writes, and the invariants hold of them one by one. -/
theorem resetValuesAndInvariants : Obligations.ResetValuesAndInvariants := by
  exact ⟨rfl, rfl, rfl, rfl, rfl, rfl, rfl, rfl, rfl, rfl, rfl, rfl, rfl, rfl, rfl, rfl, rfl, rfl, rfl, rfl, rfl, rfl,
    rfl, rfl, rfl, rfl, rfl, rfl, rfl, rfl, rfl, rfl, rfl, rfl, rfl, rfl, rfl, storesOK_reset, boundsOK_reset, rfl,
    nofun, scanOK_reset⟩

end Sys2Proof.Machine
end
